-- ==== Sys2Proof/Word.lean ====
section
/-! DEFINITION. The word types of the LN-432: bytes of records, the 16-bit free-running counts, the 32-bit
register and time words, the 64-bit host addresses, and the number of a line (00_scope, Conventions). -/

namespace Sys2Proof

/-- One byte of a record or one character of a frame. -/
abbrev Byte := BitVec 8

/-- A 16-bit value: tags and the free-running counts, which count modulo 65,536. -/
abbrev Half := BitVec 16

/-- A 32-bit value: register words, part times, round numbers, latencies and statistics counters. -/
abbrev Word := BitVec 32

/-- A 64-bit host address. -/
abbrev Addr := BitVec 64

/-- A line number, 0 to 3. -/
abbrev LineId := Fin 4

end Sys2Proof
end

