-- ==== Sys2Proof/Syntax.lean ====
section
/-! DEFINITION. The commands of the LN-432: one constructor of Instr for each row of spec/opcode_table.json.
A command is an operation of the host on the register window, a response on the Memory Port, a pin, the passing of
a time limit, or a happening on a field line. Rows that are administrative commands carry the fields of their admin
entry as the host wrote them (R161, R188), so that a value out of range reaches its check unreduced. -/

namespace Sys2Proof

/-- The response that ends a write transfer (R145). -/
inductive Resp where
  | good
  | busError
deriving DecidableEq, Repr

/-- The response that ends a read transfer: the record read, or a bus error (R145). -/
inductive ReadResp where
  | data (bytes : List Byte)
  | busError
deriving DecidableEq, Repr

/-- A character as the receiver samples it (R3): eight data bits, the parity bit (read only when the profile has
parity), and the level of the stop bit, true for mark. -/
structure RxChar where
  data   : Byte
  parity : Bool
  stop   : Bool
deriving DecidableEq, Repr

/-- The echo of a driven character (R11): no start bit confirmed in time, or the character assembled. -/
inductive Echo where
  | missing
  | taken (c : RxChar)
deriving DecidableEq, Repr

/-- What LINE_ACTIVITY reports (R12): a mark-to-space transition, the return to mark, or a glitch, a transition
that the half-bit sample finds back at mark (R3). -/
inductive Activity where
  | toSpace
  | toMark
  | glitch
deriving DecidableEq, Repr

/-- The twelve fields of a profile as a LINE SETUP entry writes them (R20, R188). -/
structure RawProfile where
  divisor       : Half
  parity        : Byte
  leadGap       : Byte
  replyWindow   : Half
  charGap       : Byte
  retryGap      : Half
  busyPause     : Half
  sweepPeriod   : Half
  failThreshold : Byte
  joinLimit     : Byte
  probeInterval : Byte
  stuckLimit    : Half
deriving DecidableEq, Repr

/-- The body of a SWEEP SET entry as written: the payload is the 16 bytes of the entry, of which the first
`length` are the request's payload (R98, R188). -/
structure RawSweep where
  index   : Byte
  node    : Byte
  code    : Byte
  length  : Byte
  cadence : Byte
  phase   : Byte
  retry   : Byte
  payload : List Byte
deriving DecidableEq, Repr

/-- The commands, in the order of spec/opcode_table.json. -/
inductive Instr where
  /-- POWER_ON_RESET (R148). -/
  | powerOnReset
  /-- HARD_RESET: the RESET pin returns high (R184). -/
  | hardReset
  /-- ENABLE: a whole-word write of `value` with bit 0 set to CONTROL (R129, R183). -/
  | enable (value : Word)
  /-- SOFT_RESET: a whole-word write of `value` with bit 1 set to CONTROL (R146, R183). -/
  | softReset (value : Word)
  /-- SOFT_RESET_TAKES_EFFECT: the transfer in progress ends under a soft reset (R146, R148). -/
  | softResetTakesEffect
  /-- REGISTER_WRITE: a write to word `word` of the window; `whole` is false for a narrower write (R183). -/
  | registerWrite (word : BitVec 5) (whole : Bool) (value : Word)
  /-- POST: a write of `value` to POST (R134, R186). -/
  | post (value : Word)
  /-- CONSUMED: a write of `value` to CONSUMED (R155, R186). -/
  | consumed (value : Word)
  /-- CAUSE: a write of `value` to CAUSE (R187). -/
  | cause (value : Word)
  /-- SETUP_READ_DONE (R130). -/
  | setupReadDone (resp : ReadResp)
  /-- ENTRY_READ_DONE (R137). -/
  | entryReadDone (resp : ReadResp)
  /-- LINE_SETUP (R165). -/
  | lineSetup (tag : Half) (line : Byte) (brisk lull : RawProfile)
  /-- LINE_START (R166). -/
  | lineStart (tag : Half) (line : Byte)
  /-- LINE_STOP; form 0 is DRAIN and 1 ABANDON (R167). -/
  | lineStop (tag : Half) (line : Byte) (form : Byte)
  /-- LINE_RESET (R94, R168). -/
  | lineReset (tag : Half) (line : Byte)
  /-- NODE_ADD (R46). -/
  | nodeAdd (tag : Half) (line : Byte) (node : Byte) (trusted : Bool)
  /-- NODE_REMOVE (R47). -/
  | nodeRemove (tag : Half) (line : Byte) (node : Byte)
  /-- NODE_BAR (R48). -/
  | nodeBar (tag : Half) (line : Byte) (node : Byte)
  /-- NODE_UNBAR (R49). -/
  | nodeUnbar (tag : Half) (line : Byte) (node : Byte)
  /-- NODE_QUERY (R170). -/
  | nodeQuery (tag : Half) (line : Byte) (node : Byte)
  /-- SWEEP_SET (R98). -/
  | sweepSet (tag : Half) (line : Byte) (entry : RawSweep)
  /-- SWEEP_CLEAR (R99). -/
  | sweepClear (tag : Half) (line : Byte) (index : Byte)
  /-- SWEEP_IMAGE (R100). -/
  | sweepImage (tag : Half) (line : Byte) (base : Addr)
  /-- CANCEL; `target` is the tag searched for (R87, R172). -/
  | cancel (tag : Half) (line : Byte) (target : Half)
  /-- POWER; target 0 is ACTIVE, 1 LULL and 2 DOZE (R173). -/
  | power (tag : Half) (target : Byte)
  /-- LINE_QUERY (R174). -/
  | lineQuery (tag : Half) (line : Byte) (clear : Bool)
  /-- LEAD_WAIT_COMPLETE (R12). -/
  | leadWaitComplete (line : LineId)
  /-- HEADER_STOP_BIT_END (R41). -/
  | headerStopBitEnd (line : LineId)
  /-- ECHO_FAILURE: the echo of the frame's character at `index`, 0 for the HEADER (R11). -/
  | echoFailure (line : LineId) (index : Nat) (echo : Echo)
  /-- REQUEST_FRAME_END (R13). -/
  | requestFrameEnd (line : LineId)
  /-- REPLY_WINDOW_EXPIRY (R13). -/
  | replyWindowExpiry (line : LineId)
  /-- REPLY_START (R17). -/
  | replyStart (line : LineId)
  /-- REPLY_CHARACTER (R14). -/
  | replyCharacter (line : LineId) (char : RxChar)
  /-- CHARACTER_GAP_EXCEEDED (R15). -/
  | characterGapExceeded (line : LineId)
  /-- LONG_SPACE (R4). -/
  | longSpace (line : LineId)
  /-- STUCK_LINE (R72). -/
  | stuckLine (line : LineId)
  /-- ROUND_START (R103). -/
  | roundStart (line : LineId)
  /-- HOLDOFF_EXPIRY (R158). -/
  | holdoffExpiry
  /-- COMPLETION_WRITE_DONE (R154). -/
  | completionWriteDone (resp : Resp)
  /-- STATUS_WRITE_DONE (R142). -/
  | statusWriteDone (resp : Resp)
  /-- SLOT_BODY_WRITE_DONE (R109). -/
  | slotBodyWriteDone (resp : Resp)
  /-- SLOT_STAMP_WRITE_DONE (R109). -/
  | slotStampWriteDone (resp : Resp)
  /-- LINE_ACTIVITY (R12). -/
  | lineActivity (line : LineId) (activity : Activity)
  /-- HARD_RESET_HELD: the RESET pin is driven low (R184). -/
  | hardResetHeld
deriving DecidableEq, Repr

end Sys2Proof
end

