-- ==== Sys2Proof/Decode.lean ====
section
/-! DEFINITION. The words of the opcode table. No row of spec/opcode_table.json gives bits ("fixed" or "fields"), so
no word spells a command: the reader refuses every word. -/

namespace Sys2Proof

/-- The command that a word spells by the table's bits: none, since the table gives bits for no row. -/
def decodeTableWord (_nbits _w : Nat) : Option Instr := none

end Sys2Proof
end

