-- ==== Sys2Proof/Config.lean ====
section
/-! DEFINITION. The constants the manual fixes for this part: capacities, clock ratios and identification.
The manual leaves no value of an effect open that the model has to draw, so no free value stands here. -/

namespace Sys2Proof.Config

/-- IDENT: family code 0x4C5A and revision 0x0001 (R183). -/
def ident : Word := 0x4C5A0001#32

/-- Reference clock periods in one microsecond (R147). -/
def clocksPerMicrosecond : Nat := 48

/-- Reference clock periods in one millisecond: the unit of the sweep period and the stuck limit. -/
def clocksPerMillisecond : Nat := 48000

/-- Records of one roster (R33). -/
def rosterCapacity : Nat := 32

/-- Highest node address (00_scope, Node addresses). -/
def topNodeAddress : Nat := 62

/-- Host exchanges of one line queue, waiting and ended together (R77). -/
def queueCapacity : Nat := 16

/-- Entries of one sweep table (R97). -/
def sweepEntries : Nat := 48

/-- Records of the holding queue (R150). -/
def holdingCapacity : Nat := 16

/-- Bytes of a sweep image: 48 slots of 64 bytes (R100). -/
def imageBytes : Nat := 3072

/-- Bytes of every record in host memory (R188). -/
def recordBytes : Nat := 64

/-- Bit times of space that make an alert pulse or break a reply (R4). -/
def longSpaceBits : Nat := 22

/-- Characters after which a reply of unknown length ends (R14). -/
def longestReply : Nat := 37

/-- Most payload characters of a frame (R5, R8). -/
def maxPayload : Nat := 32

end Sys2Proof.Config
end

