-- ==== Sys2Proof/Machine/State.lean ====
section
/-! DEFINITION. The state of the LN-432 as plain data, its reset value, and the reasons a command can stop.
Every register, count, flag, queue, table and timer that the manual gives the part is a field here, under the name
of the block that holds it (00_scope, Blocks). Times are counted in periods of the 48 MHz reference clock. -/

namespace Sys2Proof.Machine

/-! ### Names of states and kinds -/

/-- Part state (R128). -/
inductive PartState where
  | disabled | loading | running | faulted
deriving DecidableEq, Repr

/-- Fault reason (R128). -/
inductive FaultReason where
  | none | completionWriteError | statusWriteError | badConsumed
deriving DecidableEq, Repr

/-- Setup error (R131). -/
inductive SetupError where
  | none | setupInvalid | setupReadError
deriving DecidableEq, Repr

/-- Last reset cause (R184). -/
inductive ResetCause where
  | powerOn | hard | soft
deriving DecidableEq, Repr

/-- Power state (R176). -/
inductive PowerState where
  | active | lull | dozePending | doze
deriving DecidableEq, Repr

/-- Run state of a line (R55). -/
inductive RunState where
  | quiet | running | draining | faulted
deriving DecidableEq, Repr

/-- Engine state (R57), in the order of the LINE QUERY codes (R188). -/
inductive Engine where
  | off | idle | lead | sending | awaiting | receiving | parked
deriving DecidableEq, Repr

/-- Which of a line's two profiles (R21). -/
inductive ProfileSel where
  | brisk | lull
deriving DecidableEq, Repr

/-- Pace pending (R21). -/
inductive Pace where
  | none | start | switch
deriving DecidableEq, Repr

/-- Parity of a profile (R20). -/
inductive Parity where
  | none | even | odd
deriving DecidableEq, Repr

/-- Node state (R35), in the order of the codes of R188. -/
inductive NodeState where
  | joining | active | silent | barred
deriving DecidableEq, Repr

/-- The fourteen verdicts, in the order of the verdict table of 1.6. -/
inductive Verdict where
  | good | goodBusy | goodReject | goodAlert | timeout | broken | charError | crcError | lengthError
  | wrongNode | stale | badStatus | collision | sent
deriving DecidableEq, Repr

/-- STATUS of a reply (R8). -/
inductive ReplyStatus where
  | ok | busy | reject | alert
deriving DecidableEq, Repr

/-- Class of a queued host exchange (R77). -/
inductive QClass where
  | urgent | routine
deriving DecidableEq, Repr

/-- The mark of an ended entry of the line queue (R77). -/
inductive Mark where
  | cancelled | flushed | lineFault
deriving DecidableEq, Repr

/-- Turn flag (R82). -/
inductive Turn where
  | sweep | routine
deriving DecidableEq, Repr

/-- State of a submission ring with its halt reason (R133). -/
inductive RingState where
  | off | opened | haltedBadPost | haltedReadError
deriving DecidableEq, Repr

/-- A submission ring: the admin ring or the exchange ring of a line (R133). -/
inductive RingId where
  | admin
  | line (n : LineId)
deriving DecidableEq, Repr

/-- A producer of the admission rotation (R153). -/
inductive Producer where
  | admin
  | line (n : LineId)
deriving DecidableEq, Repr

/-- A requester of the Memory Port (R144). -/
inductive Requester where
  | fetch
  | completion
  | writer (n : LineId)
deriving DecidableEq, Repr

/-- Outcome of an EXCHANGE completion, in the order of the codes of R188. -/
inductive ExOutcome where
  | done | nodeBusy | nodeReject | noReply | collided | badReply | cancelled | nodeBarred | nodeUnknown
  | nodeJoining | nodeSilent | flushed | lineFault | refused
deriving DecidableEq, Repr

/-- Detail of an EXCHANGE completion (R149, R138). -/
inductive ExDetail where
  | none | wentSilent | badAddress | badCode | badLength | badRetry | badPriority
deriving DecidableEq, Repr

/-- Refusal reason of an administrative command (R162); BAD_PROFILE names the profile and the field (R22). -/
inductive Reason where
  | wrongState | wrongPowerState | badField
  | badProfile (sel : ProfileSel) (field : Nat)
  | exists | unknownNode | rosterFull | inUse | noImage | busy
deriving DecidableEq, Repr

/-- The owed line events, in the offer order of R152. -/
inductive LineEvent where
  | faulted | drained | sweepWriteFault | sweepOverrun | huntEmpty | alertPulseInDoze
deriving DecidableEq, Repr

/-- Outcome of a sweep slot, in the order of the codes of R188. -/
inductive SlotOutcome where
  | good | noReply | badReply | collided | skipped | missed
deriving DecidableEq, Repr

/-- The mark a reply frame carries while it is received (R14). -/
inductive FrameMark where
  | charError | lengthError
deriving DecidableEq, Repr

/-! ### Records -/

/-- A profile in use (R20). Lengths are in bit times, the sweep period and the stuck limit in milliseconds. -/
structure Profile where
  divisor       : Nat
  parity        : Parity
  leadGap       : Nat
  replyWindow   : Nat
  charGap       : Nat
  retryGap      : Nat
  busyPause     : Nat
  sweepPeriod   : Nat
  failThreshold : Nat
  joinLimit     : Nat
  probeInterval : Nat
  stuckLimit    : Nat
deriving DecidableEq, Repr

/-- A node record (R34). -/
structure Node where
  addr          : Nat
  state         : NodeState
  failures      : Nat
  lastToggle    : Bool
  lastHeard     : Option Word
  joinProbes    : Nat
  roundsSilent  : Nat
  alertReported : Bool
  alertOwed     : Bool
  reportOwed    : Bool
deriving DecidableEq, Repr

/-- The contents of a reply that is handed on (R19). -/
structure Reply where
  status  : ReplyStatus
  payload : List Byte
deriving DecidableEq, Repr

/-- An attempt result (R19). Whether the node was heard follows from the verdict. -/
structure AttemptResult where
  verdict : Verdict
  reply   : Option Reply
  latency : Option Word
  node    : Nat
deriving DecidableEq, Repr

/-- Origin of an exchange with what only that origin carries (R59): the host's class and tag, the sweep index and
the round in which the entry was started, or the profile a PACE announces (R29). -/
inductive Origin where
  | host (cls : QClass) (tag : Half)
  | sweep (index : Nat) (round : Word)
  | probe
  | hunt
  | pace (announced : ProfileSel)
deriving DecidableEq, Repr

/-- The current exchange record (R59), with the superseded mark of R112 and, for a hunt step, whether the hunt that
selected it is still active (R121). -/
structure Current where
  origin     : Origin
  node       : Nat
  code       : Byte
  payload    : List Byte
  retryLimit : Nat
  profile    : ProfileSel
  toggle     : Bool
  attempts   : Nat
  last       : Option AttemptResult
  wentSilent : Bool
  cancelReq  : Bool
  barred     : Bool
  superseded : Bool
  huntLive   : Bool
deriving DecidableEq, Repr

/-- A host exchange of the line queue (R77). -/
structure QEntry where
  tag        : Half
  cls        : QClass
  node       : Nat
  code       : Byte
  payload    : List Byte
  retryLimit : Nat
  seq        : Nat
deriving DecidableEq, Repr

/-- An ended entry of the line queue: its mark and the part time at which the mark was given (R77). -/
structure Ended where
  entry  : QEntry
  mark   : Mark
  finish : Word
deriving DecidableEq, Repr

/-- A set entry of the sweep table (R97). -/
structure SweepEntry where
  node       : Nat
  code       : Byte
  payload    : List Byte
  cadence    : Nat
  phase      : Nat
  retryLimit : Nat
deriving DecidableEq, Repr

/-- The body fields of a slot write (R108): a wire write carries every field, a non-wire write the outcome and the
finish time. -/
inductive SlotBody where
  | wire (outcome : SlotOutcome) (reply : Option Reply) (latency : Option Word) (finish : Word)
  | nonWire (outcome : SlotOutcome) (finish : Word)
deriving DecidableEq, Repr

/-- A queued slot write (R109). -/
structure SlotWrite where
  index : Nat
  addr  : Addr
  stamp : Word
  body  : SlotBody
deriving DecidableEq, Repr

/-- Which of its two grants a slot write in progress is at (R109). -/
inductive SlotPhase where
  | body | stamp
deriving DecidableEq, Repr

/-- A line's sweep-image writer (R109): the pending set in queueing order, and the write in progress. -/
structure Writer where
  waiting : List SlotWrite
  busy    : Option (SlotWrite × SlotPhase)
deriving DecidableEq, Repr

/-- The five statistics counters of a line (R75). -/
structure Stats where
  attempts    : Word
  failed      : Word
  collisions  : Word
  overruns    : Word
  alertPulses : Word
deriving DecidableEq, Repr

/-- The owed line-event flags of a line (R152). -/
structure Owed where
  faulted          : Bool
  drained          : Bool
  sweepWriteFault  : Bool
  sweepOverrun     : Bool
  huntEmpty        : Bool
  alertPulseInDoze : Bool
deriving DecidableEq, Repr

/-- The body of a LINE QUERY completion (R174). -/
structure LineReport where
  run           : RunState
  abandon       : Bool
  engine        : Engine
  profilesValid : Bool
  inForce       : ProfileSel
  pace          : Pace
  urgentDepth   : Nat
  routineDepth  : Nat
  round         : Word
  rosterSize    : Nat
  huntPending   : Bool
  huntActive    : Bool
  held          : Bool
  sweepHalted   : Bool
  stats         : Stats
deriving DecidableEq, Repr

/-- An EXCHANGE completion (R69, R83, R87, R138). `node` is the address, as written for a refused entry. -/
structure ExchangeRec where
  line     : LineId
  outcome  : ExOutcome
  detail   : ExDetail
  tag      : Half
  node     : Nat
  attempts : Nat
  last     : Option AttemptResult
  finish   : Word
deriving DecidableEq, Repr

/-- The body of an ADMIN completion (R163). -/
inductive AdminBody where
  | none
  | node (record : Node)
  | cancel (tag : Half) (count : Nat)
  | line (report : LineReport)
deriving DecidableEq, Repr

/-- Outcome of an ADMIN completion (R163). -/
inductive AdminOutcome where
  | done (body : AdminBody)
  | refused (reason : Reason)
deriving DecidableEq, Repr

/-- An ADMIN completion (R163): the command code, the line byte for a command that names a line, the tag, and the
node byte for a command that names a node. -/
structure AdminRec where
  command : Byte
  line    : Option Byte
  tag     : Half
  node    : Option Byte
  outcome : AdminOutcome
  finish  : Word
deriving DecidableEq, Repr

/-- A completion record of one of the five kinds (R149). -/
inductive Completion where
  | exchange (r : ExchangeRec)
  | admin (r : AdminRec)
  | nodeEvent (line : LineId) (record : Node) (finish : Word)
  | lineEvent (line : LineId) (event : LineEvent) (finish : Word)
  | alert (line : LineId) (node : Nat) (finish : Word)
deriving DecidableEq, Repr

/-! ### The Line Unit -/

/-- What the receiver of a reply is about (R3, R15): in a character whose start bit is confirmed; at mark since a
stop-bit sample; at space after a framing error, waiting for the return to mark; at mark since a return to mark; or between
a transition to space and the sample half a bit time after it, with the time since the transition, if the line is back at
mark the time since that return, and what the transition left of the stop bit before it. -/
inductive Gap where
  | stopped
  | fromSample (periods : Nat)
  | awaitMark
  | fromMark (periods : Nat)
  | edge (periods : Nat) (back : Option Nat) (stop : Nat)
deriving DecidableEq, Repr

/-- The working timers and receive assembler of a Line Engine, in reference clock periods unless said otherwise:
the LEAD wait's length in bit times and the count of mark (R12, R58), the time since the HEADER start edge and whether
the HEADER stop bit has ended (R41), the time since the request's last stop bit and the unconfirmed transition in it
(R13), the captured latency in microseconds (R17), and the reply collected so far with its mark, its total length
once known, the time since the start bit of the character under way was confirmed, and what the receiver is about
(R3, R14, R15). -/
structure Attempt where
  wait       : Nat
  markCount  : Nat
  sent       : Nat
  headerDone : Bool
  window     : Nat
  edge       : Option Nat
  latency    : Option Word
  chars      : List Byte
  mark       : Option FrameMark
  expect     : Option Nat
  since      : Nat
  gap        : Gap
deriving DecidableEq, Repr

/-- The receive pin of a line and the measured run of space (R4): the level, true for space; the run's length in
reference clock periods; and whether the run has had its 22-bit-time effect. -/
structure Wire where
  space  : Bool
  run    : Nat
  marked : Bool
deriving DecidableEq, Repr

/-- A hunt that walks the roster (R118): its cursor, and the addresses at or below the cursor that it has still to step,
for a trusted NODE ADD taken between the cursor and the step then current (R127). -/
structure Walk where
  cursor : Nat
  later  : List Nat
deriving DecidableEq, Repr

/-- All state of one line (00_scope, Blocks). -/
structure Line where
  /-- run state (R55) -/
  run           : RunState
  /-- abandon flag (R92) -/
  abandon       : Bool
  /-- engine state (R57) -/
  engine        : Engine
  /-- current exchange (R59) -/
  current       : Option Current
  /-- engine timers and assembler (R12 to R17) -/
  att           : Attempt
  /-- settle-owed flag (R58) -/
  settleOwed    : Bool
  /-- receive pin and run of space (R4) -/
  wire          : Wire
  /-- Brisk profile, or unset (R21) -/
  brisk         : Option Profile
  /-- Lull profile, or unset (R21) -/
  lull          : Option Profile
  /-- profiles-valid flag (R21) -/
  profilesValid : Bool
  /-- profile in force (R21) -/
  inForce       : ProfileSel
  /-- pace pending (R21) -/
  pace          : Pace
  /-- roster, in ascending address order (R33) -/
  roster        : List Node
  /-- waiting entries of the line queue, in take order (R77) -/
  waiting       : List QEntry
  /-- ended entries of the line queue, in marking order (R77, R79) -/
  ended         : List Ended
  /-- next take sequence (R77) -/
  nextSeq       : Nat
  /-- hold slot (R79) -/
  holdSlot      : Option ExchangeRec
  /-- turn flag (R82) -/
  turn          : Turn
  /-- sweep table (R97) -/
  sweep         : Vector (Option SweepEntry) 48
  /-- image base, or unset (R100) -/
  imageBase     : Option Addr
  /-- round counter (R101) -/
  round         : Word
  /-- round timer: reference clock periods to its deadline, or stopped (R102) -/
  roundTimer    : Option Nat
  /-- due list (R104) -/
  due           : List Nat
  /-- probe list (R43) -/
  probes        : List Nat
  /-- sweep-halted flag (R114) -/
  sweepHalted   : Bool
  /-- sweep-image writer (R109) -/
  writer        : Writer
  /-- hunt-pending (R118) -/
  huntPending   : Bool
  /-- hunt-active with its walk (R118, R127) -/
  hunt          : Option Walk
  /-- owed line events (R152) -/
  owed          : Owed
  /-- statistics counters (R75) -/
  stats         : Stats
deriving DecidableEq, Repr

/-! ### The shared blocks -/

/-- Four things, one for each line. -/
structure Quad (α : Type) where
  q0 : α
  q1 : α
  q2 : α
  q3 : α
deriving DecidableEq, Repr

/-- The values kept from the setup block (R130, R132). Sizes are in entries; wake-on-alert is kept by Power Control. -/
structure Setup where
  adminBase      : Addr
  lineBases      : Quad Addr
  completionBase : Addr
  statusAddr     : Addr
  adminSize      : Nat
  lineSizes      : Quad Nat
  completionSize : Nat
  threshold      : Nat
  holdoff        : Nat
deriving DecidableEq, Repr

/-- A submission ring's state and counts (R133). -/
structure Ring where
  state  : RingState
  posted : Half
  taken  : Half
deriving DecidableEq, Repr

/-- The four interrupt causes, or their enables, in the order of their bits (R159, R187). -/
structure Causes where
  completions : Bool
  ringHalted  : Bool
  partFault   : Bool
  setupFailed : Bool
deriving DecidableEq, Repr

/-- The Part Timer: whether it counts, its count in microseconds, and the reference clock periods of the microsecond
under way (R147). -/
structure PartTimer where
  running : Bool
  count   : Word
  clocks  : Nat
deriving DecidableEq, Repr

/-- Power Control: the power state, wake-on-alert, and the target of the transition in progress (R176). -/
structure PowerControl where
  state      : PowerState
  wake       : Bool
  transition : Option PowerState
deriving DecidableEq, Repr

/-- What the Fetch Unit's read is for (R129, R136). -/
inductive FetchWhat where
  | setup
  | entry (ring : RingId)
deriving DecidableEq, Repr

/-- The Fetch Unit: the request waiting for a grant with its address, and the rotation pointer (R136). A read that
has been granted is the transfer in progress of the Memory Port. -/
structure Fetch where
  request : Option (FetchWhat × Addr)
  pointer : RingId
deriving DecidableEq, Repr

/-- The command in hand of the Admin Unit (R160): a POWER waiting for its transition, or a finished command whose
completion is offered. The condition "taken" ends in the event that begins it. -/
inductive AdminHand where
  | waiting (tag : Half) (target : PowerState)
  | offered (record : AdminRec)
deriving DecidableEq, Repr

/-- The Completion Unit (R141, R142, R150, R153, R154, R157, R158): the holding queue, the counts, the signalled mark,
the status-pending flag, whether the previous write was a completion record, the holdoff timer as reference clock
periods to its deadline, and the admission rotation pointer. -/
structure CompletionUnit where
  holding       : List Completion
  produced      : Half
  consumed      : Half
  mark          : Half
  statusPending : Bool
  prevRecord    : Bool
  holdoff       : Option Nat
  pointer       : Producer
deriving DecidableEq, Repr

/-- A transfer in progress on the Memory Port with its address and, for a write, the bytes it writes there (R144). -/
inductive Transfer where
  | setupRead (addr : Addr)
  | entryRead (ring : RingId) (addr : Addr)
  | recordWrite (addr : Addr) (bytes : List Byte)
  | statusWrite (addr : Addr) (bytes : List Byte)
  | slotBody (line : LineId) (addr : Addr) (bytes : List Byte)
  | slotStamp (line : LineId) (addr : Addr) (bytes : List Byte)
deriving DecidableEq, Repr

/-- The Memory Port: the transfer in progress and the last requester granted (R144). -/
structure Port where
  transfer : Option Transfer
  last     : Requester
deriving DecidableEq, Repr

/-- The whole part. -/
structure State where
  /-- part state (R128) -/
  part        : PartState
  /-- fault reason (R128) -/
  faultReason : FaultReason
  /-- setup error (R131) -/
  setupError  : SetupError
  /-- last reset cause (R184) -/
  resetCause  : ResetCause
  /-- the RESET pin is low (R184) -/
  resetLow    : Bool
  /-- a soft reset waits for the transfer in progress (R146) -/
  softPending : Bool
  /-- SETUP ADDRESS (R185) -/
  setupAddr   : Addr
  /-- cause enables of CONTROL (R183) -/
  enables     : Causes
  /-- interrupt causes (R159) -/
  causes      : Causes
  /-- values held from the setup block (R148) -/
  setup       : Option Setup
  /-- Part Timer (R147) -/
  timer       : PartTimer
  /-- Power Control (R176) -/
  power       : PowerControl
  /-- the admin ring (R133) -/
  adminRing   : Ring
  /-- the exchange rings of lines 0 to 3 (R133) -/
  lineRings   : Quad Ring
  /-- Fetch Unit (R136) -/
  fetch       : Fetch
  /-- command in hand of the Admin Unit (R160) -/
  admin       : Option AdminHand
  /-- Completion Unit (R150) -/
  cu          : CompletionUnit
  /-- Memory Port (R144) -/
  port        : Port
  /-- Line Units 0 to 3 -/
  lines       : Quad Line
  /-- the commands waiting to be taken, first in first out (the model's own) -/
  pending     : List Instr
deriving DecidableEq, Repr

/-! ### Reset values -/

/-- No cause set, or none enabled (R159). -/
def Causes.clear : Causes := ⟨false, false, false, false⟩

/-- All counters 0 (R55, R76). -/
def Stats.zero : Stats := ⟨0, 0, 0, 0, 0⟩

/-- No event owed (R152). -/
def Owed.clear : Owed := ⟨false, false, false, false, false, false⟩

/-- An engine with no wait, no frame and nothing assembled (R3, R70). -/
def Attempt.clear : Attempt :=
  { wait := 0, markCount := 0, sent := 0, headerDone := false, window := 0, edge := none, latency := none,
    chars := [], mark := none, expect := none, since := 0, gap := .stopped }

/-- An undriven line, at mark with no run of space (12.3). -/
def Wire.idle : Wire := ⟨false, 0, false⟩

/-- A line after a power-on, hard or soft reset (R21, R33, R45, R55, R77, R79, R82, R86, R97, R100 to R104, R109,
R115, R118, R152). -/
def Line.reset : Line :=
  { run := .quiet, abandon := false, engine := .off, current := none, att := Attempt.clear, settleOwed := false,
    wire := Wire.idle, brisk := none, lull := none, profilesValid := false, inForce := .brisk, pace := .none,
    roster := [], waiting := [], ended := [], nextSeq := 0, holdSlot := none, turn := .sweep,
    sweep := Vector.replicate 48 none, imageBase := none, round := 0, roundTimer := none, due := [], probes := [],
    sweepHalted := false, writer := ⟨[], none⟩, huntPending := false, hunt := none, owed := Owed.clear,
    stats := Stats.zero }

/-- A ring after a power-on, hard or soft reset (R133). -/
def Ring.off : Ring := ⟨.off, 0, 0⟩

/-- The Completion Unit after every reset and on entry to RUNNING (R150, R153, R154, R157, R158), before the
status-pending flag of R132 is set. -/
def CompletionUnit.reset : CompletionUnit :=
  { holding := [], produced := 0, consumed := 0, mark := 0, statusPending := false, prevRecord := true,
    holdoff := none, pointer := .line 3 }

/-- The part right after power-on reset (R148 and the reset values of each chapter). -/
def State.reset : State :=
  { part := .disabled, faultReason := .none, setupError := .none, resetCause := .powerOn, resetLow := false,
    softPending := false, setupAddr := 0, enables := Causes.clear, causes := Causes.clear, setup := none,
    timer := ⟨false, 0, 0⟩, power := ⟨.active, false, none⟩, adminRing := Ring.off,
    lineRings := ⟨Ring.off, Ring.off, Ring.off, Ring.off⟩, fetch := ⟨none, .line 3⟩, admin := none,
    cu := CompletionUnit.reset, port := ⟨none, .writer 3⟩,
    lines := ⟨Line.reset, Line.reset, Line.reset, Line.reset⟩, pending := [] }

/-! ### Reasons to stop -/

/-- Why a command stops the model with a fault. The part itself never stops: its own FAULTED state is a part state. -/
inductive Fault where
  /-- Raised by exec for a command that is not well formed (Instr.wellFormed): a record read that is not 64 bytes, or
  a SWEEP SET payload area that is not 16 bytes. No happening on the part corresponds to it. Safe. -/
  | illFormed
deriving DecidableEq, Repr

/-- Why a command is refused. -/
inductive Refusal where
  /-- Raised by exec for a command without a meaning; no arm raises it. Safe. -/
  | notModelled (mnemonic : String)
deriving DecidableEq, Repr

end Sys2Proof.Machine
end

