-- ==== Sys2Proof/Machine/Ops.lean ====
section
/-! DEFINITION. The named operations over the shared data: the four lines, the five rings, byte order, the roster,
the statistics, the profile in force, and the ways an engine stops. -/

namespace Sys2Proof.Machine

/-! ### Four lines, five rings -/

/-- The member for line `n`. -/
def Quad.get {α : Type} (q : Quad α) (n : LineId) : α :=
  match n with
  | 0 => q.q0
  | 1 => q.q1
  | 2 => q.q2
  | 3 => q.q3

/-- The four with the member for line `n` replaced. -/
def Quad.set {α : Type} (q : Quad α) (n : LineId) (a : α) : Quad α :=
  match n with
  | 0 => { q with q0 := a }
  | 1 => { q with q1 := a }
  | 2 => { q with q2 := a }
  | 3 => { q with q3 := a }

/-- Each member changed by a function of its line number and itself. -/
def Quad.mapIdx {α β : Type} (f : LineId → α → β) (q : Quad α) : Quad β :=
  ⟨f 0 q.q0, f 1 q.q1, f 2 q.q2, f 3 q.q3⟩

/-- Whether all four members satisfy a test. -/
def Quad.all {α : Type} (p : α → Bool) (q : Quad α) : Bool := p q.q0 && p q.q1 && p q.q2 && p q.q3

/-- The Line Unit of line `n`. -/
def State.line (s : State) (n : LineId) : Line := s.lines.get n

/-- The part with the Line Unit of line `n` replaced. -/
def State.setLine (s : State) (n : LineId) (l : Line) : State := { s with lines := s.lines.set n l }

/-- A submission ring (R133). -/
def State.ring (s : State) : RingId → Ring
  | .admin => s.adminRing
  | .line n => s.lineRings.get n

/-- The part with a submission ring replaced. -/
def State.setRing (s : State) (r : RingId) (x : Ring) : State :=
  match r with
  | .admin => { s with adminRing := x }
  | .line n => { s with lineRings := s.lineRings.set n x }

/-- The size of a submission ring by the setup held (R130). -/
def Setup.ringSize (u : Setup) : RingId → Nat
  | .admin => u.adminSize
  | .line n => u.lineSizes.get n

/-- The base of a submission ring by the setup held. -/
def Setup.ringBase (u : Setup) : RingId → Addr
  | .admin => u.adminBase
  | .line n => u.lineBases.get n

/-- The size of a submission ring; 0 while no setup is held. -/
def State.ringSize (s : State) (r : RingId) : Nat := (s.setup.map (·.ringSize r)).getD 0

/-- The size of the completion ring; 0 while no setup is held. -/
def State.completionSize (s : State) : Nat := (s.setup.map (·.completionSize)).getD 0

/-! ### Byte order: multi-byte fields of records are little-endian (R188) -/

/-- The low `n` bytes of `v`, least significant first. -/
def leBytes : Nat → Nat → List Byte
  | 0, _ => []
  | n + 1, v => BitVec.ofNat 8 v :: leBytes n (v / 256)

/-- The number whose bytes are given, least significant first. -/
def leNat : List Byte → Nat
  | [] => 0
  | b :: bs => b.toNat + 256 * leNat bs

/-- The little-endian field of `n` bytes at byte `at_` of a record. -/
def recordField (bs : List Byte) (at_ n : Nat) : Nat := leNat ((bs.drop at_).take n)

/-- One byte of a record. -/
def recordByte (bs : List Byte) (at_ : Nat) : Byte := bs.getD at_ 0

/-- A byte list cut or filled with zero bytes to length `n`. -/
def padTo (n : Nat) (bs : List Byte) : List Byte := bs.take n ++ List.replicate (n - bs.length) 0

/-! ### The circumstances a Line Unit reads from outside itself -/

/-- What a Line Unit reads of the rest of the part in an event: its own number, the part time (R147) and the power
state (R176). -/
structure Ctx where
  n     : LineId
  now   : Word
  power : PowerState
deriving DecidableEq, Repr

/-- The circumstances of line `n` as the part stands. -/
def State.ctx (s : State) (n : LineId) : Ctx := ⟨n, s.timer.count, s.power.state⟩

/-- Line `n` changed by an operation of its Line Unit. -/
def State.onLine (s : State) (n : LineId) (f : Ctx → Line → Line) : State := s.setLine n (f (s.ctx n) (s.line n))

/-- Every line changed by an operation of its Line Unit. -/
def State.onLines (s : State) (f : Ctx → Line → Line) : State :=
  { s with lines := s.lines.mapIdx fun n l => f (s.ctx n) l }

/-- The profile a line should be in (R25). -/
def PowerState.target : PowerState → ProfileSel
  | .active => .brisk
  | .lull => .lull
  | .dozePending => .lull
  | .doze => .lull

/-- ACTIVE and LULL: host traffic, hunts, the sweep and probes run (R81, R119, R135). -/
def PowerState.working : PowerState → Bool
  | .active => true
  | .lull => true
  | .dozePending => false
  | .doze => false

/-! ### The profile in force (R26) -/

/-- The profile of a line whose profiles are unset: it holds no values (R21). No line runs with it (R166). -/
def Profile.unset : Profile := ⟨0, .none, 0, 0, 0, 0, 0, 0, 0, 0, 0, 0⟩

/-- One of the line's two profiles. -/
def Line.profileOf (l : Line) : ProfileSel → Profile
  | .brisk => l.brisk.getD Profile.unset
  | .lull => l.lull.getD Profile.unset

/-- The profile in force. -/
def Line.profile (l : Line) : Profile := l.profileOf l.inForce

/-- Bit times of one character: 11 with parity and 10 without (R1). -/
def Profile.charBits (p : Profile) : Nat := if p.parity = .none then 10 else 11

/-- Reference clock periods of one character. -/
def Profile.charClocks (p : Profile) : Nat := p.charBits * p.divisor

/-- From a transition to the sample that confirms a start bit, half a bit time in reference clock periods (R3). DESIGN CHOICE (log
entry 22): with an odd bit divisor the sample falls at the next whole period. -/
def Profile.halfBit (p : Profile) : Nat := (p.divisor + 1) / 2

/-- From a stop-bit sample to the end of its stop bit: the rest of the bit time (R3). DESIGN CHOICE (log entry 22): with an odd bit
divisor it is rounded down. -/
def Profile.halfStop (p : Profile) : Nat := p.divisor / 2

/-- From the confirmation of a start bit to the character's stop-bit sample: one bit time for each of the data bits, the parity
bit and the stop bit (R3). -/
def Profile.fromConfirm (p : Profile) : Nat := p.charClocks - p.divisor

/-! ### The roster (R33) -/

/-- The record at an address. -/
def findNode (roster : List Node) (a : Nat) : Option Node := roster.find? (·.addr == a)

/-- The roster with a record inserted at the place its address takes. -/
def insertNode (x : Node) : List Node → List Node
  | [] => [x]
  | y :: ys => if x.addr < y.addr then x :: y :: ys else y :: insertNode x ys

/-- The roster without the record at an address; the records above close up. -/
def removeNode (roster : List Node) (a : Nat) : List Node := roster.filter (·.addr != a)

/-- The roster with the record at an address changed. -/
def updateNode (roster : List Node) (a : Nat) (f : Node → Node) : List Node :=
  roster.map fun x => if x.addr == a then f x else x

/-- The state of the record at an address, if there is one. -/
def nodeState (roster : List Node) (a : Nat) : Option NodeState := (findNode roster a).map (·.state)

/-- A walk passes an address on: it lies above the cursor (R120), or it is one the walk has still to step (R127). -/
def Walk.ahead (w : Walk) (a : Nat) : Bool := decide (w.cursor < a) || w.later.contains a

/-- The lowest address ahead of a walk whose record is ACTIVE (R120, R127). -/
def Walk.next (w : Walk) (roster : List Node) : Option Nat :=
  (roster.find? fun x => x.state == .active && w.ahead x.addr).map (·.addr)

/-- A walk that starts, below every node address (R119). -/
def Walk.start : Walk := ⟨0, []⟩

/-- The walk when its step to an address has ended (R121): the cursor takes the address and only rises. DEDUCED (log entry
36): after a step to an address at or below the cursor the cursor stays. -/
def Walk.stepped (w : Walk) (a : Nat) : Walk := ⟨max w.cursor a, w.later.filter (· != a)⟩

/-- The record that NODE ADD creates (R34, R46). -/
def Node.fresh (a : Nat) (trusted : Bool) : Node :=
  { addr := a, state := if trusted then .active else .joining, failures := 0, lastToggle := true, lastHeard := none,
    joinProbes := 0, roundsSilent := 0, alertReported := false, alertOwed := false, reportOwed := false }

/-! ### Statistics (R75) -/

/-- One more, stopping at 4,294,967,295. -/
def satInc (w : Word) : Word := if w = 0xFFFFFFFF#32 then w else w + 1

/-! ### The line queue and HELD (R77, R86) -/

/-- Entries of the queue, waiting and ended. -/
def Line.depth (l : Line) : Nat := l.waiting.length + l.ended.length

/-- A line is HELD while its hold slot holds a record or its queue an ended entry (R86). -/
def Line.held (l : Line) : Bool := l.holdSlot.isSome || !l.ended.isEmpty

/-- The waiting entries in the order in which they are marked: URGENT in take order, then ROUTINE (R72, R92, R94). -/
def markOrder (waiting : List QEntry) : List QEntry :=
  waiting.filter (·.cls == .urgent) ++ waiting.filter (·.cls == .routine)

/-- Every waiting entry ended with a mark at a part time, behind the entries already ended (R72, R92, R94). -/
def Line.markAll (l : Line) (m : Mark) (now : Word) : Line :=
  { l with waiting := [], ended := l.ended ++ (markOrder l.waiting).map fun e => ⟨e, m, now⟩ }

/-! ### The hunt (R118) -/

/-- The hunt is over: its cursor is discarded, and a current hunt step no longer belongs to an active hunt (R121). -/
def Line.dropHunt (l : Line) : Line :=
  { l with hunt := none, current := l.current.map fun c => { c with huntLive := false } }

/-- A hunt ends empty (R123), before the test of R119 for a follow-up. -/
def Line.huntEmpty (l : Line) : Line :=
  { l.dropHunt with owed := { l.owed with huntEmpty := true } }

/-- The activation test of R119: a pending hunt starts on a RUNNING line in ACTIVE or LULL, and ends empty at once if no
record is ACTIVE. -/
def Line.activateHunt (x : Ctx) (l : Line) : Line :=
  if l.huntPending && l.hunt.isNone && l.run == .running && x.power.working then
    if (Walk.start.next l.roster).isSome then { l with hunt := some Walk.start, huntPending := false }
    else { l.huntEmpty with huntPending := false }
  else l

/-! ### Leaving and entering the engine's resting states -/

/-- The engine is OFF: nothing on the wire, no timer, no settle owed, no run measured (R2, R58, R70). -/
def Line.engineOff (l : Line) : Line :=
  { l with engine := .off, att := Attempt.clear, settleOwed := false, wire := { l.wire with run := 0, marked := false } }

/-- The profile in force follows the target on entry to QUIET or FAULTED, and pace pending is NONE (R27). -/
def Line.takeTarget (x : Ctx) (l : Line) : Line := { l with inForce := x.power.target, pace := .none }

/-- The round timer, due list and probe list of a line that leaves RUNNING work (R45, R102, R104). -/
def Line.dropRound (l : Line) : Line := { l with roundTimer := none, due := [], probes := [] }

/-- A DRAINING line becomes QUIET and owes DRAINED (R91). -/
def Line.becomeQuiet (x : Ctx) (l : Line) : Line :=
  { (l.engineOff.takeTarget x) with run := .quiet, abandon := false, owed := { l.owed with drained := true } }

end Sys2Proof.Machine
end

