-- ==== Sys2Proof/Machine/Operands.lean ====
section
/-! DEFINITION. The records the part reads, field by field, and the checks on them: the setup block (R130, R188),
the profiles of a LINE SETUP (R22 to R24), the exchange entry (R138) and the admin entry (R161, R188). -/

namespace Sys2Proof.Machine

/-! ### Setup block -/

/-- The setup block's values as read; an exponent e gives a size of 2 to the e (R188). -/
def parseSetup (bs : List Byte) : Setup :=
  { adminBase := BitVec.ofNat 64 (recordField bs 0 8)
    lineBases := ⟨BitVec.ofNat 64 (recordField bs 8 8), BitVec.ofNat 64 (recordField bs 16 8),
      BitVec.ofNat 64 (recordField bs 24 8), BitVec.ofNat 64 (recordField bs 32 8)⟩
    completionBase := BitVec.ofNat 64 (recordField bs 40 8)
    statusAddr := BitVec.ofNat 64 (recordField bs 48 8)
    adminSize := 2 ^ (recordField bs 56 1 % 16)
    lineSizes := ⟨2 ^ (recordField bs 56 1 / 16), 2 ^ (recordField bs 57 1 % 16), 2 ^ (recordField bs 57 1 / 16),
      2 ^ (recordField bs 58 1 % 16)⟩
    completionSize := 2 ^ (recordField bs 58 1 / 16)
    threshold := recordField bs 59 1
    holdoff := recordField bs 60 2 }

/-- The wake-on-alert flag of the setup block (R188). -/
def parseWake (bs : List Byte) : Bool := (recordByte bs 62).getLsbD 0

/-- The seven areas as base and length in bytes (R130). -/
def Setup.areas (u : Setup) : List (Nat × Nat) :=
  [(u.adminBase.toNat, u.adminSize * 64), (u.lineBases.q0.toNat, u.lineSizes.q0 * 64),
   (u.lineBases.q1.toNat, u.lineSizes.q1 * 64), (u.lineBases.q2.toNat, u.lineSizes.q2 * 64),
   (u.lineBases.q3.toNat, u.lineSizes.q3 * 64), (u.completionBase.toNat, u.completionSize * 64),
   (u.statusAddr.toNat, 64)]

/-- Two areas share no byte. -/
def areasApart (a b : Nat × Nat) : Bool := decide (a.1 + a.2 ≤ b.1) || decide (b.1 + b.2 ≤ a.1)

/-- No two areas share a byte. -/
def allApart : List (Nat × Nat) → Bool
  | [] => true
  | a :: as => as.all (areasApart a) && allApart as

/-- A submission ring size: a power of two from 8 to 1,024 (sizes are powers of two by R188). -/
def submissionSizeOk (n : Nat) : Bool := decide (8 ≤ n) && decide (n ≤ 1024)

/-- The checks of R130. -/
def Setup.valid (u : Setup) : Bool :=
  u.areas.all (fun a => a.1 % 64 == 0) &&
  submissionSizeOk u.adminSize && u.lineSizes.all submissionSizeOk &&
  decide (16 ≤ u.completionSize) && decide (u.completionSize ≤ 4096) &&
  u.areas.all (fun a => decide (a.1 + a.2 ≤ 2 ^ 64)) &&
  allApart u.areas &&
  decide (1 ≤ u.threshold)

/-! ### Profiles -/

/-- The minimum stuck limit holds: four times 22 bit times at the divisor (R23). -/
def stuckLimitOk (divisor stuck : Nat) : Bool := decide (11 * divisor ≤ 6000 * stuck)

/-- The first field that fails its own check, by its number (R22, R23). -/
def firstBadField (p : RawProfile) : Option Nat :=
  if !(decide (16 ≤ p.divisor.toNat) && decide (p.divisor.toNat ≤ 40000)) then some 1
  else if !(decide (p.parity.toNat ≤ 2)) then some 2
  else if !(decide (12 ≤ p.leadGap.toNat)) then some 3
  else if !(decide (22 ≤ p.replyWindow.toNat)) then some 4
  else if !(decide (2 ≤ p.charGap.toNat)) then some 5
  else if !(decide (p.leadGap.toNat ≤ p.retryGap.toNat)) then some 6
  else if !(decide (p.leadGap.toNat ≤ p.busyPause.toNat)) then some 7
  else if !(decide (1 ≤ p.sweepPeriod.toNat) && decide (p.sweepPeriod.toNat ≤ 60000)) then some 8
  else if !(decide (1 ≤ p.failThreshold.toNat) && decide (p.failThreshold.toNat ≤ 15)) then some 9
  else if !(decide (1 ≤ p.joinLimit.toNat) && decide (p.joinLimit.toNat ≤ 15)) then some 10
  else if !(decide (1 ≤ p.stuckLimit.toNat) && decide (p.stuckLimit.toNat ≤ 1000) &&
      stuckLimitOk p.divisor.toNat p.stuckLimit.toNat) then some 12
  else none

/-- The first failure of a LINE SETUP: Brisk fields, Lull fields, then the rate and period checks (R22, R24). -/
def profilesFirstBad (brisk lull : RawProfile) : Option (ProfileSel × Nat) :=
  match firstBadField brisk with
  | some f => some (.brisk, f)
  | none =>
    match firstBadField lull with
    | some f => some (.lull, f)
    | none =>
      if lull.divisor.toNat < brisk.divisor.toNat then some (.lull, 1)
      else if lull.sweepPeriod.toNat < brisk.sweepPeriod.toNat then some (.lull, 8)
      else none

/-- Parity from its selector (R20). -/
def parityOf (b : Byte) : Parity :=
  match b.toNat with
  | 1 => .even
  | 2 => .odd
  | _ => .none

/-- The profile that checked fields give. -/
def profileOfRaw (p : RawProfile) : Profile :=
  { divisor := p.divisor.toNat, parity := parityOf p.parity, leadGap := p.leadGap.toNat,
    replyWindow := p.replyWindow.toNat, charGap := p.charGap.toNat, retryGap := p.retryGap.toNat,
    busyPause := p.busyPause.toNat, sweepPeriod := p.sweepPeriod.toNat, failThreshold := p.failThreshold.toNat,
    joinLimit := p.joinLimit.toNat, probeInterval := p.probeInterval.toNat, stuckLimit := p.stuckLimit.toNat }

/-- A profile of 18 bytes (R188). -/
def parseProfile (bs : List Byte) (o : Nat) : RawProfile :=
  { divisor := BitVec.ofNat 16 (recordField bs o 2), parity := recordByte bs (o + 2),
    leadGap := recordByte bs (o + 3), replyWindow := BitVec.ofNat 16 (recordField bs (o + 4) 2),
    charGap := recordByte bs (o + 6), retryGap := BitVec.ofNat 16 (recordField bs (o + 7) 2),
    busyPause := BitVec.ofNat 16 (recordField bs (o + 9) 2),
    sweepPeriod := BitVec.ofNat 16 (recordField bs (o + 11) 2), failThreshold := recordByte bs (o + 13),
    joinLimit := recordByte bs (o + 14), probeInterval := recordByte bs (o + 15),
    stuckLimit := BitVec.ofNat 16 (recordField bs (o + 16) 2) }

/-! ### Exchange entry -/

/-- An exchange entry as written (R138, R188). -/
structure RawExchange where
  tag      : Half
  node     : Nat
  code     : Byte
  length   : Nat
  retry    : Nat
  priority : Nat
  payload  : List Byte
deriving DecidableEq, Repr

/-- The fields of an exchange entry (R188). -/
def parseExchange (bs : List Byte) : RawExchange :=
  { tag := BitVec.ofNat 16 (recordField bs 0 2), node := recordField bs 2 1, code := recordByte bs 3,
    length := recordField bs 4 1, retry := recordField bs 5 1, priority := recordField bs 6 1,
    payload := (bs.drop 8).take 32 }

/-- The refusal reason of the first failing check (R138). -/
def RawExchange.firstBad (e : RawExchange) : Option ExDetail :=
  if 62 < e.node then some .badAddress
  else if e.code = 0x01#8 then some .badCode
  else if 32 < e.length then some .badLength
  else if 7 < e.retry then some .badRetry
  else if 1 < e.priority then some .badPriority
  else none

/-- The queue entry of a valid exchange entry, with its take sequence (R78, R138). -/
def RawExchange.entry (e : RawExchange) (seq : Nat) : QEntry :=
  { tag := e.tag, cls := if e.priority = 1 then .urgent else .routine, node := e.node, code := e.code,
    payload := e.payload.take e.length, retryLimit := e.retry, seq := seq }

/-! ### Admin entry -/

/-- An administrative command with the body fields it reads, as written (R161, R164, R188). -/
inductive AdminCmd where
  | lineSetup (brisk lull : RawProfile)
  | lineStart
  | lineStop (form : Byte)
  | lineReset
  | nodeAdd (node : Byte) (trusted : Bool)
  | nodeRemove (node : Byte)
  | nodeBar (node : Byte)
  | nodeUnbar (node : Byte)
  | nodeQuery (node : Byte)
  | sweepSet (entry : RawSweep)
  | sweepClear (index : Byte)
  | sweepImage (base : Addr)
  | cancel (target : Half)
  | power (target : Byte)
  | lineQuery (clear : Bool)
  | unknown (code : Byte)
deriving DecidableEq, Repr

/-- The command code (R188). -/
def AdminCmd.code : AdminCmd → Byte
  | .lineSetup _ _ => 1
  | .lineStart => 2
  | .lineStop _ => 3
  | .lineReset => 4
  | .nodeAdd _ _ => 5
  | .nodeRemove _ => 6
  | .nodeBar _ => 7
  | .nodeUnbar _ => 8
  | .nodeQuery _ => 9
  | .sweepSet _ => 10
  | .sweepClear _ => 11
  | .sweepImage _ => 12
  | .cancel _ => 13
  | .power _ => 14
  | .lineQuery _ => 15
  | .unknown c => c

/-- Whether the command names a line (R161): every known command but POWER. -/
def AdminCmd.namesLine : AdminCmd → Bool
  | .power _ => false
  | .unknown _ => false
  | _ => true

/-- The node address of a command that names a node (R169, R170). -/
def AdminCmd.node : AdminCmd → Option Byte
  | .nodeAdd a _ => some a
  | .nodeRemove a => some a
  | .nodeBar a => some a
  | .nodeUnbar a => some a
  | .nodeQuery a => some a
  | _ => none

/-- The line byte of an admin entry, the tag, and the command (R161, R188). -/
def parseAdmin (bs : List Byte) : Byte × Half × AdminCmd :=
  let cmd : AdminCmd :=
    match recordField bs 0 1 with
    | 1 => .lineSetup (parseProfile bs 8) (parseProfile bs 26)
    | 2 => .lineStart
    | 3 => .lineStop (recordByte bs 8)
    | 4 => .lineReset
    | 5 => .nodeAdd (recordByte bs 8) ((recordByte bs 9).getLsbD 0)
    | 6 => .nodeRemove (recordByte bs 8)
    | 7 => .nodeBar (recordByte bs 8)
    | 8 => .nodeUnbar (recordByte bs 8)
    | 9 => .nodeQuery (recordByte bs 8)
    | 10 => .sweepSet ⟨recordByte bs 8, recordByte bs 9, recordByte bs 10, recordByte bs 11, recordByte bs 12,
        recordByte bs 13, recordByte bs 14, (bs.drop 16).take 16⟩
    | 11 => .sweepClear (recordByte bs 8)
    | 12 => .sweepImage (BitVec.ofNat 64 (recordField bs 8 8))
    | 13 => .cancel (BitVec.ofNat 16 (recordField bs 8 2))
    | 14 => .power (recordByte bs 8)
    | 15 => .lineQuery ((recordByte bs 8).getLsbD 0)
    | _ => .unknown (recordByte bs 0)
  (recordByte bs 1, BitVec.ofNat 16 (recordField bs 2 2), cmd)

/-- The line a line byte names, 0 to 3 (R162). -/
def lineOf (b : Byte) : Option LineId := if h : b.toNat < 4 then some ⟨b.toNat, h⟩ else none

end Sys2Proof.Machine
end

