-- ==== Sys2Proof/Machine/Flags.lean ====
section
/-! DEFINITION. The flags and codes the part shows: interrupt causes and the interrupt output (R159), the codes of
STATE and of the records (R184, R188), and the words the register window reads (R183 to R187). -/

namespace Sys2Proof.Machine

/-- The interrupt output: some cause is both set and enabled (R159). -/
def State.irq (s : State) : Bool :=
  (s.causes.completions && s.enables.completions) || (s.causes.ringHalted && s.enables.ringHalted) ||
  (s.causes.partFault && s.enables.partFault) || (s.causes.setupFailed && s.enables.setupFailed)

/-- Four flags as the bits from `at_` up, in the order of CAUSE (R187). -/
def Causes.bits (c : Causes) (at_ : Nat) : Word :=
  (BitVec.ofBool c.completions).setWidth 32 <<< at_ ||| (BitVec.ofBool c.ringHalted).setWidth 32 <<< (at_ + 1) |||
  (BitVec.ofBool c.partFault).setWidth 32 <<< (at_ + 2) ||| (BitVec.ofBool c.setupFailed).setWidth 32 <<< (at_ + 3)

/-- Four flags read from the bits of a word from `at_` up. -/
def Causes.ofBits (w : Word) (at_ : Nat) : Causes :=
  ⟨w.getLsbD at_, w.getLsbD (at_ + 1), w.getLsbD (at_ + 2), w.getLsbD (at_ + 3)⟩

/-- The causes after a write of 1s to CAUSE (R187). -/
def Causes.clearBy (c m : Causes) : Causes :=
  ⟨c.completions && !m.completions, c.ringHalted && !m.ringHalted, c.partFault && !m.partFault,
   c.setupFailed && !m.setupFailed⟩

/-! ### Codes -/

/-- Part state code (R184). -/
def PartState.code : PartState → Nat
  | .disabled => 0
  | .loading => 1
  | .running => 2
  | .faulted => 3

/-- Power state code (R184). -/
def PowerState.code : PowerState → Nat
  | .active => 0
  | .lull => 1
  | .dozePending => 2
  | .doze => 3

/-- Last reset cause code (R184). -/
def ResetCause.code : ResetCause → Nat
  | .powerOn => 1
  | .hard => 2
  | .soft => 3

/-- Setup error code (R184). -/
def SetupError.code : SetupError → Nat
  | .none => 0
  | .setupInvalid => 1
  | .setupReadError => 2

/-- Fault reason code (R184). -/
def FaultReason.code : FaultReason → Nat
  | .none => 0
  | .completionWriteError => 1
  | .statusWriteError => 2
  | .badConsumed => 3

/-- Ring state byte of the status block; a ring that is OFF is never reported (R188). -/
def RingState.code : RingState → Nat
  | .off => 0
  | .opened => 1
  | .haltedBadPost => 2
  | .haltedReadError => 3

/-- Run state code (R188). -/
def RunState.code : RunState → Nat
  | .quiet => 0
  | .running => 1
  | .draining => 2
  | .faulted => 3

/-- Engine state code (R188). -/
def Engine.code : Engine → Nat
  | .off => 0
  | .idle => 1
  | .lead => 2
  | .sending => 3
  | .awaiting => 4
  | .receiving => 5
  | .parked => 6

/-- Profile code, BRISK 0 and LULL 1 (R188). -/
def ProfileSel.code : ProfileSel → Nat
  | .brisk => 0
  | .lull => 1

/-- Pace pending code (R188). -/
def Pace.code : Pace → Nat
  | .none => 0
  | .start => 1
  | .switch => 2

/-- Parity selector (R6, R20). -/
def Parity.code : Parity → Nat
  | .none => 0
  | .even => 1
  | .odd => 2

/-- Node state code (R188). -/
def NodeState.code : NodeState → Nat
  | .joining => 0
  | .active => 1
  | .silent => 2
  | .barred => 3

/-- Verdict code, 1 to 14 (R188). -/
def Verdict.code : Verdict → Nat
  | .good => 1
  | .goodBusy => 2
  | .goodReject => 3
  | .goodAlert => 4
  | .timeout => 5
  | .broken => 6
  | .charError => 7
  | .crcError => 8
  | .lengthError => 9
  | .wrongNode => 10
  | .stale => 11
  | .badStatus => 12
  | .collision => 13
  | .sent => 14

/-- Reply status code (R8). -/
def ReplyStatus.code : ReplyStatus → Nat
  | .ok => 0
  | .busy => 1
  | .reject => 2
  | .alert => 3

/-- EXCHANGE outcome code (R188). -/
def ExOutcome.code : ExOutcome → Nat
  | .done => 0
  | .nodeBusy => 1
  | .nodeReject => 2
  | .noReply => 3
  | .collided => 4
  | .badReply => 5
  | .cancelled => 6
  | .nodeBarred => 7
  | .nodeUnknown => 8
  | .nodeJoining => 9
  | .nodeSilent => 10
  | .flushed => 11
  | .lineFault => 12
  | .refused => 13

/-- Detail code of an EXCHANGE completion (R188). -/
def ExDetail.code : ExDetail → Nat
  | .none => 0
  | .wentSilent => 1
  | .badAddress => 16
  | .badCode => 17
  | .badLength => 18
  | .badRetry => 19
  | .badPriority => 20

/-- Detail code of a refused ADMIN completion (R188). -/
def Reason.code : Reason → Nat
  | .wrongState => 32
  | .wrongPowerState => 33
  | .badField => 34
  | .badProfile _ _ => 35
  | .exists => 36
  | .unknownNode => 37
  | .rosterFull => 38
  | .inUse => 39
  | .noImage => 40
  | .busy => 41

/-- LINE_EVENT outcome code (R188). -/
def LineEvent.code : LineEvent → Nat
  | .faulted => 0
  | .drained => 1
  | .sweepWriteFault => 2
  | .sweepOverrun => 3
  | .huntEmpty => 4
  | .alertPulseInDoze => 5

/-- Sweep slot outcome code (R188). -/
def SlotOutcome.code : SlotOutcome → Nat
  | .good => 0
  | .noReply => 1
  | .badReply => 2
  | .collided => 3
  | .skipped => 4
  | .missed => 5

/-! ### The words of the register window -/

/-- CONTROL.ENABLE reads 0 while DISABLED and 1 otherwise (R183). -/
def State.enabled (s : State) : Bool := s.part != .disabled

/-- CONTROL as read (R183). -/
def State.controlWord (s : State) : Word := (BitVec.ofBool s.enabled).setWidth 32 ||| s.enables.bits 8

/-- STATE as read (R184). -/
def State.stateWord (s : State) : Word :=
  BitVec.ofNat 32 (s.part.code + 4 * s.power.state.code + 16 * s.resetCause.code + 64 * s.setupError.code +
    256 * s.faultReason.code)

/-- A whole-word read of the register window at word offset `word` (R183 to R187). POST and offsets above 0x1C
read 0. -/
def State.readWord (s : State) (word : BitVec 5) : Word :=
  match word.toNat with
  | 0 => Config.ident
  | 1 => s.controlWord
  | 2 => s.stateWord
  | 3 => s.setupAddr.setWidth 32
  | 4 => (s.setupAddr >>> 32).setWidth 32
  | 6 => s.cu.consumed.setWidth 32
  | 7 => s.causes.bits 0
  | _ => 0

/-- A narrower read returns the addressed byte of the word (R183). DESIGN CHOICE (log entry 40): the spec gives the register
port no byte order; lane 0 is bits 7 to 0. -/
def State.readByte (s : State) (word : BitVec 5) (lane : Fin 4) : Byte :=
  ((s.readWord word) >>> (8 * lane.val)).setWidth 8

end Sys2Proof.Machine
end

