-- ==== Sys2Proof/Machine/Frames.lean ====
section
/-! DEFINITION. Characters, frames and verdicts (chapter 1): the bits of a character and its checks, the CRC, the
request frame the part drives, the echo check, and the judging of a complete reply. -/

namespace Sys2Proof.Machine

/-! ### Characters -/

/-- The parity of eight data bits: true when the count of 1 bits is odd. -/
def dataParity (b : Byte) : Bool :=
  (List.range 8).foldl (fun acc i => acc != b.getLsbD i) false

/-- The parity bit sent with a character (R1); none without parity. -/
def parityBit (p : Parity) (b : Byte) : Option Bool :=
  match p with
  | .none => none
  | .even => some (dataParity b)
  | .odd => some (!dataParity b)

/-- The levels of a character on the wire, true for mark: start bit, data bits least significant first, parity bit if
any, stop bit (R1). -/
def charLevels (p : Parity) (b : Byte) : List Bool :=
  [false] ++ (List.range 8).map (fun i => b.getLsbD i) ++ (parityBit p b).toList ++ [true]

/-- A sampled parity bit does not give the count of 1 bits that the parity requires (R3). -/
def parityError (p : Parity) (c : RxChar) : Bool :=
  match parityBit p c.data with
  | none => false
  | some b => b != c.parity

/-- A parity or framing error (R3). -/
def characterError (p : Parity) (c : RxChar) : Bool := parityError p c || !c.stop

/-- The echo check of a driven character fails (R11): missing echo, or a difference in the data bits, the parity bit or
the stop bit. -/
def echoFails (p : Parity) (driven : Byte) : Echo → Bool
  | .missing => true
  | .taken c => c.data != driven || parityError p { c with data := driven } || !c.stop

/-! ### CRC (R9) -/

/-- One data bit: the register is shifted toward its high end and combined with 0x1021 if the bit shifted out differs
from the data bit. -/
def crcBit (crc : Half) (d : Bool) : Half :=
  if crc.msb != d then (crc <<< 1) ^^^ 0x1021#16 else crc <<< 1

/-- One byte, most significant bit first. -/
def crcByte (crc : Half) (b : Byte) : Half :=
  [7, 6, 5, 4, 3, 2, 1, 0].foldl (fun r i => crcBit r (b.getLsbD i)) crc

/-- The CRC of a byte sequence, preset to 0xFFFF, with no final inversion. -/
def crc16 (bs : List Byte) : Half := bs.foldl crcByte 0xFFFF#16

/-- A CRC as the two characters sent, high byte first. -/
def crcChars (c : Half) : List Byte := [(c >>> 8).setWidth 8, c.setWidth 8]

/-! ### Request frames -/

/-- The HEADER character: direction in bit 7, toggle in bit 6, address in bits 5 to 0 (R5). -/
def headerChar (reply toggle : Bool) (addr : Nat) : Byte :=
  BitVec.ofNat 8 ((if reply then 128 else 0) + (if toggle then 64 else 0) + addr % 64)

/-- A request frame: HEADER, CODE, LENGTH, payload, CRC (R5). -/
def requestFrame (toggle : Bool) (addr : Nat) (code : Byte) (payload : List Byte) : List Byte :=
  let body := [headerChar false toggle addr, code, BitVec.ofNat 8 payload.length] ++ payload
  body ++ crcChars (crc16 body)

/-- The frame of an attempt of the current exchange; a broadcast carries toggle 0 (R7, R10). -/
def Current.frame (c : Current) : List Byte :=
  requestFrame (c.toggle && c.node != 0) c.node c.code c.payload

/-- The PACE payload: divisor high byte, low byte, parity selector (R6). -/
def pacePayload (p : Profile) : List Byte :=
  [BitVec.ofNat 8 (p.divisor / 256), BitVec.ofNat 8 p.divisor, BitVec.ofNat 8 p.parity.code]

/-! ### Verdicts -/

/-- A node answered, whatever else went wrong (R19). -/
def Verdict.heard : Verdict → Bool
  | .good => true
  | .goodBusy => true
  | .goodReject => true
  | .goodAlert => true
  | .stale => true
  | _ => false

/-- The failing verdicts of 3.3. -/
def Verdict.failing : Verdict → Bool
  | .timeout => true
  | .broken => true
  | .charError => true
  | .crcError => true
  | .lengthError => true
  | .wrongNode => true
  | .badStatus => true
  | _ => false

/-- The verdict and the contents handed on for a well-formed reply by its STATUS (R18 steps 6 and 7, R19). -/
def judgeStatus (status : Byte) (payload : List Byte) : Verdict × Option Reply :=
  match status.toNat with
  | 0 => (.good, some ⟨.ok, payload⟩)
  | 1 => (.goodBusy, some ⟨.busy, payload⟩)
  | 2 => (.goodReject, some ⟨.reject, payload⟩)
  | 3 => (.goodAlert, some ⟨.alert, payload⟩)
  | _ => (.badStatus, none)

/-- The verdict of a reply frame completed with no mark, by steps 3 to 7 of R18. `chars` are its characters, HEADER
first; `node` and `toggle` are those of the request. -/
def judgeReply (node : Nat) (toggle : Bool) (chars : List Byte) : Verdict × Option Reply :=
  let header := recordByte chars 0
  let len := (recordByte chars 2).toNat
  if crcChars (crc16 (chars.take (3 + len))) ≠ (chars.drop (3 + len)).take 2 then (.crcError, none)
  else if header.getLsbD 7 = false ∨ header.toNat % 64 ≠ node then (.wrongNode, none)
  else if header.getLsbD 6 ≠ toggle then (.stale, none)
  else judgeStatus (recordByte chars 1) ((chars.drop 3).take len)

/-! ### Node records under verdicts (3.3, 3.7) -/

/-- A heard verdict at a part time (R36). -/
def Node.onHeard (now : Word) (x : Node) : Node :=
  let returns := x.state == .joining || x.state == .silent
  { x with failures := 0, lastHeard := some now, state := if returns then .active else x.state,
           reportOwed := x.reportOwed || returns }

/-- The node becomes SILENT and owes a report (R37, R39, R43). -/
def Node.silence (x : Node) : Node := { x with state := .silent, roundsSilent := 0, reportOwed := true }

/-- A failing verdict under a failure threshold (R37). -/
def Node.onFailing (threshold : Nat) (x : Node) : Node :=
  let y := { x with failures := min 15 (x.failures + 1) }
  if y.state = .active ∧ threshold ≤ y.failures then y.silence else y

/-- The alert flags under a verdict (R51). -/
def Node.onAlert (v : Verdict) (x : Node) : Node :=
  match v with
  | .goodAlert => if x.alertReported then x else { x with alertReported := true, alertOwed := true }
  | .good => { x with alertReported := false }
  | .goodBusy => { x with alertReported := false }
  | .goodReject => { x with alertReported := false }
  | _ => x

/-- The health of a record under a verdict (R36, R37, R38). -/
def Node.onHealth (now : Word) (threshold : Nat) (v : Verdict) (x : Node) : Node :=
  if v.heard then x.onHeard now else if v.failing then x.onFailing threshold else x

/-- All the record updates of one verdict, as one event (R36 to R40, R51). `probe` says that the attempt is a probe
whose node did not become JOINING through NODE UNBAR while the attempt was on the wire (R39). -/
def Node.onVerdict (now : Word) (p : Profile) (probe : Bool) (v : Verdict) (x : Node) : Node :=
  let counted := probe && x.state == .joining
  let y := if counted then { x with joinProbes := min 15 (x.joinProbes + 1) } else x
  let z := (y.onHealth now p.failThreshold v).onAlert v
  if counted && z.state == .joining && decide (p.joinLimit ≤ z.joinProbes) then z.silence else z

/-- A verdict finds an alert: GOOD_ALERT from a node whose alert-reported flag was clear (R122). -/
def foundAlert (v : Verdict) (x : Node) : Bool := v == .goodAlert && !x.alertReported

/-- The work that the state of a node lets reach it on the wire (R35): a probe for JOINING and SILENT, everything else
for ACTIVE. -/
def stateAllows (probe : Bool) : Option NodeState → Bool
  | some .joining => probe
  | some .silent => probe
  | some .active => !probe
  | some .barred => false
  | none => false

end Sys2Proof.Machine
end

