-- ==== Sys2Proof/Machine/Records.lean ====
section
/-! DEFINITION. The records the part writes, byte by byte (R188): the completion record, the status block and the sweep
slot; and the reports they carry. -/

namespace Sys2Proof.Machine

/-- One byte of a number. -/
def byteOf (n : Nat) : Byte := BitVec.ofNat 8 n

/-- A flag as a byte. -/
def boolByte (b : Bool) : Byte := if b then 1 else 0

/-- A part time that may be absent with its present byte (R188). DESIGN CHOICE (log entry 41): the four bytes of an absent time
are 0. -/
def optTimeBytes : Option Word → List Byte
  | some t => leBytes 4 t.toNat ++ [1]
  | none => [0, 0, 0, 0, 0]

/-- A latency, or its absent code (R188). -/
def latencyBytes : Option Word → List Byte
  | some t => leBytes 4 t.toNat
  | none => [0xFF, 0xFF, 0xFF, 0xFF]

/-- Bytes 24 to 32 of the node record layout (R188). -/
def Node.eventBytes (x : Node) : List Byte :=
  [byteOf x.addr, byteOf x.state.code, byteOf x.failures, boolByte x.lastToggle] ++ optTimeBytes x.lastHeard

/-- Bytes 24 to 36 of the node record layout (R188). -/
def Node.bytes (x : Node) : List Byte :=
  x.eventBytes ++ [byteOf x.joinProbes] ++ leBytes 2 x.roundsSilent ++
    [byteOf (x.alertReported.toNat + 2 * x.alertOwed.toNat + 4 * x.reportOwed.toNat)]

/-- The line as LINE QUERY reports it (R174). -/
def Line.report (l : Line) : LineReport :=
  { run := l.run, abandon := l.abandon, engine := l.engine, profilesValid := l.profilesValid, inForce := l.inForce,
    pace := l.pace,
    urgentDepth := l.waiting.countP (·.cls == .urgent) + l.ended.countP (·.entry.cls == .urgent),
    routineDepth := l.waiting.countP (·.cls == .routine) + l.ended.countP (·.entry.cls == .routine),
    round := l.round, rosterSize := l.roster.length, huntPending := l.huntPending, huntActive := l.hunt.isSome,
    held := l.held, sweepHalted := l.sweepHalted, stats := l.stats }

/-- The LINE QUERY body from byte 24 (R188). DESIGN CHOICE (log entry 43): bytes 38 and 39, which no layout names, are 0. DEDUCED
(log entry 46): the abandon and the profiles-valid byte are 1 for set and 0 for clear, and the profile-in-force byte is 0 for BRISK
and 1 for LULL, as in the profile byte of a BAD_PROFILE refusal; R188 gives no codes for them. -/
def LineReport.bytes (r : LineReport) : List Byte :=
  [byteOf r.run.code, boolByte r.abandon, byteOf r.engine.code, boolByte r.profilesValid, byteOf r.inForce.code,
   byteOf r.pace.code, byteOf r.urgentDepth, byteOf r.routineDepth] ++ leBytes 4 r.round.toNat ++
  [byteOf r.rosterSize,
   byteOf (r.huntPending.toNat + 2 * r.huntActive.toNat + 4 * r.held.toNat + 8 * r.sweepHalted.toNat), 0, 0] ++
  leBytes 4 r.stats.attempts.toNat ++ leBytes 4 r.stats.failed.toNat ++ leBytes 4 r.stats.collisions.toNat ++
  leBytes 4 r.stats.overruns.toNat ++ leBytes 4 r.stats.alertPulses.toNat

/-- The body of an ADMIN completion from byte 24 (R188). -/
def AdminBody.bytes : AdminBody → List Byte
  | .none => []
  | .node x => x.bytes
  | .cancel tag count => leBytes 2 tag.toNat ++ [byteOf count]
  | .line r => r.bytes

/-- The profile and field number of a BAD_PROFILE refusal, bytes 20 and 21 (R188). DESIGN CHOICE (log entry 42): in every other
refusal they are 0, as an unused field is. -/
def Reason.profileBytes : Reason → List Byte
  | .badProfile sel field => [byteOf sel.code, byteOf field]
  | _ => [0, 0]

/-- The common shape of a completion record: kind, line, outcome, detail, tag, node, attempts, verdict, status, length,
command, latency, finish time, profile bytes, zero bytes, and 40 bytes of payload or body (R188). DESIGN CHOICE (log entry
43): the bytes behind a payload or a body, which no layout names, are 0. -/
def completionBytes (kind line outcome detail : Byte) (tag : Half) (node attempts verdict status length command : Byte)
    (latency : List Byte) (finish : Word) (profile : List Byte) (body : List Byte) : List Byte :=
  [kind, line, outcome, detail] ++ leBytes 2 tag.toNat ++ [node, attempts, verdict, status, length, command] ++ latency ++
    leBytes 4 finish.toNat ++ profile ++ [0, 0] ++ padTo 40 body

/-- A completion record as its 64 bytes (R149, R188). An absent field is written as its absent code and an unused one
as 0. An ADMIN record uses the line and the node address, so that both are absent where its command names none (log
entry 20); bytes 20 and 21 of a DONE one are 0 (log entry 42). -/
def Completion.bytes : Completion → List Byte
  | .exchange r =>
    let reply := r.last.bind (·.reply)
    completionBytes 1 (byteOf r.line) (byteOf r.outcome.code) (byteOf r.detail.code) r.tag (byteOf r.node)
      (byteOf r.attempts) ((r.last.map fun a => byteOf a.verdict.code).getD 0)
      ((reply.map fun p => byteOf p.status.code).getD 0xFF) ((reply.map fun p => byteOf p.payload.length).getD 0xFF) 0
      (latencyBytes (r.last.bind (·.latency))) r.finish [0, 0]
      (padTo 32 ((reply.map (·.payload)).getD []))
  | .admin r =>
    match r.outcome with
    | .done body =>
      completionBytes 2 (r.line.getD 0xFF) 0 0 r.tag (r.node.getD 0xFF) 0 0 0 0 r.command [0, 0, 0, 0] r.finish [0, 0]
        body.bytes
    | .refused reason =>
      completionBytes 2 (r.line.getD 0xFF) 1 (byteOf reason.code) r.tag (r.node.getD 0xFF) 0 0 0 0 r.command [0, 0, 0, 0]
        r.finish reason.profileBytes []
  | .nodeEvent n x t =>
    completionBytes 3 (byteOf n) (byteOf x.state.code) 0 0 (byteOf x.addr) 0 0 0 0 0 [0, 0, 0, 0] t [0, 0] x.eventBytes
  | .lineEvent n e t =>
    completionBytes 4 (byteOf n) (byteOf e.code) 0 0 0 0 0 0 0 0 [0, 0, 0, 0] t [0, 0] []
  | .alert n a t =>
    completionBytes 5 (byteOf n) 0 0 0 (byteOf a) 0 0 0 0 0 [0, 0, 0, 0] t [0, 0] []

/-- The status block with the values held now (R141, R188). -/
def State.statusBytes (s : State) : List Byte :=
  padTo 64 (leBytes 2 s.adminRing.taken.toNat ++ leBytes 2 s.lineRings.q0.taken.toNat ++
    leBytes 2 s.lineRings.q1.taken.toNat ++ leBytes 2 s.lineRings.q2.taken.toNat ++
    leBytes 2 s.lineRings.q3.taken.toNat ++ leBytes 2 s.cu.produced.toNat ++
    [byteOf s.part.code, byteOf s.power.state.code, byteOf s.adminRing.state.code, byteOf s.lineRings.q0.state.code,
     byteOf s.lineRings.q1.state.code, byteOf s.lineRings.q2.state.code, byteOf s.lineRings.q3.state.code])

/-- The bytes of a slot body grant from byte 4 of the slot: all 60 for a wire write, bytes 4 to 15 for a non-wire write,
which leaves the payload area as it was (R108, R188). -/
def SlotBody.bytes : SlotBody → List Byte
  | .wire o reply latency finish =>
    [byteOf o.code, (reply.map fun p => byteOf p.status.code).getD 0xFF,
     (reply.map fun p => byteOf p.payload.length).getD 0, 0] ++ latencyBytes latency ++ leBytes 4 finish.toNat ++
    padTo 48 (padTo 32 ((reply.map (·.payload)).getD []))
  | .nonWire o finish =>
    [byteOf o.code, 0xFF, 0, 0, 0xFF, 0xFF, 0xFF, 0xFF] ++ leBytes 4 finish.toNat

end Sys2Proof.Machine
end

