-- ==== Sys2Proof/Machine/Sweep.lean ====
section
/-! DEFINITION. The sweep of a line (chapter 6) and the probe list (3.5): slot writes and the writer, due lists, round
starts, overruns, and the table edits. -/

namespace Sys2Proof.Machine

/-! ### The sweep-image writer (R109) -/

/-- A free writer takes its oldest waiting write and starts with the body. -/
def Writer.start (w : Writer) : Writer :=
  match w.busy, w.waiting with
  | none, x :: xs => ⟨xs, some (x, .body)⟩
  | _, _ => w

/-- A write joins the pending set: it replaces a waiting write for the same index in its place, or joins the end. -/
def joinWrites (w : SlotWrite) : List SlotWrite → List SlotWrite
  | [] => [w]
  | x :: xs => if x.index == w.index then w :: xs else x :: joinWrites w xs

/-- A slot write is queued for an index, at the address the image base gives now (R109); while the sweep is halted it is
discarded at once (R114). A line with no base has no entry that runs (R98, R100). -/
def Line.queueSlot (l : Line) (index : Nat) (stamp : Word) (body : SlotBody) : Line :=
  match l.imageBase with
  | none => l
  | some base =>
    if l.sweepHalted then l
    else
      let w : SlotWrite := ⟨index, base + BitVec.ofNat 64 (64 * index), stamp, body⟩
      { l with writer := Writer.start ⟨joinWrites w l.writer.waiting, l.writer.busy⟩ }

/-- The writer asks for the stamp grant once the body grant has completed (R109). -/
def Line.bodyWritten (l : Line) : Line :=
  match l.writer.busy with
  | some (w, .body) => { l with writer := { l.writer with busy := some (w, .stamp) } }
  | _ => l

/-- The stamp grant has completed: the next waiting write starts (R109). -/
def Line.stampWritten (l : Line) : Line :=
  { l with writer := Writer.start ⟨l.writer.waiting, none⟩ }

/-- A bus error on a slot write halts the line's sweep (R114). -/
def Line.sweepFault (l : Line) : Line :=
  { l with writer := ⟨[], none⟩, sweepHalted := true, due := [], owed := { l.owed with sweepWriteFault := true } }

/-! ### The sweep table (R97) -/

/-- The entry at an index, if the index is 0 to 47 and the entry is set. -/
def Line.sweepAt (l : Line) (i : Nat) : Option SweepEntry := (l.sweep[i]?).join

/-- The line with the entry at an index replaced. -/
def Line.putSweep (l : Line) (i : Nat) (e : Option SweepEntry) : Line := { l with sweep := l.sweep.setIfInBounds i e }

/-- Some entry of the table is set. -/
def Line.anySweep (l : Line) : Bool := l.sweep.toList.any (·.isSome)

/-- Some set entry names the node (R47). -/
def Line.sweepNames (l : Line) (a : Nat) : Bool :=
  l.sweep.toList.any fun e => match e with
    | some e => e.node == a
    | none => false

/-- An entry is due in a round when (round − 1) mod cadence equals its phase (R103). -/
def SweepEntry.dueIn (e : SweepEntry) (round : Word) : Bool := (round.toNat - 1) % e.cadence == e.phase

/-- The indices due in a round, ascending (R103). -/
def Line.dueIn (l : Line) (round : Word) : List Nat :=
  (List.range Config.sweepEntries).filter fun i =>
    match l.sweepAt i with
    | some e => e.dueIn round
    | none => false

/-! ### Round starts (R103) -/

/-- The number of the round after a round: 1 follows 4,294,967,295 (R101). -/
def nextRound (r : Word) : Word := if r = 0xFFFFFFFF#32 then 1 else r + 1

/-- The current exchange is a sweep exchange whose index is listed. -/
def Current.sweepIn (c : Current) (due : List Nat) : Bool :=
  match c.origin with
  | .sweep i _ => due.contains i
  | _ => false

/-- The overrun of R111 on a line whose due list still holds entries: they are written MISSED with the ending round's
stamp, the overrun is counted and owed, and a current sweep exchange among them is superseded (R112). -/
def Line.overrun (x : Ctx) (l : Line) : Line :=
  let m := l.due.foldl (fun k i => k.queueSlot i l.round (.nonWire .missed x.now)) l
  { m with
    stats := { l.stats with overruns := satInc l.stats.overruns }
    owed := { l.owed with sweepOverrun := true }
    current := l.current.map fun c => { c with superseded := c.superseded || c.sweepIn l.due } }

/-- Steps 1 and 2 of the roster pass on one record (R43). -/
def Node.roundPass (p : Profile) (x : Node) : Node :=
  match x.state with
  | .silent => { x with roundsSilent := if 65535 ≤ x.roundsSilent then 1 else x.roundsSilent + 1 }
  | .joining => if p.joinLimit ≤ x.joinProbes then x.silence else x
  | .active => x
  | .barred => x

/-- Step 3 of the roster pass: the record is due for a probe in this round (R43). -/
def Node.probeDue (p : Profile) (x : Node) : Bool :=
  match x.state with
  | .joining => true
  | .silent => p.probeInterval != 0 && x.roundsSilent != 0 && x.roundsSilent % p.probeInterval == 0
  | .active => false
  | .barred => false

/-- A round starts with a round number (R103): overrun, counter, timer, due list, roster pass and probe list, turn
flag. The sweep period is the target profile's; the join limit and probe interval are the profile in force's (R26). -/
def Line.startRound (x : Ctx) (r : Word) (l : Line) : Line :=
  let k := if l.due.isEmpty then l else l.overrun x
  let roster := k.roster.map (Node.roundPass k.profile)
  { k with
    round := r
    roundTimer := some ((k.profileOf x.power.target).sweepPeriod * Config.clocksPerMillisecond)
    due := if k.sweepHalted then [] else k.dueIn r
    roster := roster
    probes := (roster.filter (Node.probeDue k.profile)).map (·.addr)
    turn := .sweep }

/-- A PARKED line unparks (R181): its engine goes to IDLE and the next round starts. Pace pending follows the change of
target (R28). -/
def Line.unpark (x : Ctx) (l : Line) : Line :=
  if l.engine = .parked then { l with engine := .idle }.startRound x (nextRound l.round) else l

end Sys2Proof.Machine
end

