-- ==== Sys2Proof/Machine/Arbiter.lean ====
section
/-! DEFINITION. The end of an exchange and the Line Arbiter (chapters 4, 5 and 7): how a finished exchange is handed
on, how the next one is selected, and what a line does at an exchange boundary. -/

namespace Sys2Proof.Machine

/-! ### Handing on a finished exchange -/

/-- The origin is a host exchange. -/
def Origin.isHost : Origin → Bool
  | .host _ _ => true
  | _ => false

/-- The origin is a PACE. -/
def Origin.isPace : Origin → Bool
  | .pace _ => true
  | _ => false

/-- The outcome that an exchange takes from its last verdict (R64). -/
def outcomeOf : Verdict → ExOutcome
  | .good => .done
  | .goodAlert => .done
  | .sent => .done
  | .goodBusy => .nodeBusy
  | .goodReject => .nodeReject
  | .timeout => .noReply
  | .collision => .collided
  | .broken => .badReply
  | .charError => .badReply
  | .crcError => .badReply
  | .lengthError => .badReply
  | .wrongNode => .badReply
  | .stale => .badReply
  | .badStatus => .badReply

/-- The slot body of a sweep exchange that ended now (R106, R108). -/
def Current.slotBody (c : Current) (now : Word) : SlotBody :=
  match c.last with
  | none => .nonWire .skipped now
  | some r =>
    match r.verdict with
    | .good => .wire .good r.reply r.latency now
    | .goodAlert => .wire .good r.reply r.latency now
    | .goodBusy => .wire .good r.reply r.latency now
    | .goodReject => .wire .good r.reply r.latency now
    | .timeout => .wire .noReply none none now
    | .collision => .wire .collided none none now
    | .broken => .wire .badReply none r.latency now
    | .charError => .wire .badReply none r.latency now
    | .crcError => .wire .badReply none r.latency now
    | .lengthError => .wire .badReply none r.latency now
    | .wrongNode => .wire .badReply none r.latency now
    | .stale => .wire .badReply none r.latency now
    | .badStatus => .wire .badReply none r.latency now
    | .sent => .wire .badReply none r.latency now

/-- The EXCHANGE completion of a host exchange that was current (R69). -/
def Current.record (x : Ctx) (c : Current) (tag : Half) (o : ExOutcome) : ExchangeRec :=
  { line := x.n, outcome := o, detail := if c.wentSilent then .wentSilent else .none, tag := tag, node := c.node,
    attempts := c.attempts, last := c.last, finish := x.now }

/-- A finished hunt step is handed to the hunt (R121): if its hunt is still active the cursor takes its address, and the
hunt ends empty if no ACTIVE record lies ahead, with the test for a follow-up (R123). DEDUCED (log entry 36): a node that
R127 lets be stepped later lies ahead, although R121 counts the addresses above the cursor alone. -/
def Line.huntStepEnd (x : Ctx) (c : Current) (l : Line) : Line :=
  match l.hunt with
  | some w =>
    if c.huntLive then
      if ((w.stepped c.node).next l.roster).isSome then { l with hunt := some (w.stepped c.node) }
      else l.huntEmpty.activateHunt x
    else l
  | none => l

/-- The current exchange ends with an outcome (R68): the record is removed, the engine goes to IDLE, and the contents
are handed on by origin; the turn flag changes as R82 gives. Only a host exchange carries the outcome: a sweep slot
follows the last verdict (R106). -/
def Line.endExchange (x : Ctx) (c : Current) (o : ExOutcome) (l : Line) : Line :=
  let b := { l with engine := .idle, current := none, att := Attempt.clear }
  match c.origin with
  | .host cls tag =>
    { b with holdSlot := some (c.record x tag o), turn := if cls = .routine then .sweep else b.turn }
  | .sweep i r =>
    let t := { b with turn := .routine }
    if c.superseded then t else t.queueSlot i r (c.slotBody x.now)
  | .probe => b
  | .hunt => b.huntStepEnd x c
  | .pace a => { b with inForce := a, pace := if x.power.target = a then b.pace else .switch }

/-- The current exchange is cut off (R70): the engine goes OFF and the exchange ends without a further attempt. A host
exchange leaves its completion in the hold slot with the cut-off's outcome; nothing of another origin is handed on. The
turn flag takes the end as any other (R82). -/
def Line.cutOff (x : Ctx) (o : ExOutcome) (l : Line) : Line :=
  match l.current with
  | none => l.engineOff
  | some c =>
    match c.origin with
    | .host cls tag =>
      { l.engineOff with
        current := none, holdSlot := some (c.record x tag o), turn := if cls = .routine then .sweep else l.turn }
    | .sweep _ _ => { l.engineOff with current := none, turn := .routine }
    | .probe => { l.engineOff with current := none }
    | .hunt => { l.engineOff with current := none }
    | .pace _ => { l.engineOff with current := none }

/-! ### Selection (R80 to R85) -/

/-- The engine enters LEAD with a wait in bit times (R12, R58). -/
def Line.enterLead (l : Line) (wait : Nat) : Line :=
  { l with engine := .lead, att := { Attempt.clear with wait := wait } }

/-- The wait before the first attempt of an exchange (R58). -/
def Line.firstWait (l : Line) : Nat := if l.settleOwed then 2 * l.profile.leadGap else l.profile.leadGap

/-- The selected work becomes the current exchange and the engine enters LEAD (R59, R80). -/
def Line.makeCurrent (l : Line) (origin : Origin) (node : Nat) (code : Byte) (payload : List Byte) (retries : Nat) :
    Line :=
  let c : Current :=
    { origin := origin, node := node, code := code, payload := payload, retryLimit := retries, profile := l.inForce,
      toggle := false, attempts := 0, last := none, wentSilent := false, cancelReq := false, barred := false,
      superseded := false, huntLive := origin == .hunt }
  { (l.enterLead l.firstWait) with current := some c }

/-- What examining the sources once gives: an exchange made current, work disposed of without reaching the wire, or no
work. -/
inductive Pick where
  | made (l : Line)
  | again (l : Line)
  | nothing
deriving DecidableEq, Repr

/-- A waiting entry is refused at selection into the hold slot (R83). -/
def Line.refuseEntry (x : Ctx) (l : Line) (e : QEntry) (o : ExOutcome) : Line :=
  let r : ExchangeRec :=
    { line := x.n, outcome := o, detail := .none, tag := e.tag, node := e.node, attempts := 0, last := none,
      finish := x.now }
  { l with holdSlot := some r }

/-- The arbiter takes a waiting entry (R83). -/
def Line.takeEntry (x : Ctx) (l : Line) (e : QEntry) : Pick :=
  let k := { l with waiting := l.waiting.erase e }
  let run := k.makeCurrent (.host e.cls e.tag) e.node e.code e.payload e.retryLimit
  if e.node = 0 then .made run
  else
    match nodeState l.roster e.node with
    | some .active => .made run
    | none => .again (k.refuseEntry x e .nodeUnknown)
    | some .joining => .again (k.refuseEntry x e .nodeJoining)
    | some .silent => .again (k.refuseEntry x e .nodeSilent)
    | some .barred => .again (k.refuseEntry x e .nodeBarred)

/-- The oldest waiting entry of a class. -/
def Line.oldest (l : Line) (cls : QClass) : Option QEntry := l.waiting.find? (·.cls == cls)

/-- Host exchanges may be selected: RUNNING in ACTIVE or LULL, or DRAINING without the abandon flag, and not HELD
(R81, R86). -/
def Line.hostOpen (x : Ctx) (l : Line) : Bool :=
  ((l.run == .running && x.power.working) || (l.run == .draining && !l.abandon)) && !l.held

/-- The line's own sweep, hunt and probe work may be selected: RUNNING in ACTIVE or LULL (R81). -/
def Line.ownOpen (x : Ctx) (l : Line) : Bool := l.run == .running && x.power.working

/-- A pending PACE becomes the PACE exchange announcing the target (R29). -/
def Line.takePace (x : Ctx) (l : Line) : Line :=
  { l with pace := .none }.makeCurrent (.pace x.power.target) 0 0x01 (pacePayload (l.profileOf x.power.target)) 3

/-- The arbiter takes the first due sweep entry (R105). -/
def Line.takeSweep (x : Ctx) (l : Line) (i : Nat) (rest : List Nat) : Pick :=
  let k := { l with due := rest }
  match l.sweepAt i with
  | none => .again k
  | some e =>
    if nodeState l.roster e.node = some .active then
      .made (k.makeCurrent (.sweep i l.round) e.node e.code e.payload e.retryLimit)
    else .again (k.queueSlot i l.round (.nonWire .skipped x.now))

/-- The probes of the round not yet started (R45): those on the probe list. On a line whose engine is OFF there are none. DEDUCED
(log entry 38): as the part enters FAULTED they are dropped so (R45), with the list staying as it was (R56). -/
def Line.probesToStart (l : Line) : List Nat := if l.engine = .off then [] else l.probes

/-- The next probe to start: JOINING before SILENT, each in list order; then those no longer due (R43, R44). -/
def Line.nextProbe (l : Line) : Option Nat :=
  match l.probesToStart.find? fun a => nodeState l.roster a == some .joining with
  | some a => some a
  | none =>
    match l.probesToStart.find? fun a => nodeState l.roster a == some .silent with
    | some a => some a
    | none => l.probesToStart.head?

/-- The arbiter takes a due probe, or drops its address (R44). An address whose record was removed and added again in the round is
not on the list (log entry 37). -/
def Line.takeProbe (l : Line) (a : Nat) : Pick :=
  let k := { l with probes := l.probes.erase a }
  if stateAllows true (nodeState l.roster a) then .made (k.makeCurrent .probe a 0x00 [] 0) else .again k

/-- Source 5 of R81. -/
def Line.pickProbe (x : Ctx) (l : Line) : Pick :=
  if l.ownOpen x then
    match l.nextProbe with
    | some a => l.takeProbe a
    | none => .nothing
  else .nothing

/-- The first due entry, if the sweep has work (R81, R105). -/
def Line.sweepWork (x : Ctx) (l : Line) : Option (Nat × List Nat) :=
  if l.ownOpen x && !l.sweepHalted then
    match l.due with
    | i :: rest => some (i, rest)
    | [] => none
  else none

/-- The oldest waiting entry of a class, if host exchanges may be selected (R81). -/
def Line.hostWork (x : Ctx) (l : Line) (cls : QClass) : Option QEntry :=
  if l.hostOpen x then l.oldest cls else none

/-- Sources 4 and 5 of R81: a sweep entry or a ROUTINE entry by the turn flag (R82), then a probe. -/
def Line.pickTurn (x : Ctx) (l : Line) : Pick :=
  match l.sweepWork x, l.hostWork x .routine with
  | some (i, rest), some e => if l.turn = .sweep then l.takeSweep x i rest else l.takeEntry x e
  | some (i, rest), none => l.takeSweep x i rest
  | none, some e => l.takeEntry x e
  | none, none => l.pickProbe x

/-- Sources 3 to 5 of R81: a hunt step to the lowest ACTIVE address ahead of the walk, or the hunt's empty end
(R120, R123, R127). -/
def Line.pickHunt (x : Ctx) (l : Line) : Pick :=
  match (if l.ownOpen x then l.hunt else none) with
  | some w =>
    match w.next l.roster with
    | some a => .made (l.makeCurrent .hunt a 0x00 [] 0)
    | none => .again (l.huntEmpty.activateHunt x)
  | none => l.pickTurn x

/-- The sources of R81 examined once in their order. -/
def Line.pick (x : Ctx) (l : Line) : Pick :=
  if l.pace ≠ .none ∧ ¬ (l.run = .draining ∧ l.abandon) then .made (l.takePace x)
  else
    match l.hostWork x .urgent with
    | some e => l.takeEntry x e
    | none => l.pickHunt x

/-- The sources examined again while work is disposed of (R80). -/
def Line.selectLoop (x : Ctx) : Nat → Line → Line
  | 0, l => l
  | k + 1, l =>
    match l.pick x with
    | .made m => m
    | .again m => m.selectLoop x k
    | .nothing => l

/-- A selection (R80). Each disposal removes a due index, a probe address, a waiting entry (once, since the line is then
HELD) or an active hunt (at most twice), so the number of examinations is bounded. -/
def Line.select (x : Ctx) (l : Line) : Line := l.selectLoop x (l.due.length + l.probes.length + 4)

/-- The line rests at an exchange boundary: the engine is IDLE with no current exchange. -/
def Line.atBoundary (l : Line) : Bool := l.engine == .idle && l.current.isNone

/-- The arbiter's turn at a boundary (R80); with the abandon flag set it selects nothing and the waiting entries are
marked FLUSHED (R81, R92). -/
def Line.arbitrate (x : Ctx) (l : Line) : Line :=
  if l.atBoundary then
    match l.run with
    | .running => l.select x
    | .draining => if l.abandon then l.markAll .flushed x.now else l.select x
    | .quiet => l
    | .faulted => l
  else l

/-- A DRAINING line with an empty queue and no current exchange becomes QUIET (R91). -/
def Line.drainEnd (x : Ctx) (l : Line) : Line :=
  if l.run == .draining && l.waiting.isEmpty && l.ended.isEmpty && l.current.isNone then l.becomeQuiet x else l

/-- In DOZE_PENDING a RUNNING line at a boundary with no pace pending parks (R179). -/
def Line.park (x : Ctx) (l : Line) : Line :=
  if l.run == .running && x.power == .dozePending && l.atBoundary && l.pace == .none then { l with engine := .parked }
  else l

/-- All that a Line Unit does by itself once an event has reached it: the hunt test, the arbiter, the end of a drain,
and parking. -/
def Line.settle (x : Ctx) (l : Line) : Line := (((l.activateHunt x).arbitrate x).drainEnd x).park x

end Sys2Proof.Machine
end

