-- ==== Sys2Proof/Machine/Engine.lean ====
section
/-! DEFINITION. The Line Engine (chapters 1 and 4): what an attempt does on the wire, its verdict and what follows it,
the effects of long spaces, and how long it is until each happening of a line comes about. -/

namespace Sys2Proof.Machine

/-! ### The end of an attempt (R61) -/

/-- Step 5 of R61: the outcome with which the exchange ends, or none for a retry. -/
def Line.decision (x : Ctx) (c : Current) (v : Verdict) (l : Line) : Option ExOutcome :=
  if c.cancelReq then some .cancelled
  else if c.barred then some .nodeBarred
  else if v = .good ∨ v = .goodAlert ∨ v = .goodReject ∨ v = .sent then some (outcomeOf v)
  else if c.wentSilent then some (outcomeOf v)
  else if x.power = .dozePending ∧ ¬ c.origin.isPace then some (outcomeOf v)
  else if l.abandon then
    -- DEDUCED: step f with a retry left ends FLUSHED, without one it keeps its own outcome (R67, R93; log entry 9)
    if c.origin.isHost ∧ c.attempts ≤ c.retryLimit then some .flushed else some (outcomeOf v)
  else if c.retryLimit < c.attempts then some (outcomeOf v)
  else none

/-- The wait before a retry (R58, R62). -/
def Line.retryWait (l : Line) (v : Verdict) : Nat :=
  if l.settleOwed then 2 * l.profile.leadGap
  else if v = .goodBusy then l.profile.busyPause
  else l.profile.retryGap

/-- Steps 1 to 4 of R61 on the line: the result is stored, the roster and the statistics take the verdict, a COLLISION
owes a settle, and a found alert ends an active hunt (R122). -/
def Line.takeVerdict (x : Ctx) (c : Current) (v : Verdict) (reply : Option Reply) (latency : Option Word) (l : Line) :
    Line × Current :=
  let before := findNode l.roster c.node
  let counted := c.origin == .probe && !c.barred
  let roster := if c.node = 0 then l.roster
    else updateNode l.roster c.node (Node.onVerdict x.now l.profile counted v)
  let silenced := (before.map (·.state)) != some .silent && nodeState roster c.node == some .silent
  let found := (before.map (foundAlert v)).getD false
  let c1 : Current :=
    { c with last := some ⟨v, reply, latency, c.node⟩, wentSilent := c.wentSilent || silenced,
             huntLive := c.huntLive && !found }
  let stats : Stats :=
    { l.stats with
      failed := if v.heard || v == .sent then l.stats.failed else satInc l.stats.failed
      collisions := if v == .collision then satInc l.stats.collisions else l.stats.collisions }
  ({ l with roster := roster, stats := stats, settleOwed := l.settleOwed || v == .collision,
            hunt := if found then none else l.hunt, current := some c1 }, c1)

/-- An attempt ends with a verdict (R61): the record updates, then a retry in LEAD or the end of the exchange. -/
def Line.onVerdict (x : Ctx) (c : Current) (v : Verdict) (reply : Option Reply) (latency : Option Word) (l : Line) :
    Line :=
  let (k, c1) := l.takeVerdict x c v reply latency
  match k.decision x c1 v with
  | none => k.enterLead (k.retryWait v)
  | some o => k.endExchange x c1 o

/-- An attempt ends with a verdict that hands on no contents, and its exchange is left as it is, in the wait before a retry. -/
def Line.attemptOver (x : Ctx) (c : Current) (v : Verdict) (latency : Option Word) (l : Line) : Line :=
  let k := (l.takeVerdict x c v none latency).1
  k.enterLead (k.retryWait v)

/-! ### Time limits

Each function answers how many reference clock periods are left until a happening of the line comes about as the line
stands, 0 when its moment has come, and none while the line's state rules it out. -/

/-- To the end of the LEAD wait: the count runs while the line is at mark (R12). -/
def Line.leadLeft (l : Line) : Option Nat :=
  if l.engine = .lead ∧ l.current.isSome = true ∧ l.wire.space = false then
    some (l.att.wait * l.profile.divisor - l.att.markCount)
  else none

/-- To the end of the HEADER stop bit, if it has not been accounted for (R41). -/
def Line.headerLeft (l : Line) : Option Nat :=
  if l.engine = .sending ∧ l.current.isSome = true ∧ l.att.headerDone = false then
    some (l.profile.charClocks - l.att.sent)
  else none

/-- To the end of the stop bit of the frame's character at `index`, 0 for the HEADER, if that has not gone by (R11). -/
def Line.charLeft (l : Line) (index : Nat) : Option Nat :=
  match l.current with
  | none => none
  | some c =>
    if l.engine = .sending ∧ index < c.frame.length ∧ l.att.sent ≤ (index + 1) * l.profile.charClocks then
      some ((index + 1) * l.profile.charClocks - l.att.sent)
    else none

/-- To the end of the frame's last stop bit (R13). -/
def Line.frameLeft (l : Line) : Option Nat :=
  match l.current with
  | none => none
  | some c =>
    if l.engine = .sending then some (c.frame.length * l.profile.charClocks - l.att.sent) else none

/-- The reply window has run out (R13). -/
def Line.windowOver (l : Line) : Bool := decide (l.profile.replyWindow * l.profile.divisor ≤ l.att.window)

/-- To the end of the reply window, with no transition awaiting its confirmation (R13). -/
def Line.windowLeft (l : Line) : Option Nat :=
  if l.engine = .awaiting ∧ l.current.isSome = true ∧ l.att.edge = none then
    some (l.profile.replyWindow * l.profile.divisor - l.att.window)
  else none

/-- To the sample half a bit time after the unconfirmed transition (R3, R13), rounded up with an odd divisor (log entry 22). -/
def Line.confirmLeft (l : Line) : Option Nat :=
  match l.att.edge with
  | none => none
  | some t =>
    if l.engine = .awaiting ∧ l.current.isSome = true then some (l.profile.halfBit - (l.att.window - t))
    else none

/-- To a confirmation that finds the line at space (R13, R17). -/
def Line.replyLeft (l : Line) : Option Nat := if l.wire.space then l.confirmLeft else none

/-- To the stop-bit sample of the character under way, whose bits are sampled one bit time apart from the confirmation of
its start bit (R3). DESIGN CHOICE (log entry 31): with none under way, to the earliest sample that a character can have: its
start bit falls now, or when the stop bit before it ends, or with the transition that awaits its confirmation. None while the
line has yet to return to mark after a framing error. -/
def Line.sampleLeft (l : Line) : Option Nat :=
  if l.engine = .receiving ∧ l.current.isSome = true then
    let p := l.profile
    match l.att.gap with
    | .stopped => some (p.fromConfirm - l.att.since)
    | .fromSample k => some (p.halfStop - k + p.halfBit + p.fromConfirm)
    | .fromMark _ => some (p.halfBit + p.fromConfirm)
    | .edge k _ _ => some (p.halfBit - k + p.fromConfirm)
    | .awaitMark => none
  else none

/-- To the moment at which the idle time between two characters exceeds the character gap limit (R15). A stop-bit sample
lies half a bit time before the stop bit's end; the limit and that half bit are taken together in whole periods, rounded down
(log entry 22). -/
def Line.gapLeft (l : Line) : Option Nat :=
  if l.engine = .receiving ∧ l.current.isSome = true then
    match l.att.gap with
    | .fromSample k => some (l.profile.charGap * l.profile.divisor + l.profile.halfStop + 1 - k)
    | .fromMark k => some (l.profile.charGap * l.profile.divisor + 1 - k)
    | .stopped => none
    | .awaitMark => none
    | .edge _ _ _ => none
  else none

/-- The engine states in which a run of space has its 22-bit-time effect (R4): in SENDING the echo fails first, and the
effect is taken in the state that follows (R117). -/
def Engine.takesLongSpace : Engine → Bool
  | .off => false
  | .idle => true
  | .lead => true
  | .sending => false
  | .awaiting => true
  | .receiving => true
  | .parked => true

/-- To the moment at which the run of space in progress reaches 22 bit times, if it has not had that effect (R4). -/
def Line.longLeft (l : Line) : Option Nat :=
  if l.engine.takesLongSpace = true ∧ l.wire.space = true ∧ l.wire.marked = false then
    some (Config.longSpaceBits * l.profile.divisor - l.wire.run)
  else none

/-- To the moment at which the run of space in progress reaches the stuck limit of the profile in force (R71). -/
def Line.stuckLeft (l : Line) : Option Nat :=
  if l.engine ≠ .off ∧ (l.run = .running ∨ l.run = .draining) ∧ l.wire.space = true then
    some (l.profile.stuckLimit * Config.clocksPerMillisecond - l.wire.run)
  else none

/-! ### Sending -/

/-- The first start bit of an attempt is driven (R60): the toggle is chosen on a first attempt (R10, R41). -/
def Line.beginAttempt (c : Current) (l : Line) : Line :=
  let toggle :=
    if c.attempts = 0 then
      if c.node = 0 then false else ((findNode l.roster c.node).map fun x => !x.lastToggle).getD false
    else c.toggle
  { l with
    engine := .sending, settleOwed := false, att := Attempt.clear
    stats := { l.stats with attempts := satInc l.stats.attempts }
    current := some { c with attempts := c.attempts + 1, toggle := toggle } }

/-- The LEAD wait is complete (R12, R35): the attempt begins, or is withdrawn and the exchange ends NODE_BARRED
(R66). -/
def Line.leadComplete (x : Ctx) (l : Line) : Line :=
  match l.current with
  | none => l
  | some c =>
    if c.node ≠ 0 ∧ (c.barred ∨ stateAllows (c.origin == .probe) (nodeState l.roster c.node) = false) then
      l.endExchange x c .nodeBarred
    else l.beginAttempt c

/-- The HEADER stop bit has ended: on the first attempt of a non-broadcast exchange the record takes the toggle (R41). -/
def Line.headerDriven (c : Current) (l : Line) : Line :=
  { l with
    att := { l.att with headerDone := true }
    roster := if c.node ≠ 0 ∧ c.attempts = 1 then
        updateNode l.roster c.node fun x => { x with lastToggle := c.toggle }
      else l.roster }

/-- The HEADER of the attempt on the wire has been driven whole (R41). -/
def Line.headerEnd (l : Line) : Line :=
  match l.current with
  | none => l
  | some c => l.headerDriven c

/-- The HEADER is accounted for before anything later in the same frame (R10, R11). -/
def Line.withHeader (c : Current) (l : Line) : Line := if l.att.headerDone then l else l.headerDriven c

/-- The echo of the frame's character at `index` fails its check (R11). -/
def Line.echoFailsAt (l : Line) (index : Nat) (echo : Echo) : Bool :=
  match l.current with
  | none => false
  | some c =>
    match c.frame[index]? with
    | none => false
    | some b => echoFails l.profile.parity b echo

/-- An echo check has failed, and the character's stop bit has ended: the attempt ends COLLISION (R11). -/
def Line.collide (x : Ctx) (l : Line) : Line :=
  match l.current with
  | none => l
  | some c => (l.withHeader c).onVerdict x c .collision none none

/-- The request has been sent whole with its echo good (R7, R13): a broadcast ends SENT, and an addressed request opens
the reply window. -/
def Line.frameEnd (x : Ctx) (l : Line) : Line :=
  match l.current with
  | none => l
  | some c =>
    let k := l.withHeader c
    if c.node = 0 then k.onVerdict x c .sent none none
    else { k with engine := .awaiting, att := Attempt.clear }

/-! ### Receiving -/

/-- The reply window ends with no reply begun (R13). -/
def Line.windowEnd (x : Ctx) (l : Line) : Line :=
  match l.current with
  | none => l
  | some c => l.onVerdict x c .timeout none none

/-- The latency in microseconds of a reply whose start bit began at a count of the reply window (R17). -/
def latencyOf (t : Nat) : Word := BitVec.ofNat 32 (t / Config.clocksPerMicrosecond)

/-- The reply's start bit is confirmed (R13, R17). -/
def Line.replyBegin (l : Line) : Line :=
  { l with engine := .receiving, att := { Attempt.clear with latency := l.att.edge.map latencyOf } }

/-- The levels that the receiver samples for a character, in order, true for mark (R3): the start bit at space, the data bits
least significant first, the parity bit of a profile with parity, and the stop bit. -/
def sampledLevels (p : Parity) (ch : RxChar) : List Bool :=
  [false] ++ (List.range 8).map ch.data.getLsbD ++ (if p = .none then [] else [ch.parity]) ++ [ch.stop]

/-- How many samples at the end of a character are at space without a break: 0 for a stop bit at mark, and all of them for a
character of 0 bits whose stop bit is at space too. -/
def spaceTail (p : Parity) (ch : RxChar) : Nat := ((sampledLevels p ch).reverse.takeWhile fun level => !level).length

/-- How long before now the stop-bit sample of the character under way fell, if its row comes late. -/
def Attempt.sampleAge (p : Profile) (a : Attempt) : Nat :=
  match a.gap with
  | .stopped => a.since - p.fromConfirm
  | .fromSample _ => 0
  | .awaitMark => 0
  | .fromMark _ => 0
  | .edge _ _ _ => 0

/-- The receive pin after a reply character whose stop-bit sample fell `age` periods ago. A good stop bit shows it at mark. After a
framing error the run of space goes on as measured from its transition (R3, R4). DESIGN CHOICE (log entry 31): where nobody reported
that transition, the pin being at mark or the run reaching back over a sample at mark, the run began at the edge of the first bit of
the unbroken space that the samples show, half a bit time before that bit's sample. -/
def Wire.sampled (p : Profile) (ch : RxChar) (age : Nat) (w : Wire) : Wire :=
  if ch.stop then Wire.idle
  else
    let n := spaceTail p.parity ch
    if w.space = true ∧ (n < p.charBits → w.run ≤ n * p.divisor + age) then w
    else ⟨true, (n - 1) * p.divisor + p.halfBit + age, false⟩

/-- The engine's assembler after a reply character (R14): the character joins the frame, the first error in time marks
it, and a clean LENGTH of 0 to 32 gives the frame's length. -/
def Attempt.takeChar (p : Parity) (ch : RxChar) (a : Attempt) : Attempt :=
  let third := a.chars.length == 2
  let bad := characterError p ch
  let long := third && decide (Config.maxPayload < ch.data.toNat)
  { a with
    chars := a.chars ++ [ch.data]
    mark := if a.mark.isSome then a.mark
      else if bad then some .charError
      else if long then some .lengthError
      else none
    expect := if third && !bad && !long then some (5 + ch.data.toNat) else a.expect
    since := 0
    gap := if ch.stop then .fromSample 0 else .awaitMark }

/-- The frame being received is at its end (R14): its known length, or 37 characters. -/
def Attempt.frameDone (a : Attempt) : Bool :=
  match a.expect with
  | some n => decide (n ≤ a.chars.length)
  | none => decide (Config.longestReply ≤ a.chars.length)

/-- The verdict and contents of a frame at its end (R18 steps 2 to 7). -/
def Attempt.judge (c : Current) (a : Attempt) : Verdict × Option Reply :=
  match a.mark with
  | some .charError => (.charError, none)
  | some .lengthError => (.lengthError, none)
  | none => judgeReply c.node c.toggle a.chars

/-- A reply character is taken, and the frame is judged at its end (R14, R18). -/
def Line.replyCharacter (x : Ctx) (ch : RxChar) (l : Line) : Line :=
  match l.current with
  | none => l
  | some c =>
    let k := { l with att := l.att.takeChar l.profile.parity ch, wire := l.wire.sampled l.profile ch (l.att.sampleAge l.profile) }
    if k.att.frameDone then
      let (v, reply) := k.att.judge c
      k.onVerdict x c v reply k.att.latency
    else k

/-- The verdict of a frame that ends by its gap: BROKEN, or the frame's earlier mark (R15, R18). -/
def Attempt.gapVerdict (a : Attempt) : Verdict :=
  match a.mark with
  | some .charError => .charError
  | some .lengthError => .lengthError
  | none => .broken

/-- The idle time between two reply characters exceeds its limit (R15). -/
def Line.gapEnd (x : Ctx) (l : Line) : Line :=
  match l.current with
  | none => l
  | some c => l.onVerdict x c l.att.gapVerdict none l.att.latency

/-! ### Spaces -/

/-- An alert pulse or a broken reply: hunt-pending is set and the pulse counted (R16, R116, R180). -/
def Line.countPulse (l : Line) : Line :=
  { l with
    huntPending := true
    stats := { l.stats with alertPulses := satInc l.stats.alertPulses }
    wire := { l.wire with marked := true } }

/-- The latency an attempt broken by a long space carries: captured in RECEIVING, or that of the start bit the run began
with in AWAITING (R16, R17). DESIGN CHOICE (log entry 45): a run that was in progress as the reply window opened began with no
transition in the window, against R16's words that it always begins as a start bit, and its latency is absent. -/
def Attempt.brokenLatency (a : Attempt) : Option Word :=
  match a.latency with
  | some t => some t
  | none => a.edge.map latencyOf

/-- A run of space reaches 22 bit times (R16, R116, R180). -/
def Line.longSpaceEffect (x : Ctx) (l : Line) : Line :=
  let k := l.countPulse
  match l.engine with
  | .off => l
  | .sending => l
  | .idle => k
  | .lead => k
  | .parked => { k with owed := { k.owed with alertPulseInDoze := true } }
  | .awaiting =>
    match l.current with
    | some c => k.onVerdict x c .broken none l.att.brokenLatency
    | none => k
  | .receiving =>
    match l.current with
    | some c => k.onVerdict x c .broken none l.att.brokenLatency
    | none => k

/-- The attempt of an exchange under a cancel or a bar, on a line that is then found stuck: it ends COLLISION, or BROKEN with the
22-bit-time effect that the run has not had (R11, R16, R71), and it is left to the cut-off to end the exchange (R74). -/
def Line.attemptFirst (x : Ctx) (l : Line) : Line :=
  match l.current with
  | none => l
  | some c =>
    if c.cancelReq || c.barred then
      match l.engine with
      | .sending => (l.withHeader c).attemptOver x c .collision none
      | .awaiting => if l.wire.marked then l else l.countPulse.attemptOver x c .broken l.att.brokenLatency
      | .receiving => if l.wire.marked then l else l.countPulse.attemptOver x c .broken l.att.brokenLatency
      | .off => l
      | .idle => l
      | .lead => l
      | .parked => l
    else l

/-- A line found stuck enters FAULTED (R72): cut-off, LINE_FAULT for the current and the waiting host exchanges, the
round dropped, the hunt frozen, FAULTED owed, and the target profile taken. -/
def Line.becomeFaulted (x : Ctx) (l : Line) : Line :=
  let k := (((l.cutOff x .lineFault).markAll .lineFault x.now).dropRound).takeTarget x
  { k with run := .faulted, abandon := false, owed := { k.owed with faulted := true } }

/-- A transition to space in RECEIVING (R3, R15): the idle count ends, and the transition awaits its sample. Inside a
character, and in the space after a framing error, it starts nothing. DESIGN CHOICE (log entry 48): once the stop bit has been
sampled a character may begin, so a transition in the second half of that stop bit, `halfStop` periods long, is one too. -/
def Gap.toSpace (halfStop : Nat) : Gap → Gap
  | .stopped => .stopped
  | .awaitMark => .awaitMark
  | .fromSample k => .edge 0 none (halfStop - k)
  | .fromMark _ => .edge 0 none 0
  | .edge k _ stop => .edge k none stop

/-- A return to mark in RECEIVING (R3, R15): it ends the wait after a framing error, and may prove the transition before it a
glitch. -/
def Gap.toMark : Gap → Gap
  | .stopped => .stopped
  | .awaitMark => .fromMark 0
  | .fromSample k => .fromSample k
  | .fromMark k => .fromMark k
  | .edge k none stop => .edge k (some 0) stop
  | .edge k (some b) stop => .edge k (some b) stop

/-- A glitch in RECEIVING (R3). DEDUCED (log entry 16): outside a character the idle count starts again from the return to mark,
which is now unless it was reported, and not before the end of the stop bit (R15). -/
def Gap.glitch (halfStop : Nat) : Gap → Gap
  | .stopped => .stopped
  | .awaitMark => .fromMark 0
  | .fromSample k => if k < halfStop then .fromSample k else .fromMark 0
  | .fromMark _ => .fromMark 0
  | .edge k back stop =>
    if k < stop then .fromSample (halfStop - (stop - k)) else .fromMark (min (back.getD 0) (k - stop))

/-- LINE_ACTIVITY on the receive pin, and what the engine's counts make of it (R12, R13, R15). -/
def Line.lineActivity (x : Ctx) (a : Activity) (l : Line) : Line :=
  match a with
  | .toSpace =>
    if l.wire.space then l
    else
      let k := { l with wire := ⟨true, 0, false⟩ }
      match l.engine with
      | .lead => { k with att := { l.att with markCount := 0 } }
      | .awaiting =>
        if l.att.edge.isNone && decide (l.att.window ≤ l.profile.replyWindow * l.profile.divisor) then
          { k with att := { l.att with edge := some l.att.window } }
        else k
      | .receiving => { k with att := { l.att with gap := l.att.gap.toSpace l.profile.halfStop } }
      | .off => k
      | .idle => k
      | .sending => k
      | .parked => k
  | .toMark =>
    if l.wire.space then
      let k := { l with wire := Wire.idle }
      match l.engine with
      | .lead => { k with att := { l.att with markCount := 0 } }
      | .receiving => { k with att := { l.att with gap := l.att.gap.toMark } }
      | .off => k
      | .idle => k
      | .sending => k
      | .awaiting => k
      | .parked => k
    else l
  | .glitch =>
    let k := { l with wire := Wire.idle }
    match l.engine with
    | .lead => { k with att := { l.att with markCount := 0 } }
    | .awaiting =>
      match l.current with
      | some c =>
        if l.att.edge.isSome && l.windowOver then k.onVerdict x c .timeout none none
        else { k with att := { l.att with edge := none } }
      | none => k
    | .receiving => { k with att := { l.att with gap := l.att.gap.glitch l.profile.halfStop } }
    | .off => k
    | .idle => k
    | .sending => k
    | .parked => k

/-- A run of space is in progress, begun now if the line was at mark (R4). -/
def Line.spaceRun (x : Ctx) (l : Line) : Line := l.lineActivity x .toSpace

/-! ### Commands that reach the current exchange -/

/-- The engine waits in LEAD. -/
def Line.inLead (l : Line) : Bool := l.engine == .lead

/-- A NODE BAR marks a current exchange to its node (R48, R59). -/
def Line.barCurrent (l : Line) (a : Nat) : Line :=
  { l with current := l.current.map fun c => if c.node == a then { c with barred := true } else c }

/-- A CANCEL finds the current exchange (R65, R88): it ends at once in LEAD, and is flagged otherwise. -/
def Line.cancelCurrent (x : Ctx) (l : Line) : Line :=
  match l.current with
  | none => l
  | some c =>
    let c1 := { c with cancelReq := true }
    if l.inLead then l.endExchange x c1 .cancelled else { l with current := some c1 }

/-- The current exchange is a host exchange with the tag (R88). -/
def Line.currentHasTag (l : Line) (tag : Half) : Bool :=
  match l.current with
  | some c => match c.origin with
    | .host _ t => t == tag
    | _ => false
  | none => false

/-- The abandon flag reaches the current exchange (R67): in a retry wait it ends at once, a host exchange FLUSHED. DEDUCED
(log entry 39): a barred one too, which R66 would end NODE_BARRED. DEDUCED (log entry 50): a first attempt that waits a collision
settle owed from an earlier exchange is no retry wait, and is made. -/
def Line.abandonCurrent (x : Ctx) (l : Line) : Line :=
  match l.current with
  | none => l
  | some c => if l.inLead ∧ 0 < c.attempts then l.endExchange x c .flushed else l

/-- Entry to DOZE_PENDING reaches the current exchange (R179): in LEAD anything but a PACE ends at once. -/
def Line.dozeCurrent (x : Ctx) (l : Line) : Line :=
  match l.current with
  | none => l
  | some c => if l.inLead ∧ ¬ c.origin.isPace then l.endExchange x c .noReply else l

/-! ### The pins a line drives -/

/-- Driver enable: asserted while the engine is SENDING (R2). -/
def Line.driverEnable (l : Line) : Bool := l.engine == .sending

/-- Transmit data, true for mark: the frame's characters back to back while SENDING, mark otherwise (R1, R2). -/
def Line.transmitData (l : Line) : Bool :=
  match l.engine, l.current with
  | .sending, some c =>
    ((c.frame.flatMap (charLevels l.profile.parity))[l.att.sent / l.profile.divisor]?).getD true
  | _, _ => true

end Sys2Proof.Machine
end

