-- ==== Sys2Proof/Machine/Power.lean ====
section
/-! DEFINITION. Power Control (chapter 11): changes of the power state and of every line's target, parking and unparking,
the transition in progress and its end, and the wake by an alert pulse. -/

namespace Sys2Proof.Machine

/-- A change of target reaches a line (R27, R28): a QUIET or FAULTED line takes it in force at once; a RUNNING or
DRAINING line sets pace pending to SWITCH if its profile in force now differs, and drops a SWITCH that is no longer
needed. -/
def Line.retarget (x : Ctx) (l : Line) : Line :=
  match l.run with
  | .quiet => l.takeTarget x
  | .faulted => l.takeTarget x
  | .running => if l.inForce ≠ x.power.target then { l with pace := .switch }
      else if l.pace = .switch then { l with pace := .none } else l
  | .draining => if l.inForce ≠ x.power.target then { l with pace := .switch }
      else if l.pace = .switch then { l with pace := .none } else l

/-- The power state changes (R176): the status block is marked for writing, and a change of target reaches every line
(R25). -/
def State.setPower (s : State) (p : PowerState) : State :=
  let t := { s with power := { s.power with state := p }, cu := { s.cu with statusPending := true } }
  if p.target = s.power.state.target then t else t.onLines Line.retarget

/-- The part leaves DOZE for a working state (R181). -/
def State.leaveDoze (s : State) (p : PowerState) : State := (s.setPower p).onLines Line.unpark

/-- Entry to DOZE_PENDING on one line (R178, R179): a RUNNING line drops its round and its hunt, and a current exchange
in LEAD ends unless it is a PACE. -/
def Line.enterDoze (x : Ctx) (l : Line) : Line :=
  if l.run = .running then (l.dropRound.dropHunt).dozeCurrent x else l

/-- The part enters DOZE_PENDING (R178). -/
def State.enterDozePending (s : State) : State := (s.setPower .dozePending).onLines Line.enterDoze

/-- A line counts as parked (R179). -/
def Line.countsParked (l : Line) : Bool := l.engine == .parked || l.run == .quiet || l.run == .faulted

/-- A line has switched to the target (R25, R177). -/
def Line.switched (p : PowerState) (l : Line) : Bool :=
  l.run == .quiet || l.run == .faulted || l.inForce == p.target

/-- The completion of a POWER that finishes now (R163, R173). -/
def powerRecord (tag : Half) (now : Word) : AdminRec :=
  { command := 14, line := none, tag := tag, node := none, outcome := .done .none, finish := now }

/-- Power Control reports the transition finished, and the waiting POWER is offered DONE (R160, R173). -/
def State.finishPower (s : State) : State :=
  let t := { s with power := { s.power with transition := none } }
  match s.admin with
  | some (.waiting tag _) => { t with admin := some (.offered (powerRecord tag s.timer.count)) }
  | some (.offered _) => t
  | none => t

/-- The test of the transition in progress (R177, R179): in DOZE_PENDING the part enters DOZE when every line counts as
parked; otherwise the transition finishes when every RUNNING or DRAINING line has switched. -/
def State.transitionStep (s : State) : State :=
  match s.power.transition with
  | none => s
  | some _ =>
    if s.power.state = .dozePending then
      if s.lines.all Line.countsParked then (s.setPower .doze).finishPower else s
    else if s.lines.all (Line.switched s.power.state) then s.finishPower else s

/-- A pulse on a PARKED line wakes the part: in DOZE with wake-on-alert set it moves to LULL (R180). -/
def State.wake (s : State) (engine : Engine) : State :=
  if engine = .parked ∧ s.power.state = .doze ∧ s.power.wake = true then s.leaveDoze .lull else s

end Sys2Proof.Machine
end

