-- ==== Sys2Proof/Machine/Settle.lean ====
section
/-! DEFINITION. What the part does by itself once an event has reached it: offers and admission into the holding queue
(R151 to R153), the lines' own work, the Fetch Unit's visit (R135, R136), and the Memory Port's grant (R142, R144). -/

namespace Sys2Proof.Machine

/-! ### Offers (R152) -/

/-- The outcome a mark gives (R72, R87, R92, R94). -/
def Mark.outcome : Mark → ExOutcome
  | .cancelled => .cancelled
  | .flushed => .flushed
  | .lineFault => .lineFault

/-- The EXCHANGE completion of an ended entry of the queue (R79, R87, R92). -/
def Ended.record (n : LineId) (e : Ended) : ExchangeRec :=
  { line := n, outcome := e.mark.outcome, detail := .none, tag := e.entry.tag, node := e.entry.node, attempts := 0,
    last := none, finish := e.finish }

/-- The first owed line event (R152). -/
def Owed.first (o : Owed) : Option LineEvent :=
  if o.faulted then some .faulted
  else if o.drained then some .drained
  else if o.sweepWriteFault then some .sweepWriteFault
  else if o.sweepOverrun then some .sweepOverrun
  else if o.huntEmpty then some .huntEmpty
  else if o.alertPulseInDoze then some .alertPulseInDoze
  else none

/-- One owed line event cleared. -/
def Owed.clearOf (o : Owed) : LineEvent → Owed
  | .faulted => { o with faulted := false }
  | .drained => { o with drained := false }
  | .sweepWriteFault => { o with sweepWriteFault := false }
  | .sweepOverrun => { o with sweepOverrun := false }
  | .huntEmpty => { o with huntEmpty := false }
  | .alertPulseInDoze => { o with alertPulseInDoze := false }

/-- Items 2 to 4 of R152: an ALERT, a NODE_EVENT or a LINE_EVENT, each built from what holds at this moment, with the
line as its admission leaves it. -/
def Line.offerEvent (x : Ctx) (l : Line) : Option (Completion × Line) :=
  match l.roster.find? (·.alertOwed) with
  | some a =>
    some (.alert x.n a.addr x.now, { l with roster := updateNode l.roster a.addr fun y => { y with alertOwed := false } })
  | none =>
    match l.roster.find? (·.reportOwed) with
    | some a =>
      some (.nodeEvent x.n a x.now,
        { l with roster := updateNode l.roster a.addr fun y => { y with reportOwed := false } })
    | none => l.owed.first.map fun e => (.lineEvent x.n e x.now, { l with owed := l.owed.clearOf e })

/-- A line's offer, with the line as its admission leaves it (R79, R152). -/
def Line.offer (x : Ctx) (l : Line) : Option (Completion × Line) :=
  match l.holdSlot with
  | some r => some (.exchange r, { l with holdSlot := none })
  | none =>
    match l.ended with
    | e :: rest => some (.exchange (e.record x.n), { l with ended := rest })
    | [] => l.offerEvent x

/-! ### Admission (R153) -/

/-- The producers in rotation order, from the one after the pointer. -/
def Producer.rotation : Producer → List Producer
  | .admin => [.line 0, .line 1, .line 2, .line 3, .admin]
  | .line 0 => [.line 1, .line 2, .line 3, .admin, .line 0]
  | .line 1 => [.line 2, .line 3, .admin, .line 0, .line 1]
  | .line 2 => [.line 3, .admin, .line 0, .line 1, .line 2]
  | .line 3 => [.admin, .line 0, .line 1, .line 2, .line 3]

/-- A producer's offer, with the part as its admission leaves the producer (R151). -/
def State.offerOf (s : State) : Producer → Option (Completion × State)
  | .admin =>
    match s.admin with
    | some (.offered r) => some (.admin r, { s with admin := none })
    | some (.waiting _ _) => none
    | none => none
  | .line n => ((s.line n).offer (s.ctx n)).map fun p => (p.1, s.setLine n p.2)

/-- A place of the holding queue is free (R150). -/
def State.placeFree (s : State) : Bool := decide (s.cu.holding.length < Config.holdingCapacity)

/-- A record joins the tail of the holding queue (R150). -/
def State.hold (s : State) (c : Completion) : State := { s with cu := { s.cu with holding := s.cu.holding ++ [c] } }

/-- The rotation pointer names the producer admitted (R153). -/
def State.pointTo (s : State) (p : Producer) : State := { s with cu := { s.cu with pointer := p } }

/-- A producer's offer is admitted. -/
def State.admitFrom (s : State) (p : Producer) : Option State :=
  (s.offerOf p).map fun o => (o.2.hold o.1).pointTo p

/-- One admission, if the part is RUNNING, a place is free and a producer offers (R153). -/
def State.admitNext (s : State) : Option State :=
  if s.part = .running ∧ s.placeFree = true then s.cu.pointer.rotation.findSome? s.admitFrom else none

/-- Admissions repeated while a place is free and an offer stands (R153). -/
def State.admitLoop : Nat → State → State
  | 0, s => s
  | k + 1, s =>
    match s.admitNext with
    | some t => t.admitLoop k
    | none => s

/-- Every admission that can be made now; each takes one of the sixteen places. -/
def State.admitAll (s : State) : State := s.admitLoop Config.holdingCapacity

/-! ### The lines' own work and what it makes room for -/

/-- Every line does its own work, and Power Control tests its transition. -/
def State.workLines (s : State) : State := (s.onLines Line.settle).transitionStep

/-- The lines' work and the admissions it gives rise to, repeated until nothing more is offered. Each repetition takes
one of the sixteen places. -/
def State.workLoop : Nat → State → State
  | 0, s => s
  | k + 1, s =>
    match s.workLines.admitNext with
    | some t => t.admitAll.workLoop k
    | none => s.workLines

/-- The consequences of an event inside a RUNNING part. What the event itself has left on offer is admitted first, so
that a line whose finished exchange finds a place is not HELD at its boundary. DEDUCED (log entry 52): so it is at a boundary under
the abandon flag too, whose waiting entries are marked FLUSHED (R92) only after those admissions. -/
def State.work (s : State) : State :=
  if s.part = .running then s.admitAll.workLoop (Config.holdingCapacity + 1) else s

/-! ### The Fetch Unit's visit -/

/-- The five rings in rotation order, from the one after the pointer (R136). -/
def RingId.rotation : RingId → List RingId
  | .admin => [.line 0, .line 1, .line 2, .line 3, .admin]
  | .line 0 => [.line 1, .line 2, .line 3, .admin, .line 0]
  | .line 1 => [.line 2, .line 3, .admin, .line 0, .line 1]
  | .line 2 => [.line 3, .admin, .line 0, .line 1, .line 2]
  | .line 3 => [.admin, .line 0, .line 1, .line 2, .line 3]

/-- A ring's own condition (R135). -/
def State.ownCondition (s : State) : RingId → Bool
  | .admin => s.admin.isNone
  | .line n =>
    (s.line n).run == .running && decide ((s.line n).depth < Config.queueCapacity) && s.power.state.working

/-- A ring is eligible (R135). -/
def State.eligible (s : State) (r : RingId) : Bool :=
  s.part == .running && (s.ring r).state == .opened && (s.ring r).taken != (s.ring r).posted && s.ownCondition r

/-- The address of the entry at a ring's taken count (R136). -/
def State.entryAddr (s : State) (r : RingId) : Addr :=
  match s.setup with
  | none => 0
  | some u => u.ringBase r + BitVec.ofNat 64 (64 * ((s.ring r).taken.toNat % u.ringSize r))

/-- The transfer is a read of the Fetch Unit. -/
def Transfer.isRead : Transfer → Bool
  | .setupRead _ => true
  | .entryRead _ _ => true
  | .recordWrite _ _ => false
  | .statusWrite _ _ => false
  | .slotBody _ _ _ => false
  | .slotStamp _ _ _ => false

/-- The Fetch Unit has a read requested or in progress. -/
def State.fetchBusy (s : State) : Bool := s.fetch.request.isSome || (s.port.transfer.map Transfer.isRead).getD false

/-- The Fetch Unit visits the first eligible ring and requests the read of its entry (R136). -/
def State.fetchVisit (s : State) : State :=
  if s.fetchBusy then s
  else
    match s.fetch.pointer.rotation.find? s.eligible with
    | some r => { s with fetch := ⟨some (.entry r, s.entryAddr r), r⟩ }
    | none => s

/-! ### The Memory Port's grant -/

/-- The requesters in rotation order, from the one after the last granted (R144). -/
def Requester.rotation : Requester → List Requester
  | .fetch => [.completion, .writer 0, .writer 1, .writer 2, .writer 3, .fetch]
  | .completion => [.writer 0, .writer 1, .writer 2, .writer 3, .fetch, .completion]
  | .writer 0 => [.writer 1, .writer 2, .writer 3, .fetch, .completion, .writer 0]
  | .writer 1 => [.writer 2, .writer 3, .fetch, .completion, .writer 0, .writer 1]
  | .writer 2 => [.writer 3, .fetch, .completion, .writer 0, .writer 1, .writer 2]
  | .writer 3 => [.fetch, .completion, .writer 0, .writer 1, .writer 2, .writer 3]

/-- Records in the completion ring that the host has not consumed (R154). -/
def CompletionUnit.unconsumed (c : CompletionUnit) : Nat := (c.produced - c.consumed).toNat

/-- A completion record may be written: the holding queue is not empty and the ring has room (R154). -/
def State.recordReady (s : State) : Bool := !s.cu.holding.isEmpty && decide (s.cu.unconsumed < s.completionSize)

/-- The address of the completion ring's next record (R154). -/
def State.recordAddr (s : State) : Addr :=
  match s.setup with
  | none => 0
  | some u => u.completionBase + BitVec.ofNat 64 (64 * (s.cu.produced.toNat % u.completionSize))

/-- The status block's address. -/
def State.statusAddr (s : State) : Addr := (s.setup.map (·.statusAddr)).getD 0

/-- The transfer a requester asks for, if it asks (R142, R144). -/
def State.wanted (s : State) : Requester → Option Transfer
  | .fetch => s.fetch.request.map fun q =>
    match q.1 with
    | .setup => .setupRead q.2
    | .entry r => .entryRead r q.2
  | .completion =>
    if s.part ≠ .running then none
    else if s.cu.statusPending = true ∧ (s.cu.prevRecord = true ∨ s.recordReady = false) then
      some (.statusWrite s.statusAddr s.statusBytes)
    else
      match s.cu.holding with
      | c :: _ => if s.recordReady then some (.recordWrite s.recordAddr c.bytes) else none
      | [] => none
  | .writer n =>
    if s.part ≠ .running then none
    else
      match (s.line n).writer.busy with
      | some (w, .body) => some (.slotBody n (w.addr + 4) w.body.bytes)
      | some (w, .stamp) => some (.slotStamp n w.addr (leBytes 4 w.stamp.toNat))
      | none => none

/-- What the beginning of a transfer changes in its requester: the request is taken up, the status-pending flag is
cleared by a status write, and the Completion Unit remembers which kind of write it made (R141, R142). -/
def State.begun (s : State) : Transfer → State
  | .setupRead _ => { s with fetch := { s.fetch with request := none } }
  | .entryRead _ _ => { s with fetch := { s.fetch with request := none } }
  | .recordWrite _ _ => { s with cu := { s.cu with prevRecord := true } }
  | .statusWrite _ _ => { s with cu := { s.cu with statusPending := false, prevRecord := false } }
  | .slotBody _ _ _ => s
  | .slotStamp _ _ _ => s

/-- The port may begin a transfer: none is in progress, no soft reset waits, and the part is LOADING or RUNNING
(R143, R144, R146). -/
def State.portOpen (s : State) : Bool :=
  s.port.transfer.isNone && !s.softPending && (s.part == .loading || s.part == .running)

/-- The Memory Port grants the first asking requester in rotation (R144). -/
def State.grant (s : State) : State :=
  if s.portOpen then
    match s.port.last.rotation.findSome? fun r => (s.wanted r).map fun t => (r, t) with
    | some (r, t) => { s.begun t with port := ⟨some t, r⟩ }
    | none => s
  else s

/-- All that follows from an event within the same event. DESIGN CHOICE (log entry 47): where the event is the end of a PACE, the run
of space in progress is compared with the limits of the new profile (R4) after this, in a step of its own. -/
def State.settle (s : State) : State := s.work.fetchVisit.grant

end Sys2Proof.Machine
end

