-- ==== Sys2Proof/Machine/Part.lean ====
section
/-! DEFINITION. Operations over the whole part: resets (R148), the part fault (R143), the end of a transfer (R145, R146),
the interrupt signal (R157), and how a command that has been taken settles. -/

namespace Sys2Proof.Machine

/-! ### Resets (R148) -/

/-- The receive pin keeps its level through a reset, with no run of space measured. -/
def Line.resetKeepingPin (l : Line) : Line := { Line.reset with wire := ⟨l.wire.space, 0, false⟩ }

/-- Every block at its reset value (R148). What no reset reaches is kept: the level of the pins and the queue of
commands. -/
def State.resetAll (s : State) (cause : ResetCause) : State :=
  { State.reset with
    resetCause := cause, resetLow := s.resetLow, pending := s.pending
    lines := s.lines.mapIdx fun _ l => l.resetKeepingPin }

/-- A power-on reset: a RESET pin that is still low goes on holding the part (R184). -/
def State.powerOnReset (s : State) : State := s.resetAll .powerOn

/-- A hard reset takes effect as the RESET pin returns high (R184). -/
def State.hardReset (s : State) : State := { s.resetAll .hard with resetLow := false }

/-- A soft reset takes effect: SETUP ADDRESS is kept (R148). -/
def State.softReset (s : State) : State := { s.resetAll .soft with setupAddr := s.setupAddr }

/-- A soft reset is requested: at once with no transfer in progress, else when the transfer ends (R146). -/
def State.requestSoftReset (s : State) : State :=
  if s.port.transfer.isNone then s.softReset else { s with softPending := true }

/-! ### The part fault (R143) -/

/-- A Line Unit as the part enters FAULTED (R56): the engine is cut off, the current exchange and the line queue are
discarded, and the round timer stops; the rest is kept, the probe list among it. With the engine OFF the probes not yet started
are dropped (R45): Line.probesToStart holds none. DEDUCED (log entry 53): the turn flag is kept too; a current exchange that is
discarded does not end (R82). -/
def Line.partFault (l : Line) : Line :=
  { l.engineOff with current := none, waiting := [], ended := [], roundTimer := none }

/-- The part enters FAULTED (R143). A transfer in progress is left to end. -/
def State.partFault (s : State) (r : FaultReason) : State :=
  { s with
    part := .faulted, faultReason := r
    lines := s.lines.mapIdx fun _ l => l.partFault
    fetch := { s.fetch with request := none }
    admin := none
    cu := { s.cu with holdoff := none }
    timer := { s.timer with running := false }
    power := { s.power with transition := none }
    causes := { s.causes with partFault := true } }

/-! ### Ends of transfers -/

/-- A transfer ends with a response (R145, R146). `f` says what its requester makes of the response, and is none where
the transfer in progress is not of the kind that ends. Under a soft reset the response is discarded and the reset takes
effect; a FAULTED part does not act on it. -/
def State.endTransfer (s : State) (f : Transfer → Option (State → State)) : Option State :=
  match s.port.transfer with
  | none => none
  | some t =>
    match f t with
    | none => none
    | some g =>
      let r := { s with port := { s.port with transfer := none } }
      if s.softPending then some r.softReset
      else if s.part = .loading ∨ s.part = .running then some (g r)
      else some r

/-! ### Submission rings (R133) -/

/-- A ring halts (R134, R140): the status block is marked for writing and the RING_HALTED cause is set. DEDUCED (log entry 51): the
read that a visit has already asked for goes on, and its entry is left untaken (R137). -/
def State.haltRing (s : State) (r : RingId) (h : RingState) : State :=
  let t := s.setRing r { s.ring r with state := h }
  { t with cu := { t.cu with statusPending := true }, causes := { t.causes with ringHalted := true } }

/-- An entry of a ring is taken (R138, R139, R141). -/
def State.countTaken (s : State) (r : RingId) : State :=
  let t := s.setRing r { s.ring r with taken := (s.ring r).taken + 1 }
  { t with cu := { t.cu with statusPending := true } }

/-! ### The interrupt signal (R157) -/

/-- The Completion Unit signals. -/
def State.signal (s : State) : State :=
  { s with
    causes := { s.causes with completions := true }
    cu := { s.cu with mark := s.cu.produced, holdoff := none } }

/-- Completions since the last signal (R157). -/
def CompletionUnit.unsignalled (c : CompletionUnit) : Nat := (c.produced - c.mark).toNat

/-! ### Commands taken -/

/-- A command is taken. While the RESET pin is low it has no effect (R184). One whose condition does not hold (none)
changes nothing. Otherwise the part settles within the same event. -/
def State.take (s : State) (o : Option State) : Host.Outcome State Fault Refusal :=
  if s.resetLow then .next s
  else
    match o with
    | none => .next s
    | some t => .next t.settle

end Sys2Proof.Machine
end

