-- ==== Sys2Proof/Machine/AdminLine.lean ====
section
/-! DEFINITION. What the administrative commands do on the line they name (chapter 10): each answers the reason of its
first failing check, or the changed line with the body of its completion. -/

namespace Sys2Proof.Machine

/-- What a command answers on its line: a refusal reason, or the line as it leaves it with the body it reports. -/
abbrev LineResult := Except Reason (Line × AdminBody)

/-- A command that reports no body. -/
def doneWith (l : Line) : LineResult := .ok (l, .none)

/-! ### Line commands -/

/-- LINE SETUP (R22 to R24, R165). -/
def Line.setupCmd (brisk lull : RawProfile) (l : Line) : LineResult :=
  match profilesFirstBad brisk lull with
  | some (sel, f) => .error (.badProfile sel f)
  | none =>
    doneWith { l with brisk := some (profileOfRaw brisk), lull := some (profileOfRaw lull), profilesValid := true }

/-- An accepted LINE START (R30, R166). -/
def Line.start (x : Ctx) (l : Line) : Line :=
  let k := { l with run := .running, engine := .idle, inForce := .brisk, pace := .start, sweepHalted := false,
                    hunt := none }
  (k.startRound x 1).activateHunt x

/-- LINE START (R166). -/
def Line.startCmd (x : Ctx) (l : Line) : LineResult :=
  if !l.profilesValid then .error .wrongState
  else if l.anySweep && l.imageBase.isNone then .error .noImage
  else doneWith (l.start x)

/-- A stop or an upgrade to ABANDON in its own event: with the abandon flag set the current exchange in a retry wait ends
and a line at a boundary marks its waiting entries; a line with nothing left becomes QUIET (R67, R91, R92). -/
def Line.concludeStop (x : Ctx) (l : Line) : Line :=
  if l.abandon then
    let k := l.abandonCurrent x
    (if k.atBoundary then k.markAll .flushed x.now else k).drainEnd x
  else l.drainEnd x

/-- A LINE STOP accepted on a RUNNING line (R90, R92). -/
def Line.stop (x : Ctx) (abandon : Bool) (l : Line) : Line :=
  { l.dropRound.dropHunt with run := .draining, abandon := abandon }.concludeStop x

/-- LINE STOP (R93, R167): form 0 is DRAIN and form 1 ABANDON. -/
def Line.stopCmd (x : Ctx) (form : Byte) (l : Line) : LineResult :=
  if 1 < form.toNat then .error .badField
  else if l.run = .running then doneWith (l.stop x (form = 1))
  else if form = 1 ∧ l.abandon = false then doneWith ({ l with abandon := true }.concludeStop x)
  else doneWith l

/-- A LINE_FAULT mark becomes FLUSHED and keeps its place and finish time (R94). -/
def Ended.reset (e : Ended) : Ended := if e.mark = .lineFault then { e with mark := .flushed } else e

/-- LINE RESET (R94, R95). -/
def Line.resetLine (x : Ctx) (l : Line) : Line :=
  let k := ((((l.cutOff x .flushed).markAll .flushed x.now).dropRound).dropHunt).takeTarget x
  { k with
    run := .quiet, abandon := false, ended := k.ended.map Ended.reset, round := 0, sweepHalted := false
    huntPending := false, turn := .sweep, stats := Stats.zero }

/-- LINE RESET (R168). -/
def Line.resetCmd (x : Ctx) (l : Line) : LineResult := doneWith (l.resetLine x)

/-! ### Node commands -/

/-- The address check that comes first: 1 to 62 (R169, R170). -/
def addressOk (a : Byte) : Bool := decide (1 ≤ a.toNat) && decide (a.toNat ≤ Config.topNodeAddress)

/-- The hunt's step that is current goes to an address above `a` (R127). -/
def Line.stepAbove (l : Line) (a : Nat) : Bool :=
  match l.current with
  | some c => c.origin == .hunt && c.huntLive && decide (a < c.node)
  | none => false

/-- A trusted node added above the cursor and below the step that is current is stepped later in this hunt (R127). -/
def Line.walkAdds (l : Line) (a : Nat) (trusted : Bool) : Option Walk :=
  l.hunt.map fun w =>
    if trusted && l.stepAbove a && decide (w.cursor < a) then { w with later := w.later ++ [a] } else w

/-- The line with a new record (R46). DEDUCED (log entry 37): the address leaves the round's probe list, so that a record
removed and added again is first due at the next round start (R44, R46). -/
def Line.addNode (x : Node) (trusted : Bool) (l : Line) : Line :=
  { l with
    roster := insertNode x l.roster, probes := l.probes.filter (· != x.addr), hunt := l.walkAdds x.addr trusted }

/-- NODE ADD (R46). -/
def Line.nodeAddCmd (a : Byte) (trusted : Bool) (l : Line) : LineResult :=
  if !addressOk a then .error .badField
  else if (findNode l.roster a.toNat).isSome then .error .exists
  else if Config.rosterCapacity ≤ l.roster.length then .error .rosterFull
  else .ok (l.addNode (Node.fresh a.toNat trusted) trusted, .node (Node.fresh a.toNat trusted))

/-- The line's current exchange addresses the node (R47). -/
def Line.currentNames (l : Line) (a : Nat) : Bool :=
  match l.current with
  | some c => c.node == a
  | none => false

/-- A walk no longer has an address to step later (R121, R127): a new record there is at or below the cursor. -/
def Walk.without (w : Walk) (a : Nat) : Walk := { w with later := w.later.filter (· != a) }

/-- NODE REMOVE (R47). -/
def Line.nodeRemoveCmd (a : Byte) (l : Line) : LineResult :=
  if !addressOk a then .error .badField
  else if (findNode l.roster a.toNat).isNone then .error .unknownNode
  else if l.sweepNames a.toNat || l.currentNames a.toNat then .error .inUse
  else doneWith { l with roster := removeNode l.roster a.toNat, hunt := l.hunt.map (·.without a.toNat) }

/-- The record as NODE BAR leaves it (R48). -/
def Node.bar (x : Node) : Node := if x.state = .barred then x else { x with state := .barred, reportOwed := true }

/-- The record as NODE UNBAR leaves it (R49). -/
def Node.unbar (x : Node) : Node :=
  if x.state = .barred then { x with state := .joining, failures := 0, joinProbes := 0, reportOwed := true } else x

/-- NODE BAR (R48, R66). -/
def Line.nodeBarCmd (a : Byte) (l : Line) : LineResult :=
  if !addressOk a then .error .badField
  else
    match findNode l.roster a.toNat with
    | none => .error .unknownNode
    | some y =>
      let k := { l with roster := updateNode l.roster a.toNat Node.bar }
      .ok (if y.state = .barred then k else k.barCurrent a.toNat, .node y.bar)

/-- NODE UNBAR (R49). -/
def Line.nodeUnbarCmd (a : Byte) (l : Line) : LineResult :=
  if !addressOk a then .error .badField
  else
    match findNode l.roster a.toNat with
    | none => .error .unknownNode
    | some y => .ok ({ l with roster := updateNode l.roster a.toNat Node.unbar }, .node y.unbar)

/-- NODE QUERY (R170). -/
def Line.nodeQueryCmd (a : Byte) (l : Line) : LineResult :=
  if !addressOk a then .error .badField
  else
    match findNode l.roster a.toNat with
    | none => .error .unknownNode
    | some y => .ok (l, .node y)

/-! ### Sweep commands -/

/-- The fields of a SWEEP SET pass their checks (R98). -/
def sweepFieldsOk (e : RawSweep) : Bool :=
  decide (e.index.toNat ≤ 47) && addressOk e.node && e.code != 1 && decide (e.length.toNat ≤ 16) &&
  (e.cadence == 1 || e.cadence == 2 || e.cadence == 4 || e.cadence == 8) &&
  decide (e.phase.toNat < e.cadence.toNat) && decide (e.retry.toNat ≤ 3)

/-- The entry a SWEEP SET makes (R97). -/
def sweepEntryOf (e : RawSweep) : SweepEntry :=
  { node := e.node.toNat, code := e.code, payload := e.payload.take e.length.toNat, cadence := e.cadence.toNat,
    phase := e.phase.toNat, retryLimit := e.retry.toNat }

/-- SWEEP SET (R98, R107). -/
def Line.sweepSetCmd (e : RawSweep) (l : Line) : LineResult :=
  if !sweepFieldsOk e then .error .badField
  else if (findNode l.roster e.node.toNat).isNone then .error .unknownNode
  else if l.run = .running ∧ l.imageBase = none then .error .noImage
  else doneWith (l.putSweep e.index.toNat (some (sweepEntryOf e)))

/-- SWEEP CLEAR (R99, R107): the index leaves the due list. -/
def Line.sweepClearCmd (index : Byte) (l : Line) : LineResult :=
  if 47 < index.toNat then .error .badField
  else doneWith { l.putSweep index.toNat none with due := l.due.erase index.toNat }

/-- SWEEP IMAGE (R100). -/
def Line.sweepImageCmd (base : Addr) (l : Line) : LineResult :=
  if base.toNat % 64 ≠ 0 ∨ 2 ^ 64 < base.toNat + Config.imageBytes then .error .badField
  else doneWith { l with imageBase := some base }

/-! ### CANCEL and LINE QUERY -/

/-- CANCEL (R87, R88, R172): the waiting entries with the tag are marked oldest first, and a current exchange with the
tag is found. -/
def Line.cancelCmd (x : Ctx) (target : Half) (l : Line) : LineResult :=
  let found := l.waiting.filter (·.tag == target)
  let k := { l with
    waiting := l.waiting.filter (·.tag != target)
    ended := l.ended ++ found.map fun e => ⟨e, .cancelled, x.now⟩ }
  if l.currentHasTag target then .ok (k.cancelCurrent x, .cancel target (found.length + 1))
  else .ok (k, .cancel target found.length)

/-- LINE QUERY (R76, R174): the body reports the counters before they are cleared. -/
def Line.queryCmd (clear : Bool) (l : Line) : LineResult :=
  .ok (if clear then { l with stats := Stats.zero } else l, .line l.report)

/-! ### The checks of R162 and R164 -/

/-- Commands that DOZE takes: NODE QUERY, POWER and LINE QUERY (R164). -/
def AdminCmd.inDoze : AdminCmd → Bool
  | .nodeQuery _ => true
  | .power _ => true
  | .lineQuery _ => true
  | _ => false

/-- The power state allows the command (R164). In DOZE_PENDING no command is taken. -/
def AdminCmd.powerAllows (c : AdminCmd) (p : PowerState) : Bool := p.working || (p == .doze && c.inDoze)

/-- The line's run state allows the command (R164). -/
def AdminCmd.runAllows : AdminCmd → RunState → Bool
  | .lineSetup _ _, r => r == .quiet
  | .lineStart, r => r == .quiet
  | .lineStop _, r => r == .running || r == .draining
  | .sweepImage _, r => r == .quiet
  | _, _ => true

/-- A command's own checks and its effect on the line it names (R164). POWER and an unknown command name no line and are
dealt with before. -/
def AdminCmd.onLine (x : Ctx) (l : Line) : AdminCmd → LineResult
  | .lineSetup b u => l.setupCmd b u
  | .lineStart => l.startCmd x
  | .lineStop form => l.stopCmd x form
  | .lineReset => l.resetCmd x
  | .nodeAdd a t => l.nodeAddCmd a t
  | .nodeRemove a => l.nodeRemoveCmd a
  | .nodeBar a => l.nodeBarCmd a
  | .nodeUnbar a => l.nodeUnbarCmd a
  | .nodeQuery a => l.nodeQueryCmd a
  | .sweepSet e => l.sweepSetCmd e
  | .sweepClear i => l.sweepClearCmd i
  | .sweepImage b => l.sweepImageCmd b
  | .cancel t => l.cancelCmd x t
  | .lineQuery c => l.queryCmd c
  | .power _ => .error .badField
  | .unknown _ => .error .badField

end Sys2Proof.Machine
end

