-- ==== Sys2Proof/WellFormed.lean ====
section
/-! DEFINITION. Which commands are well formed: a record read through the Memory Port is 64 bytes, and the payload
area of a SWEEP SET entry is 16 bytes (R188). Every other operand is bounded by its type. -/

namespace Sys2Proof

/-- The response carries a whole record or is a bus error (R188). -/
def ReadResp.wellFormed : ReadResp → Bool
  | .data bytes => bytes.length == Config.recordBytes
  | .busError => true

/-- The payload area of a SWEEP SET entry, bytes 16 to 31 (R188). -/
def RawSweep.wellFormed (e : RawSweep) : Bool := e.payload.length == 16

/-- A command whose operands have the lengths the record layouts give. -/
def Instr.wellFormed : Instr → Bool
  | .setupReadDone r => r.wellFormed
  | .entryReadDone r => r.wellFormed
  | .sweepSet _ _ e => e.wellFormed
  | .powerOnReset => true
  | .hardReset => true
  | .enable _ => true
  | .softReset _ => true
  | .softResetTakesEffect => true
  | .registerWrite _ _ _ => true
  | .post _ => true
  | .consumed _ => true
  | .cause _ => true
  | .lineSetup _ _ _ _ => true
  | .lineStart _ _ => true
  | .lineStop _ _ _ => true
  | .lineReset _ _ => true
  | .nodeAdd _ _ _ _ => true
  | .nodeRemove _ _ _ => true
  | .nodeBar _ _ _ => true
  | .nodeUnbar _ _ _ => true
  | .nodeQuery _ _ _ => true
  | .sweepClear _ _ _ => true
  | .sweepImage _ _ _ => true
  | .cancel _ _ _ => true
  | .power _ _ => true
  | .lineQuery _ _ _ => true
  | .leadWaitComplete _ => true
  | .headerStopBitEnd _ => true
  | .echoFailure _ _ _ => true
  | .requestFrameEnd _ => true
  | .replyWindowExpiry _ => true
  | .replyStart _ => true
  | .replyCharacter _ _ => true
  | .characterGapExceeded _ => true
  | .longSpace _ => true
  | .stuckLine _ => true
  | .roundStart _ => true
  | .holdoffExpiry => true
  | .completionWriteDone _ => true
  | .statusWriteDone _ => true
  | .slotBodyWriteDone _ => true
  | .slotStampWriteDone _ => true
  | .lineActivity _ _ => true
  | .hardResetHeld => true

end Sys2Proof
end

