-- ==== Sys2Proof/Machine/Admin.lean ====
section
/-! DEFINITION. The Admin Unit (R160 to R164, R173): checking a command, POWER, the ADMIN completion, and the taking of
the admin entry whose read ends. Then the meanings of the fifteen administrative commands: each row is the completion,
without a bus error, of the read of an admin entry that carries that command. -/

namespace Sys2Proof.Machine

/-- What a command comes to in the event in which it is taken: refused, finished with the part as it leaves it, or
waiting for a transition. -/
inductive AdminResult where
  | refused (reason : Reason)
  | done (s : State) (body : AdminBody)
  | waits (s : State) (target : PowerState)
deriving DecidableEq, Repr

/-- A line that refuses POWER DOZE: it is DRAINING, or it is RUNNING with a queue that is not empty or a current host
exchange (R178). -/
def Line.busyForDoze (l : Line) : Bool :=
  l.run == .draining ||
  (l.run == .running && (!l.waiting.isEmpty || !l.ended.isEmpty || (l.current.map (·.origin.isHost)).getD false))

/-- POWER ACTIVE or LULL (R176, R177, R181). -/
def State.powerWorking (s : State) (p : PowerState) : AdminResult :=
  if s.power.state = p then .done s .none
  else if s.power.state = .doze then .waits (s.leaveDoze p) p
  else .waits (s.setPower p) p

/-- POWER DOZE (R178). -/
def State.powerDoze (s : State) : AdminResult :=
  if s.power.state = .doze then .done s .none
  else if s.power.state ≠ .lull then .refused .wrongPowerState
  else if s.lines.all (fun l => !l.busyForDoze) = false then .refused .busy
  else .waits s.enterDozePending .doze

/-- POWER (R173): target 0 is ACTIVE, 1 LULL and 2 DOZE. -/
def State.powerCmd (s : State) (target : Byte) : AdminResult :=
  match target.toNat with
  | 0 => s.powerWorking .active
  | 1 => s.powerWorking .lull
  | 2 => s.powerDoze
  | _ => .refused .badField

/-- Steps 2 to 5 of R162 for a command that names a line. -/
def State.lineCmd (s : State) (line : Byte) (cmd : AdminCmd) : AdminResult :=
  match lineOf line with
  | none => .refused .badField
  | some n =>
    if !cmd.powerAllows s.power.state then .refused .wrongPowerState
    else if !cmd.runAllows (s.line n).run then .refused .wrongState
    else
      match cmd.onLine (s.ctx n) (s.line n) with
      | .error r => .refused r
      | .ok (l, body) => .done (s.setLine n l) body

/-- A taken command is checked and executed (R162). -/
def State.runAdmin (s : State) (line : Byte) (cmd : AdminCmd) : AdminResult :=
  match cmd with
  | .unknown _ => .refused .badField
  | .power t => if !cmd.powerAllows s.power.state then .refused .wrongPowerState else s.powerCmd t
  | _ => s.lineCmd line cmd

/-- The ADMIN completion of a command that finishes now (R163). -/
def adminRecord (line : Byte) (tag : Half) (cmd : AdminCmd) (now : Word) (o : AdminOutcome) : AdminRec :=
  { command := cmd.code, line := if cmd.namesLine then some line else none, tag := tag, node := cmd.node, outcome := o,
    finish := now }

/-- The Admin Unit takes a command (R160, R163): it holds the offer of its completion, or a waiting POWER. -/
def State.adminTake (s : State) (line : Byte) (tag : Half) (cmd : AdminCmd) : State :=
  match s.runAdmin line cmd with
  | .refused r => { s with admin := some (.offered (adminRecord line tag cmd s.timer.count (.refused r))) }
  | .done t body => { t with admin := some (.offered (adminRecord line tag cmd s.timer.count (.done body))) }
  | .waits t p => { t with admin := some (.waiting tag p), power := { t.power with transition := some p } }

/-- The read of an admin entry has completed: the entry is left untaken if the admin ring is no longer eligible (R137),
and otherwise handed over (R139) and executed. -/
def State.adminEntry (s : State) (line : Byte) (tag : Half) (cmd : AdminCmd) : State :=
  if s.eligible .admin then (s.countTaken .admin).adminTake line tag cmd else s

/-- The admin entry whose read is in progress carries the command, and its read completes. -/
def State.adminRead (s : State) (line : Byte) (tag : Half) (cmd : AdminCmd) : Option State :=
  s.endTransfer fun t =>
    match t with
    | .entryRead .admin _ => some fun u => u.adminEntry line tag cmd
    | _ => none

/-! ### Meanings -/

/-- LINE_SETUP (R165). -/
def execLineSetup (tag : Half) (line : Byte) (brisk lull : RawProfile) (s : State) : Host.Outcome State Fault Refusal :=
  s.take (s.adminRead line tag (.lineSetup brisk lull))

/-- LINE_START (R166). -/
def execLineStart (tag : Half) (line : Byte) (s : State) : Host.Outcome State Fault Refusal :=
  s.take (s.adminRead line tag .lineStart)

/-- LINE_STOP (R167). -/
def execLineStop (tag : Half) (line form : Byte) (s : State) : Host.Outcome State Fault Refusal :=
  s.take (s.adminRead line tag (.lineStop form))

/-- LINE_RESET (R94, R168). -/
def execLineReset (tag : Half) (line : Byte) (s : State) : Host.Outcome State Fault Refusal :=
  s.take (s.adminRead line tag .lineReset)

/-- NODE_ADD (R46). -/
def execNodeAdd (tag : Half) (line node : Byte) (trusted : Bool) (s : State) : Host.Outcome State Fault Refusal :=
  s.take (s.adminRead line tag (.nodeAdd node trusted))

/-- NODE_REMOVE (R47). -/
def execNodeRemove (tag : Half) (line node : Byte) (s : State) : Host.Outcome State Fault Refusal :=
  s.take (s.adminRead line tag (.nodeRemove node))

/-- NODE_BAR (R48). -/
def execNodeBar (tag : Half) (line node : Byte) (s : State) : Host.Outcome State Fault Refusal :=
  s.take (s.adminRead line tag (.nodeBar node))

/-- NODE_UNBAR (R49). -/
def execNodeUnbar (tag : Half) (line node : Byte) (s : State) : Host.Outcome State Fault Refusal :=
  s.take (s.adminRead line tag (.nodeUnbar node))

/-- NODE_QUERY (R170). -/
def execNodeQuery (tag : Half) (line node : Byte) (s : State) : Host.Outcome State Fault Refusal :=
  s.take (s.adminRead line tag (.nodeQuery node))

/-- SWEEP_SET (R98). The payload area of the entry is 16 bytes. -/
def execSweepSet (tag : Half) (line : Byte) (entry : RawSweep) (s : State) : Host.Outcome State Fault Refusal :=
  if entry.wellFormed then s.take (s.adminRead line tag (.sweepSet entry)) else .fault .illFormed

/-- SWEEP_CLEAR (R99). -/
def execSweepClear (tag : Half) (line index : Byte) (s : State) : Host.Outcome State Fault Refusal :=
  s.take (s.adminRead line tag (.sweepClear index))

/-- SWEEP_IMAGE (R100). -/
def execSweepImage (tag : Half) (line : Byte) (base : Addr) (s : State) : Host.Outcome State Fault Refusal :=
  s.take (s.adminRead line tag (.sweepImage base))

/-- CANCEL (R87, R172). -/
def execCancel (tag : Half) (line : Byte) (target : Half) (s : State) : Host.Outcome State Fault Refusal :=
  s.take (s.adminRead line tag (.cancel target))

/-- POWER (R173). The line byte of its entry is not read. -/
def execPower (tag : Half) (target : Byte) (s : State) : Host.Outcome State Fault Refusal :=
  s.take (s.adminRead 0 tag (.power target))

/-- LINE_QUERY (R174). -/
def execLineQuery (tag : Half) (line : Byte) (clear : Bool) (s : State) : Host.Outcome State Fault Refusal :=
  s.take (s.adminRead line tag (.lineQuery clear))

end Sys2Proof.Machine
end

