-- ==== Sys2Proof/Machine/Resets.lean ====
section
/-! DEFINITION. The meanings of the resets and of ENABLE: POWER_ON_RESET, HARD_RESET, ENABLE, SOFT_RESET,
SOFT_RESET_TAKES_EFFECT and HARD_RESET_HELD. -/

namespace Sys2Proof.Machine

/-! ### Writes to CONTROL (R183) -/

/-- A setup fails (R131). -/
def State.setupFail (s : State) (e : SetupError) : State :=
  { s with part := .disabled, setupError := e, causes := { s.causes with setupFailed := true } }

/-- LOADING begins (R129): the setup error is cleared; an address that is not a multiple of 64 fails at once, otherwise
the Fetch Unit requests the read of the setup block. -/
def State.startLoading (s : State) : State :=
  if s.setupAddr.toNat % 64 ≠ 0 then { s with setupError := .none }.setupFail .setupInvalid
  else
    { s with
      part := .loading, setupError := .none, fetch := { s.fetch with request := some (.setup, s.setupAddr) } }

/-- A whole-word write to CONTROL (R183): the enables take their bits; SOFT_RESET goes before ENABLE, which acts only
while the part is DISABLED. -/
def State.writeControl (s : State) (value : Word) : State :=
  let t := { s with enables := Causes.ofBits value 8 }
  if value.getLsbD 1 then t.requestSoftReset
  else if value.getLsbD 0 ∧ s.part = .disabled then t.startLoading
  else t

/-! ### Meanings -/

/-- POWER_ON_RESET (R148). -/
def execPowerOnReset (s : State) : Host.Outcome State Fault Refusal := .next s.powerOnReset

/-- HARD_RESET (R148, R184). -/
def execHardReset (s : State) : Host.Outcome State Fault Refusal := .next s.hardReset

/-- ENABLE (R129, R183). -/
def execEnable (value : Word) (s : State) : Host.Outcome State Fault Refusal :=
  s.take (some (s.writeControl (value ||| 1#32)))

/-- SOFT_RESET (R146, R183). -/
def execSoftReset (value : Word) (s : State) : Host.Outcome State Fault Refusal :=
  s.take (some (s.writeControl (value ||| 2#32)))

/-- SOFT_RESET_TAKES_EFFECT (R146, R148): the transfer in progress ends under a soft reset. -/
def execSoftResetTakesEffect (s : State) : Host.Outcome State Fault Refusal :=
  s.take (if s.softPending then some s.softReset else none)

/-- HARD_RESET_HELD (R146, R184): the RESET pin is low, and the Memory Port releases the bus at once. -/
def execHardResetHeld (s : State) : Host.Outcome State Fault Refusal :=
  .next { s with resetLow := true, port := { s.port with transfer := none } }

end Sys2Proof.Machine
end

