-- ==== Sys2Proof/Machine/Reads.lean ====
section
/-! DEFINITION. The meanings of the ends of reads: SETUP_READ_DONE and ENTRY_READ_DONE. -/

namespace Sys2Proof.Machine

/-! ### The setup block -/

/-- A setup that passes makes the part RUNNING (R132). -/
def State.enterRunning (s : State) (u : Setup) (wake : Bool) : State :=
  let open_ : Ring := ⟨.opened, 0, 0⟩
  { s with
    part := .running, setup := some u
    adminRing := open_, lineRings := ⟨open_, open_, open_, open_⟩
    fetch := ⟨none, .line 3⟩
    cu := { CompletionUnit.reset with statusPending := true }
    power := ⟨.active, wake, none⟩
    timer := ⟨true, 0, 0⟩ }

/-- The setup block has been read, or its read has failed (R129 to R132). The read is made only in LOADING, so its end is
acted on only there. -/
def State.setupRead (s : State) (resp : ReadResp) : State :=
  if s.part ≠ .loading then s
  else
    match resp with
    | .busError => s.setupFail .setupReadError
    | .data bytes =>
      if (parseSetup bytes).valid then s.enterRunning (parseSetup bytes) (parseWake bytes)
      else s.setupFail .setupInvalid

/-! ### Ring entries -/

/-- The REFUSED completion of an entry that fails a check (R138). -/
def refusalRecord (n : LineId) (e : RawExchange) (d : ExDetail) (now : Word) : ExchangeRec :=
  { line := n, outcome := .refused, detail := d, tag := e.tag, node := e.node, attempts := 0, last := none,
    finish := now }

/-- A valid entry joins the tail of the line queue with the next take sequence (R78). -/
def Line.insertEntry (e : RawExchange) (l : Line) : Line :=
  { l with waiting := l.waiting ++ [e.entry l.nextSeq], nextSeq := l.nextSeq + 1 }

/-- An exchange entry is checked (R138): inserted, or refused once. A refusal that finds no free place leaves the entry
untaken. -/
def State.exchangeTake (s : State) (n : LineId) (e : RawExchange) : State :=
  match e.firstBad with
  | none => (s.countTaken (.line n)).setLine n ((s.line n).insertEntry e)
  | some d =>
    if s.placeFree then (s.countTaken (.line n)).hold (.exchange (refusalRecord n e d s.timer.count)) else s

/-- The read of an exchange entry has completed (R137). -/
def State.exchangeEntry (s : State) (n : LineId) (e : RawExchange) : State :=
  if s.eligible (.line n) then s.exchangeTake n e else s

/-- The read of a ring entry ends (R137 to R140). -/
def State.entryRead (s : State) (r : RingId) : ReadResp → State
  | .busError => s.haltRing r .haltedReadError
  | .data bytes =>
    match r with
    | .admin => s.adminEntry (parseAdmin bytes).1 (parseAdmin bytes).2.1 (parseAdmin bytes).2.2
    | .line n => s.exchangeEntry n (parseExchange bytes)

/-! ### Meanings -/

/-- SETUP_READ_DONE (R130). -/
def execSetupReadDone (resp : ReadResp) (s : State) : Host.Outcome State Fault Refusal :=
  if resp.wellFormed then
    s.take (s.endTransfer fun t =>
      match t with
      | .setupRead _ => some fun u => u.setupRead resp
      | _ => none)
  else .fault .illFormed

/-- ENTRY_READ_DONE (R137). -/
def execEntryReadDone (resp : ReadResp) (s : State) : Host.Outcome State Fault Refusal :=
  if resp.wellFormed then
    s.take (s.endTransfer fun t =>
      match t with
      | .entryRead r _ => some fun u => u.entryRead r resp
      | _ => none)
  else .fault .illFormed

end Sys2Proof.Machine
end

