-- ==== Sys2Proof/Machine/Registers.lean ====
section
/-! DEFINITION. The meanings of the register writes: REGISTER_WRITE, POST, CONSUMED and CAUSE. -/

namespace Sys2Proof.Machine

/-- The ring a POST names: 0 the admin ring, 1 to 4 the exchange rings of lines 0 to 3 (R134, R186). -/
def postRing (value : Word) : Option RingId :=
  match (value >>> 16).toNat % 8 with
  | 0 => some .admin
  | 1 => some (.line 0)
  | 2 => some (.line 1)
  | 3 => some (.line 2)
  | 4 => some (.line 3)
  | _ => none

/-- A POST to a ring (R134). -/
def State.postTo (s : State) (r : RingId) (new : Half) : State :=
  if s.part ≠ .running ∨ (s.ring r).state ≠ .opened then s
  else if (new - (s.ring r).taken).toNat ≤ s.ringSize r then s.setRing r { s.ring r with posted := new }
  else s.haltRing r .haltedBadPost

/-- A write to POST (R134, R186). -/
def State.writePost (s : State) (value : Word) : State :=
  match postRing value with
  | some r => s.postTo r (value.setWidth 16)
  | none => s

/-- A write to CONSUMED (R155, R186). -/
def State.writeConsumed (s : State) (value : Word) : State :=
  if s.part ≠ .running then s
  else if (s.cu.produced - value.setWidth 16).toNat ≤ s.completionSize then
    { s with cu := { s.cu with consumed := value.setWidth 16 } }
  else s.partFault .badConsumed

/-- A write to CAUSE (R187). -/
def State.writeCause (s : State) (value : Word) : State :=
  { s with causes := s.causes.clearBy (Causes.ofBits value 0) }

/-- A whole-word write at a word offset of the window (R183 to R187). Writes to IDENT, STATE and offsets above 0x1C are
ignored. -/
def State.writeWord (s : State) (word : BitVec 5) (value : Word) : State :=
  match word.toNat with
  | 1 => s.writeControl value
  | 3 => { s with setupAddr := (s.setupAddr >>> 32 <<< 32) ||| value.setWidth 64 }
  | 4 => { s with setupAddr := (value.setWidth 64 <<< 32) ||| (s.setupAddr <<< 32 >>> 32) }
  | 5 => s.writePost value
  | 6 => s.writeConsumed value
  | 7 => s.writeCause value
  | _ => s

/-- REGISTER_WRITE (R183): a write narrower than the word is ignored. -/
def execRegisterWrite (word : BitVec 5) (whole : Bool) (value : Word) (s : State) : Host.Outcome State Fault Refusal :=
  s.take (if whole then some (s.writeWord word value) else none)

/-- POST (R134). -/
def execPost (value : Word) (s : State) : Host.Outcome State Fault Refusal := s.take (some (s.writePost value))

/-- CONSUMED (R155). -/
def execConsumed (value : Word) (s : State) : Host.Outcome State Fault Refusal := s.take (some (s.writeConsumed value))

/-- CAUSE (R187). -/
def execCause (value : Word) (s : State) : Host.Outcome State Fault Refusal := s.take (some (s.writeCause value))

end Sys2Proof.Machine
end

