-- ==== Sys2Proof/Machine/Clock.lean ====
section
/-! DEFINITION. The passing of time, in periods of the 48 MHz reference clock (00_scope, Reference clock), and the moments
at which time limits are reached. -/

namespace Sys2Proof.Machine

/-! ### Time passes -/

/-- The receiver of a reply (R3, R15): the counts run, and at the sample half a bit time after a transition the start bit
is confirmed, or the line is found back at mark and the transition was a glitch. DEDUCED (log entry 16): the idle count
then runs from the return to mark, or from the end of the stop bit if that came after it. -/
def Attempt.listen (k half : Nat) (space : Bool) (a : Attempt) : Attempt :=
  match a.gap with
  | .stopped => { a with since := a.since + k }
  | .fromSample n => { a with gap := .fromSample (n + k) }
  | .awaitMark => a
  | .fromMark n => { a with gap := .fromMark (n + k) }
  | .edge n back stop =>
    if n + k < half then { a with gap := .edge (n + k) (back.map (· + k)) stop }
    else if space then { a with since := n + k - half, gap := .stopped }
    else { a with gap := .fromMark (min (back.getD 0 + k) (n + k - stop)) }

/-- The timers of an engine by its state: the LEAD count runs at mark (R12), the frame while SENDING (R1), the reply
window while AWAITING (R13), the sample and idle counts while RECEIVING (R3, R15). -/
def Attempt.elapse (k half : Nat) (e : Engine) (space : Bool) (a : Attempt) : Attempt :=
  match e with
  | .lead => if space then a else { a with markCount := a.markCount + k }
  | .sending => { a with sent := a.sent + k }
  | .awaiting => { a with window := a.window + k }
  | .receiving => a.listen k half space
  | .off => a
  | .idle => a
  | .parked => a

/-- The measured run of space grows in every engine state but OFF (R4, R71). -/
def Wire.elapse (k : Nat) (e : Engine) (w : Wire) : Wire :=
  if e ≠ .off ∧ w.space = true then { w with run := w.run + k } else w

/-- One line after `k` periods. -/
def Line.elapse (k : Nat) (l : Line) : Line :=
  { l with
    att := l.att.elapse k l.profile.halfBit l.engine l.wire.space
    wire := l.wire.elapse k l.engine
    roundTimer := l.roundTimer.map (· - k) }

/-- The Part Timer after `k` periods: one microsecond for every 48 (R147). -/
def PartTimer.elapse (k : Nat) (t : PartTimer) : PartTimer :=
  if t.running then
    { t with
      count := t.count + BitVec.ofNat 32 ((t.clocks + k) / Config.clocksPerMicrosecond)
      clocks := (t.clocks + k) % Config.clocksPerMicrosecond }
  else t

/-- The part after `k` periods of the reference clock. -/
def State.elapse (k : Nat) (s : State) : State :=
  { s with
    timer := s.timer.elapse k
    cu := { s.cu with holdoff := s.cu.holdoff.map (· - k) }
    lines := s.lines.mapIdx fun _ l => l.elapse k }

/-- One period, for the step with no command waiting. While RESET is low nothing runs (R184). -/
def State.advance (s : State) : State := if s.resetLow then s else s.elapse 1

/-! ### Moments -/

/-- The moment at which a time limit of a line of the RUNNING part is reached: time moves on to it, by `left` periods, and
the line takes the happening. None where the line's state rules it out. -/
def State.moment (s : State) (n : LineId) (left : Line → Option Nat) (f : Ctx → Line → Line) : Option State :=
  if s.part = .running then (left (s.line n)).map fun k => (s.elapse k).onLine n f else none

end Sys2Proof.Machine
end

