-- ==== Sys2Proof/Machine/LineEvents.lean ====
section
/-! DEFINITION. The meanings of the happenings on a line: LEAD_WAIT_COMPLETE, HEADER_STOP_BIT_END, ECHO_FAILURE,
REQUEST_FRAME_END, REPLY_WINDOW_EXPIRY, REPLY_START, REPLY_CHARACTER, CHARACTER_GAP_EXCEEDED, LONG_SPACE, STUCK_LINE,
ROUND_START and LINE_ACTIVITY. A row that names the end of a wait or a limit is the moment at which that is reached: the
part's time moves on to it. One that the line's state rules out changes nothing. -/

namespace Sys2Proof.Machine

/-- LEAD_WAIT_COMPLETE (R12, R35). -/
def execLeadWaitComplete (line : LineId) (s : State) : Host.Outcome State Fault Refusal :=
  s.take (s.moment line Line.leadLeft Line.leadComplete)

/-- HEADER_STOP_BIT_END (R41). -/
def execHeaderStopBitEnd (line : LineId) (s : State) : Host.Outcome State Fault Refusal :=
  s.take (s.moment line Line.headerLeft fun _ l => l.headerEnd)

/-- ECHO_FAILURE (R11): the check is found failed at the echo's stop sample, and the attempt ends at the stop bit's
end. -/
def execEchoFailure (line : LineId) (index : Nat) (echo : Echo) (s : State) : Host.Outcome State Fault Refusal :=
  s.take (if (s.line line).echoFailsAt index echo then s.moment line (·.charLeft index) Line.collide else none)

/-- REQUEST_FRAME_END (R7, R13). -/
def execRequestFrameEnd (line : LineId) (s : State) : Host.Outcome State Fault Refusal :=
  s.take (s.moment line Line.frameLeft Line.frameEnd)

/-- REPLY_WINDOW_EXPIRY (R13). -/
def execReplyWindowExpiry (line : LineId) (s : State) : Host.Outcome State Fault Refusal :=
  s.take (s.moment line Line.windowLeft Line.windowEnd)

/-- The transition that begins a reply is the one that awaits its confirmation, or it falls now (R13). -/
def Line.replyEdge (x : Ctx) (l : Line) : Line := if l.att.edge.isNone then l.spaceRun x else l

/-- REPLY_START (R13, R17). -/
def execReplyStart (line : LineId) (s : State) : Host.Outcome State Fault Refusal :=
  s.take ((s.onLine line Line.replyEdge).moment line Line.replyLeft fun _ l => l.replyBegin)

/-- REPLY_CHARACTER (R14, R18): the moment is that of the stop-bit sample, at the earliest one character after the one
before. -/
def execReplyCharacter (line : LineId) (char : RxChar) (s : State) : Host.Outcome State Fault Refusal :=
  s.take (s.moment line Line.sampleLeft fun x l => l.replyCharacter x char)

/-- CHARACTER_GAP_EXCEEDED (R15). -/
def execCharacterGapExceeded (line : LineId) (s : State) : Host.Outcome State Fault Refusal :=
  s.take (s.moment line Line.gapLeft Line.gapEnd)

/-- A run of space has its 22-bit-time effect: on the line, then the wake of a part in DOZE (R16, R116, R180). -/
def State.longEffect (s : State) (n : LineId) : State :=
  (s.onLine n Line.longSpaceEffect).wake (s.line n).engine

/-- A line is found stuck (R72). The hunt test that an effect of the same event calls for (R119) comes before the fault
freezes the hunt: DEDUCED (log entry 44), where R117 keeps the flag set. -/
def State.foundStuck (s : State) (n : LineId) : State :=
  (s.onLine n Line.activateHunt).onLine n Line.becomeFaulted

/-- A run in SENDING has failed the echo check before it is found stuck, and the attempt has ended COLLISION
(R11, R71). -/
def State.echoFirst (s : State) (n : LineId) : State :=
  if (s.line n).engine = .sending then s.onLine n Line.collide else s

/-- The 22-bit-time effect of a run that has not had it, taken before the line is found stuck (R4, R71). -/
def State.longFirst (s : State) (n : LineId) : State := if (s.line n).longLeft.isSome then s.longEffect n else s

/-- A line is found stuck, with all that the rules put before the fault in the same event; an exchange under a cancel or a bar is
ended by the fault, LINE_FAULT (R74). DEDUCED (log entry 44): an attempt still on the wire ends first, as R71 has it. -/
def State.stuckEvent (s : State) (n : LineId) : State :=
  (((s.onLine n Line.attemptFirst).echoFirst n).longFirst n).foundStuck n

/-- A run of space reaches 22 bit times: its effect, or the whole event of a stuck line if the run is found past that limit too
(R4). -/
def State.longSpace (s : State) (n : LineId) : State :=
  if (s.line n).stuckLeft = some 0 then s.stuckEvent n else s.longEffect n

/-- The moment of a limit of a run of space, which begins now if the line is at mark (log entry 7). -/
def State.spaceMoment (s : State) (n : LineId) (left : Line → Option Nat) : Option State :=
  (s.onLine n Line.spaceRun).moment n left fun _ l => l

/-- LONG_SPACE (R4, R16, R116, R180). -/
def execLongSpace (line : LineId) (s : State) : Host.Outcome State Fault Refusal :=
  s.take ((s.spaceMoment line Line.longLeft).map (·.longSpace line))

/-- STUCK_LINE (R71, R72, R74). DESIGN CHOICE (log entry 49): the limit is the one of the profile in force as the row is taken, also
where the COLLISION of a PACE's last attempt changes the profile before the fault. -/
def execStuckLine (line : LineId) (s : State) : Host.Outcome State Fault Refusal :=
  s.take ((s.spaceMoment line Line.stuckLeft).map (·.stuckEvent line))

/-- ROUND_START (R102, R103). -/
def execRoundStart (line : LineId) (s : State) : Host.Outcome State Fault Refusal :=
  s.take (s.moment line (·.roundTimer) fun x l => l.startRound x (nextRound l.round))

/-- The pin of a line follows its level while nothing is acted on. -/
def Wire.level (w : Wire) : Activity → Wire
  | .toSpace => if w.space then w else ⟨true, 0, false⟩
  | .toMark => Wire.idle
  | .glitch => Wire.idle

/-- LINE_ACTIVITY (R12, R13, R15). The pin has its level in every part state; while RESET is low only the level is
followed. -/
def execLineActivity (line : LineId) (activity : Activity) (s : State) : Host.Outcome State Fault Refusal :=
  if s.resetLow then .next (s.setLine line { s.line line with wire := (s.line line).wire.level activity })
  else s.take (some (s.setLine line ((s.line line).lineActivity (s.ctx line) activity)))

end Sys2Proof.Machine
end

