-- ==== Sys2Proof/Machine/Writes.lean ====
section
/-! DEFINITION. The meanings of the ends of writes and of the holdoff timer: COMPLETION_WRITE_DONE, STATUS_WRITE_DONE,
SLOT_BODY_WRITE_DONE, SLOT_STAMP_WRITE_DONE and HOLDOFF_EXPIRY. -/

namespace Sys2Proof.Machine

/-- The record at the head leaves the holding queue and the produced count rises (R154). -/
def State.recordCounted (s : State) : State :=
  { s with cu := { s.cu with holding := s.cu.holding.tail, produced := s.cu.produced + 1, statusPending := true } }

/-- The holdoff and the threshold of the setup held (R157, R158). -/
def State.threshold (s : State) : Nat := (s.setup.map (·.threshold)).getD 0

/-- The holdoff in microseconds of the setup held (R158). -/
def State.holdoffTime (s : State) : Nat := (s.setup.map (·.holdoff)).getD 0

/-- Moderation takes the new produced count (R157, R158). -/
def State.moderate (s : State) : State :=
  if s.threshold ≤ s.cu.unsignalled then s.signal
  else if s.cu.unsignalled = 1 ∧ s.holdoffTime ≠ 0 then
    { s with cu := { s.cu with holdoff := some (s.holdoffTime * Config.clocksPerMicrosecond) } }
  else s

/-- A completion record write ends (R154, R156). -/
def State.recordWritten (s : State) : Resp → State
  | .good => s.recordCounted.moderate
  | .busError => s.partFault .completionWriteError

/-- A status block write ends (R142). -/
def State.statusWritten (s : State) : Resp → State
  | .good => s
  | .busError => s.partFault .statusWriteError

/-- A slot body write ends (R109, R114). -/
def State.bodyWritten (s : State) (n : LineId) : Resp → State
  | .good => s.setLine n (s.line n).bodyWritten
  | .busError => s.setLine n (s.line n).sweepFault

/-- A slot stamp write ends (R109, R114). -/
def State.stampWritten (s : State) (n : LineId) : Resp → State
  | .good => s.setLine n (s.line n).stampWritten
  | .busError => s.setLine n (s.line n).sweepFault

/-- The holdoff timer stops, and the Completion Unit signals if a completion is unsignalled (R158). -/
def State.holdoffPassed (s : State) : State :=
  let t := { s with cu := { s.cu with holdoff := none } }
  if 1 ≤ s.cu.unsignalled then t.signal else t

/-! ### Meanings -/

/-- HOLDOFF_EXPIRY (R158): the moment at which the deadline passes. -/
def execHoldoffExpiry (s : State) : Host.Outcome State Fault Refusal :=
  s.take (if s.part = .running then s.cu.holdoff.map fun k => (s.elapse k).holdoffPassed else none)

/-- COMPLETION_WRITE_DONE (R154). -/
def execCompletionWriteDone (resp : Resp) (s : State) : Host.Outcome State Fault Refusal :=
  s.take (s.endTransfer fun t =>
    match t with
    | .recordWrite _ _ => some fun u => u.recordWritten resp
    | _ => none)

/-- STATUS_WRITE_DONE (R142). -/
def execStatusWriteDone (resp : Resp) (s : State) : Host.Outcome State Fault Refusal :=
  s.take (s.endTransfer fun t =>
    match t with
    | .statusWrite _ _ => some fun u => u.statusWritten resp
    | _ => none)

/-- SLOT_BODY_WRITE_DONE (R109). -/
def execSlotBodyWriteDone (resp : Resp) (s : State) : Host.Outcome State Fault Refusal :=
  s.take (s.endTransfer fun t =>
    match t with
    | .slotBody n _ _ => some fun u => u.bodyWritten n resp
    | _ => none)

/-- SLOT_STAMP_WRITE_DONE (R109). -/
def execSlotStampWriteDone (resp : Resp) (s : State) : Host.Outcome State Fault Refusal :=
  s.take (s.endTransfer fun t =>
    match t with
    | .slotStamp n _ _ => some fun u => u.stampWritten n resp
    | _ => none)

end Sys2Proof.Machine
end

