-- ==== Sys2Proof/Machine/Time.lean ====
section
/-! DEFINITION. The happenings that fall due by the passing of time alone. The step takes them when no command waits. -/

namespace Sys2Proof.Machine

/-- A limit has been reached. -/
def isDue (left : Option Nat) : Bool := left == some 0

/-- What falls due on a line, in the order in which it is taken: a run of space has its 22-bit-time effect before it is
found stuck (R4). A request frame whose echo has not failed ends with its echo good. -/
def Line.dueEvent (n : LineId) (l : Line) : Option Instr :=
  if isDue l.longLeft then some (.longSpace n)
  else if isDue l.stuckLeft then some (.stuckLine n)
  else if isDue l.leadLeft then some (.leadWaitComplete n)
  else if isDue l.headerLeft then some (.headerStopBitEnd n)
  else if isDue l.frameLeft then some (.requestFrameEnd n)
  else if isDue l.confirmLeft then some (if l.wire.space then .replyStart n else .lineActivity n .glitch)
  else if isDue l.windowLeft then some (.replyWindowExpiry n)
  else if isDue l.gapLeft then some (.characterGapExceeded n)
  else if isDue l.roundTimer then some (.roundStart n)
  else none

/-- What falls due in the part: the holdoff deadline, then the lines in order. -/
def State.dueEvent (s : State) : Option Instr :=
  if s.part ≠ .running ∨ s.resetLow then none
  else if isDue s.cu.holdoff then some .holdoffExpiry
  else [(0 : LineId), 1, 2, 3].findSome? fun n => (s.line n).dueEvent n

end Sys2Proof.Machine
end

