-- ==== Sys2Proof/Machine/Dispatch.lean ====
section
/-! DEFINITION. The dispatch of the commands: one arm for each row of the opcode table. -/

namespace Sys2Proof.Machine

def exec (i : Instr) (s : State) : Host.Outcome State Fault Refusal :=
  match i with
  | .powerOnReset => Sys2Proof.Machine.execPowerOnReset s
  | .hardReset => Sys2Proof.Machine.execHardReset s
  | .enable value => Sys2Proof.Machine.execEnable value s
  | .softReset value => Sys2Proof.Machine.execSoftReset value s
  | .softResetTakesEffect => Sys2Proof.Machine.execSoftResetTakesEffect s
  | .registerWrite word whole value => Sys2Proof.Machine.execRegisterWrite word whole value s
  | .post value => Sys2Proof.Machine.execPost value s
  | .consumed value => Sys2Proof.Machine.execConsumed value s
  | .cause value => Sys2Proof.Machine.execCause value s
  | .setupReadDone resp => Sys2Proof.Machine.execSetupReadDone resp s
  | .entryReadDone resp => Sys2Proof.Machine.execEntryReadDone resp s
  | .lineSetup tag line brisk lull => Sys2Proof.Machine.execLineSetup tag line brisk lull s
  | .lineStart tag line => Sys2Proof.Machine.execLineStart tag line s
  | .lineStop tag line form => Sys2Proof.Machine.execLineStop tag line form s
  | .lineReset tag line => Sys2Proof.Machine.execLineReset tag line s
  | .nodeAdd tag line node trusted => Sys2Proof.Machine.execNodeAdd tag line node trusted s
  | .nodeRemove tag line node => Sys2Proof.Machine.execNodeRemove tag line node s
  | .nodeBar tag line node => Sys2Proof.Machine.execNodeBar tag line node s
  | .nodeUnbar tag line node => Sys2Proof.Machine.execNodeUnbar tag line node s
  | .nodeQuery tag line node => Sys2Proof.Machine.execNodeQuery tag line node s
  | .sweepSet tag line entry => Sys2Proof.Machine.execSweepSet tag line entry s
  | .sweepClear tag line index => Sys2Proof.Machine.execSweepClear tag line index s
  | .sweepImage tag line base => Sys2Proof.Machine.execSweepImage tag line base s
  | .cancel tag line target => Sys2Proof.Machine.execCancel tag line target s
  | .power tag target => Sys2Proof.Machine.execPower tag target s
  | .lineQuery tag line clear => Sys2Proof.Machine.execLineQuery tag line clear s
  | .leadWaitComplete line => Sys2Proof.Machine.execLeadWaitComplete line s
  | .headerStopBitEnd line => Sys2Proof.Machine.execHeaderStopBitEnd line s
  | .echoFailure line index echo => Sys2Proof.Machine.execEchoFailure line index echo s
  | .requestFrameEnd line => Sys2Proof.Machine.execRequestFrameEnd line s
  | .replyWindowExpiry line => Sys2Proof.Machine.execReplyWindowExpiry line s
  | .replyStart line => Sys2Proof.Machine.execReplyStart line s
  | .replyCharacter line char => Sys2Proof.Machine.execReplyCharacter line char s
  | .characterGapExceeded line => Sys2Proof.Machine.execCharacterGapExceeded line s
  | .longSpace line => Sys2Proof.Machine.execLongSpace line s
  | .stuckLine line => Sys2Proof.Machine.execStuckLine line s
  | .roundStart line => Sys2Proof.Machine.execRoundStart line s
  | .holdoffExpiry => Sys2Proof.Machine.execHoldoffExpiry s
  | .completionWriteDone resp => Sys2Proof.Machine.execCompletionWriteDone resp s
  | .statusWriteDone resp => Sys2Proof.Machine.execStatusWriteDone resp s
  | .slotBodyWriteDone resp => Sys2Proof.Machine.execSlotBodyWriteDone resp s
  | .slotStampWriteDone resp => Sys2Proof.Machine.execSlotStampWriteDone resp s
  | .lineActivity line activity => Sys2Proof.Machine.execLineActivity line activity s
  | .hardResetHeld => Sys2Proof.Machine.execHardResetHeld s

end Sys2Proof.Machine
end

