-- ==== Sys2Proof/Safety.lean ====
section
/-! DEFINITION. What counts as a sound state of the part, in the terms the claims use: the bounds and the consistency that
the manual states of lines, rings and the holding queue (R33, R34, R56, R57, R77, R97, R133, R150). -/

namespace Sys2Proof.Machine

/-- The engine states in which a line has a current exchange (R57). -/
def Engine.working : Engine → Bool
  | .off => false
  | .idle => false
  | .lead => true
  | .sending => true
  | .awaiting => true
  | .receiving => true
  | .parked => false

/-- A node record within the ranges of R34. -/
structure Node.InRange (x : Node) : Prop where
  addr_low : 1 ≤ x.addr
  addr_high : x.addr ≤ 62
  failures : x.failures ≤ 15
  joinProbes : x.joinProbes ≤ 15

/-- A roster: at most 32 records in strictly ascending address order, each within its ranges (R33, R34). -/
structure RosterOk (roster : List Node) : Prop where
  ascending : roster.Pairwise fun x y => x.addr < y.addr
  room : roster.length ≤ 32
  inRange : ∀ x ∈ roster, x.InRange

/-- Engine, current exchange and run state agree (R56, R57). -/
structure EngineOk (l : Line) : Prop where
  current : l.engine.working = l.current.isSome
  resting : l.run = .quiet ∨ l.run = .faulted → l.engine = .off

/-- A sound Line Unit: the engine agrees with the current exchange and the run state, the queue holds at most 16 entries
(R77), the roster is one, and every set sweep entry names a node of the roster (R97). -/
structure Line.Ok (l : Line) : Prop where
  engine : EngineOk l
  queue : l.depth ≤ 16
  roster : RosterOk l.roster
  sweep : ∀ i e, l.sweepAt i = some e → e.node ∈ l.roster.map (·.addr)

/-- A submission ring that runs never holds more entries than its size (R133). -/
def Ring.Ok (r : Ring) (size : Nat) : Prop := r.state = .opened → (r.posted - r.taken).toNat ≤ size

/-- A sound part. -/
structure State.Ok (s : State) : Prop where
  lines : ∀ n, (s.line n).Ok
  stopped : s.part ≠ .running → ∀ n, (s.line n).engine = .off
  holding : s.cu.holding.length ≤ 16
  rings : ∀ r, (s.ring r).Ok (s.ringSize r)

/-! ### What settling leaves alone -/

/-- A node record apart from the two owed flags that an admission clears (R52, R54). -/
def Node.unowed (x : Node) : Node := { x with alertOwed := false, reportOwed := false }

/-- A current exchange apart from the mark that its hunt is still active, which the end of the hunt clears (R121). -/
def Current.huntless (c : Current) : Current := { c with huntLive := false }

/-- What a line's own work and the admission of its offers leave of a line: its profiles, its sweep table, image base,
round, statistics, the pin, and its roster but for the owed flags; a run state other than DRAINING; and, while it has a
current exchange, that exchange and everything of the engine that carries it. -/
structure Line.Kept (l m : Line) : Prop where
  brisk : m.brisk = l.brisk
  lull : m.lull = l.lull
  valid : m.profilesValid = l.profilesValid
  sweep : m.sweep = l.sweep
  base : m.imageBase = l.imageBase
  round : m.round = l.round
  timer : m.roundTimer = l.roundTimer
  halted : m.sweepHalted = l.sweepHalted
  stats : m.stats = l.stats
  seq : m.nextSeq = l.nextSeq
  pin : m.wire.space = l.wire.space
  roster : m.roster.map Node.unowed = l.roster.map Node.unowed
  run : l.run ≠ .draining → m.run = l.run
  engine : l.current.isSome = true → m.engine = l.engine ∧ m.att = l.att ∧ m.settleOwed = l.settleOwed ∧
    m.wire = l.wire ∧ m.current.map Current.huntless = l.current.map Current.huntless ∧ m.run = l.run ∧
    m.inForce = l.inForce ∧ m.pace = l.pace ∧ m.turn = l.turn ∧ m.due = l.due ∧ m.probes = l.probes ∧
    m.waiting = l.waiting ∧ m.writer = l.writer

/-- What the consequences of an event leave of the part: everything but the lines' own work and offers, the Admin Unit's
command, the holding queue, the Fetch Unit's request, the transfer, and the power state's step from DOZE_PENDING to
DOZE. -/
structure State.Kept (s t : State) : Prop where
  part : t.part = s.part
  faultReason : t.faultReason = s.faultReason
  setupError : t.setupError = s.setupError
  resetCause : t.resetCause = s.resetCause
  resetLow : t.resetLow = s.resetLow
  softPending : t.softPending = s.softPending
  setupAddr : t.setupAddr = s.setupAddr
  enables : t.enables = s.enables
  causes : t.causes = s.causes
  setup : t.setup = s.setup
  timer : t.timer = s.timer
  wake : t.power.wake = s.power.wake
  power : t.power.state = s.power.state ∨ s.power.state = .dozePending ∧ t.power.state = .doze
  rings : ∀ r, t.ring r = s.ring r
  produced : t.cu.produced = s.cu.produced
  consumed : t.cu.consumed = s.cu.consumed
  mark : t.cu.mark = s.cu.mark
  holdoff : t.cu.holdoff = s.cu.holdoff
  holding : s.cu.holding <+: t.cu.holding
  transfer : s.port.transfer.isSome = true → t.port.transfer = s.port.transfer
  pending : t.pending = s.pending
  lines : ∀ n, (s.line n).Kept (t.line n)

/-! ### Nothing waits that could go on -/

/-- The engine rests at an exchange boundary: IDLE with no current exchange (R57, R80). -/
def Line.resting (l : Line) : Prop := l.engine = .idle ∧ l.current = none

/-- A line with no work of its own left to begin under a power state: no hunt that could start (R119); at an exchange boundary
no PACE, no host exchange and no work of its own to select (R81), no waiting entry left to mark (R92), and no line left that
should park (R179); and no drain at its end (R91). -/
structure Line.Settled (p : PowerState) (l : Line) : Prop where
  hunt : l.huntPending = true → l.hunt = none → l.run = .running → p ≠ .active ∧ p ≠ .lull
  pace : l.resting → l.run = .running ∨ l.run = .draining ∧ l.abandon = false → l.pace = .none
  host : l.resting → l.run = .running ∧ (p = .active ∨ p = .lull) ∨ l.run = .draining ∧ l.abandon = false →
    l.holdSlot ≠ none ∨ l.ended ≠ [] ∨ l.waiting = []
  own : l.resting → l.run = .running → p = .active ∨ p = .lull →
    l.hunt = none ∧ (l.sweepHalted = true ∨ l.due = []) ∧ l.probes = []
  flushed : l.resting → l.run = .draining → l.abandon = true → l.waiting = []
  drained : l.run = .draining → l.current = none → l.waiting ≠ [] ∨ l.ended ≠ []
  parked : l.resting → l.run = .running → p ≠ .dozePending

/-- A settled part: no record is on offer beside a free place (R153), no line has work of its own left to begin, no power
transition stays in progress whose condition holds (R177, R179), no eligible ring is left while the Fetch Unit is free (R136),
and no requester asks while the port could serve it (R144). -/
structure State.Settled (s : State) : Prop where
  offers : s.part = .running → s.placeFree = true → ∀ p, s.offerOf p = none
  lines : s.part = .running → ∀ n, (s.line n).Settled s.power.state
  parked : s.part = .running → s.power.transition ≠ none → s.power.state = .dozePending →
    ∃ n, (s.line n).engine ≠ .parked ∧ (s.line n).run ≠ .quiet ∧ (s.line n).run ≠ .faulted
  switched : s.part = .running → s.power.transition ≠ none → s.power.state ≠ .dozePending →
    ∃ n, (s.line n).inForce ≠ s.power.state.target ∧ (s.line n).run ≠ .quiet ∧ (s.line n).run ≠ .faulted
  rings : ∀ r, s.eligible r = true → s.fetchBusy = true
  port : s.portOpen = true → ∀ q, s.wanted q = none

/-! ### The words of the claims -/

/-- Happenings on the lines are acted on: the RESET pin is high and the part is RUNNING (R184, R128). -/
structure State.Live (s : State) : Prop where
  up : s.resetLow = false
  running : s.part = .running

/-- A transfer is in progress whose response will be acted on: RESET is high, no soft reset waits (R146), and the part is
LOADING or RUNNING (R143). -/
structure State.Serving (s : State) (x : Transfer) : Prop where
  up : s.resetLow = false
  acts : s.softPending = false
  alive : s.part = .loading ∨ s.part = .running
  transfer : s.port.transfer = some x

/-- The part with its transfer over. -/
def State.released (s : State) : State := { s with port := { s.port with transfer := none } }

/-- The read of an admin entry is in progress, and at its end the admin ring will be found eligible (R137). -/
structure AdminReady (s : State) : Prop where
  up : s.resetLow = false
  acts : s.softPending = false
  running : s.part = .running
  reading : ∃ a, s.port.transfer = some (.entryRead .admin a)
  opened : s.adminRing.state = .opened
  holds : s.adminRing.taken ≠ s.adminRing.posted
  free : s.admin = none

/-- The admin entry has been handed over: the read is over, the taken count is one higher, the status block is marked for
writing (R139, R141), and the Admin Unit holds what is given. -/
def State.handedOver (s : State) (h : AdminHand) : State :=
  { s.released with
    adminRing := { s.adminRing with taken := s.adminRing.taken + 1 }
    cu := { s.cu with statusPending := true }
    admin := some h }

/-- The command has finished in the event in which it was taken, with this ADMIN completion (R163). -/
def State.adminDone (s : State) (command : Byte) (line : Option Byte) (tag : Half) (node : Option Byte)
    (o : AdminOutcome) : State :=
  s.handedOver (.offered ⟨command, line, tag, node, o, s.timer.count⟩)

/-- The part as it enters FAULTED (R56, R143): every engine OFF, the current and queued exchanges gone, the Fetch Unit's request,
the Admin Unit's command and the transition discarded, the timers stopped, and the PART_FAULT cause set. -/
def State.stopped (s : State) (r : FaultReason) : State :=
  { s with
    part := .faulted, faultReason := r
    lines := s.lines.mapIdx fun _ l => { l with
      engine := .off, current := none, att := Attempt.clear, settleOwed := false
      wire := ⟨l.wire.space, 0, false⟩, waiting := [], ended := [], roundTimer := none }
    fetch := { s.fetch with request := none }, admin := none, cu := { s.cu with holdoff := none }
    timer := { s.timer with running := false }, power := { s.power with transition := none }
    causes := { s.causes with partFault := true } }

/-- The number by which POST names a ring (R134), which is its place in the rotation of R136. -/
def RingId.number : RingId → Nat
  | .admin => 0
  | .line n => n.val + 1

/-- The place of a producer in the rotation of R153. -/
def Producer.number : Producer → Nat
  | .admin => 0
  | .line n => n.val + 1

/-- The place of a requester in the rotation of R144. -/
def Requester.number : Requester → Nat
  | .fetch => 0
  | .completion => 1
  | .writer n => n.val + 2

/-- How many members of a rotation of `size` are looked at before the member `q`, from the one after `p`. -/
def turnsBefore (size p q : Nat) : Nat := (q + (size - 1) - p) % size

/-- The run of space on a RUNNING or DRAINING line, if it is at space with its engine not OFF, has reached the stuck limit of the
profile in force (R71). -/
def Line.pastStuckLimit (l : Line) : Prop :=
  l.engine ≠ .off ∧ (l.run = .running ∨ l.run = .draining) ∧ l.wire.space = true ∧
    l.profile.stuckLimit * 48000 ≤ l.wire.run

/-- The tag, line, command code and node of an administrative command that names a line (R161, R188). -/
def adminHead : Instr → Option (Half × Byte × Byte × Option Byte)
  | .lineSetup t l _ _ => some (t, l, 1, none)
  | .lineStart t l => some (t, l, 2, none)
  | .lineStop t l _ => some (t, l, 3, none)
  | .lineReset t l => some (t, l, 4, none)
  | .nodeAdd t l a _ => some (t, l, 5, some a)
  | .nodeRemove t l a => some (t, l, 6, some a)
  | .nodeBar t l a => some (t, l, 7, some a)
  | .nodeUnbar t l a => some (t, l, 8, some a)
  | .nodeQuery t l a => some (t, l, 9, some a)
  | .sweepSet t l _ => some (t, l, 10, none)
  | .sweepClear t l _ => some (t, l, 11, none)
  | .sweepImage t l _ => some (t, l, 12, none)
  | .cancel t l _ => some (t, l, 13, none)
  | .lineQuery t l _ => some (t, l, 15, none)
  | _ => none

/-- The command can carry an administrative command: it is such a row, or the end of the read of a ring entry. -/
def editsLines : Instr → Bool
  | .entryReadDone _ => true
  | c => (adminHead c).isSome

/-- The command reports the end of a transfer of the Memory Port: a row of a transfer's own, or an administrative command, which
an admin entry that was read carries. -/
def endsTransfer : Instr → Bool
  | .setupReadDone _ => true
  | .entryReadDone _ => true
  | .completionWriteDone _ => true
  | .statusWriteDone _ => true
  | .slotBodyWriteDone _ => true
  | .slotStampWriteDone _ => true
  | .power _ _ => true
  | c => (adminHead c).isSome

/-- A line event is owed (R152). -/
def Owed.owes (o : Owed) : LineEvent → Bool
  | .faulted => o.faulted
  | .drained => o.drained
  | .sweepWriteFault => o.sweepWriteFault
  | .sweepOverrun => o.sweepOverrun
  | .huntEmpty => o.huntEmpty
  | .alertPulseInDoze => o.alertPulseInDoze

/-- A field of a profile passes its own check, by its number (R23). -/
def fieldPasses (p : RawProfile) : Nat → Prop
  | 1 => 16 ≤ p.divisor.toNat ∧ p.divisor.toNat ≤ 40000
  | 2 => p.parity.toNat = 0 ∨ p.parity.toNat = 1 ∨ p.parity.toNat = 2
  | 3 => 12 ≤ p.leadGap.toNat ∧ p.leadGap.toNat ≤ 255
  | 4 => 22 ≤ p.replyWindow.toNat ∧ p.replyWindow.toNat ≤ 65535
  | 5 => 2 ≤ p.charGap.toNat ∧ p.charGap.toNat ≤ 255
  | 6 => p.leadGap.toNat ≤ p.retryGap.toNat ∧ p.retryGap.toNat ≤ 65535
  | 7 => p.leadGap.toNat ≤ p.busyPause.toNat ∧ p.busyPause.toNat ≤ 65535
  | 8 => 1 ≤ p.sweepPeriod.toNat ∧ p.sweepPeriod.toNat ≤ 60000
  | 9 => 1 ≤ p.failThreshold.toNat ∧ p.failThreshold.toNat ≤ 15
  | 10 => 1 ≤ p.joinLimit.toNat ∧ p.joinLimit.toNat ≤ 15
  | 11 => p.probeInterval.toNat ≤ 255
  | 12 => 1 ≤ p.stuckLimit.toNat ∧ p.stuckLimit.toNat ≤ 1000 ∧ 11 * p.divisor.toNat ≤ p.stuckLimit.toNat * 6000
  | _ => True

/-- Every field of a profile passes. -/
def profilePasses (p : RawProfile) : Prop := ∀ f, fieldPasses p f

/-- A field is the first of a profile that fails. -/
def firstFails (p : RawProfile) (f : Nat) : Prop := ¬ fieldPasses p f ∧ ∀ g, g < f → fieldPasses p g

/-- Two areas share a byte. -/
def areasMeet (a b : Nat × Nat) : Prop := ∃ x, (a.1 ≤ x ∧ x < a.1 + a.2) ∧ (b.1 ≤ x ∧ x < b.1 + b.2)

/-- The conditions under which a setup passes (R130). -/
structure SetupPasses (u : Setup) : Prop where
  aligned : ∀ a ∈ u.areas, a.1 % 64 = 0
  rings : ∀ r, 8 ≤ u.ringSize r ∧ u.ringSize r ≤ 1024
  completions : 16 ≤ u.completionSize ∧ u.completionSize ≤ 4096
  extent : ∀ a ∈ u.areas, a.1 + a.2 ≤ 2 ^ 64
  apart : u.areas.Pairwise fun a b => ¬ areasMeet a b
  threshold : 1 ≤ u.threshold

/-- An attempt of the current exchange may go at the end of its LEAD wait (R35): it is a broadcast, or it is not barred and
its node's state lets it through. -/
def mayGo (c : Current) (roster : List Node) : Prop :=
  c.node = 0 ∨ c.barred = false ∧ ∃ x, findNode roster c.node = some x ∧
    (if c.origin = .probe then x.state = .joining ∨ x.state = .silent else x.state = .active)

/-- The toggle an attempt sends (R10, R41): chosen when the first attempt begins. -/
def attemptToggle (c : Current) (roster : List Node) : Bool :=
  if c.attempts ≠ 0 then c.toggle
  else if c.node = 0 then false
  else
    match findNode roster c.node with
    | some x => !x.lastToggle
    | none => false

/-- The line with the end of the HEADER of the frame on the wire accounted for (R10, R41): on the first attempt of an exchange
to a node, its record has taken the toggle. -/
def Line.headerOver (l : Line) (c : Current) : Line :=
  if l.att.headerDone then l
  else { l with
    att := { l.att with headerDone := true }
    roster := if c.node ≠ 0 ∧ c.attempts = 1 then
        l.roster.map fun x => if x.addr = c.node then { x with lastToggle := c.toggle } else x
      else l.roster }

/-- The line once a run of space has had its 22-bit-time effect on the hunt and the statistics (R16, R116). -/
def Line.pulsed (l : Line) : Line :=
  { l with
    huntPending := true, stats := { l.stats with alertPulses := satInc l.stats.alertPulses }
    wire := { l.wire with marked := true } }

/-- The part in a working power state, as it leaves DOZE for it (R181): every PARKED line IDLE with its next round started,
and on a RUNNING or DRAINING line a SWITCH pending if the profile in force differs from the new target. -/
def State.wokenTo (s : State) (p : PowerState) : State :=
  { s with
    power := { s.power with state := p }, cu := { s.cu with statusPending := true }
    lines := s.lines.mapIdx fun n l =>
      let k : Line :=
        if p = .lull then l
        else if l.run = .quiet ∨ l.run = .faulted then { l with inForce := p.target, pace := .none }
        else if l.inForce ≠ p.target then { l with pace := .switch }
        else if l.pace = .switch then { l with pace := .none } else l
      if l.engine = .parked then
        Line.startRound ⟨n, s.timer.count, p⟩ (nextRound l.round) { k with engine := .idle }
      else k }

/-- The turn flag after the current exchange has ended (R82). -/
def Line.turnAfter (l : Line) : Turn :=
  match l.current with
  | none => l.turn
  | some c =>
    match c.origin with
    | .host .routine _ => .sweep
    | .sweep _ _ => .routine
    | _ => l.turn

/-- The line as it is found stuck (R72), on line `n` at a part time under a target profile. -/
def Line.foundStuck (l : Line) (n : LineId) (now : Word) (target : ProfileSel) : Line :=
  { l with
    run := .faulted, abandon := false, engine := .off, current := none, att := Attempt.clear, settleOwed := false
    wire := ⟨l.wire.space, 0, false⟩, inForce := target, pace := .none
    waiting := []
    ended := l.ended ++ ((l.waiting.filter fun e => e.cls = .urgent) ++ l.waiting.filter fun e => e.cls = .routine).map
      fun e => ⟨e, .lineFault, now⟩
    holdSlot :=
      match l.current with
      | some c =>
        match c.origin with
        | .host _ t => some ⟨n, .lineFault, if c.wentSilent then .wentSilent else .none, t, c.node, c.attempts, c.last, now⟩
        | _ => l.holdSlot
      | none => l.holdSlot
    turn := l.turnAfter, roundTimer := none, due := [], probes := [], owed := { l.owed with faulted := true } }

/-- The part with line `n` found stuck, after the hunt test of the same event (R72, R119). -/
def State.withStuck (s : State) (n : LineId) : State :=
  s.setLine n (((s.line n).activateHunt (s.ctx n)).foundStuck n s.timer.count s.power.state.target)

/-- The count of 1 bits among the data bits and the sampled parity bit of a character (R1, R3). -/
def onesOf (c : RxChar) : Nat := ((List.range 8).filter c.data.getLsbD).length + c.parity.toNat

/-- The admin entry being read names line `n`, in a power state that takes every command (R164). -/
structure LineReady (s : State) (line : Byte) (n : LineId) : Prop where
  ready : AdminReady s
  names : line.toNat = n.val
  power : s.power.state = .active ∨ s.power.state = .lull

end Sys2Proof.Machine
end

