-- ==== Sys2Proof/Certificates/Slice0/Obligations.lean ====
section
/-! DEFINITION. The statements about the LN-432. A next state is written as an explicit update of the state before, settled:
what settling can still do within the same event is said once by SettlingKeepsTheRest and NothingWaitsThatCouldGoOn. -/

section

open Sys2Proof Sys2Proof.Machine

/-! ### The step -/

/-- A step takes the command at the front of the queue and runs it on the state with the queue's rest. -/
def Obligations.StepTakesTheFrontCommand : Prop :=
  ∀ (c : Instr) (rest : List Instr) (s : State), s.pending = c :: rest → step s = exec c (s.withPending rest)

/-- With no command waiting a step takes what is due by the passing of time, and otherwise lets one period of the reference clock
pass; while RESET is low nothing happens. In `k` periods the Part Timer counts one microsecond for every 48 and wraps; the holdoff
and the round timers run down; a run of space grows in every engine state but OFF; and the engine's own count goes on: the LEAD
count at mark, the frame in SENDING, the reply window in AWAITING, the character and the idle time between two in RECEIVING. Nothing
else moves. A happening is due when its count has reached its limit, and only in a RUNNING part: the holdoff deadline first, then
line by line, the first of each line's in the order of the list. THE MODEL'S CHOICE: that the step takes what is due, one happening
at a time and in that order (log entry 2); that a limit is a whole number of periods, half the bit time of an odd divisor rounded up
to a confirmation and down to a stop bit's end (log entry 22); that a frame of which nobody reports a failed echo ends with its echo
good (log entry 15); that a glitch starts the idle count again with the return to mark, or with the end of the stop bit if that is
later (log entry 16); and that RESET low stops
everything (log entry 14). -/
def Obligations.StepOnAnEmptyQueue : Prop :=
  ∀ s : State,
    (s.pending = [] →
      (s.resetLow = true → step s = .next s) ∧
      (s.resetLow = false → s.part ≠ .running → step s = .next (s.elapse 1)) ∧
      (∀ c, s.dueEvent = some c → step s = exec c s) ∧
      (s.resetLow = false → s.dueEvent = none → step s = .next (s.elapse 1))) ∧
    (∀ k : Nat,
      let t := s.elapse k
      t = { s with timer := t.timer, cu := { s.cu with holdoff := s.cu.holdoff.map fun h => h - k }, lines := t.lines } ∧
      (s.timer.running = false → t.timer = s.timer) ∧
      (s.timer.running = true → t.timer.running = true ∧ t.timer.clocks = (s.timer.clocks + k) % 48 ∧
        t.timer.count.toNat = (s.timer.count.toNat + (s.timer.clocks + k) / 48) % 2 ^ 32) ∧
      ∀ n : LineId,
        let l := s.line n
        let m := t.line n
        let a := l.att
        let half := (l.profile.divisor + 1) / 2
        m = { l with att := m.att, wire := m.wire, roundTimer := l.roundTimer.map fun r => r - k } ∧
        (l.engine = .off ∨ l.wire.space = false → m.wire = l.wire) ∧
        (l.engine ≠ .off → l.wire.space = true → m.wire = { l.wire with run := l.wire.run + k }) ∧
        (l.engine = .off ∨ l.engine = .idle ∨ l.engine = .parked → m.att = a) ∧
        (l.engine = .lead → (l.wire.space = true → m.att = a) ∧
          (l.wire.space = false → m.att = { a with markCount := a.markCount + k })) ∧
        (l.engine = .sending → m.att = { a with sent := a.sent + k }) ∧
        (l.engine = .awaiting → m.att = { a with window := a.window + k }) ∧
        (l.engine = .receiving →
          (a.gap = .stopped → m.att = { a with since := a.since + k }) ∧
          (∀ j, a.gap = .fromSample j → m.att = { a with gap := .fromSample (j + k) }) ∧
          (∀ j, a.gap = .fromMark j → m.att = { a with gap := .fromMark (j + k) }) ∧
          (a.gap = .awaitMark → m.att = a) ∧
          ∀ j back stop, a.gap = .edge j back stop →
            (j + k < half → m.att = { a with gap := .edge (j + k) (back.map fun b => b + k) stop }) ∧
            (half ≤ j + k → l.wire.space = true → m.att = { a with gap := .stopped, since := j + k - half }) ∧
            (half ≤ j + k → l.wire.space = false →
              m.att = { a with gap := .fromMark (min (back.getD 0 + k) (j + k - stop)) }))) ∧
    (∀ n : LineId,
      let l := s.line n
      let p := l.profile
      let a := l.att
      let char := (if p.parity = .none then 10 else 11) * p.divisor
      let confirms := l.engine = .awaiting ∧ l.current ≠ none ∧ ∃ e, a.edge = some e ∧ (p.divisor + 1) / 2 ≤ a.window - e
      let list : List (Prop × Instr) := [
        (l.engine ≠ .off ∧ l.engine ≠ .sending ∧ l.wire.space = true ∧ l.wire.marked = false ∧ 22 * p.divisor ≤ l.wire.run,
          .longSpace n),
        (l.engine ≠ .off ∧ (l.run = .running ∨ l.run = .draining) ∧ l.wire.space = true ∧ p.stuckLimit * 48000 ≤ l.wire.run,
          .stuckLine n),
        (l.engine = .lead ∧ l.current ≠ none ∧ l.wire.space = false ∧ a.wait * p.divisor ≤ a.markCount, .leadWaitComplete n),
        (l.engine = .sending ∧ l.current ≠ none ∧ a.headerDone = false ∧ char ≤ a.sent, .headerStopBitEnd n),
        (l.engine = .sending ∧ (∃ c, l.current = some c ∧ c.frame.length * char ≤ a.sent), .requestFrameEnd n),
        (confirms ∧ l.wire.space = true, .replyStart n),
        (confirms ∧ l.wire.space = false, .lineActivity n .glitch),
        (l.engine = .awaiting ∧ l.current ≠ none ∧ a.edge = none ∧ p.replyWindow * p.divisor ≤ a.window, .replyWindowExpiry n),
        (l.engine = .receiving ∧ l.current ≠ none ∧
          (∃ j, a.gap = .fromSample j ∧ p.charGap * p.divisor + p.divisor / 2 + 1 ≤ j ∨
            a.gap = .fromMark j ∧ p.charGap * p.divisor + 1 ≤ j), .characterGapExceeded n),
        (l.roundTimer = some 0, .roundStart n)]
      (∀ before due c after, list = before ++ (due, c) :: after → due → (∀ x ∈ before, ¬ x.1) → l.dueEvent n = some c) ∧
      ((∀ x ∈ list, ¬ x.1) → l.dueEvent n = none)) ∧
    (s.part ≠ .running ∨ s.resetLow = true → s.dueEvent = none) ∧
    (s.part = .running → s.resetLow = false →
      (s.cu.holdoff = some 0 → s.dueEvent = some .holdoffExpiry) ∧
      (s.cu.holdoff ≠ some 0 →
        (∀ n c, (s.line n).dueEvent n = some c → (∀ m, m < n → (s.line m).dueEvent m = none) → s.dueEvent = some c) ∧
        ((∀ n, (s.line n).dueEvent n = none) → s.dueEvent = none)))

/-- Every well-formed command answers a next state in every state, with the queue of commands as it was. THE MODEL'S CHOICE: an
ill-formed command is the only stop (log entry 10), and the queue of commands is kept through the resets too (log entry 4). -/
def Obligations.EveryCommandAnswers : Prop :=
  ∀ (c : Instr) (s : State),
    (c.wellFormed = true → ∃ t, exec c s = .next t ∧ t.pending = s.pending) ∧
    (c.wellFormed = false → exec c s = .fault .illFormed)

/-- What the consequences of an event leave alone, on the part and on each line (State.Kept, Line.Kept); and a part that is
settled (State.Settled) they leave as it is. That all of them come about in the step of the event, and in which order, is THE
MODEL'S CHOICE (log entry 8), and so is that a run of space is compared only after them with the limits of a profile that the end of
a PACE has put in force (log entry 47): the count of alert pulses and a RUNNING line's run state stay with them. -/
def Obligations.SettlingKeepsTheRest : Prop :=
  ∀ s : State, s.Kept s.settle ∧ (s.Settled → s.settle = s)

/-! ### Resets -/

/-- The state after power-on reset; and a power-on reset and the RESET pin's return to high put every block at its reset value,
each with its cause. What no reset reaches is THE MODEL'S CHOICE (log entry 4): the queue of commands and the levels of the
receive pins; and a RESET pin that is still low goes on holding the part after a power-on reset. -/
def Obligations.ResetsPutEveryBlockAtItsResetValue : Prop :=
  (State.reset.part = .disabled ∧ State.reset.faultReason = .none ∧ State.reset.setupError = .none ∧
  State.reset.resetCause = .powerOn ∧ State.reset.softPending = false ∧ State.reset.setupAddr = 0 ∧
  State.reset.enables = ⟨false, false, false, false⟩ ∧ State.reset.causes = ⟨false, false, false, false⟩ ∧
  State.reset.irq = false ∧ State.reset.setup = none ∧ State.reset.timer.running = false ∧
  State.reset.timer.count = 0 ∧ State.reset.power = ⟨.active, false, none⟩ ∧
  (∀ r, State.reset.ring r = ⟨.off, 0, 0⟩) ∧ State.reset.fetch = ⟨none, .line 3⟩ ∧ State.reset.admin = none ∧
  State.reset.cu.holding = [] ∧ State.reset.cu.produced = 0 ∧ State.reset.cu.consumed = 0 ∧
  State.reset.cu.mark = 0 ∧ State.reset.cu.statusPending = false ∧ State.reset.cu.holdoff = none ∧
  State.reset.cu.pointer = .line 3 ∧ State.reset.port = ⟨none, .writer 3⟩ ∧
  (∀ n, (State.reset.line n).run = .quiet ∧ (State.reset.line n).engine = .off ∧
    (State.reset.line n).current = none ∧ (State.reset.line n).abandon = false ∧
    (State.reset.line n).brisk = none ∧ (State.reset.line n).lull = none ∧
    (State.reset.line n).profilesValid = false ∧ (State.reset.line n).inForce = .brisk ∧
    (State.reset.line n).pace = .none ∧ (State.reset.line n).roster = [] ∧ (State.reset.line n).waiting = [] ∧
    (State.reset.line n).ended = [] ∧ (State.reset.line n).holdSlot = none ∧ (State.reset.line n).turn = .sweep ∧
    (∀ i, (State.reset.line n).sweepAt i = none) ∧ (State.reset.line n).imageBase = none ∧
    (State.reset.line n).round = 0 ∧ (State.reset.line n).roundTimer = none ∧ (State.reset.line n).due = [] ∧
    (State.reset.line n).probes = [] ∧ (State.reset.line n).sweepHalted = false ∧
    (State.reset.line n).writer = ⟨[], none⟩ ∧ (State.reset.line n).huntPending = false ∧
    (State.reset.line n).hunt = none ∧ (State.reset.line n).owed = ⟨false, false, false, false, false, false⟩ ∧
    (State.reset.line n).stats = ⟨0, 0, 0, 0, 0⟩ ∧ (State.reset.line n).settleOwed = false ∧
    (State.reset.line n).driverEnable = false ∧ (State.reset.line n).transmitData = true)) ∧
  ∀ s : State,
    exec .powerOnReset s = .next { State.reset with
      resetCause := .powerOn, resetLow := s.resetLow, pending := s.pending
      lines := s.lines.mapIdx fun _ l => { Line.reset with wire := ⟨l.wire.space, 0, false⟩ } } ∧
    exec .hardReset s = .next { State.reset with
      resetCause := .hard, resetLow := false, pending := s.pending
      lines := s.lines.mapIdx fun _ l => { Line.reset with wire := ⟨l.wire.space, 0, false⟩ } }

/-- A soft reset takes effect at once with no transfer in progress, and keeps SETUP ADDRESS; with one in progress it waits, the
transfer goes on, and no other begins. The one that waits takes effect as one event when the transfer ends, however it ends and
whatever it was; the response is discarded. THE MODEL'S CHOICE: the row that ends the transfer is that moment (log entry 26),
SOFT_RESET_TAKES_EFFECT has no effect with no soft reset waiting (log entry 3), and the queue of commands and the levels of the
receive pins are kept (log entry 4). -/
def Obligations.SoftResetAtOnceOrWhenTheTransferEnds : Prop :=
  ∀ s : State, s.resetLow = false →
    let r : State := { State.reset with
      resetCause := .soft, setupAddr := s.setupAddr, pending := s.pending
      lines := s.lines.mapIdx fun _ l => { Line.reset with wire := ⟨l.wire.space, 0, false⟩ } }
    (∀ v : Word,
      (s.port.transfer = none → exec (.softReset v) s = .next r) ∧
      (∀ x, s.port.transfer = some x →
        exec (.softReset v) s =
          .next ({ s with enables := Causes.ofBits v 8, softPending := true } : State).settle ∧
        ∀ t, exec (.softReset v) s = .next t → t.port.transfer = some x ∧ t.softPending = true ∧ t.part = s.part)) ∧
    (s.softPending = false → exec .softResetTakesEffect s = .next s) ∧
    (s.softPending = true →
      exec .softResetTakesEffect s = .next r ∧
      (∀ a, s.port.transfer = some (.setupRead a) → ∀ x, x.wellFormed = true → exec (.setupReadDone x) s = .next r) ∧
      (∀ q a, s.port.transfer = some (.entryRead q a) → ∀ x, x.wellFormed = true →
        exec (.entryReadDone x) s = .next r) ∧
      (∀ a b, s.port.transfer = some (.recordWrite a b) → ∀ x, exec (.completionWriteDone x) s = .next r) ∧
      (∀ a b, s.port.transfer = some (.statusWrite a b) → ∀ x, exec (.statusWriteDone x) s = .next r) ∧
      (∀ n a b, s.port.transfer = some (.slotBody n a b) → ∀ x, exec (.slotBodyWriteDone x) s = .next r) ∧
      (∀ n a b, s.port.transfer = some (.slotStamp n a b) → ∀ x, exec (.slotStampWriteDone x) s = .next r))

/-- THE MODEL'S CHOICE (log entry 14): the RESET pin driven low releases the bus at once and keeps the rest of the state, and
while it is low no command but a change of a pin or a power-on reset changes anything; of LINE_ACTIVITY only the pin's level is
seen. -/
def Obligations.ResetPinHoldsThePart : Prop :=
  (∀ s : State, exec .hardResetHeld s = .next { s with resetLow := true, port := { s.port with transfer := none } }) ∧
  (∀ (c : Instr) (s : State), s.resetLow = true → c.wellFormed = true → c ≠ .powerOnReset → c ≠ .hardReset →
    c ≠ .hardResetHeld → (∀ n a, c ≠ .lineActivity n a) → exec c s = .next s) ∧
  (∀ (s : State) (n : LineId) (a : Activity), s.resetLow = true →
    ∃ w : Wire, w.space = (match a with | .toSpace => true | .toMark => false | .glitch => false) ∧
      exec (.lineActivity n a) s = .next (s.setLine n { s.line n with wire := w }))

/-! ### The register window -/

/-- ENABLE on a DISABLED part starts LOADING: with an address that is a multiple of 64 the port, if it is free, begins the
read of the setup block; with another the setup fails SETUP_INVALID and no read is made. In any other part state only the
enables take their bits. A write that also sets SOFT_RESET is a soft reset. -/
def Obligations.EnableStartsLoading : Prop :=
  (∀ (s : State) (v : Word), v.getLsbD 1 = true → exec (.enable v) s = exec (.softReset v) s) ∧
  ∀ (s : State) (v : Word), s.resetLow = false → v.getLsbD 1 = false →
    (s.part = .disabled → s.setupAddr.toNat % 64 = 0 → s.port.transfer = none → s.softPending = false →
      s.port.last = .writer 3 →
      exec (.enable v) s = .next { s with
        enables := Causes.ofBits v 8, part := .loading, setupError := .none
        fetch := { s.fetch with request := none }, port := ⟨some (.setupRead s.setupAddr), .fetch⟩ }) ∧
    (s.part = .disabled → s.setupAddr.toNat % 64 = 0 →
      exec (.enable v) s = .next ({ s with
        enables := Causes.ofBits v 8, part := .loading, setupError := .none
        fetch := { s.fetch with request := some (.setup, s.setupAddr) } } : State).settle) ∧
    (s.part = .disabled → s.setupAddr.toNat % 64 ≠ 0 → s.fetch.request = none →
      exec (.enable v) s = .next { s with
        enables := Causes.ofBits v 8, part := .disabled, setupError := .setupInvalid
        causes := { s.causes with setupFailed := true } }) ∧
    (s.part ≠ .disabled → exec (.enable v) s = .next ({ s with enables := Causes.ofBits v 8 } : State).settle)

/-- What each word of the window reads, its other bits reading 0, and one byte of it read alone: the byte that lane k picks, bits
8k to 8k+7, is THE MODEL'S CHOICE (log entry 40). A write to each word: the two halves of SETUP ADDRESS in every part state;
CONTROL, POST, CONSUMED and CAUSE as their own rows; every other word, and every write narrower than a word, without effect. -/
def Obligations.RegisterWindow : Prop :=
  ([PartState.disabled, .loading, .running, .faulted].map (·.code) = [0, 1, 2, 3] ∧
    [PowerState.active, .lull, .dozePending, .doze].map (·.code) = [0, 1, 2, 3] ∧
    [ResetCause.powerOn, .hard, .soft].map (·.code) = [1, 2, 3] ∧
    [SetupError.none, .setupInvalid, .setupReadError].map (·.code) = [0, 1, 2] ∧
    [FaultReason.none, .completionWriteError, .statusWriteError, .badConsumed].map (·.code) = [0, 1, 2, 3]) ∧
  (∀ s : State,
    s.readWord 0 = 0x4C5A0001#32 ∧
    ((s.readWord 1).getLsbD 0 = true ↔ s.part ≠ .disabled) ∧ (s.readWord 1).getLsbD 1 = false ∧
    Causes.ofBits (s.readWord 1) 8 = s.enables ∧
    (∀ i, 2 ≤ i ∧ i ≤ 7 ∨ 12 ≤ i → (s.readWord 1).getLsbD i = false) ∧
    (s.readWord 2).toNat % 4 = s.part.code ∧ (s.readWord 2).toNat / 4 % 4 = s.power.state.code ∧
    (s.readWord 2).toNat / 16 % 4 = s.resetCause.code ∧ (s.readWord 2).toNat / 64 % 4 = s.setupError.code ∧
    (s.readWord 2).toNat / 256 = s.faultReason.code ∧
    (s.readWord 4 ++ s.readWord 3 : BitVec 64) = s.setupAddr ∧
    s.readWord 5 = 0 ∧ (s.readWord 6).toNat = s.cu.consumed.toNat ∧
    Causes.ofBits (s.readWord 7) 0 = s.causes ∧ (s.readWord 7).toNat < 16 ∧
    (∀ w : BitVec 5, 7 < w.toNat → s.readWord w = 0) ∧
    (∀ (w : BitVec 5) (k : Fin 4) (i : Nat), i < 8 → (s.readByte w k).getLsbD i = (s.readWord w).getLsbD (8 * k.val + i))) ∧
  ∀ (s : State) (v : Word), s.resetLow = false →
    (∃ a : Addr, a.setWidth 32 = v ∧ (a >>> 32).setWidth 32 = ((s.setupAddr >>> 32).setWidth 32 : Word) ∧
      exec (.registerWrite 3 true v) s = .next ({ s with setupAddr := a } : State).settle) ∧
    (∃ a : Addr, (a >>> 32).setWidth 32 = v ∧ a.setWidth 32 = (s.setupAddr.setWidth 32 : Word) ∧
      exec (.registerWrite 4 true v) s = .next ({ s with setupAddr := a } : State).settle) ∧
    (v.getLsbD 1 = true → exec (.registerWrite 1 true v) s = exec (.softReset v) s) ∧
    (v.getLsbD 1 = false → v.getLsbD 0 = true → exec (.registerWrite 1 true v) s = exec (.enable v) s) ∧
    (v.getLsbD 1 = false → v.getLsbD 0 = false →
      exec (.registerWrite 1 true v) s = .next ({ s with enables := Causes.ofBits v 8 } : State).settle) ∧
    exec (.registerWrite 5 true v) s = exec (.post v) s ∧
    exec (.registerWrite 6 true v) s = exec (.consumed v) s ∧
    exec (.registerWrite 7 true v) s = exec (.cause v) s ∧
    (∀ w : BitVec 5, w = 0 ∨ w = 2 ∨ 7 < w.toNat → exec (.registerWrite w true v) s = .next s.settle) ∧
    (∀ w : BitVec 5, exec (.registerWrite w false v) s = .next s)

/-- A POST by its ring number, the part state and the ring's state. THE MODEL'S CHOICE (log entry 51): a ring that a POST halts keeps the
request of a read that a visit has already made. -/
def Obligations.PostMovesOrHaltsARing : Prop :=
  ∀ (s : State) (v : Word), s.resetLow = false →
    (4 < (v >>> 16).toNat % 8 → exec (.post v) s = .next s.settle) ∧
    (s.part ≠ .running → exec (.post v) s = .next s.settle) ∧
    (∀ r : RingId, (v >>> 16).toNat % 8 = r.number → s.part = .running →
      ((s.ring r).state ≠ .opened → exec (.post v) s = .next s.settle) ∧
      ((s.ring r).state = .opened → (v.setWidth 16 - (s.ring r).taken).toNat ≤ s.ringSize r →
        exec (.post v) s = .next (s.setRing r { s.ring r with posted := v.setWidth 16 }).settle) ∧
      ((s.ring r).state = .opened → s.ringSize r < (v.setWidth 16 - (s.ring r).taken).toNat →
        exec (.post v) s = .next ({ s.setRing r { s.ring r with state := .haltedBadPost } with
          cu := { s.cu with statusPending := true }
          causes := { s.causes with ringHalted := true } } : State).settle))

/-- A CONSUMED write moves the consumed count or makes the part FAULTED; in FAULTED every engine is OFF, the queued and current
exchanges, the Admin Unit's command and the fetch request are gone, and the timers have stopped; every probe list stays as it was,
and no probe on it is still to be started. THE MODEL'S CHOICE: in FAULTED the queue's ended entries are gone too (log entry 21),
R45's dropped probes are those of a list that stays and is not acted on (log entry 38), and the turn flag stays, whatever exchange is
discarded (log entry 53). -/
def Obligations.ConsumedMovesOrFaults : Prop :=
  ∀ (s : State) (v : Word), s.resetLow = false →
    (s.part ≠ .running → exec (.consumed v) s = .next s.settle) ∧
    (s.part = .running → (s.cu.produced - v.setWidth 16).toNat ≤ s.completionSize →
      exec (.consumed v) s = .next ({ s with cu := { s.cu with consumed := v.setWidth 16 } } : State).settle) ∧
    (s.part = .running → s.completionSize < (s.cu.produced - v.setWidth 16).toNat →
      exec (.consumed v) s = .next (s.stopped .badConsumed) ∧
      ∀ n, ((s.stopped .badConsumed).line n).probes = (s.line n).probes ∧
        ((s.stopped .badConsumed).line n).probesToStart = [])

/-- CAUSE reads the four causes in bits 0 to 3; a write to it clears the causes written 1, in every part state, and the
interrupt output is active exactly while a cause is set and enabled. -/
def Obligations.CauseClearsAndInterruptFollows : Prop :=
  (∀ (s : State) (v : Word), s.resetLow = false →
    exec (.cause v) s = .next ({ s with causes :=
      ⟨s.causes.completions && !v.getLsbD 0, s.causes.ringHalted && !v.getLsbD 1, s.causes.partFault && !v.getLsbD 2,
       s.causes.setupFailed && !v.getLsbD 3⟩ } : State).settle) ∧
  (∀ s : State,
    s.causes = ⟨(s.readWord 7).getLsbD 0, (s.readWord 7).getLsbD 1, (s.readWord 7).getLsbD 2, (s.readWord 7).getLsbD 3⟩ ∧
    (s.readWord 7).toNat < 16) ∧
  (∀ s : State, s.irq = true ↔
    (s.causes.completions = true ∧ s.enables.completions = true) ∨
    (s.causes.ringHalted = true ∧ s.enables.ringHalted = true) ∨
    (s.causes.partFault = true ∧ s.enables.partFault = true) ∨
    (s.causes.setupFailed = true ∧ s.enables.setupFailed = true))

/-! ### The ends of reads -/

/-- The setup block: a bus error or a failed check returns the part to DISABLED with its setup error, and a block that passes
makes the part RUNNING with every ring OPEN at 0. Where the block holds its fields; a field of several bytes has its lowest byte
first. -/
def Obligations.SetupPassesOrFails : Prop :=
  (∀ (b : List Byte) (i k : Nat), b.length = 64 →
    recordField b i 0 = 0 ∧ (i < 64 → b[i]? = some (recordByte b i)) ∧
    (i < 64 → recordField b i (k + 1) = (recordByte b i).toNat + 256 * recordField b (i + 1) k)) ∧
  (∀ b : List Byte, b.length = 64 →
    let u := parseSetup b
    let low (i : Nat) := 2 ^ ((recordByte b i).toNat % 16)
    let high (i : Nat) := 2 ^ ((recordByte b i).toNat / 16)
    u.adminBase.toNat = recordField b 0 8 ∧ (∀ n : LineId, (u.lineBases.get n).toNat = recordField b (8 + 8 * n.val) 8) ∧
    u.completionBase.toNat = recordField b 40 8 ∧ u.statusAddr.toNat = recordField b 48 8 ∧
    u.adminSize = low 56 ∧ u.lineSizes = ⟨high 56, low 57, high 57, low 58⟩ ∧ u.completionSize = high 58 ∧
    u.threshold = recordField b 59 1 ∧ u.holdoff = recordField b 60 2) ∧
  ∀ (s : State) (a : Addr), s.Serving (.setupRead a) → s.part = .loading →
    exec (.setupReadDone .busError) s = .next ({ s.released with
      part := .disabled, setupError := .setupReadError
      causes := { s.causes with setupFailed := true } } : State).settle ∧
    (∀ bytes : List Byte, bytes.length = 64 →
      (¬ SetupPasses (parseSetup bytes) → exec (.setupReadDone (.data bytes)) s = .next ({ s.released with
        part := .disabled, setupError := .setupInvalid
        causes := { s.causes with setupFailed := true } } : State).settle) ∧
      (SetupPasses (parseSetup bytes) → exec (.setupReadDone (.data bytes)) s = .next ({ s.released with
        part := .running, setup := some (parseSetup bytes)
        adminRing := ⟨.opened, 0, 0⟩
        lineRings := ⟨⟨.opened, 0, 0⟩, ⟨.opened, 0, 0⟩, ⟨.opened, 0, 0⟩, ⟨.opened, 0, 0⟩⟩
        fetch := ⟨none, .line 3⟩
        cu := { CompletionUnit.reset with statusPending := true }
        power := ⟨.active, (recordByte bytes 62).getLsbD 0, none⟩
        timer := ⟨true, 0, 0⟩ } : State).settle))

/-- The checks of an exchange entry stop at the first failure, in their order, and an entry that passes them all is valid. At the
end of its read an entry is left untaken if its ring is no longer eligible; otherwise it is inserted with the next take sequence,
or refused once into a free place, the taken count rising with either; and it is untaken if no place is free. Where the entry holds
its fields. -/
def Obligations.ExchangeEntryIsCheckedAndTaken : Prop :=
  (∀ b : List Byte, b.length = 64 →
    let e := parseExchange b
    e.tag.toNat = recordField b 0 2 ∧ e.node = (recordByte b 2).toNat ∧ e.code = recordByte b 3 ∧
    e.length = (recordByte b 4).toNat ∧ e.retry = (recordByte b 5).toNat ∧ e.priority = (recordByte b 6).toNat ∧
    e.payload.length = 32 ∧ ∀ i, i < 32 → e.payload[i]? = b[8 + i]?) ∧
  (∀ e : RawExchange,
    (e.firstBad = some .badAddress ↔ 62 < e.node) ∧
    (e.firstBad = some .badCode ↔ e.node ≤ 62 ∧ e.code = 1) ∧
    (e.firstBad = some .badLength ↔ e.node ≤ 62 ∧ e.code ≠ 1 ∧ 32 < e.length) ∧
    (e.firstBad = some .badRetry ↔ e.node ≤ 62 ∧ e.code ≠ 1 ∧ e.length ≤ 32 ∧ 7 < e.retry) ∧
    (e.firstBad = some .badPriority ↔
      e.node ≤ 62 ∧ e.code ≠ 1 ∧ e.length ≤ 32 ∧ e.retry ≤ 7 ∧ e.priority ≠ 0 ∧ e.priority ≠ 1) ∧
    (e.firstBad = none ↔
      e.node ≤ 62 ∧ e.code ≠ 1 ∧ e.length ≤ 32 ∧ e.retry ≤ 7 ∧ (e.priority = 0 ∨ e.priority = 1))) ∧
  ∀ (s : State) (n : LineId) (a : Addr) (bytes : List Byte), s.Serving (.entryRead (.line n) a) →
    bytes.length = 64 →
    let e := parseExchange bytes
    let r : Ring := { s.ring (.line n) with taken := (s.ring (.line n)).taken + 1 }
    let k : State := { s.released.setRing (.line n) r with cu := { s.cu with statusPending := true } }
    (s.eligible (.line n) = false → exec (.entryReadDone (.data bytes)) s = .next s.released.settle) ∧
    (s.eligible (.line n) = true → e.firstBad = none →
      exec (.entryReadDone (.data bytes)) s = .next (k.setLine n { s.line n with
        nextSeq := (s.line n).nextSeq + 1
        waiting := (s.line n).waiting ++ [{
          tag := e.tag, cls := if e.priority = 1 then .urgent else .routine, node := e.node, code := e.code
          payload := e.payload.take e.length, retryLimit := e.retry, seq := (s.line n).nextSeq }] }).settle) ∧
    (∀ d, s.eligible (.line n) = true → e.firstBad = some d → s.cu.holding.length < 16 →
      exec (.entryReadDone (.data bytes)) s = .next ({ k with cu := { k.cu with
        holding := s.cu.holding ++ [.exchange ⟨n, .refused, d, e.tag, e.node, 0, none, s.timer.count⟩] } }
        : State).settle) ∧
    (∀ d, s.eligible (.line n) = true → e.firstBad = some d → 16 ≤ s.cu.holding.length →
      exec (.entryReadDone (.data bytes)) s = .next s.released.settle)

/-- A bus error on the read of a ring entry halts that ring, READ_ERROR, with its counts kept. THE MODEL'S CHOICE (log entry
30): whatever the ring's state and condition at that moment, a ring halted BAD_POST during the read among them. -/
def Obligations.ReadErrorHaltsTheRing : Prop :=
  ∀ (s : State) (r : RingId) (a : Addr), s.Serving (.entryRead r a) →
    exec (.entryReadDone .busError) s = .next ({ s.released.setRing r { s.ring r with state := .haltedReadError } with
      cu := { s.cu with statusPending := true }
      causes := { s.causes with ringHalted := true } } : State).settle

/-! ### Administrative commands -/

/-- A good end of the read of an admin entry is the row of the command that the entry carries, by the entry's layout, the 18 bytes of
each profile of a LINE SETUP among it; an unknown command is refused BAD_FIELD. THE MODEL'S CHOICE: an administrative row is that end of the read (log entry 6), and the refusal
of an unknown command names no line and gives the command code as read (log entry 20). -/
def Obligations.AdminEntryIsItsCommand : Prop :=
  (∀ (b : List Byte) (o : Nat), b.length = 64 → o = 8 ∨ o = 26 →
    let p := parseProfile b o
    p.divisor.toNat = recordField b o 2 ∧ p.parity = recordByte b (o + 2) ∧ p.leadGap = recordByte b (o + 3) ∧
    p.replyWindow.toNat = recordField b (o + 4) 2 ∧ p.charGap = recordByte b (o + 6) ∧
    p.retryGap.toNat = recordField b (o + 7) 2 ∧ p.busyPause.toNat = recordField b (o + 9) 2 ∧
    p.sweepPeriod.toNat = recordField b (o + 11) 2 ∧ p.failThreshold = recordByte b (o + 13) ∧
    p.joinLimit = recordByte b (o + 14) ∧ p.probeInterval = recordByte b (o + 15) ∧
    p.stuckLimit.toNat = recordField b (o + 16) 2) ∧
  ∀ (s : State) (a : Addr) (bytes : List Byte), s.port.transfer = some (.entryRead .admin a) → bytes.length = 64 →
    let c := recordByte bytes 0
    let line := recordByte bytes 1
    let tag : Half := BitVec.ofNat 16 (recordField bytes 2 2)
    let x := recordByte bytes 8
    let read := exec (.entryReadDone (.data bytes)) s
    (c = 1 → read = exec (.lineSetup tag line (parseProfile bytes 8) (parseProfile bytes 26)) s) ∧
    (c = 2 → read = exec (.lineStart tag line) s) ∧
    (c = 3 → read = exec (.lineStop tag line x) s) ∧
    (c = 4 → read = exec (.lineReset tag line) s) ∧
    (c = 5 → read = exec (.nodeAdd tag line x ((recordByte bytes 9).getLsbD 0)) s) ∧
    (c = 6 → read = exec (.nodeRemove tag line x) s) ∧
    (c = 7 → read = exec (.nodeBar tag line x) s) ∧
    (c = 8 → read = exec (.nodeUnbar tag line x) s) ∧
    (c = 9 → read = exec (.nodeQuery tag line x) s) ∧
    (c = 10 → read = exec (.sweepSet tag line ⟨x, recordByte bytes 9, recordByte bytes 10, recordByte bytes 11,
      recordByte bytes 12, recordByte bytes 13, recordByte bytes 14, (bytes.drop 16).take 16⟩) s) ∧
    (c = 11 → read = exec (.sweepClear tag line x) s) ∧
    (c = 12 → read = exec (.sweepImage tag line (BitVec.ofNat 64 (recordField bytes 8 8))) s) ∧
    (c = 13 → read = exec (.cancel tag line (BitVec.ofNat 16 (recordField bytes 8 2))) s) ∧
    (c = 14 → read = exec (.power tag x) s) ∧
    (c = 15 → read = exec (.lineQuery tag line (x.getLsbD 0)) s) ∧
    (c = 0 ∨ 15 < c.toNat → AdminReady s → read = .next (s.adminDone c none tag none (.refused .badField)).settle)

/-- An entry read while the admin ring stops being eligible is left untaken, and its command changes nothing. THE MODEL'S CHOICE:
an administrative row, POWER among them, is the end of such a read (log entry 6), so that it changes nothing while no admin entry
is being read (log entry 3). -/
def Obligations.AdminEntryLeftUntaken : Prop :=
  ∀ (c : Instr) (s : State), adminHead c ≠ none ∨ (∃ tag target, c = .power tag target) → c.wellFormed = true →
    ((∀ a, s.port.transfer ≠ some (.entryRead .admin a)) → exec c s = .next s) ∧
    (∀ a, s.Serving (.entryRead .admin a) → s.eligible .admin = false → exec c s = .next s.released.settle)

/-- Steps 2 to 4 of the checks of a command that names a line, by the table of power states and run states: each refusal leaves
the line as it was. THE MODEL'S CHOICE (log entry 20): the completion reports a line byte that names no line as it was written.
-/
def Obligations.AdminRefusedByLinePowerOrRun : Prop :=
  ∀ (c : Instr) (tag : Half) (line code : Byte) (node : Option Byte) (s : State),
    adminHead c = some (tag, line, code, node) → c.wellFormed = true → AdminReady s →
    let refusal (r : Reason) := exec c s = .next (s.adminDone code (some line) tag node (.refused r)).settle
    (4 ≤ line.toNat → refusal .badField) ∧
    (∀ n : LineId, line.toNat = n.val →
      (s.power.state = .doze → code ≠ 9 → code ≠ 15 → refusal .wrongPowerState) ∧
      (s.power.state = .active ∨ s.power.state = .lull →
        (code = 1 ∨ code = 2 ∨ code = 12 → (s.line n).run ≠ .quiet → refusal .wrongState) ∧
        (code = 3 → (s.line n).run ≠ .running → (s.line n).run ≠ .draining → refusal .wrongState)))

/-- LINE SETUP on a QUIET line: the profiles are checked in the fixed order up to the first failure, which the refusal
names; with none, both are replaced together, field by field, parity by its selector. -/
def Obligations.LineSetupChecksThenReplaces : Prop :=
  ∀ (s : State) (tag : Half) (line : Byte) (n : LineId) (b u : RawProfile), LineReady s line n →
    (s.line n).run = .quiet →
    let profile (r : RawProfile) (parity : Parity) : Profile := {
      divisor := r.divisor.toNat, parity := parity, leadGap := r.leadGap.toNat, replyWindow := r.replyWindow.toNat
      charGap := r.charGap.toNat, retryGap := r.retryGap.toNat, busyPause := r.busyPause.toNat
      sweepPeriod := r.sweepPeriod.toNat, failThreshold := r.failThreshold.toNat, joinLimit := r.joinLimit.toNat
      probeInterval := r.probeInterval.toNat, stuckLimit := r.stuckLimit.toNat }
    let selects (r : RawProfile) (p : Parity) := r.parity = 0 ∧ p = .none ∨ r.parity = 1 ∧ p = .even ∨ r.parity = 2 ∧ p = .odd
    let refusal (p : ProfileSel) (f : Nat) := exec (.lineSetup tag line b u) s =
      .next (s.adminDone 1 (some line) tag none (.refused (.badProfile p f))).settle
    (∀ f, firstFails b f → refusal .brisk f) ∧
    (∀ f, profilePasses b → firstFails u f → refusal .lull f) ∧
    (profilePasses b → profilePasses u → u.divisor.toNat < b.divisor.toNat → refusal .lull 1) ∧
    (profilePasses b → profilePasses u → b.divisor.toNat ≤ u.divisor.toNat →
      u.sweepPeriod.toNat < b.sweepPeriod.toNat → refusal .lull 8) ∧
    (profilePasses b → profilePasses u → b.divisor.toNat ≤ u.divisor.toNat →
      b.sweepPeriod.toNat ≤ u.sweepPeriod.toNat → ∀ pb pu, selects b pb → selects u pu →
      exec (.lineSetup tag line b u) s = .next ((s.adminDone 1 (some line) tag none (.done .none)).setLine n
        { s.line n with brisk := some (profile b pb), lull := some (profile u pu), profilesValid := true }).settle)

/-- LINE START on a QUIET line: refused without profiles, then without an image base for a set entry; otherwise the line is
RUNNING under BRISK with the start PACE pending, the sweep halt cleared, round 1 started and a pending hunt tested. -/
def Obligations.LineStartStartsRoundOne : Prop :=
  ∀ (s : State) (tag : Half) (line : Byte) (n : LineId), LineReady s line n → (s.line n).run = .quiet →
    let l := s.line n
    ((l.profilesValid = false →
      exec (.lineStart tag line) s = .next (s.adminDone 2 (some line) tag none (.refused .wrongState)).settle) ∧
    (l.profilesValid = true → (∃ i e, l.sweepAt i = some e) → l.imageBase = none →
      exec (.lineStart tag line) s = .next (s.adminDone 2 (some line) tag none (.refused .noImage)).settle) ∧
    (l.profilesValid = true → ((∀ i, l.sweepAt i = none) ∨ l.imageBase ≠ none) →
      exec (.lineStart tag line) s = .next ((s.adminDone 2 (some line) tag none (.done .none)).setLine n
        (Line.activateHunt (s.ctx n) (Line.startRound (s.ctx n) 1 { l with
          run := .running, engine := .idle, inForce := .brisk, pace := .start, sweepHalted := false
          hunt := none }))).settle))

/-- A LINE STOP form other than DRAIN and ABANDON is refused; DRAIN on a RUNNING line drops the round and the hunt and
leaves the current exchange and the queue, and a line with neither is QUIET at once; a stop that finds the abandon flag set,
or DRAIN on a DRAINING line, has no effect. -/
def Obligations.LineStopDrain : Prop :=
  ∀ (s : State) (tag : Half) (line form : Byte) (n : LineId), LineReady s line n →
    let l := s.line n
    let done (m : Line) := exec (.lineStop tag line form) s =
      .next ((s.adminDone 3 (some line) tag none (.done .none)).setLine n m).settle
    ((l.run = .running ∨ l.run = .draining → 1 < form.toNat →
      exec (.lineStop tag line form) s = .next (s.adminDone 3 (some line) tag none (.refused .badField)).settle) ∧
    (l.run = .running → form = 0 → (l.current.isSome = true ∨ l.waiting ≠ [] ∨ l.ended ≠ []) →
      done { l with
        run := .draining, abandon := false, roundTimer := none, due := [], probes := [], hunt := none
        current := l.current.map fun c => { c with huntLive := false } }) ∧
    (l.run = .running → form = 0 → l.current = none → l.waiting = [] → l.ended = [] →
      done { l with
        run := .quiet, abandon := false, roundTimer := none, due := [], probes := [], hunt := none
        engine := .off, att := Attempt.clear, settleOwed := false, wire := ⟨l.wire.space, 0, false⟩
        inForce := s.power.state.target, pace := .none, owed := { l.owed with drained := true } }) ∧
    (l.run = .draining → form = 0 → done l) ∧
    (l.run = .draining → form = 1 → l.abandon = true → done l))

/-- LINE STOP ABANDON, on a RUNNING line or over a drain: at a boundary the waiting entries are marked FLUSHED at once, URGENT
first; an exchange in a retry wait ends at once; any other current exchange is left to its verdict, and the marks to the next
boundary. THE MODEL'S CHOICE: an exchange in a retry wait ends FLUSHED also when a NODE BAR has marked it (log entry 39), and one
whose first attempt waits a collision settle owed from another is in no retry wait (log entry 50). -/
def Obligations.LineStopAbandon : Prop :=
  ∀ (s : State) (tag : Half) (line : Byte) (n : LineId) (k : Line), LineReady s line n →
    let l := s.line n
    let done (m : Line) := exec (.lineStop tag line 1) s =
      .next ((s.adminDone 3 (some line) tag none (.done .none)).setLine n m).settle
    (l.run = .running ∧ k = { l with
        run := .draining, abandon := true, roundTimer := none, due := [], probes := [], hunt := none
        current := l.current.map fun c => { c with huntLive := false } } ∨
      l.run = .draining ∧ l.abandon = false ∧ k = { l with abandon := true }) →
    (∀ c, k.current = some c → (k.engine ≠ .lead ∨ c.attempts = 0) → k.engine ≠ .idle → done k) ∧
    (∀ c, k.current = some c → k.engine = .lead → 0 < c.attempts →
      done (((k.endExchange (s.ctx n) c .flushed).markAll .flushed s.timer.count).drainEnd (s.ctx n))) ∧
    (k.current = none → k.engine = .idle → k.waiting ≠ [] → done { k with
      waiting := []
      ended := k.ended ++ ((k.waiting.filter fun e => e.cls = .urgent) ++ k.waiting.filter fun e => e.cls = .routine).map
        fun e => ⟨e, .flushed, s.timer.count⟩ }) ∧
    (k.current = none → k.engine = .idle → k.waiting = [] → k.ended ≠ [] → done k) ∧
    (k.current = none → k.engine = .idle → k.waiting = [] → k.ended = [] → done { k with
      run := .quiet, abandon := false, engine := .off, att := Attempt.clear, settleOwed := false
      wire := ⟨k.wire.space, 0, false⟩, inForce := s.power.state.target, pace := .none
      owed := { k.owed with drained := true } })

/-- LINE RESET in every run state: the attempt is cut off, a current host exchange ends FLUSHED into the hold slot, the waiting
entries are marked FLUSHED behind those already marked, LINE_FAULT marks become FLUSHED, and the working state is set as the
table gives. THE MODEL'S CHOICE (log entry 23): the detail of its record is WENT_SILENT whenever the node went silent, whatever
the outcome. -/
def Obligations.LineResetEndsEverything : Prop :=
  ∀ (s : State) (tag : Half) (line : Byte) (n : LineId), LineReady s line n →
    let l := s.line n
    exec (.lineReset tag line) s = .next ((s.adminDone 4 (some line) tag none (.done .none)).setLine n { l with
      run := .quiet, abandon := false, engine := .off, current := none, att := Attempt.clear, settleOwed := false
      wire := ⟨l.wire.space, 0, false⟩, inForce := s.power.state.target, pace := .none
      waiting := []
      ended := (l.ended.map fun e => if e.mark = .lineFault then { e with mark := .flushed } else e) ++
        ((l.waiting.filter fun e => e.cls = .urgent) ++ l.waiting.filter fun e => e.cls = .routine).map
          fun e => ⟨e, .flushed, s.timer.count⟩
      holdSlot :=
        match l.current with
        | some c =>
          match c.origin with
          | .host _ t => some ⟨n, .flushed, if c.wentSilent then .wentSilent else .none, t, c.node, c.attempts, c.last,
              s.timer.count⟩
          | _ => l.holdSlot
        | none => l.holdSlot
      turn := .sweep, round := 0, roundTimer := none, due := [], probes := [], sweepHalted := false
      huntPending := false, hunt := none, stats := ⟨0, 0, 0, 0, 0⟩ }).settle

/-- NODE ADD: BAD_FIELD, EXISTS and ROSTER_FULL in that order; otherwise the new record joins the roster in its place, the
completion reports it, and no report is owed for it. THE MODEL'S CHOICE: its address leaves the round's probe list (log entry 37),
and a trusted one above the cursor and below the hunt step that is current is kept to be stepped later (log entry 36).
NODE REMOVE: BAD_FIELD, UNKNOWN_NODE and IN_USE in that order; otherwise the record is gone, with its owed flags, and a hunt no
longer keeps its address. -/
def Obligations.NodesAreAddedAndRemoved : Prop :=
  ∀ (s : State) (tag : Half) (line a : Byte) (n : LineId), LineReady s line n →
    let l := s.line n
    (∀ trusted : Bool,
      let x : Node := ⟨a.toNat, if trusted then .active else .joining, 0, true, none, 0, 0, false, false, false⟩
      let later := trusted = true ∧ ∃ c, l.current = some c ∧ c.origin = .hunt ∧ c.huntLive = true ∧ a.toNat < c.node
      let refusal (r : Reason) := exec (.nodeAdd tag line a trusted) s =
        .next (s.adminDone 5 (some line) tag (some a) (.refused r)).settle
      (a.toNat = 0 ∨ 62 < a.toNat → refusal .badField) ∧
      (1 ≤ a.toNat → a.toNat ≤ 62 → a.toNat ∈ l.roster.map (·.addr) → refusal .exists) ∧
      (1 ≤ a.toNat → a.toNat ≤ 62 → a.toNat ∉ l.roster.map (·.addr) → 32 ≤ l.roster.length → refusal .rosterFull) ∧
      (1 ≤ a.toNat → a.toNat ≤ 62 → a.toNat ∉ l.roster.map (·.addr) → l.roster.length < 32 →
        ∃ (r : List Node) (h : Option Walk), (∀ y, y ∈ r ↔ y = x ∨ y ∈ l.roster) ∧ (RosterOk l.roster → RosterOk r) ∧
          (l.hunt = none → h = none) ∧
          (∀ w, l.hunt = some w → (later ∧ w.cursor < a.toNat → h = some ⟨w.cursor, w.later ++ [a.toNat]⟩) ∧
            (¬ (later ∧ w.cursor < a.toNat) → h = some w)) ∧
          exec (.nodeAdd tag line a trusted) s = .next ((s.adminDone 5 (some line) tag (some a)
            (.done (.node x))).setLine n
              { l with roster := r, probes := l.probes.filter fun b => b ≠ a.toNat, hunt := h }).settle)) ∧
    (let used := (∃ i e, l.sweepAt i = some e ∧ e.node = a.toNat) ∨ ∃ c, l.current = some c ∧ c.node = a.toNat
     let refusal (r : Reason) := exec (.nodeRemove tag line a) s =
       .next (s.adminDone 6 (some line) tag (some a) (.refused r)).settle
     (a.toNat = 0 ∨ 62 < a.toNat → refusal .badField) ∧
     (1 ≤ a.toNat → a.toNat ≤ 62 → a.toNat ∉ l.roster.map (·.addr) → refusal .unknownNode) ∧
     (1 ≤ a.toNat → a.toNat ≤ 62 → a.toNat ∈ l.roster.map (·.addr) → used → refusal .inUse) ∧
     (1 ≤ a.toNat → a.toNat ≤ 62 → a.toNat ∈ l.roster.map (·.addr) → ¬ used →
       exec (.nodeRemove tag line a) s = .next ((s.adminDone 6 (some line) tag (some a) (.done .none)).setLine n
         { l with
           roster := l.roster.filter fun x => x.addr ≠ a.toNat
           hunt := l.hunt.map fun w => ⟨w.cursor, w.later.filter fun b => b ≠ a.toNat⟩ }).settle))

/-- NODE BAR: the record becomes BARRED and owes a report, its other fields kept, and a current exchange to the node is
marked; on a BARRED record nothing changes. The completion reports the record as the command leaves it. -/
def Obligations.NodeBarBarsTheRecord : Prop :=
  ∀ (s : State) (tag : Half) (line a : Byte) (n : LineId), LineReady s line n → RosterOk (s.line n).roster →
    let l := s.line n
    let refusal (r : Reason) := exec (.nodeBar tag line a) s =
      .next (s.adminDone 7 (some line) tag (some a) (.refused r)).settle
    (a.toNat = 0 ∨ 62 < a.toNat → refusal .badField) ∧
    (1 ≤ a.toNat → a.toNat ≤ 62 → a.toNat ∉ l.roster.map (·.addr) → refusal .unknownNode) ∧
    (∀ x ∈ l.roster, x.addr = a.toNat → x.state = .barred →
      exec (.nodeBar tag line a) s = .next (s.adminDone 7 (some line) tag (some a) (.done (.node x))).settle) ∧
    (∀ x ∈ l.roster, x.addr = a.toNat → x.state ≠ .barred →
      let y : Node := { x with state := .barred, reportOwed := true }
      exec (.nodeBar tag line a) s = .next ((s.adminDone 7 (some line) tag (some a) (.done (.node y))).setLine n
        { l with
          roster := l.roster.map fun z => if z.addr = a.toNat then y else z
          current := l.current.map fun c => if c.node = a.toNat then { c with barred := true } else c }).settle)

/-- NODE UNBAR: a BARRED record becomes JOINING with its failure count and join probes at 0 and a report owed, its other
fields kept; on any other record nothing changes. -/
def Obligations.NodeUnbarReturnsToJoining : Prop :=
  ∀ (s : State) (tag : Half) (line a : Byte) (n : LineId), LineReady s line n → RosterOk (s.line n).roster →
    let l := s.line n
    let refusal (r : Reason) := exec (.nodeUnbar tag line a) s =
      .next (s.adminDone 8 (some line) tag (some a) (.refused r)).settle
    (a.toNat = 0 ∨ 62 < a.toNat → refusal .badField) ∧
    (1 ≤ a.toNat → a.toNat ≤ 62 → a.toNat ∉ l.roster.map (·.addr) → refusal .unknownNode) ∧
    (∀ x ∈ l.roster, x.addr = a.toNat → x.state ≠ .barred →
      exec (.nodeUnbar tag line a) s = .next (s.adminDone 8 (some line) tag (some a) (.done (.node x))).settle) ∧
    (∀ x ∈ l.roster, x.addr = a.toNat → x.state = .barred →
      let y : Node := { x with state := .joining, failures := 0, joinProbes := 0, reportOwed := true }
      exec (.nodeUnbar tag line a) s = .next ((s.adminDone 8 (some line) tag (some a) (.done (.node y))).setLine n
        { l with roster := l.roster.map fun z => if z.addr = a.toNat then y else z }).settle)

/-- NODE QUERY reports the record as it stands and changes nothing; it is taken in DOZE too. -/
def Obligations.NodeQueryReportsTheRecord : Prop :=
  ∀ (s : State) (tag : Half) (line a : Byte) (n : LineId), AdminReady s → line.toNat = n.val →
    s.power.state ≠ .dozePending →
    let l := s.line n
    let refusal (r : Reason) := exec (.nodeQuery tag line a) s =
      .next (s.adminDone 9 (some line) tag (some a) (.refused r)).settle
    (a.toNat = 0 ∨ 62 < a.toNat → refusal .badField) ∧
    (1 ≤ a.toNat → a.toNat ≤ 62 → a.toNat ∉ l.roster.map (·.addr) → refusal .unknownNode) ∧
    (∀ x ∈ l.roster, RosterOk l.roster → x.addr = a.toNat →
      exec (.nodeQuery tag line a) s = .next (s.adminDone 9 (some line) tag (some a) (.done (.node x))).settle)

/-- LINE QUERY reports the line as it stands, and with the clear flag then sets the five counters to 0; it is taken in DOZE
too. -/
def Obligations.LineQueryReportsTheLine : Prop :=
  ∀ (s : State) (tag : Half) (line : Byte) (n : LineId) (clear : Bool), AdminReady s → line.toNat = n.val →
    s.power.state ≠ .dozePending →
    let l := s.line n
    exec (.lineQuery tag line clear) s = .next ((s.adminDone 15 (some line) tag none (.done (.line {
        run := l.run, abandon := l.abandon, engine := l.engine, profilesValid := l.profilesValid, inForce := l.inForce
        pace := l.pace
        urgentDepth := (l.waiting.filter fun e => e.cls = .urgent).length +
          (l.ended.filter fun e => e.entry.cls = .urgent).length
        routineDepth := (l.waiting.filter fun e => e.cls = .routine).length +
          (l.ended.filter fun e => e.entry.cls = .routine).length
        round := l.round, rosterSize := l.roster.length, huntPending := l.huntPending, huntActive := l.hunt.isSome
        held := l.holdSlot.isSome || decide (l.ended ≠ []), sweepHalted := l.sweepHalted, stats := l.stats }))).setLine n
      { l with stats := if clear then ⟨0, 0, 0, 0, 0⟩ else l.stats }).settle

/-- SWEEP SET: the seven field checks, then the node, then the image base of a RUNNING line; an accepted one sets the entry and
leaves the rest of the line, the round's due list among it. THE MODEL'S CHOICE (log entry 20): its completion carries no node
address. -/
def Obligations.SweepSetSetsTheEntry : Prop :=
  ∀ (s : State) (tag : Half) (line : Byte) (n : LineId) (e : RawSweep), LineReady s line n → e.wellFormed = true →
    let l := s.line n
    let good := e.index.toNat ≤ 47 ∧ (1 ≤ e.node.toNat ∧ e.node.toNat ≤ 62) ∧ e.code ≠ 1 ∧ e.length.toNat ≤ 16 ∧
      (e.cadence = 1 ∨ e.cadence = 2 ∨ e.cadence = 4 ∨ e.cadence = 8) ∧ e.phase.toNat < e.cadence.toNat ∧
      e.retry.toNat ≤ 3
    let refusal (r : Reason) := exec (.sweepSet tag line e) s =
      .next (s.adminDone 10 (some line) tag none (.refused r)).settle
    (¬ good → refusal .badField) ∧
    (good → e.node.toNat ∉ l.roster.map (·.addr) → refusal .unknownNode) ∧
    (good → e.node.toNat ∈ l.roster.map (·.addr) → l.run = .running → l.imageBase = none → refusal .noImage) ∧
    (good → e.node.toNat ∈ l.roster.map (·.addr) → l.run ≠ .running ∨ l.imageBase ≠ none →
      ∃ m : Line, (∀ j, m.sweepAt j = if j = e.index.toNat then some ⟨e.node.toNat, e.code, e.payload.take e.length.toNat,
          e.cadence.toNat, e.phase.toNat, e.retry.toNat⟩ else l.sweepAt j) ∧ { m with sweep := l.sweep } = l ∧
        exec (.sweepSet tag line e) s =
          .next ((s.adminDone 10 (some line) tag none (.done .none)).setLine n m).settle)

/-- SWEEP CLEAR empties the entry and takes its index off the due list, with no slot write; an index above 47 is refused.
SWEEP IMAGE on a QUIET line sets the image base, which must be a multiple of 64 with 3,072 bytes below the top of the address
space. -/
def Obligations.SweepClearAndSweepImage : Prop :=
  ∀ (s : State) (tag : Half) (line : Byte) (n : LineId), LineReady s line n →
    let l := s.line n
    (∀ i : Byte, 47 < i.toNat → exec (.sweepClear tag line i) s = .next (s.adminDone 11 (some line) tag none
      (.refused .badField)).settle) ∧
    (∀ i : Byte, i.toNat ≤ 47 → ∃ m : Line, (∀ j, m.sweepAt j = if j = i.toNat then none else l.sweepAt j) ∧
      m.due = l.due.erase i.toNat ∧ { m with sweep := l.sweep, due := l.due } = l ∧
      exec (.sweepClear tag line i) s =
        .next ((s.adminDone 11 (some line) tag none (.done .none)).setLine n m).settle) ∧
    (∀ b : Addr, l.run = .quiet → b.toNat % 64 ≠ 0 ∨ 2 ^ 64 < b.toNat + 3072 → exec (.sweepImage tag line b) s =
      .next (s.adminDone 12 (some line) tag none (.refused .badField)).settle) ∧
    (∀ b : Addr, l.run = .quiet → b.toNat % 64 = 0 → b.toNat + 3072 ≤ 2 ^ 64 → exec (.sweepImage tag line b) s =
      .next ((s.adminDone 12 (some line) tag none (.done .none)).setLine n { l with imageBase := some b }).settle)

/-- CANCEL marks every waiting entry with the tag, in take order, behind the entries already ended; a current host exchange with
the tag is counted too, ends at once CANCELLED in LEAD, and is flagged elsewhere. THE MODEL'S CHOICE (log entry 23): the detail
of its record is WENT_SILENT whenever the node went silent, whatever the outcome. -/
def Obligations.CancelMarksAndFinds : Prop :=
  ∀ (s : State) (tag : Half) (line : Byte) (n : LineId) (target : Half), LineReady s line n →
    let l := s.line n
    let found := l.waiting.filter fun e => e.tag = target
    let k : Line := { l with
      waiting := l.waiting.filter fun e => e.tag ≠ target
      ended := l.ended ++ found.map fun e => ⟨e, .cancelled, s.timer.count⟩ }
    let done (count : Nat) (m : Line) := exec (.cancel tag line target) s =
      .next ((s.adminDone 13 (some line) tag none (.done (.cancel target count))).setLine n m).settle
    ((∀ c cls, l.current = some c → c.origin ≠ .host cls target) → done found.length k) ∧
    (∀ c cls, l.current = some c → c.origin = .host cls target → l.engine = .lead →
      done (found.length + 1) { k with
        engine := .idle, current := none, att := Attempt.clear
        holdSlot := some ⟨n, .cancelled, if c.wentSilent then .wentSilent else .none, target, c.node, c.attempts, c.last,
          s.timer.count⟩
        turn := if cls = .routine then .sweep else l.turn }) ∧
    (∀ c cls, l.current = some c → c.origin = .host cls target → l.engine ≠ .lead →
      done (found.length + 1) { k with current := some { c with cancelReq := true } })

/-- POWER: an unknown target is refused; naming the state held is DONE at once; a switch between ACTIVE and LULL and an exit
from DOZE set the state and every line's target in the event of acceptance and wait; DOZE is refused from ACTIVE and from a
busy LULL part, and otherwise begins DOZE_PENDING on every RUNNING line. THE MODEL'S CHOICE (log entry 19): at a change of target a
pending START stays as it stands where the profile in force is the new target, and a pending SWITCH goes. -/
def Obligations.PowerChangesTheState : Prop :=
  ∀ (s : State) (tag : Half) (target : Byte), AdminReady s → s.power.state ≠ .dozePending →
    let now := s.timer.count
    let answers (t : State) := exec (.power tag target) s = .next t.settle
    let refusal (r : Reason) := answers (s.adminDone 14 none tag none (.refused r))
    let waits (t : State) (p : PowerState) :=
      answers { t with admin := some (.waiting tag p), power := { t.power with transition := some p } }
    let taken := s.handedOver (.waiting tag .active)
    let switch (p : PowerState) : State := { taken with
      power := { s.power with state := p }
      lines := s.lines.mapIdx fun _ l =>
        if l.run = .quiet ∨ l.run = .faulted then { l with inForce := p.target, pace := .none }
        else if l.inForce ≠ p.target then { l with pace := .switch }
        else if l.pace = .switch then { l with pace := .none } else l }
    let busy := ∃ n, (s.line n).run = .draining ∨ (s.line n).run = .running ∧ ((s.line n).waiting ≠ [] ∨
      (s.line n).ended ≠ [] ∨ ∃ c cls t, (s.line n).current = some c ∧ c.origin = .host cls t)
    (2 < target.toNat → refusal .badField) ∧
    (target = 0 ∧ s.power.state = .active ∨ target = 1 ∧ s.power.state = .lull ∨ target = 2 ∧ s.power.state = .doze →
      answers (s.adminDone 14 none tag none (.done .none))) ∧
    (target = 1 → s.power.state = .active → waits (switch .lull) .lull) ∧
    (target = 0 → s.power.state = .lull → waits (switch .active) .active) ∧
    (target = 1 → s.power.state = .doze → waits (taken.wokenTo .lull) .lull) ∧
    (target = 0 → s.power.state = .doze → waits (taken.wokenTo .active) .active) ∧
    (target = 2 → s.power.state = .active → refusal .wrongPowerState) ∧
    (target = 2 → s.power.state = .lull → busy → refusal .busy) ∧
    (target = 2 → s.power.state = .lull → ¬ busy → waits { taken with
      power := { s.power with state := .dozePending }
      lines := s.lines.mapIdx fun n l =>
        if l.run = .running then
          let k : Line := { l with
            roundTimer := none, due := [], probes := [], hunt := none
            current := l.current.map fun c => { c with huntLive := false } }
          match k.current with
          | none => k
          | some c => if k.engine = .lead ∧ c.origin.isPace = false then k.endExchange ⟨n, now, .dozePending⟩ c .noReply
            else k
        else l } .doze)

/-! ### The attempt on the wire -/

/-- The end of the LEAD wait, counted while the line is at mark: the attempt begins with its toggle, its count and the line's
attempts counter; or, ruled out by its node's state or its barred flag, it is withdrawn and the exchange ends NODE_BARRED. THE
MODEL'S CHOICE: the row is the moment that it names, to which time moves on (log entry 1), and a row that the line's state rules
out changes nothing (log entry 3). -/
def Obligations.LeadWaitBeginsOrWithdraws : Prop :=
  ∀ (s : State) (n : LineId) (c : Current), s.Live →
    ((s.line n).engine ≠ .lead ∨ (s.line n).wire.space = true → exec (.leadWaitComplete n) s = .next s) ∧
    ((s.line n).engine = .lead → (s.line n).wire.space = false → (s.line n).current = some c →
      let t := s.elapse ((s.line n).att.wait * (s.line n).profile.divisor - (s.line n).att.markCount)
      let l := t.line n
      (mayGo c l.roster → exec (.leadWaitComplete n) s = .next (t.setLine n { l with
        engine := .sending, settleOwed := false, att := Attempt.clear
        stats := { l.stats with attempts := satInc l.stats.attempts }
        current := some { c with attempts := c.attempts + 1, toggle := attemptToggle c l.roster } }).settle) ∧
      (¬ mayGo c l.roster →
        exec (.leadWaitComplete n) s = .next (t.setLine n (l.endExchange (t.ctx n) c .nodeBarred)).settle))

/-- While a frame is sent: the end of the HEADER stop bit gives the node's record the toggle on a first attempt; the end of the
whole frame with its echo good ends a broadcast SENT and opens the reply window of an addressed request. THE MODEL'S CHOICE: the
row is the moment that it names, to which time moves on (log entry 1), a row that the line's state rules out changes nothing
(log entry 3), and a frame of which nobody reports a failed echo ends with its echo good (log entry 15). -/
def Obligations.HeaderAndFrameEnd : Prop :=
  ∀ (s : State) (n : LineId) (c : Current), s.Live → (s.line n).current = some c →
    ((s.line n).engine ≠ .sending →
      exec (.headerStopBitEnd n) s = .next s ∧ exec (.requestFrameEnd n) s = .next s) ∧
    ((s.line n).engine = .sending →
      ((s.line n).att.headerDone = true → exec (.headerStopBitEnd n) s = .next s) ∧
      ((s.line n).att.headerDone = false →
        let t := s.elapse ((s.line n).profile.charClocks - (s.line n).att.sent)
        exec (.headerStopBitEnd n) s = .next (t.setLine n ((t.line n).headerOver c)).settle) ∧
      (let t := s.elapse (c.frame.length * (s.line n).profile.charClocks - (s.line n).att.sent)
       let l := (t.line n).headerOver c
       (c.node = 0 →
          exec (.requestFrameEnd n) s = .next (t.setLine n (l.onVerdict (t.ctx n) c .sent none none)).settle) ∧
       (c.node ≠ 0 → exec (.requestFrameEnd n) s = .next (t.setLine n
          { l with engine := .awaiting, att := Attempt.clear }).settle)))

/-- The echo check of a driven character: a missing echo, or one that differs in its data bits, its parity bit or its stop bit,
ends the attempt COLLISION when that character's stop bit ends; an echo that matches changes nothing. THE MODEL'S CHOICE: the
row is the moment that it names, to which time moves on (log entry 1), and the echo is what the row reports, so that a matching
one has no effect (log entry 15). -/
def Obligations.EchoFailureIsACollision : Prop :=
  ∀ (s : State) (n : LineId) (c : Current) (i : Nat) (e : Echo) (b : Byte), s.Live → (s.line n).engine = .sending →
    (s.line n).current = some c → c.frame[i]? = some b →
    (s.line n).att.sent ≤ (i + 1) * (s.line n).profile.charClocks →
    let differs (r : RxChar) := r.data ≠ b ∨ r.stop = false ∨
      ((s.line n).profile.parity = .even ∧ onesOf { r with data := b } % 2 = 1) ∨
      ((s.line n).profile.parity = .odd ∧ onesOf { r with data := b } % 2 = 0)
    let t := s.elapse ((i + 1) * (s.line n).profile.charClocks - (s.line n).att.sent)
    (e = .missing ∨ (∃ r, e = .taken r ∧ differs r) → exec (.echoFailure n i e) s =
      .next (t.setLine n (((t.line n).headerOver c).onVerdict (t.ctx n) c .collision none none)).settle) ∧
    ((∃ r, e = .taken r ∧ ¬ differs r) → exec (.echoFailure n i e) s = .next s)

/-- A request frame: 5 to 37 characters, direction 0, the toggle (0 for a broadcast) and the address in the HEADER, then the
code, the length, the payload and the CRC, high byte first. The check string gives 0x29B1. Driver enable is asserted in SENDING
and in no other state; transmit data is then the frame's characters back to back, one bit time a level: a start bit at space, the
data bits least significant first, the parity bit of the profile, and a stop bit at mark; otherwise it is mark. -/
def Obligations.RequestFrameCrcAndPins : Prop :=
  crc16 [0x31, 0x32, 0x33, 0x34, 0x35, 0x36, 0x37, 0x38, 0x39] = 0x29B1 ∧
  (∀ (bs : List Byte), crc16 (bs ++ crcChars (crc16 bs)) = 0) ∧
  (∀ c : Current, c.node ≤ 62 → c.payload.length ≤ 32 →
    ∃ h : Byte, h.getLsbD 7 = false ∧ h.toNat % 64 = c.node ∧ (h.getLsbD 6 = true ↔ c.node ≠ 0 ∧ c.toggle = true) ∧
      c.frame = [h, c.code, BitVec.ofNat 8 c.payload.length] ++ c.payload ++
        crcChars (crc16 ([h, c.code, BitVec.ofNat 8 c.payload.length] ++ c.payload)) ∧
      c.frame.length = 5 + c.payload.length) ∧
  ∀ l : Line,
    (l.driverEnable = true ↔ l.engine = .sending) ∧ (l.engine ≠ .sending → l.transmitData = true) ∧
    ∀ c, l.engine = .sending → l.current = some c →
      let bits := if l.profile.parity = .none then 10 else 11
      let time := l.att.sent / l.profile.divisor
      (c.frame.length * bits ≤ time → l.transmitData = true) ∧
      ∀ (i k : Nat) (b : Byte), c.frame[i]? = some b → k < bits → time = i * bits + k →
        let ones := ((List.range 8).filter b.getLsbD).length
        (k = 0 → l.transmitData = false) ∧
        (1 ≤ k → k ≤ 8 → l.transmitData = b.getLsbD (k - 1)) ∧
        (k = 9 → l.profile.parity = .even → l.transmitData = decide (ones % 2 = 1)) ∧
        (k = 9 → l.profile.parity = .odd → l.transmitData = decide (ones % 2 = 0)) ∧
        (k + 1 = bits → l.transmitData = true)

/-- The reply window at its end with no transition pending ends the attempt TIMEOUT; the character gap limit ends it BROKEN,
or with the mark the frame already carries. THE MODEL'S CHOICE: the row is the moment of the limit, to which time moves on (log
entry 1), the half bit time of an odd divisor is rounded down (log entry 22), and a row that the line's state rules out changes
nothing (log entry 3). -/
def Obligations.WindowAndGapEndTheAttempt : Prop :=
  ∀ (s : State) (n : LineId) (c : Current), s.Live → (s.line n).current = some c →
    let p := (s.line n).profile
    let a := (s.line n).att
    ((s.line n).engine = .awaiting → a.edge = none →
      let t := s.elapse (p.replyWindow * p.divisor - a.window)
      exec (.replyWindowExpiry n) s =
        .next (t.setLine n ((t.line n).onVerdict (t.ctx n) c .timeout none none)).settle) ∧
    ((s.line n).engine ≠ .awaiting ∨ a.edge ≠ none → exec (.replyWindowExpiry n) s = .next s) ∧
    (∀ k j, (s.line n).engine = .receiving →
      (a.gap = .fromSample j ∧ k = p.charGap * p.divisor + p.divisor / 2 + 1 - j ∨
        a.gap = .fromMark j ∧ k = p.charGap * p.divisor + 1 - j) →
      let t := s.elapse k
      let ends (v : Verdict) := exec (.characterGapExceeded n) s =
        .next (t.setLine n ((t.line n).onVerdict (t.ctx n) c v none a.latency)).settle
      (a.mark = none → ends .broken) ∧ (a.mark = some .charError → ends .charError) ∧
      (a.mark = some .lengthError → ends .lengthError)) ∧
    ((s.line n).engine ≠ .receiving ∨ a.gap = .stopped ∨ a.gap = .awaitMark ∨ (∃ j b e, a.gap = .edge j b e) →
      exec (.characterGapExceeded n) s = .next s)

/-- A reply's start bit confirmed half a bit time after its transition enters RECEIVING with the latency to the transition in
whole microseconds. The transition pending is the one confirmed; with none pending and the line at mark within the window it
falls now; after the window's end none begins a reply. THE MODEL'S CHOICE: with the line at mark the transition falls now (log
entry 7), the row is the moment that it names, to which time moves on (log entry 1), half the bit time of an odd divisor is
rounded up (log entry 22), and a row that the line's state rules out changes nothing (log entry 3). -/
def Obligations.ReplyStartEntersReceiving : Prop :=
  ∀ (s : State) (n : LineId) (c : Current), s.Live → (s.line n).current = some c →
    let l := s.line n
    let half := (l.profile.divisor + 1) / 2
    let begun (t : State) (m : Line) (edge : Nat) := exec (.replyStart n) s = .next (t.setLine n { m with
      engine := .receiving, att := { Attempt.clear with latency := some (BitVec.ofNat 32 (edge / 48)) } }).settle
    (l.engine ≠ .awaiting → exec (.replyStart n) s = .next s) ∧
    (∀ e, l.engine = .awaiting → l.att.edge = some e → l.wire.space = true →
      begun (s.elapse (half - (l.att.window - e))) ((s.elapse (half - (l.att.window - e))).line n) e) ∧
    (l.engine = .awaiting → l.att.edge = none → l.wire.space = false →
      l.att.window ≤ l.profile.replyWindow * l.profile.divisor →
      begun (s.elapse half) { (s.elapse half).line n with wire := ⟨true, half, false⟩ } l.att.window) ∧
    (l.engine = .awaiting → l.att.edge ≠ none → l.wire.space = false → exec (.replyStart n) s = .next s) ∧
    (l.engine = .awaiting → l.att.edge = none →
      l.wire.space = true ∨ l.profile.replyWindow * l.profile.divisor < l.att.window → exec (.replyStart n) s = .next s)

/-- A reply character: it joins the frame, the first error in time marks it, a clean LENGTH of 0 to 32 gives the frame's
length, and the frame is judged at 5 + LENGTH characters, or at 37 with the length unknown. THE MODEL'S CHOICE: the row is the
stop-bit sample of the character under way, or with none under way the earliest that a character can have (log entries 1 and 31,
rounded as log entry 22 says), the pin follows the stop bit, and while the return to mark after a framing error is awaited the
row changes nothing (log entries 31 and 3); and after a framing error whose run of space nobody reported, the pin being at mark or the
run reaching back over a sample at mark, that run began at the edge of the first bit of the unbroken space that the samples show (log
entry 31, rounded as log entry 22 says). A run that was reported goes on as measured. -/
def Obligations.ReplyCharacterAssembles : Prop :=
  ∀ (s : State) (n : LineId) (c : Current) (ch : RxChar), s.Live → (s.line n).engine = .receiving →
    (s.line n).current = some c →
    ((s.line n).att.gap = .awaitMark → exec (.replyCharacter n ch) s = .next s) ∧
    ((s.line n).att.gap ≠ .awaitMark →
    let p := (s.line n).profile
    let a := (s.line n).att
    let half := (p.divisor + 1) / 2
    let rest := p.charClocks - p.divisor
    let t := s.elapse (match a.gap with
      | .stopped => rest - a.since
      | .fromSample k => p.divisor / 2 - k + half + rest
      | .fromMark _ => half + rest
      | .edge k _ _ => half - k + rest
      | .awaitMark => 0)
    let l := t.line n
    let bad := ch.stop = false ∨ (p.parity = .even ∧ onesOf ch % 2 = 1) ∨ (p.parity = .odd ∧ onesOf ch % 2 = 0)
    ∀ (m : Option FrameMark) (x : Option Nat),
      (m = a.mark ∧ a.mark ≠ none ∨ a.mark = none ∧ bad ∧ m = some .charError ∨
        a.mark = none ∧ ¬ bad ∧ a.chars.length = 2 ∧ 32 < ch.data.toNat ∧ m = some .lengthError ∨
        a.mark = none ∧ ¬ bad ∧ ¬ (a.chars.length = 2 ∧ 32 < ch.data.toNat) ∧ m = none) →
      (a.chars.length = 2 ∧ ¬ bad ∧ ch.data.toNat ≤ 32 ∧ x = some (5 + ch.data.toNat) ∨
        ¬ (a.chars.length = 2 ∧ ¬ bad ∧ ch.data.toNat ≤ 32) ∧ x = a.expect) →
      ∀ wire : Wire,
      let levels := [false] ++ (List.range 8).map ch.data.getLsbD ++ (if p.parity = .none then [] else [ch.parity]) ++ [ch.stop]
      (ch.stop = true → wire = ⟨false, 0, false⟩) →
      (∀ z front, levels = front ++ List.replicate z false → (∀ y, front ≠ y ++ [false]) → ch.stop = false →
        let age := match l.att.gap with | .stopped => l.att.since - rest | _ => 0
        let reported := l.wire.space = true ∧ (front ≠ [] → l.wire.run ≤ z * p.divisor + age)
        (reported → wire = l.wire) ∧ (¬ reported → wire = ⟨true, (z - 1) * p.divisor + half + age, false⟩)) →
      let k : Line := { l with
        att := { l.att with
          chars := a.chars ++ [ch.data], mark := m, expect := x, since := 0
          gap := if ch.stop then .fromSample 0 else .awaitMark }
        wire := wire }
      let judged (v : Verdict) (r : Option Reply) :=
        exec (.replyCharacter n ch) s = .next (t.setLine n (k.onVerdict (t.ctx n) c v r a.latency)).settle
      let whole := match x with
        | some len => len ≤ a.chars.length + 1
        | none => 37 ≤ a.chars.length + 1
      (¬ whole → exec (.replyCharacter n ch) s = .next (t.setLine n k).settle) ∧
      (whole → m = some .charError → judged .charError none) ∧
      (whole → m = some .lengthError → judged .lengthError none) ∧
      (whole → m = none → judged (judgeReply c.node c.toggle (a.chars ++ [ch.data])).1
        (judgeReply c.node c.toggle (a.chars ++ [ch.data])).2))

/-- A frame completed with no mark is judged by its CRC, then by direction and address, then by toggle, then by STATUS; the
four GOOD verdicts hand on the reply's status and payload, and no other verdict hands on contents. -/
def Obligations.ReplyIsJudgedInOrder : Prop :=
  ∀ (node : Nat) (toggle : Bool) (h status : Byte) (payload : List Byte) (crc : Half), payload.length ≤ 32 →
    let body := [h, status, BitVec.ofNat 8 payload.length] ++ payload
    let judged := judgeReply node toggle (body ++ crcChars crc)
    (crc ≠ crc16 body → judged = (.crcError, none)) ∧
    (crc = crc16 body → h.getLsbD 7 = false ∨ h.toNat % 64 ≠ node → judged = (.wrongNode, none)) ∧
    (crc = crc16 body → h.getLsbD 7 = true → h.toNat % 64 = node →
      (h.getLsbD 6 ≠ toggle → judged = (.stale, none)) ∧
      (h.getLsbD 6 = toggle →
        (3 < status.toNat → judged = (.badStatus, none)) ∧
        (status = 0 → judged = (.good, some ⟨.ok, payload⟩)) ∧
        (status = 1 → judged = (.goodBusy, some ⟨.busy, payload⟩)) ∧
        (status = 2 → judged = (.goodReject, some ⟨.reject, payload⟩)) ∧
        (status = 3 → judged = (.goodAlert, some ⟨.alert, payload⟩))))

/-! ### Spaces, rounds and the receive pin -/

/-- A run of space that reaches 22 bit times, once per run: an alert pulse in IDLE and LEAD, the end of the attempt BROKEN in
AWAITING and RECEIVING, and an alert pulse in DOZE in PARKED, which wakes a part in DOZE with wake-on-alert set. If the run is then
past the stuck limit too, the line is found stuck in the same event, after the hunt test that the effect calls for, and an exchange
under a cancel or a bar is left for the fault to end. THE MODEL'S CHOICE: with the line at mark the run begins now (log entry 7),
that test comes before the fault (log entry 44), time moves on to the mark (log entry 1), a run that rules the row out leaves it
without effect (log entry 3), a run in AWAITING that began with no transition in the reply window has no latency (log entry 45), and
the LINE_FAULT record of a stuck line's current exchange has the detail WENT_SILENT whenever the node went silent (log entry 23). -/
def Obligations.LongSpacePulsesBreaksOrWakes : Prop :=
  ∀ (s : State) (n : LineId), s.Live →
    ((s.line n).engine = .off ∨ (s.line n).engine = .sending ∨
      ((s.line n).wire.space = true ∧ (s.line n).wire.marked = true) → exec (.longSpace n) s = .next s) ∧
    ((s.line n).engine ≠ .off → (s.line n).engine ≠ .sending → (s.line n).wire.space = false →
      exec (.longSpace n) s =
        exec (.longSpace n) (s.setLine n ((s.line n).lineActivity (s.ctx n) .toSpace))) ∧
    ((s.line n).wire.space = true → (s.line n).wire.marked = false →
      let t := s.elapse (22 * (s.line n).profile.divisor - (s.line n).wire.run)
      let l := t.line n
      let stuck (u : State) := exec (.longSpace n) s = .next (u.withStuck n).settle
      let answers (u : State) :=
        (¬ l.pastStuckLimit → exec (.longSpace n) s = .next u.settle) ∧ (l.pastStuckLimit → stuck u)
      ((s.line n).engine = .idle ∨ (s.line n).engine = .lead → answers (t.setLine n l.pulsed)) ∧
      (∀ c, (s.line n).engine = .awaiting ∨ (s.line n).engine = .receiving → (s.line n).current = some c →
        let latency := match l.att.latency with
          | some w => some w
          | none => l.att.edge.map fun e => BitVec.ofNat 32 (e / 48)
        (¬ l.pastStuckLimit ∨ c.cancelReq = false ∧ c.barred = false →
          answers (t.setLine n (l.pulsed.onVerdict (t.ctx n) c .broken none latency))) ∧
        (l.pastStuckLimit → c.cancelReq = true ∨ c.barred = true →
          stuck (t.setLine n (l.pulsed.attemptOver (t.ctx n) c .broken latency)))) ∧
      ((s.line n).engine = .parked →
        let u := t.setLine n { l.pulsed with owed := { l.owed with alertPulseInDoze := true } }
        (s.power.state = .doze → s.power.wake = true → answers (u.wokenTo .lull)) ∧
        (s.power.state ≠ .doze ∨ s.power.wake = false → answers u)))

/-- A run of space that reaches the stuck limit of a RUNNING or DRAINING line makes it FAULTED. If the run has not had its
22-bit-time effect, that comes first in the same event, with the hunt test it calls for; in SENDING the attempt ends COLLISION
before it. An exchange under a cancel or a bar is not ended by its attempt's verdict then, but by the fault. THE MODEL'S CHOICE:
with the line at mark the run begins now (log entry 7), what comes before the fault in the event (log entry 44), time moves on to
the limit (log entry 1), a line that cannot be stuck leaves the row without effect (log entry 3), a run in AWAITING that began with
no transition in the reply window has no latency (log entry 45), the detail of the LINE_FAULT record is WENT_SILENT whenever the
node went silent (log entry 23), and the limit is the one of the profile in force as the row is taken, with no test of the profile
that a PACE's last COLLISION puts in force before the fault (log entry 49). -/
def Obligations.StuckLineFaults : Prop :=
  ∀ (s : State) (n : LineId), s.Live →
    ((s.line n).engine = .off ∨ (s.line n).run = .quiet ∨ (s.line n).run = .faulted →
      exec (.stuckLine n) s = .next s) ∧
    ((s.line n).engine ≠ .off → (s.line n).run = .running ∨ (s.line n).run = .draining →
      ((s.line n).wire.space = false → exec (.stuckLine n) s =
        exec (.stuckLine n) (s.setLine n ((s.line n).lineActivity (s.ctx n) .toSpace))) ∧
      ((s.line n).wire.space = true →
        let t := s.elapse ((s.line n).profile.stuckLimit * 48000 - (s.line n).wire.run)
        let l := t.line n
        let stuck (u : State) := exec (.stuckLine n) s = .next (u.withStuck n).settle
        ((s.line n).wire.marked = true → (s.line n).engine ≠ .sending → stuck t) ∧
        (∀ c, (s.line n).engine = .sending → (s.line n).current = some c →
          let m := if c.cancelReq = true ∨ c.barred = true then (l.headerOver c).attemptOver (t.ctx n) c .collision none
            else (l.headerOver c).onVerdict (t.ctx n) c .collision none none
          ((s.line n).wire.marked = true → stuck (t.setLine n m)) ∧
          ((s.line n).wire.marked = false → stuck (t.setLine n m.pulsed))) ∧
        ((s.line n).wire.marked = false → (s.line n).engine = .idle ∨ (s.line n).engine = .lead →
          stuck (t.setLine n l.pulsed)) ∧
        ((s.line n).wire.marked = false → (s.line n).engine = .parked →
          let v := t.setLine n { l.pulsed with owed := { l.owed with alertPulseInDoze := true } }
          stuck (if s.power.state = .doze ∧ s.power.wake = true then v.wokenTo .lull else v)) ∧
        (∀ c, (s.line n).wire.marked = false → (s.line n).engine = .awaiting ∨ (s.line n).engine = .receiving →
          (s.line n).current = some c →
          let latency := match l.att.latency with
            | some w => some w
            | none => l.att.edge.map fun e => BitVec.ofNat 32 (e / 48)
          stuck (t.setLine n (if c.cancelReq = true ∨ c.barred = true then l.pulsed.attemptOver (t.ctx n) c .broken latency
            else l.pulsed.onVerdict (t.ctx n) c .broken none latency)))))

/-- A round start at the timer's expiry: MISSED slots and the overrun if entries are left, then the next number, the new
deadline from the target profile's period, the due list, the roster pass, the probe list and the turn flag. THE MODEL'S CHOICE:
the row is the moment of the deadline, to which time moves on (log entry 1), and it has no effect with the timer stopped (log
entry 3). -/
def Obligations.RoundStartFormsTheRound : Prop :=
  ∀ (s : State) (n : LineId), s.Live →
    ((s.line n).roundTimer = none → exec (.roundStart n) s = .next s) ∧
    (∀ k, (s.line n).roundTimer = some k →
      let t := s.elapse k
      let l := t.line n
      let p := l.profile
      let r := if l.round = 0xFFFFFFFF then 1 else l.round + 1
      let pass (x : Node) : Node :=
        match x.state with
        | .silent => { x with roundsSilent := if 65535 ≤ x.roundsSilent then 1 else x.roundsSilent + 1 }
        | .joining =>
          if p.joinLimit ≤ x.joinProbes then { x with state := .silent, roundsSilent := 0, reportOwed := true } else x
        | .active => x
        | .barred => x
      let probed (x : Node) := x.state = .joining ∨
        x.state = .silent ∧ p.probeInterval ≠ 0 ∧ x.roundsSilent ≠ 0 ∧ p.probeInterval ∣ x.roundsSilent
      let missed := l.due.foldl (fun (m : Line) i => m.queueSlot i l.round (.nonWire .missed t.timer.count)) l
      ∃ (due probes : List Nat),
        (∀ i, i ∈ due ↔ l.sweepHalted = false ∧ ∃ e, l.sweepAt i = some e ∧ (r.toNat - 1) % e.cadence = e.phase) ∧
        due.Pairwise (· < ·) ∧
        (∀ a, a ∈ probes ↔ ∃ x ∈ l.roster.map pass, x.addr = a ∧ probed x) ∧ probes.Sublist (l.roster.map (·.addr)) ∧
        exec (.roundStart n) s = .next (t.setLine n { l with
          round := r, due := due, roster := l.roster.map pass, probes := probes, turn := .sweep
          roundTimer := some ((l.profileOf s.power.state.target).sweepPeriod * 48000)
          writer := missed.writer
          stats := if l.due = [] then l.stats else { l.stats with overruns := satInc l.stats.overruns }
          owed := if l.due = [] then l.owed else { l.owed with sweepOverrun := true }
          current := l.current.map fun c =>
            match c.origin with
            | .sweep i _ => if i ∈ l.due then { c with superseded := true } else c
            | _ => c }).settle)

/-- A change of the receive pin: every mark-to-space transition and every return to mark starts the LEAD count again; the first
transition within the reply window is the one to be confirmed, and a glitch leaves the window running, or ends it TIMEOUT
after its length. In RECEIVING, outside a character, a transition ends the idle count; half a bit time later the line is sampled,
and at space a character is under way, at mark it was a glitch. THE MODEL'S CHOICE: a glitch starts the idle count again with the
return to mark, or with the end of the stop bit if that is later (log entry 16), a transition after the sample of a stop bit may begin the next character though that stop bit has not
ended (log entry 48), and the half bit time of an odd divisor is rounded up (log entry 22). -/
def Obligations.LineActivityIsFollowed : Prop :=
  (∀ (s : State) (n : LineId), s.resetLow = false →
    let l := s.line n
    let becomes (a : Activity) (m : Line) := exec (.lineActivity n a) s = .next (s.setLine n m).settle
    let space : Line := { l with wire := ⟨true, 0, false⟩ }
    let mark : Line := { l with wire := ⟨false, 0, false⟩ }
    let stopBit := l.profile.divisor / 2
    (l.wire.space = true → becomes .toSpace l) ∧
    (l.wire.space = false →
      becomes .toMark l ∧
      (l.engine = .lead → becomes .toSpace { space with att := { l.att with markCount := 0 } }) ∧
      (l.engine = .awaiting → l.att.edge = none → l.att.window ≤ l.profile.replyWindow * l.profile.divisor →
        becomes .toSpace { space with att := { l.att with edge := some l.att.window } }) ∧
      (l.engine = .awaiting → l.att.edge ≠ none ∨ l.profile.replyWindow * l.profile.divisor < l.att.window →
        becomes .toSpace space) ∧
      (l.engine = .receiving →
        (l.att.gap = .stopped ∨ l.att.gap = .awaitMark → becomes .toSpace space) ∧
        (∀ k, l.att.gap = .fromSample k →
          becomes .toSpace { space with att := { l.att with gap := .edge 0 none (stopBit - k) } }) ∧
        (∀ k, l.att.gap = .fromMark k → becomes .toSpace { space with att := { l.att with gap := .edge 0 none 0 } }) ∧
        (∀ k b e, l.att.gap = .edge k b e → becomes .toSpace { space with att := { l.att with gap := .edge k none e } })) ∧
      (l.engine = .off ∨ l.engine = .idle ∨ l.engine = .sending ∨ l.engine = .parked → becomes .toSpace space)) ∧
    (l.wire.space = true →
      (l.engine = .lead → becomes .toMark { mark with att := { l.att with markCount := 0 } }) ∧
      (l.engine = .receiving →
        (l.att.gap = .awaitMark → becomes .toMark { mark with att := { l.att with gap := .fromMark 0 } }) ∧
        (∀ k e, l.att.gap = .edge k none e → becomes .toMark { mark with att := { l.att with gap := .edge k (some 0) e } }) ∧
        (l.att.gap ≠ .awaitMark → (∀ k e, l.att.gap ≠ .edge k none e) → becomes .toMark mark)) ∧
      (l.engine ≠ .lead → l.engine ≠ .receiving → becomes .toMark mark)) ∧
    (l.engine = .lead → becomes .glitch { mark with att := { l.att with markCount := 0 } }) ∧
    (∀ c, l.engine = .awaiting → l.current = some c →
      (l.att.edge ≠ none → l.profile.replyWindow * l.profile.divisor ≤ l.att.window →
        becomes .glitch (mark.onVerdict (s.ctx n) c .timeout none none)) ∧
      (l.att.edge = none ∨ l.att.window < l.profile.replyWindow * l.profile.divisor →
        becomes .glitch { mark with att := { l.att with edge := none } })) ∧
    (l.engine = .receiving → l.att.gap = .stopped → becomes .glitch mark) ∧
    (l.engine = .receiving →
      let idle (g : Gap) := becomes .glitch { mark with att := { l.att with gap := g } }
      (∀ k, l.att.gap = .awaitMark ∨ l.att.gap = .fromMark k → idle (.fromMark 0)) ∧
      (∀ k, l.att.gap = .fromSample k → (k < stopBit → idle (.fromSample k)) ∧ (stopBit ≤ k → idle (.fromMark 0))) ∧
      (∀ k b e, l.att.gap = .edge k b e →
        (k < e → idle (.fromSample (stopBit - (e - k)))) ∧ (e ≤ k → idle (.fromMark (min (b.getD 0) (k - e)))))) ∧
    (l.engine = .off ∨ l.engine = .idle ∨ l.engine = .sending ∨ l.engine = .parked → becomes .glitch mark)) ∧
  ∀ (l : Line) (j k stop : Nat) (back : Option Nat), l.engine = .receiving → l.att.gap = .edge j back stop →
    let half := (l.profile.divisor + 1) / 2
    (j + k < half → (l.elapse k).att = { l.att with gap := .edge (j + k) (back.map fun b => b + k) stop }) ∧
    (half ≤ j + k → l.wire.space = true → (l.elapse k).att = { l.att with gap := .stopped, since := j + k - half }) ∧
    (half ≤ j + k → l.wire.space = false →
      (l.elapse k).att = { l.att with gap := .fromMark (min (back.getD 0 + k) (j + k - stop)) })

/-! ### The Completion Unit and the sweep writers -/

/-- The end of a write of the Completion Unit. A completion record written leaves the holding queue, the produced count rises,
the status block is marked for writing, and moderation signals at the threshold or starts the holdoff at the first
unsignalled record; a status block written changes nothing more. A bus error on either makes the part FAULTED. The holdoff
deadline stops the timer, and signals if a completion is unsignalled. THE MODEL'S CHOICE: `at the threshold` is `at least the
threshold` (log entry 25), the part FAULTED has lost ended queue entries too (log entry 21) and keeps its probe lists with no probe to
start (log entry 38) and its turn flags (log entry 53), HOLDOFF_EXPIRY is the moment of the deadline, to which time moves on (log entry 1), and it has no effect with no
timer running (log entry 3). -/
def Obligations.CompletionUnitWritesAndSignals : Prop :=
  (∀ (s : State) (a : Addr) (bytes : List Byte),
    (s.Serving (.statusWrite a bytes) →
      exec (.statusWriteDone .good) s = .next s.released.settle ∧
      exec (.statusWriteDone .busError) s = .next (s.released.stopped .statusWriteError)) ∧
    (s.Serving (.recordWrite a bytes) →
      exec (.completionWriteDone .busError) s = .next (s.released.stopped .completionWriteError) ∧
      (∀ u, s.setup = some u →
        let p := s.cu.produced + 1
        let waiting := (p - s.cu.mark).toNat
        let cu : CompletionUnit := { s.cu with holding := s.cu.holding.tail, produced := p, statusPending := true }
        (u.threshold ≤ waiting → exec (.completionWriteDone .good) s = .next ({ s.released with
          cu := { cu with mark := p, holdoff := none }
          causes := { s.causes with completions := true } } : State).settle) ∧
        (waiting < u.threshold → waiting = 1 → u.holdoff ≠ 0 → exec (.completionWriteDone .good) s =
          .next ({ s.released with cu := { cu with holdoff := some (u.holdoff * 48) } } : State).settle) ∧
        (waiting < u.threshold → waiting ≠ 1 ∨ u.holdoff = 0 → exec (.completionWriteDone .good) s =
          .next ({ s.released with cu := cu } : State).settle)))) ∧
  ∀ s : State, s.Live →
    (s.cu.holdoff = none → exec .holdoffExpiry s = .next s) ∧
    (∀ k, s.cu.holdoff = some k →
      let t := s.elapse k
      (s.cu.produced = s.cu.mark →
        exec .holdoffExpiry s = .next ({ t with cu := { t.cu with holdoff := none } } : State).settle) ∧
      (s.cu.produced ≠ s.cu.mark →
        exec .holdoffExpiry s = .next ({ t with
          cu := { t.cu with holdoff := none, mark := t.cu.produced }
          causes := { t.causes with completions := true } } : State).settle))

/-- A slot write goes body first and stamp second, and the next waiting write starts after the stamp; a bus error on either
halts the line's sweep, discards its writes and drops its due list. A queued write takes the place of a waiting one for its
index, or joins the end; a halted writer discards it. THE MODEL'S CHOICE (log entry 17): a writer that is free takes a queued
write as in progress at once, so that a later one for its index waits behind it. -/
def Obligations.SlotWritesGoBodyThenStamp : Prop :=
  (∀ (s : State) (n : LineId) (a : Addr) (bytes : List Byte) (w : SlotWrite),
    let l := s.line n
    let fault : Line := { l with
      writer := ⟨[], none⟩, sweepHalted := true, due := [], owed := { l.owed with sweepWriteFault := true } }
    (s.Serving (.slotBody n a bytes) → l.writer.busy = some (w, .body) →
      exec (.slotBodyWriteDone .good) s =
        .next (s.released.setLine n { l with writer := ⟨l.writer.waiting, some (w, .stamp)⟩ }).settle ∧
      exec (.slotBodyWriteDone .busError) s = .next (s.released.setLine n fault).settle) ∧
    (s.Serving (.slotStamp n a bytes) →
      (l.writer.waiting = [] → exec (.slotStampWriteDone .good) s =
        .next (s.released.setLine n { l with writer := ⟨[], none⟩ }).settle) ∧
      (∀ v rest, l.writer.waiting = v :: rest → exec (.slotStampWriteDone .good) s =
        .next (s.released.setLine n { l with writer := ⟨rest, some (v, .body)⟩ }).settle) ∧
      exec (.slotStampWriteDone .busError) s = .next (s.released.setLine n fault).settle)) ∧
  (∀ (l : Line) (i : Nat) (stamp : Word) (body : SlotBody) (base : Addr), l.imageBase = some base →
    let w : SlotWrite := ⟨i, base + BitVec.ofNat 64 (64 * i), stamp, body⟩
    (l.sweepHalted = true → l.queueSlot i stamp body = l) ∧
    (l.sweepHalted = false →
      (l.writer = ⟨[], none⟩ → l.queueSlot i stamp body = { l with writer := ⟨[], some (w, .body)⟩ }) ∧
      (∀ b, l.writer.busy = some b → (∀ v ∈ l.writer.waiting, v.index ≠ i) →
        l.queueSlot i stamp body = { l with writer := ⟨l.writer.waiting ++ [w], some b⟩ }) ∧
      (∀ b front v back, l.writer.busy = some b → l.writer.waiting = front ++ v :: back → v.index = i →
        (∀ v ∈ front, v.index ≠ i) →
        l.queueSlot i stamp body = { l with writer := ⟨front ++ w :: back, some b⟩ })))

/-! ### Verdicts, ends and selection -/

/-- A verdict's effect on its node's record: heard, failing and neutral verdicts on the health, the join probes of a probe of a
JOINING node, and the alert flags. -/
def Obligations.VerdictUpdatesTheRecord : Prop :=
  ∀ (now : Word) (p : Profile) (x : Node) (v : Verdict),
    let heard := v = .good ∨ v = .goodBusy ∨ v = .goodReject ∨ v = .goodAlert ∨ v = .stale
    let neutral := v = .collision ∨ v = .sent
    let y := x.onVerdict now p false v
    let z := x.onVerdict now p true v
    y.addr = x.addr ∧ y.lastToggle = x.lastToggle ∧ y.joinProbes = x.joinProbes ∧
    (heard → y.failures = 0 ∧ y.lastHeard = some now ∧ y.roundsSilent = x.roundsSilent ∧
      (x.state = .joining ∨ x.state = .silent → y.state = .active ∧ y.reportOwed = true) ∧
      (x.state = .active ∨ x.state = .barred → y.state = x.state ∧ y.reportOwed = x.reportOwed)) ∧
    (¬ heard → ¬ neutral → y.failures = min 15 (x.failures + 1) ∧ y.lastHeard = x.lastHeard ∧
      (x.state = .active → p.failThreshold ≤ min 15 (x.failures + 1) →
        y.state = .silent ∧ y.roundsSilent = 0 ∧ y.reportOwed = true) ∧
      (x.state ≠ .active ∨ min 15 (x.failures + 1) < p.failThreshold →
        y.state = x.state ∧ y.roundsSilent = x.roundsSilent ∧ y.reportOwed = x.reportOwed)) ∧
    (neutral → y = x) ∧
    (v = .goodAlert → y.alertReported = true ∧ y.alertOwed = (x.alertOwed || !x.alertReported)) ∧
    (v = .good ∨ v = .goodBusy ∨ v = .goodReject → y.alertReported = false ∧ y.alertOwed = x.alertOwed) ∧
    (¬ heard ∨ v = .stale → y.alertReported = x.alertReported ∧ y.alertOwed = x.alertOwed) ∧
    (x.state ≠ .joining → z = y) ∧
    (x.state = .joining → z.joinProbes = min 15 (x.joinProbes + 1) ∧
      (heard ∨ min 15 (x.joinProbes + 1) < p.joinLimit → z = { y with joinProbes := min 15 (x.joinProbes + 1) }) ∧
      (¬ heard → p.joinLimit ≤ min 15 (x.joinProbes + 1) →
        z = { y with
          joinProbes := min 15 (x.joinProbes + 1), state := .silent, roundsSilent := 0, reportOwed := true }))

/-- The end of an attempt with a verdict, in its order: the result is stored, the record and the statistics take the verdict, a
found alert ends the hunt, and the first row of the table that applies ends the exchange or grants a retry with its wait. Which
outcome a verdict gives; and what the verdict alone does, with nothing decided about the exchange, where a stuck line is to end it. THE
MODEL'S CHOICE (log entry 9): under ABANDON a host exchange ends FLUSHED only where a retry would have been granted, and
otherwise with its own outcome. -/
def Obligations.VerdictEndsOrRetries : Prop :=
  ((∀ v, v = .good ∨ v = .goodAlert ∨ v = .sent → outcomeOf v = .done) ∧ outcomeOf .goodBusy = .nodeBusy ∧
    outcomeOf .goodReject = .nodeReject ∧ outcomeOf .timeout = .noReply ∧ outcomeOf .collision = .collided ∧
    ∀ v, v = .broken ∨ v = .charError ∨ v = .crcError ∨ v = .lengthError ∨ v = .wrongNode ∨ v = .stale ∨ v = .badStatus →
      outcomeOf v = .badReply) ∧
  ∀ (x : Ctx) (c : Current) (v : Verdict) (reply : Option Reply) (latency : Option Word) (l : Line) (silenced found : Bool),
    RosterOk l.roster →
    let heard := v = .good ∨ v = .goodBusy ∨ v = .goodReject ∨ v = .goodAlert ∨ v = .stale
    let after (y : Node) := y.onVerdict x.now l.profile (c.origin == .probe && !c.barred) v
    (silenced = true ↔ ∃ y ∈ l.roster, y.addr = c.node ∧ y.state ≠ .silent ∧ (after y).state = .silent) →
    (found = true ↔ v = .goodAlert ∧ ∃ y ∈ l.roster, y.addr = c.node ∧ y.alertReported = false) →
    ∀ failed : Bool, (failed = true ↔ ¬ heard ∧ v ≠ .sent) →
    let d : Current := { c with
      last := some ⟨v, reply, latency, c.node⟩, wentSilent := c.wentSilent || silenced
      huntLive := c.huntLive && !found }
    let k : Line := { l with
      roster := l.roster.map fun y => if y.addr = c.node then after y else y
      stats := { l.stats with
        failed := if failed then satInc l.stats.failed else l.stats.failed
        collisions := if v = .collision then satInc l.stats.collisions else l.stats.collisions }
      settleOwed := l.settleOwed || v == .collision, hunt := if found then none else l.hunt, current := some d }
    let ends (o : ExOutcome) := l.onVerdict x c v reply latency = k.endExchange x d o
    let final := v = .good ∨ v = .goodAlert ∨ v = .goodReject ∨ v = .sent
    let waits : Line := { k with
      engine := .lead
      att := { Attempt.clear with wait :=
        if l.settleOwed = true ∨ v = .collision then 2 * l.profile.leadGap
        else if v = .goodBusy then l.profile.busyPause else l.profile.retryGap } }
    let doze := x.power = .dozePending ∧ c.origin.isPace = false
    (c.cancelReq = true → ends .cancelled) ∧
    (c.cancelReq = false → c.barred = true → ends .nodeBarred) ∧
    (c.cancelReq = false → c.barred = false →
      (final ∨ d.wentSilent = true ∨ doze → ends (outcomeOf v)) ∧
      (¬ final → d.wentSilent = false → ¬ doze →
        (c.retryLimit < c.attempts → ends (outcomeOf v)) ∧
        (c.attempts ≤ c.retryLimit → l.abandon = true → ends (if c.origin.isHost then .flushed else outcomeOf v)) ∧
        (c.attempts ≤ c.retryLimit → l.abandon = false → l.onVerdict x c v reply latency = waits))) ∧
    (reply = none → l.attemptOver x c v latency = waits)

/-- A finished exchange is handed on by its origin: a host exchange leaves its record in the hold slot, a sweep exchange queues
its slot unless it is superseded, a hunt step moves the walk of the hunt it belongs to, and a PACE takes the announced profile in
force. The engine is IDLE with no current exchange. THE MODEL'S CHOICE: a pending SWITCH is left as it stands at the end of a PACE
that announced the target (log entry 19), WENT_SILENT is carried whatever the outcome (log entry 23), and a hunt walks on to a node
that R127 lets be stepped later (log entry 36). -/
def Obligations.ExchangeIsHandedOn : Prop :=
  ∀ (x : Ctx) (c : Current) (o : ExOutcome) (l : Line),
    let b : Line := { l with engine := .idle, current := none, att := Attempt.clear }
    (∀ cls tag, c.origin = .host cls tag → l.endExchange x c o = { b with
      holdSlot := some ⟨x.n, o, if c.wentSilent then .wentSilent else .none, tag, c.node, c.attempts, c.last, x.now⟩
      turn := if cls = .routine then .sweep else l.turn }) ∧
    (∀ i w, c.origin = .sweep i w →
      (c.superseded = true → l.endExchange x c o = { b with turn := .routine }) ∧
      (c.superseded = false → c.last = none →
        l.endExchange x c o = Line.queueSlot { b with turn := .routine } i w (.nonWire .skipped x.now)) ∧
      (∀ r, c.superseded = false → c.last = some r →
        l.endExchange x c o = Line.queueSlot { b with turn := .routine } i w
          (if r.verdict = .good ∨ r.verdict = .goodAlert ∨ r.verdict = .goodBusy ∨ r.verdict = .goodReject then
            .wire .good r.reply r.latency x.now
          else if r.verdict = .timeout then .wire .noReply none none x.now
          else if r.verdict = .collision then .wire .collided none none x.now
          else .wire .badReply none r.latency x.now))) ∧
    (c.origin = .probe → l.endExchange x c o = b) ∧
    (c.origin = .hunt → c.huntLive = false ∨ l.hunt = none → l.endExchange x c o = b) ∧
    (∀ w, c.origin = .hunt → c.huntLive = true → l.hunt = some w →
      let v : Walk := ⟨max w.cursor c.node, w.later.filter fun a => a ≠ c.node⟩
      let ahead (y : Node) := y.state = .active ∧ (v.cursor < y.addr ∨ y.addr ∈ v.later)
      ((∃ y ∈ l.roster, ahead y) → l.endExchange x c o = { b with hunt := some v }) ∧
      ((∀ y ∈ l.roster, ¬ ahead y) → l.endExchange x c o =
        Line.activateHunt x { b with hunt := none, owed := { l.owed with huntEmpty := true } })) ∧
    (∀ a, c.origin = .pace a → l.endExchange x c o =
      { b with inForce := a, pace := if x.power.target = a then l.pace else .switch })

/-- The arbiter at an exchange boundary: a pending PACE, the oldest waiting URGENT entry unless HELD, a hunt step, a sweep entry or
a ROUTINE entry by the turn flag, and a due probe, JOINING before SILENT. What is selected is the current exchange and the engine
waits in LEAD. A PACE carries the target profile's divisor, high byte first, and its parity selector. A host entry to a node that is not ACTIVE is refused into the hold slot, a due entry whose node is not ACTIVE is written
SKIPPED, a hunt with no ACTIVE record ahead ends empty, and an address of the probe list that is neither JOINING nor SILENT is
dropped; the arbiter then goes on. In DOZE_PENDING a RUNNING line selects a PACE alone; a DRAINING line selects a PACE and host
exchanges alone, and under ABANDON marks what waits FLUSHED. THE MODEL'S CHOICE: the node states of the probe list are read at the
selection (log entry 18), and ahead of a hunt lie the nodes that R127 lets be stepped later too (log entry 36). -/
def Obligations.SelectionTakesTheSourcesInOrder : Prop :=
  ∀ (x : Ctx) (l : Line), l.engine = .idle → l.current = none →
    let m := l.arbitrate x
    let goesOn (k : Line) := m = k.arbitrate x
    let works := l.run = .running ∧ (x.power = .active ∨ x.power = .lull)
    let drains := l.run = .draining ∧ l.abandon = false
    let hosts := (works ∨ drains) ∧ l.holdSlot = none ∧ l.ended = []
    let selects (k : Line) (o : Origin) (node : Nat) (code : Byte) (payload : List Byte) (retries : Nat) := m = { k with
      engine := .lead
      att := { Attempt.clear with wait := if l.settleOwed then 2 * l.profile.leadGap else l.profile.leadGap }
      current := some ⟨o, node, code, payload, retries, l.inForce, false, 0, none, false, false, false, false, o == .hunt⟩ }
    let oldest (cls : QClass) (e : QEntry) := hosts ∧ e.cls = cls ∧
      ∃ front back, l.waiting = front ++ e :: back ∧ e ∉ front ∧ ∀ f ∈ front, f.cls ≠ cls
    let noHost (cls : QClass) := ¬ hosts ∨ ∀ e ∈ l.waiting, e.cls ≠ cls
    let taken (e : QEntry) : Line := { l with waiting := l.waiting.erase e }
    let takes (e : QEntry) :=
      (e.node = 0 ∨ nodeState l.roster e.node = some .active →
        selects (taken e) (.host e.cls e.tag) e.node e.code e.payload e.retryLimit) ∧
      (∀ o, e.node ≠ 0 → (nodeState l.roster e.node = none ∧ o = .nodeUnknown ∨
          nodeState l.roster e.node = some .joining ∧ o = .nodeJoining ∨
          nodeState l.roster e.node = some .silent ∧ o = .nodeSilent ∨
          nodeState l.roster e.node = some .barred ∧ o = .nodeBarred) →
        goesOn { taken e with holdSlot := some ⟨x.n, o, .none, e.tag, e.node, 0, none, x.now⟩ })
    let noSweep := ¬ works ∨ l.sweepHalted = true ∨ l.due = []
    let announced := l.profileOf x.power.target
    let state (a : Nat) := nodeState l.roster a
    (l.run = .quiet ∨ l.run = .faulted → m = l) ∧
    (l.run = .draining → l.abandon = true → m = { l with
      waiting := []
      ended := l.ended ++ ((l.waiting.filter fun e => e.cls = .urgent) ++ l.waiting.filter fun e => e.cls = .routine).map
        fun e => ⟨e, .flushed, x.now⟩ }) ∧
    (l.run = .running ∨ drains →
      (l.pace ≠ .none → selects { l with pace := .none } (.pace x.power.target) 0 1
        [BitVec.ofNat 8 (announced.divisor / 256), BitVec.ofNat 8 announced.divisor,
          match announced.parity with | .none => 0 | .even => 1 | .odd => 2] 3) ∧
      (l.pace = .none →
        (∀ e, oldest .urgent e → takes e) ∧
        (noHost .urgent →
          (∀ w, works → l.hunt = some w →
            let ahead (y : Node) := y.state = .active ∧ (w.cursor < y.addr ∨ y.addr ∈ w.later)
            (∀ y ∈ l.roster, RosterOk l.roster → ahead y → (∀ z ∈ l.roster, ahead z → y.addr ≤ z.addr) →
              selects l .hunt y.addr 0 [] 0) ∧
            ((∀ y ∈ l.roster, ¬ ahead y) →
              goesOn (Line.activateHunt x { l with hunt := none, owed := { l.owed with huntEmpty := true } }))) ∧
          (¬ works ∨ l.hunt = none →
            (∀ i rest, works → l.sweepHalted = false → l.due = i :: rest → l.turn = .sweep ∨ noHost .routine →
              (∀ e, l.sweepAt i = some e → state e.node = some .active →
                selects { l with due := rest } (.sweep i l.round) e.node e.code e.payload e.retryLimit) ∧
              (∀ e, l.sweepAt i = some e → state e.node ≠ some .active →
                goesOn (Line.queueSlot { l with due := rest } i l.round (.nonWire .skipped x.now))) ∧
              (l.sweepAt i = none → goesOn { l with due := rest })) ∧
            (∀ e, oldest .routine e → noSweep ∨ l.turn = .routine → takes e) ∧
            (noSweep → noHost .routine →
              (∀ front a back, works → l.probes = front ++ a :: back → state a = some .joining →
                (∀ b ∈ front, state b ≠ some .joining) → selects { l with probes := front ++ back } .probe a 0 [] 0) ∧
              (∀ front a back, works → l.probes = front ++ a :: back → state a = some .silent →
                (∀ b ∈ front, state b ≠ some .silent) → (∀ b ∈ l.probes, state b ≠ some .joining) →
                selects { l with probes := front ++ back } .probe a 0 [] 0) ∧
              (∀ a rest, works → l.probes = a :: rest →
                (∀ b ∈ l.probes, state b ≠ some .joining ∧ state b ≠ some .silent) → goesOn { l with probes := rest }) ∧
              (¬ works ∨ l.probes = [] → m = l))))))

/-! ### What the part does by itself within an event -/

/-- What a line does by itself in an event: the hunt test, the arbiter, the end of a drain, and parking. A pending hunt starts on a
RUNNING line in ACTIVE or LULL, or ends empty at once with no ACTIVE record. A DRAINING line with an empty queue and no current
exchange is QUIET and owes DRAINED. A RUNNING line at a boundary in DOZE_PENDING, with no PACE pending, is PARKED. That the lines come
after the offers of the event have been admitted, that Power Control tests its transition after them, and that both go on while an
admission makes room, is THE MODEL'S CHOICE (log entry 8), also at a boundary under the abandon flag, whose waiting entries are marked
FLUSHED after the event's admissions (log entry 52). -/
def Obligations.LinesDoTheirOwnWork : Prop :=
  (∀ (x : Ctx) (l : Line),
    l.settle x = (((l.activateHunt x).arbitrate x).drainEnd x).park x ∧
    (let starts := l.huntPending = true ∧ l.hunt = none ∧ l.run = .running ∧ (x.power = .active ∨ x.power = .lull)
     (¬ starts → l.activateHunt x = l) ∧
     (starts → RosterOk l.roster →
       ((∃ y ∈ l.roster, y.state = .active) → l.activateHunt x = { l with hunt := some ⟨0, []⟩, huntPending := false }) ∧
       ((∀ y ∈ l.roster, y.state ≠ .active) → l.activateHunt x = { l with
         huntPending := false, hunt := none, owed := { l.owed with huntEmpty := true }
         current := l.current.map fun c => { c with huntLive := false } }))) ∧
    (let ends := l.run = .draining ∧ l.waiting = [] ∧ l.ended = [] ∧ l.current = none
     (¬ ends → l.drainEnd x = l) ∧
     (ends → l.drainEnd x = { l with
       run := .quiet, abandon := false, engine := .off, att := Attempt.clear, settleOwed := false
       wire := ⟨l.wire.space, 0, false⟩, inForce := x.power.target, pace := .none
       owed := { l.owed with drained := true } })) ∧
    (let parks := l.run = .running ∧ x.power = .dozePending ∧ l.engine = .idle ∧ l.current = none ∧ l.pace = .none
     (¬ parks → l.park x = l) ∧ (parks → l.park x = { l with engine := .parked }))) ∧
  ∀ s : State,
    s.workLines = State.transitionStep { s with
      lines := s.lines.mapIdx fun n l => l.settle ⟨n, s.timer.count, s.power.state⟩ } ∧
    (s.part ≠ .running → s.work = s) ∧
    (s.part = .running →
      (s.admitAll.workLines.admitNext = none → s.work = s.admitAll.workLines) ∧
      ∀ t, s.admitAll.workLines.admitNext = some t → s.work = t.work)

/-- The transition in progress ends, and with it the waiting POWER, whose DONE is offered: out of DOZE_PENDING when every line is
PARKED, QUIET or FAULTED, with the part in DOZE and the status block marked for writing; in any other power state when every RUNNING
or DRAINING line has switched to the target. -/
def Obligations.PowerTransitionEnds : Prop :=
  ∀ s : State,
    (s.power.transition = none → s.transitionStep = s) ∧
    ∀ p, s.power.transition = some p →
      let parked := ∀ n, (s.line n).engine = .parked ∨ (s.line n).run = .quiet ∨ (s.line n).run = .faulted
      let switched := ∀ n, (s.line n).inForce = s.power.state.target ∨ (s.line n).run = .quiet ∨ (s.line n).run = .faulted
      let after (q : PowerState) (pending : Bool) (admin : Option AdminHand) : State := { s with
        power := { s.power with state := q, transition := none }
        cu := { s.cu with statusPending := pending }, admin := admin }
      let finishes (q : PowerState) (pending : Bool) :=
        (∀ tag w, s.admin = some (.waiting tag w) → s.transitionStep = after q pending
          (some (.offered ⟨14, none, tag, none, .done .none, s.timer.count⟩))) ∧
        ((∀ tag w, s.admin ≠ some (.waiting tag w)) → s.transitionStep = after q pending s.admin)
      (s.power.state = .dozePending → (parked → finishes .doze true) ∧ (¬ parked → s.transitionStep = s)) ∧
      (s.power.state ≠ .dozePending →
        (switched → finishes s.power.state s.cu.statusPending) ∧ (¬ switched → s.transitionStep = s))

/-- A line offers the first it holds of: the record in its hold slot, the ended entry marked earliest, an ALERT and then a
NODE_EVENT for the lowest address that owes one, and its owed line events in their order. While a place of the holding queue is
free, the first producer in rotation that offers is admitted, and its offer is taken from it. That admission is repeated until
no place is free or nothing is offered. -/
def Obligations.OffersAreAdmittedInRotation : Prop :=
  (∀ (x : Ctx) (l : Line),
    (∀ r, l.holdSlot = some r → l.offer x = some (.exchange r, { l with holdSlot := none })) ∧
    (l.holdSlot = none →
      (∀ e rest, l.ended = e :: rest →
        let o : ExOutcome := match e.mark with | .cancelled => .cancelled | .flushed => .flushed | .lineFault => .lineFault
        l.offer x = some (.exchange ⟨x.n, o, .none, e.entry.tag, e.entry.node, 0, none, e.finish⟩, { l with ended := rest })) ∧
      (l.ended = [] → RosterOk l.roster →
        let alerts (y : Node) := y ∈ l.roster ∧ y.alertOwed = true
        let reports (y : Node) := y ∈ l.roster ∧ y.reportOwed = true
        (∀ a, alerts a → (∀ y, alerts y → a.addr ≤ y.addr) → l.offer x = some (.alert x.n a.addr x.now, { l with
          roster := l.roster.map fun y => if y.addr = a.addr then { y with alertOwed := false } else y })) ∧
        ((∀ y, ¬ alerts y) →
          (∀ a, reports a → (∀ y, reports y → a.addr ≤ y.addr) → l.offer x = some (.nodeEvent x.n a x.now, { l with
            roster := l.roster.map fun y => if y.addr = a.addr then { y with reportOwed := false } else y })) ∧
          ((∀ y, ¬ reports y) →
            (∀ e, l.owed.owes e = true → (∀ d, l.owed.owes d = true → e.code ≤ d.code) →
              ∃ o : Owed, (∀ d, o.owes d = true ↔ l.owed.owes d = true ∧ d ≠ e) ∧
                l.offer x = some (.lineEvent x.n e x.now, { l with owed := o })) ∧
            ((∀ e, l.owed.owes e = false) → l.offer x = none)))))) ∧
  ∀ s : State,
    (∀ r, s.admin = some (.offered r) → s.offerOf .admin = some (.admin r, { s with admin := none })) ∧
    ((∀ r, s.admin ≠ some (.offered r)) → s.offerOf .admin = none) ∧
    (∀ n, s.offerOf (.line n) =
      ((s.line n).offer ⟨n, s.timer.count, s.power.state⟩).map fun o => (o.1, s.setLine n o.2)) ∧
    (s.part ≠ .running ∨ 16 ≤ s.cu.holding.length ∨ (∀ p, s.offerOf p = none) → s.admitNext = none) ∧
    (∀ p c t, s.part = .running → s.cu.holding.length < 16 → s.offerOf p = some (c, t) →
      (∀ q, s.offerOf q ≠ none →
        turnsBefore 5 s.cu.pointer.number p.number ≤ turnsBefore 5 s.cu.pointer.number q.number) →
      s.admitNext = some { t with cu := { s.cu with holding := s.cu.holding ++ [c], pointer := p } }) ∧
    (s.admitNext = none → s.admitAll = s) ∧ (∀ t, s.admitNext = some t → s.admitAll = t.admitAll)

/-- A ring is eligible when the part is RUNNING, the ring OPEN and not empty, and its own condition holds. With no read requested or
in progress, the Fetch Unit visits the first eligible ring in rotation after the one it visited last, and requests the read of the
entry at index taken mod size; otherwise it waits. That it does so after the lines' own work, and the port grants after it, within the
same event, is THE MODEL'S CHOICE (log entry 8). -/
def Obligations.FetchVisitTakesTheNextEligibleRing : Prop :=
  ∀ s : State,
    s.settle = s.work.fetchVisit.grant ∧
    (∀ r, s.eligible r = true ↔
      s.part = .running ∧ (s.ring r).state = .opened ∧ (s.ring r).taken ≠ (s.ring r).posted ∧
      match r with
      | .admin => s.admin = none
      | .line n => (s.line n).run = .running ∧ (s.line n).waiting.length + (s.line n).ended.length < 16 ∧
        (s.power.state = .active ∨ s.power.state = .lull)) ∧
    (let busy := s.fetch.request ≠ none ∨ (∃ a, s.port.transfer = some (.setupRead a)) ∨
       ∃ r a, s.port.transfer = some (.entryRead r a)
     (busy ∨ (∀ r, s.eligible r = false) → s.fetchVisit = s) ∧
     ∀ r u, ¬ busy → s.setup = some u → s.eligible r = true →
       (∀ q, s.eligible q = true →
         turnsBefore 5 s.fetch.pointer.number r.number ≤ turnsBefore 5 s.fetch.pointer.number q.number) →
       let base := match r with | .admin => u.adminBase | .line n => u.lineBases.get n
       let size := match r with | .admin => u.adminSize | .line n => u.lineSizes.get n
       s.fetchVisit = { s with
         fetch := ⟨some (.entry r, base + BitVec.ofNat 64 (64 * ((s.ring r).taken.toNat % size))), r⟩ })

/-- What each requester of the Memory Port asks for, with the address and the bytes of a write; and the grant: with no transfer in
progress and no soft reset waiting, a LOADING or RUNNING part serves the first asking requester in rotation after the one served
last. The Completion Unit writes the status block if it is marked for writing and its previous write was a record or no record may be
written, and otherwise the record at the head of the holding queue. -/
def Obligations.PortGrantsTheNextRequester : Prop :=
  ∀ s : State,
    (∀ q, s.fetch.request = q → s.wanted .fetch =
      match q with
      | some (.setup, a) => some (.setupRead a)
      | some (.entry r, a) => some (.entryRead r a)
      | none => none) ∧
    (s.part ≠ .running → s.wanted .completion = none ∧ ∀ n, s.wanted (.writer n) = none) ∧
    (∀ u, s.part = .running → s.setup = some u →
      let room := (s.cu.produced - s.cu.consumed).toNat < u.completionSize
      let mayWrite := s.cu.holding ≠ [] ∧ room
      let record := u.completionBase + BitVec.ofNat 64 (64 * (s.cu.produced.toNat % u.completionSize))
      (s.cu.statusPending = true → s.cu.prevRecord = true ∨ ¬ mayWrite →
        s.wanted .completion = some (.statusWrite u.statusAddr s.statusBytes)) ∧
      (∀ c rest, s.cu.statusPending = false ∨ s.cu.prevRecord = false → s.cu.holding = c :: rest → room →
        s.wanted .completion = some (.recordWrite record c.bytes)) ∧
      (s.cu.statusPending = false → ¬ mayWrite → s.wanted .completion = none)) ∧
    (∀ n, s.part = .running →
      ((s.line n).writer.busy = none → s.wanted (.writer n) = none) ∧
      ∀ w, ((s.line n).writer.busy = some (w, .body) → s.wanted (.writer n) = some (.slotBody n (w.addr + 4) w.body.bytes)) ∧
        ((s.line n).writer.busy = some (w, .stamp) →
          s.wanted (.writer n) = some (.slotStamp n w.addr (leBytes 4 w.stamp.toNat)))) ∧
    (let free := s.port.transfer = none ∧ s.softPending = false ∧ (s.part = .loading ∨ s.part = .running)
     (¬ free ∨ (∀ q, s.wanted q = none) → s.grant = s) ∧
     ∀ q x, free → s.wanted q = some x →
       (∀ p, s.wanted p ≠ none →
         turnsBefore 6 s.port.last.number q.number ≤ turnsBefore 6 s.port.last.number p.number) →
       s.grant = { s with
         port := ⟨some x, q⟩
         fetch := if q = .fetch then { s.fetch with request := none } else s.fetch
         cu := match x with
           | .recordWrite _ _ => { s.cu with prevRecord := true }
           | .statusWrite _ _ => { s.cu with statusPending := false, prevRecord := false }
           | _ => s.cu })

/-- The bytes of every record that the part writes. A completion record of each kind, 64 bytes: its used fields at their places, an
absent one as its absent code, and every other byte 0; the bodies of an ADMIN record; the status block; and the body of a slot, from
byte 4 of the slot. THE MODEL'S CHOICE: an ADMIN record whose command names no line or no node gives 0xFF there (log entry 20), the four
bytes of a last-heard time that is absent are 0 (log entry 41), bytes 20 and 21 of an ADMIN record that is no BAD_PROFILE refusal are 0
(log entry 42), and so are the bytes that no layout names and those behind an EXCHANGE record's shorter payload (log entry 43); LINE
QUERY's profile in force is 0 BRISK and 1 LULL, and its abandon and profiles-valid bytes are 1 for set (log entry 46). -/
def Obligations.WrittenRecords : Prop :=
  let zero (b : List Byte) (i j : Nat) := ∀ k, i ≤ k → k < j → recordByte b k = 0
  let flag (x : Bool) : Nat := if x then 1 else 0
  let heard (b : List Byte) (t : Option Word) := recordField b 28 4 = (t.map (·.toNat)).getD 0 ∧ recordField b 32 1 = flag t.isSome
  let node (b : List Byte) (x : Node) := recordField b 24 1 = x.addr % 256 ∧ recordField b 25 1 = x.state.code ∧
    recordField b 26 1 = x.failures % 256 ∧ recordField b 27 1 = flag x.lastToggle ∧ heard b x.lastHeard
  let payload (b : List Byte) (i : Nat) (r : Option Reply) :=
    ∀ k, k < 32 → recordByte b (i + k) = ((r.map (·.payload)).getD []).getD k 0
  let head (b : List Byte) (kind line outcome detail tag addr finish : Nat) := b.length = 64 ∧ recordField b 0 1 = kind ∧
    recordField b 1 1 = line ∧ recordField b 2 1 = outcome ∧ recordField b 3 1 = detail ∧ recordField b 4 2 = tag ∧
    recordField b 6 1 = addr ∧ recordField b 16 4 = finish ∧ zero b 22 24
  ([ExOutcome.done, .nodeBusy, .nodeReject, .noReply, .collided, .badReply, .cancelled, .nodeBarred, .nodeUnknown,
      .nodeJoining, .nodeSilent, .flushed, .lineFault, .refused].map (·.code) = List.range 14 ∧
    [NodeState.joining, .active, .silent, .barred].map (·.code) = [0, 1, 2, 3] ∧
    [LineEvent.faulted, .drained, .sweepWriteFault, .sweepOverrun, .huntEmpty, .alertPulseInDoze].map (·.code) =
      [0, 1, 2, 3, 4, 5] ∧
    [ExDetail.none, .wentSilent, .badAddress, .badCode, .badLength, .badRetry, .badPriority].map (·.code) =
      [0, 1, 16, 17, 18, 19, 20] ∧
    (∀ s f, [Reason.wrongState, .wrongPowerState, .badField, .badProfile s f, .exists, .unknownNode, .rosterFull, .inUse,
      .noImage, .busy].map (·.code) = [32, 33, 34, 35, 36, 37, 38, 39, 40, 41]) ∧
    [Verdict.good, .goodBusy, .goodReject, .goodAlert, .timeout, .broken, .charError, .crcError, .lengthError, .wrongNode,
      .stale, .badStatus, .collision, .sent].map (·.code) = [1, 2, 3, 4, 5, 6, 7, 8, 9, 10, 11, 12, 13, 14] ∧
    [ReplyStatus.ok, .busy, .reject, .alert].map (·.code) = [0, 1, 2, 3] ∧
    [RunState.quiet, .running, .draining, .faulted].map (·.code) = [0, 1, 2, 3] ∧
    [Engine.off, .idle, .lead, .sending, .awaiting, .receiving, .parked].map (·.code) = [0, 1, 2, 3, 4, 5, 6] ∧
    [ProfileSel.brisk, .lull].map (·.code) = [0, 1] ∧ [Pace.none, .start, .switch].map (·.code) = [0, 1, 2] ∧
    [PartState.disabled, .loading, .running, .faulted].map (·.code) = [0, 1, 2, 3] ∧
    [PowerState.active, .lull, .dozePending, .doze].map (·.code) = [0, 1, 2, 3] ∧
    [RingState.opened, .haltedBadPost, .haltedReadError].map (·.code) = [1, 2, 3] ∧
    [SlotOutcome.good, .noReply, .badReply, .collided, .skipped, .missed].map (·.code) = [0, 1, 2, 3, 4, 5]) ∧
  (∀ r : ExchangeRec,
    let b := (Completion.exchange r).bytes
    let reply := r.last.bind (·.reply)
    head b 1 r.line.val r.outcome.code r.detail.code r.tag.toNat (r.node % 256) r.finish.toNat ∧
    recordField b 7 1 = r.attempts % 256 ∧ recordField b 8 1 = (r.last.map fun a => a.verdict.code).getD 0 ∧
    recordField b 9 1 = (reply.map fun p => p.status.code).getD 0xFF ∧
    recordField b 10 1 = (reply.map fun p => p.payload.length % 256).getD 0xFF ∧ zero b 11 12 ∧
    recordField b 12 4 = ((r.last.bind (·.latency)).map (·.toNat)).getD 0xFFFFFFFF ∧ zero b 20 22 ∧
    payload b 24 reply ∧ zero b 56 64) ∧
  (∀ r : AdminRec,
    let b := (Completion.admin r).bytes
    let is (outcome detail : Nat) := head b 2 (r.line.getD 0xFF).toNat outcome detail r.tag.toNat (r.node.getD 0xFF).toNat
      r.finish.toNat ∧ zero b 7 11 ∧ recordByte b 11 = r.command ∧ zero b 12 16
    (∀ p, r.outcome = .refused p → is 1 p.code ∧ zero b 24 64 ∧
      (∀ sel f, p = .badProfile sel f → recordField b 20 1 = sel.code ∧ recordField b 21 1 = f % 256) ∧
      ((∀ sel f, p ≠ .badProfile sel f) → zero b 20 22)) ∧
    (∀ d, r.outcome = .done d → is 0 0 ∧ zero b 20 22 ∧
      (d = .none → zero b 24 64) ∧
      (∀ x, d = .node x → node b x ∧ recordField b 33 1 = x.joinProbes % 256 ∧ recordField b 34 2 = x.roundsSilent % 65536 ∧
        recordField b 36 1 = flag x.alertReported + 2 * flag x.alertOwed + 4 * flag x.reportOwed ∧ zero b 37 64) ∧
      (∀ t k, d = .cancel t k → recordField b 24 2 = t.toNat ∧ recordField b 26 1 = k % 256 ∧ zero b 27 64) ∧
      (∀ q, d = .line q → recordField b 24 1 = q.run.code ∧ recordField b 25 1 = flag q.abandon ∧
        recordField b 26 1 = q.engine.code ∧ recordField b 27 1 = flag q.profilesValid ∧ recordField b 28 1 = q.inForce.code ∧
        recordField b 29 1 = q.pace.code ∧ recordField b 30 1 = q.urgentDepth % 256 ∧ recordField b 31 1 = q.routineDepth % 256 ∧
        recordField b 32 4 = q.round.toNat ∧ recordField b 36 1 = q.rosterSize % 256 ∧
        recordField b 37 1 = flag q.huntPending + 2 * flag q.huntActive + 4 * flag q.held + 8 * flag q.sweepHalted ∧
        zero b 38 40 ∧ recordField b 40 4 = q.stats.attempts.toNat ∧ recordField b 44 4 = q.stats.failed.toNat ∧
        recordField b 48 4 = q.stats.collisions.toNat ∧ recordField b 52 4 = q.stats.overruns.toNat ∧
        recordField b 56 4 = q.stats.alertPulses.toNat ∧ zero b 60 64))) ∧
  (∀ (n : LineId) (x : Node) (t : Word),
    let b := (Completion.nodeEvent n x t).bytes
    head b 3 n.val x.state.code 0 0 (x.addr % 256) t.toNat ∧ zero b 7 16 ∧ zero b 20 24 ∧ node b x ∧ zero b 33 64) ∧
  (∀ (n : LineId) (e : LineEvent) (t : Word),
    let b := (Completion.lineEvent n e t).bytes
    head b 4 n.val e.code 0 0 0 t.toNat ∧ zero b 7 16 ∧ zero b 20 64) ∧
  (∀ (n : LineId) (a : Nat) (t : Word),
    let b := (Completion.alert n a t).bytes
    head b 5 n.val 0 0 0 (a % 256) t.toNat ∧ zero b 7 16 ∧ zero b 20 64) ∧
  (∀ s : State,
    let b := s.statusBytes
    b.length = 64 ∧ recordField b 0 2 = s.adminRing.taken.toNat ∧
    (∀ n : LineId, recordField b (2 + 2 * n.val) 2 = (s.lineRings.get n).taken.toNat ∧
      recordField b (15 + n.val) 1 = (s.lineRings.get n).state.code) ∧
    recordField b 10 2 = s.cu.produced.toNat ∧ recordField b 12 1 = s.part.code ∧ recordField b 13 1 = s.power.state.code ∧
    recordField b 14 1 = s.adminRing.state.code ∧ zero b 19 64) ∧
  (∀ (o : SlotOutcome) (r : Option Reply) (latency : Option Word) (t : Word),
    let b := (SlotBody.wire o r latency t).bytes
    let c := (SlotBody.nonWire o t).bytes
    b.length = 60 ∧ c.length = 12 ∧ recordField b 0 1 = o.code ∧ recordField b 1 1 = (r.map fun p => p.status.code).getD 0xFF ∧
    recordField b 2 1 = (r.map fun p => p.payload.length % 256).getD 0 ∧ zero b 3 4 ∧
    recordField b 4 4 = (latency.map (·.toNat)).getD 0xFFFFFFFF ∧ recordField b 8 4 = t.toNat ∧ payload b 12 r ∧ zero b 44 60 ∧
    recordField c 0 1 = o.code ∧ recordField c 1 1 = 0xFF ∧ recordField c 2 1 = 0 ∧ zero c 3 4 ∧
    recordField c 4 4 = 0xFFFFFFFF ∧ recordField c 8 4 = t.toNat)

/-! ### The whole part -/

/-- A sound FAULTED part does nothing more until a reset. Only a command that resets the part takes it to DISABLED: a power-on, hard or
soft reset, a CONTROL write that sets SOFT_RESET, or, while a soft reset waits, the end of the transfer. Otherwise every command leaves all
of the part but the register window's own values, the level of the pins, and a transfer that ends. THE MODEL'S CHOICE: a row that
reports the end of a transfer is where the soft reset that waits takes effect (log entry 26), and the RESET pin driven low only holds the
part (log entry 14). -/
def Obligations.FaultedIsLeftByResetOnly : Prop :=
  ∀ (c : Instr) (s t : State), s.Ok → s.part = .faulted → exec c s = .next t →
    ((c = .powerOnReset ∨ c = .hardReset ∨ (∃ v, c = .softReset v) ∨
        (∃ v : Word, v.getLsbD 1 = true ∧ (c = .enable v ∨ c = .registerWrite 1 true v)) ∨
        s.softPending = true ∧ (c = .softResetTakesEffect ∨ endsTransfer c = true)) ∧
      t.part = .disabled ∧ t.faultReason = .none ∧ t.causes = ⟨false, false, false, false⟩) ∨
    ∃ (e q : Causes) (a : Addr) (soft low : Bool) (tr : Option Transfer) (lines : Quad Line),
      t = { s with
        enables := e, causes := q, setupAddr := a, softPending := soft, resetLow := low
        port := { s.port with transfer := tr }, lines := lines } ∧
      (tr = s.port.transfer ∨ tr = none) ∧
      ∀ n, { lines.get n with wire := (s.line n).wire } = s.line n

/-- After every step of a part whose RESET pin is high nothing waits that could go on (State.Settled). -/
def Obligations.NothingWaitsThatCouldGoOn : Prop :=
  ∀ s t : State, (s.resetLow = false → s.Settled) → step s = .next t → t.resetLow = false → t.Settled

/-- Every step keeps a sound part sound (State.Ok): the engines agree with the exchanges and run states, no queue holds more
than 16 entries, the rosters are ascending, within 32 records and within the fields' ranges, every set sweep entry names a node
of the roster, the holding queue holds at most 16 records, and no open ring holds more entries than its size. -/
def Obligations.StepKeepsThePartSound : Prop :=
  ∀ s t : State, s.Ok → step s = .next t → t.Ok

/-- The state after power-on reset is sound and settled. -/
def Obligations.ResetIsSoundAndSettled : Prop := State.reset.Ok ∧ State.reset.Settled

end
end

