-- ==== Sys2Proof/Laws/State.lean ====
section
/-! SUPPORT. What the named updates of the part leave alone, one lemma for each field, and how they act on the field they change. -/

namespace Sys2Proof.Machine

/-! ### State.setLine -/

@[simp] theorem State.setLine_part (s : State) (n : LineId) (l : Line) :
    (s.setLine n l).part = s.part := rfl
@[simp] theorem State.setLine_faultReason (s : State) (n : LineId) (l : Line) :
    (s.setLine n l).faultReason = s.faultReason := rfl
@[simp] theorem State.setLine_setupError (s : State) (n : LineId) (l : Line) :
    (s.setLine n l).setupError = s.setupError := rfl
@[simp] theorem State.setLine_resetCause (s : State) (n : LineId) (l : Line) :
    (s.setLine n l).resetCause = s.resetCause := rfl
@[simp] theorem State.setLine_resetLow (s : State) (n : LineId) (l : Line) :
    (s.setLine n l).resetLow = s.resetLow := rfl
@[simp] theorem State.setLine_softPending (s : State) (n : LineId) (l : Line) :
    (s.setLine n l).softPending = s.softPending := rfl
@[simp] theorem State.setLine_setupAddr (s : State) (n : LineId) (l : Line) :
    (s.setLine n l).setupAddr = s.setupAddr := rfl
@[simp] theorem State.setLine_enables (s : State) (n : LineId) (l : Line) :
    (s.setLine n l).enables = s.enables := rfl
@[simp] theorem State.setLine_causes (s : State) (n : LineId) (l : Line) :
    (s.setLine n l).causes = s.causes := rfl
@[simp] theorem State.setLine_setup (s : State) (n : LineId) (l : Line) :
    (s.setLine n l).setup = s.setup := rfl
@[simp] theorem State.setLine_timer (s : State) (n : LineId) (l : Line) :
    (s.setLine n l).timer = s.timer := rfl
@[simp] theorem State.setLine_power (s : State) (n : LineId) (l : Line) :
    (s.setLine n l).power = s.power := rfl
@[simp] theorem State.setLine_adminRing (s : State) (n : LineId) (l : Line) :
    (s.setLine n l).adminRing = s.adminRing := rfl
@[simp] theorem State.setLine_lineRings (s : State) (n : LineId) (l : Line) :
    (s.setLine n l).lineRings = s.lineRings := rfl
@[simp] theorem State.setLine_fetch (s : State) (n : LineId) (l : Line) :
    (s.setLine n l).fetch = s.fetch := rfl
@[simp] theorem State.setLine_admin (s : State) (n : LineId) (l : Line) :
    (s.setLine n l).admin = s.admin := rfl
@[simp] theorem State.setLine_cu (s : State) (n : LineId) (l : Line) :
    (s.setLine n l).cu = s.cu := rfl
@[simp] theorem State.setLine_port (s : State) (n : LineId) (l : Line) :
    (s.setLine n l).port = s.port := rfl
@[simp] theorem State.setLine_pending (s : State) (n : LineId) (l : Line) :
    (s.setLine n l).pending = s.pending := rfl

/-! ### State.setRing -/

@[simp] theorem State.setRing_part (s : State) (r : RingId) (x : Ring) :
    (s.setRing r x).part = s.part := by cases r <;> rfl
@[simp] theorem State.setRing_faultReason (s : State) (r : RingId) (x : Ring) :
    (s.setRing r x).faultReason = s.faultReason := by cases r <;> rfl
@[simp] theorem State.setRing_setupError (s : State) (r : RingId) (x : Ring) :
    (s.setRing r x).setupError = s.setupError := by cases r <;> rfl
@[simp] theorem State.setRing_resetCause (s : State) (r : RingId) (x : Ring) :
    (s.setRing r x).resetCause = s.resetCause := by cases r <;> rfl
@[simp] theorem State.setRing_resetLow (s : State) (r : RingId) (x : Ring) :
    (s.setRing r x).resetLow = s.resetLow := by cases r <;> rfl
@[simp] theorem State.setRing_softPending (s : State) (r : RingId) (x : Ring) :
    (s.setRing r x).softPending = s.softPending := by cases r <;> rfl
@[simp] theorem State.setRing_setupAddr (s : State) (r : RingId) (x : Ring) :
    (s.setRing r x).setupAddr = s.setupAddr := by cases r <;> rfl
@[simp] theorem State.setRing_enables (s : State) (r : RingId) (x : Ring) :
    (s.setRing r x).enables = s.enables := by cases r <;> rfl
@[simp] theorem State.setRing_causes (s : State) (r : RingId) (x : Ring) :
    (s.setRing r x).causes = s.causes := by cases r <;> rfl
@[simp] theorem State.setRing_setup (s : State) (r : RingId) (x : Ring) :
    (s.setRing r x).setup = s.setup := by cases r <;> rfl
@[simp] theorem State.setRing_timer (s : State) (r : RingId) (x : Ring) :
    (s.setRing r x).timer = s.timer := by cases r <;> rfl
@[simp] theorem State.setRing_power (s : State) (r : RingId) (x : Ring) :
    (s.setRing r x).power = s.power := by cases r <;> rfl
@[simp] theorem State.setRing_fetch (s : State) (r : RingId) (x : Ring) :
    (s.setRing r x).fetch = s.fetch := by cases r <;> rfl
@[simp] theorem State.setRing_admin (s : State) (r : RingId) (x : Ring) :
    (s.setRing r x).admin = s.admin := by cases r <;> rfl
@[simp] theorem State.setRing_cu (s : State) (r : RingId) (x : Ring) :
    (s.setRing r x).cu = s.cu := by cases r <;> rfl
@[simp] theorem State.setRing_port (s : State) (r : RingId) (x : Ring) :
    (s.setRing r x).port = s.port := by cases r <;> rfl
@[simp] theorem State.setRing_lines (s : State) (r : RingId) (x : Ring) :
    (s.setRing r x).lines = s.lines := by cases r <;> rfl
@[simp] theorem State.setRing_pending (s : State) (r : RingId) (x : Ring) :
    (s.setRing r x).pending = s.pending := by cases r <;> rfl

/-! ### State.onLine -/

@[simp] theorem State.onLine_part (s : State) (n : LineId) (f : Ctx → Line → Line) :
    (s.onLine n f).part = s.part := rfl
@[simp] theorem State.onLine_faultReason (s : State) (n : LineId) (f : Ctx → Line → Line) :
    (s.onLine n f).faultReason = s.faultReason := rfl
@[simp] theorem State.onLine_setupError (s : State) (n : LineId) (f : Ctx → Line → Line) :
    (s.onLine n f).setupError = s.setupError := rfl
@[simp] theorem State.onLine_resetCause (s : State) (n : LineId) (f : Ctx → Line → Line) :
    (s.onLine n f).resetCause = s.resetCause := rfl
@[simp] theorem State.onLine_resetLow (s : State) (n : LineId) (f : Ctx → Line → Line) :
    (s.onLine n f).resetLow = s.resetLow := rfl
@[simp] theorem State.onLine_softPending (s : State) (n : LineId) (f : Ctx → Line → Line) :
    (s.onLine n f).softPending = s.softPending := rfl
@[simp] theorem State.onLine_setupAddr (s : State) (n : LineId) (f : Ctx → Line → Line) :
    (s.onLine n f).setupAddr = s.setupAddr := rfl
@[simp] theorem State.onLine_enables (s : State) (n : LineId) (f : Ctx → Line → Line) :
    (s.onLine n f).enables = s.enables := rfl
@[simp] theorem State.onLine_causes (s : State) (n : LineId) (f : Ctx → Line → Line) :
    (s.onLine n f).causes = s.causes := rfl
@[simp] theorem State.onLine_setup (s : State) (n : LineId) (f : Ctx → Line → Line) :
    (s.onLine n f).setup = s.setup := rfl
@[simp] theorem State.onLine_timer (s : State) (n : LineId) (f : Ctx → Line → Line) :
    (s.onLine n f).timer = s.timer := rfl
@[simp] theorem State.onLine_power (s : State) (n : LineId) (f : Ctx → Line → Line) :
    (s.onLine n f).power = s.power := rfl
@[simp] theorem State.onLine_adminRing (s : State) (n : LineId) (f : Ctx → Line → Line) :
    (s.onLine n f).adminRing = s.adminRing := rfl
@[simp] theorem State.onLine_lineRings (s : State) (n : LineId) (f : Ctx → Line → Line) :
    (s.onLine n f).lineRings = s.lineRings := rfl
@[simp] theorem State.onLine_fetch (s : State) (n : LineId) (f : Ctx → Line → Line) :
    (s.onLine n f).fetch = s.fetch := rfl
@[simp] theorem State.onLine_admin (s : State) (n : LineId) (f : Ctx → Line → Line) :
    (s.onLine n f).admin = s.admin := rfl
@[simp] theorem State.onLine_cu (s : State) (n : LineId) (f : Ctx → Line → Line) :
    (s.onLine n f).cu = s.cu := rfl
@[simp] theorem State.onLine_port (s : State) (n : LineId) (f : Ctx → Line → Line) :
    (s.onLine n f).port = s.port := rfl
@[simp] theorem State.onLine_pending (s : State) (n : LineId) (f : Ctx → Line → Line) :
    (s.onLine n f).pending = s.pending := rfl

/-! ### State.onLines -/

@[simp] theorem State.onLines_part (s : State) (f : Ctx → Line → Line) :
    (s.onLines f).part = s.part := rfl
@[simp] theorem State.onLines_faultReason (s : State) (f : Ctx → Line → Line) :
    (s.onLines f).faultReason = s.faultReason := rfl
@[simp] theorem State.onLines_setupError (s : State) (f : Ctx → Line → Line) :
    (s.onLines f).setupError = s.setupError := rfl
@[simp] theorem State.onLines_resetCause (s : State) (f : Ctx → Line → Line) :
    (s.onLines f).resetCause = s.resetCause := rfl
@[simp] theorem State.onLines_resetLow (s : State) (f : Ctx → Line → Line) :
    (s.onLines f).resetLow = s.resetLow := rfl
@[simp] theorem State.onLines_softPending (s : State) (f : Ctx → Line → Line) :
    (s.onLines f).softPending = s.softPending := rfl
@[simp] theorem State.onLines_setupAddr (s : State) (f : Ctx → Line → Line) :
    (s.onLines f).setupAddr = s.setupAddr := rfl
@[simp] theorem State.onLines_enables (s : State) (f : Ctx → Line → Line) :
    (s.onLines f).enables = s.enables := rfl
@[simp] theorem State.onLines_causes (s : State) (f : Ctx → Line → Line) :
    (s.onLines f).causes = s.causes := rfl
@[simp] theorem State.onLines_setup (s : State) (f : Ctx → Line → Line) :
    (s.onLines f).setup = s.setup := rfl
@[simp] theorem State.onLines_timer (s : State) (f : Ctx → Line → Line) :
    (s.onLines f).timer = s.timer := rfl
@[simp] theorem State.onLines_power (s : State) (f : Ctx → Line → Line) :
    (s.onLines f).power = s.power := rfl
@[simp] theorem State.onLines_adminRing (s : State) (f : Ctx → Line → Line) :
    (s.onLines f).adminRing = s.adminRing := rfl
@[simp] theorem State.onLines_lineRings (s : State) (f : Ctx → Line → Line) :
    (s.onLines f).lineRings = s.lineRings := rfl
@[simp] theorem State.onLines_fetch (s : State) (f : Ctx → Line → Line) :
    (s.onLines f).fetch = s.fetch := rfl
@[simp] theorem State.onLines_admin (s : State) (f : Ctx → Line → Line) :
    (s.onLines f).admin = s.admin := rfl
@[simp] theorem State.onLines_cu (s : State) (f : Ctx → Line → Line) :
    (s.onLines f).cu = s.cu := rfl
@[simp] theorem State.onLines_port (s : State) (f : Ctx → Line → Line) :
    (s.onLines f).port = s.port := rfl
@[simp] theorem State.onLines_pending (s : State) (f : Ctx → Line → Line) :
    (s.onLines f).pending = s.pending := rfl

/-! ### State.elapse -/

@[simp] theorem State.elapse_part (k : Nat) (s : State) :
    (s.elapse k).part = s.part := rfl
@[simp] theorem State.elapse_faultReason (k : Nat) (s : State) :
    (s.elapse k).faultReason = s.faultReason := rfl
@[simp] theorem State.elapse_setupError (k : Nat) (s : State) :
    (s.elapse k).setupError = s.setupError := rfl
@[simp] theorem State.elapse_resetCause (k : Nat) (s : State) :
    (s.elapse k).resetCause = s.resetCause := rfl
@[simp] theorem State.elapse_resetLow (k : Nat) (s : State) :
    (s.elapse k).resetLow = s.resetLow := rfl
@[simp] theorem State.elapse_softPending (k : Nat) (s : State) :
    (s.elapse k).softPending = s.softPending := rfl
@[simp] theorem State.elapse_setupAddr (k : Nat) (s : State) :
    (s.elapse k).setupAddr = s.setupAddr := rfl
@[simp] theorem State.elapse_enables (k : Nat) (s : State) :
    (s.elapse k).enables = s.enables := rfl
@[simp] theorem State.elapse_causes (k : Nat) (s : State) :
    (s.elapse k).causes = s.causes := rfl
@[simp] theorem State.elapse_setup (k : Nat) (s : State) :
    (s.elapse k).setup = s.setup := rfl
@[simp] theorem State.elapse_power (k : Nat) (s : State) :
    (s.elapse k).power = s.power := rfl
@[simp] theorem State.elapse_adminRing (k : Nat) (s : State) :
    (s.elapse k).adminRing = s.adminRing := rfl
@[simp] theorem State.elapse_lineRings (k : Nat) (s : State) :
    (s.elapse k).lineRings = s.lineRings := rfl
@[simp] theorem State.elapse_fetch (k : Nat) (s : State) :
    (s.elapse k).fetch = s.fetch := rfl
@[simp] theorem State.elapse_admin (k : Nat) (s : State) :
    (s.elapse k).admin = s.admin := rfl
@[simp] theorem State.elapse_port (k : Nat) (s : State) :
    (s.elapse k).port = s.port := rfl
@[simp] theorem State.elapse_pending (k : Nat) (s : State) :
    (s.elapse k).pending = s.pending := rfl

/-! ### State.hold -/

@[simp] theorem State.hold_part (s : State) (c : Completion) :
    (s.hold c).part = s.part := rfl
@[simp] theorem State.hold_faultReason (s : State) (c : Completion) :
    (s.hold c).faultReason = s.faultReason := rfl
@[simp] theorem State.hold_setupError (s : State) (c : Completion) :
    (s.hold c).setupError = s.setupError := rfl
@[simp] theorem State.hold_resetCause (s : State) (c : Completion) :
    (s.hold c).resetCause = s.resetCause := rfl
@[simp] theorem State.hold_resetLow (s : State) (c : Completion) :
    (s.hold c).resetLow = s.resetLow := rfl
@[simp] theorem State.hold_softPending (s : State) (c : Completion) :
    (s.hold c).softPending = s.softPending := rfl
@[simp] theorem State.hold_setupAddr (s : State) (c : Completion) :
    (s.hold c).setupAddr = s.setupAddr := rfl
@[simp] theorem State.hold_enables (s : State) (c : Completion) :
    (s.hold c).enables = s.enables := rfl
@[simp] theorem State.hold_causes (s : State) (c : Completion) :
    (s.hold c).causes = s.causes := rfl
@[simp] theorem State.hold_setup (s : State) (c : Completion) :
    (s.hold c).setup = s.setup := rfl
@[simp] theorem State.hold_timer (s : State) (c : Completion) :
    (s.hold c).timer = s.timer := rfl
@[simp] theorem State.hold_power (s : State) (c : Completion) :
    (s.hold c).power = s.power := rfl
@[simp] theorem State.hold_adminRing (s : State) (c : Completion) :
    (s.hold c).adminRing = s.adminRing := rfl
@[simp] theorem State.hold_lineRings (s : State) (c : Completion) :
    (s.hold c).lineRings = s.lineRings := rfl
@[simp] theorem State.hold_fetch (s : State) (c : Completion) :
    (s.hold c).fetch = s.fetch := rfl
@[simp] theorem State.hold_admin (s : State) (c : Completion) :
    (s.hold c).admin = s.admin := rfl
@[simp] theorem State.hold_port (s : State) (c : Completion) :
    (s.hold c).port = s.port := rfl
@[simp] theorem State.hold_lines (s : State) (c : Completion) :
    (s.hold c).lines = s.lines := rfl
@[simp] theorem State.hold_pending (s : State) (c : Completion) :
    (s.hold c).pending = s.pending := rfl

/-! ### State.pointTo -/

@[simp] theorem State.pointTo_part (s : State) (p : Producer) :
    (s.pointTo p).part = s.part := rfl
@[simp] theorem State.pointTo_faultReason (s : State) (p : Producer) :
    (s.pointTo p).faultReason = s.faultReason := rfl
@[simp] theorem State.pointTo_setupError (s : State) (p : Producer) :
    (s.pointTo p).setupError = s.setupError := rfl
@[simp] theorem State.pointTo_resetCause (s : State) (p : Producer) :
    (s.pointTo p).resetCause = s.resetCause := rfl
@[simp] theorem State.pointTo_resetLow (s : State) (p : Producer) :
    (s.pointTo p).resetLow = s.resetLow := rfl
@[simp] theorem State.pointTo_softPending (s : State) (p : Producer) :
    (s.pointTo p).softPending = s.softPending := rfl
@[simp] theorem State.pointTo_setupAddr (s : State) (p : Producer) :
    (s.pointTo p).setupAddr = s.setupAddr := rfl
@[simp] theorem State.pointTo_enables (s : State) (p : Producer) :
    (s.pointTo p).enables = s.enables := rfl
@[simp] theorem State.pointTo_causes (s : State) (p : Producer) :
    (s.pointTo p).causes = s.causes := rfl
@[simp] theorem State.pointTo_setup (s : State) (p : Producer) :
    (s.pointTo p).setup = s.setup := rfl
@[simp] theorem State.pointTo_timer (s : State) (p : Producer) :
    (s.pointTo p).timer = s.timer := rfl
@[simp] theorem State.pointTo_power (s : State) (p : Producer) :
    (s.pointTo p).power = s.power := rfl
@[simp] theorem State.pointTo_adminRing (s : State) (p : Producer) :
    (s.pointTo p).adminRing = s.adminRing := rfl
@[simp] theorem State.pointTo_lineRings (s : State) (p : Producer) :
    (s.pointTo p).lineRings = s.lineRings := rfl
@[simp] theorem State.pointTo_fetch (s : State) (p : Producer) :
    (s.pointTo p).fetch = s.fetch := rfl
@[simp] theorem State.pointTo_admin (s : State) (p : Producer) :
    (s.pointTo p).admin = s.admin := rfl
@[simp] theorem State.pointTo_port (s : State) (p : Producer) :
    (s.pointTo p).port = s.port := rfl
@[simp] theorem State.pointTo_lines (s : State) (p : Producer) :
    (s.pointTo p).lines = s.lines := rfl
@[simp] theorem State.pointTo_pending (s : State) (p : Producer) :
    (s.pointTo p).pending = s.pending := rfl

/-! ### State.withPending -/

@[simp] theorem State.withPending_part (s : State) (q : List Instr) :
    (s.withPending q).part = s.part := rfl
@[simp] theorem State.withPending_faultReason (s : State) (q : List Instr) :
    (s.withPending q).faultReason = s.faultReason := rfl
@[simp] theorem State.withPending_setupError (s : State) (q : List Instr) :
    (s.withPending q).setupError = s.setupError := rfl
@[simp] theorem State.withPending_resetCause (s : State) (q : List Instr) :
    (s.withPending q).resetCause = s.resetCause := rfl
@[simp] theorem State.withPending_resetLow (s : State) (q : List Instr) :
    (s.withPending q).resetLow = s.resetLow := rfl
@[simp] theorem State.withPending_softPending (s : State) (q : List Instr) :
    (s.withPending q).softPending = s.softPending := rfl
@[simp] theorem State.withPending_setupAddr (s : State) (q : List Instr) :
    (s.withPending q).setupAddr = s.setupAddr := rfl
@[simp] theorem State.withPending_enables (s : State) (q : List Instr) :
    (s.withPending q).enables = s.enables := rfl
@[simp] theorem State.withPending_causes (s : State) (q : List Instr) :
    (s.withPending q).causes = s.causes := rfl
@[simp] theorem State.withPending_setup (s : State) (q : List Instr) :
    (s.withPending q).setup = s.setup := rfl
@[simp] theorem State.withPending_timer (s : State) (q : List Instr) :
    (s.withPending q).timer = s.timer := rfl
@[simp] theorem State.withPending_power (s : State) (q : List Instr) :
    (s.withPending q).power = s.power := rfl
@[simp] theorem State.withPending_adminRing (s : State) (q : List Instr) :
    (s.withPending q).adminRing = s.adminRing := rfl
@[simp] theorem State.withPending_lineRings (s : State) (q : List Instr) :
    (s.withPending q).lineRings = s.lineRings := rfl
@[simp] theorem State.withPending_fetch (s : State) (q : List Instr) :
    (s.withPending q).fetch = s.fetch := rfl
@[simp] theorem State.withPending_admin (s : State) (q : List Instr) :
    (s.withPending q).admin = s.admin := rfl
@[simp] theorem State.withPending_cu (s : State) (q : List Instr) :
    (s.withPending q).cu = s.cu := rfl
@[simp] theorem State.withPending_port (s : State) (q : List Instr) :
    (s.withPending q).port = s.port := rfl
@[simp] theorem State.withPending_lines (s : State) (q : List Instr) :
    (s.withPending q).lines = s.lines := rfl

/-! ### The four lines and the five rings -/

@[simp] theorem Quad.get_set {α : Type} (q : Quad α) (n m : LineId) (a : α) :
    (q.set n a).get m = if m = n then a else q.get m := by
  fin_cases n <;> fin_cases m <;> rfl

@[simp] theorem Quad.get_mapIdx {α β : Type} (f : LineId → α → β) (q : Quad α) (n : LineId) :
    (q.mapIdx f).get n = f n (q.get n) := by
  fin_cases n <;> rfl

theorem Quad.all_iff {α : Type} (p : α → Bool) (q : Quad α) : q.all p = true ↔ ∀ n, p (q.get n) = true := by
  constructor
  · intro h n
    simp only [Quad.all, Bool.and_eq_true] at h
    fin_cases n <;> simp [Quad.get, h]
  · intro h
    have h0 := h 0
    have h1 := h 1
    have h2 := h 2
    have h3 := h 3
    simp only [Quad.get] at h0 h1 h2 h3
    simp [Quad.all, h0, h1, h2, h3]

/-- Two quads with the same members are the same. -/
theorem Quad.ext_get {α : Type} {p q : Quad α} (h : ∀ n, p.get n = q.get n) : p = q := by
  have h0 := h 0
  have h1 := h 1
  have h2 := h 2
  have h3 := h 3
  cases p
  cases q
  simp_all [Quad.get]

@[simp] theorem State.line_setLine (s : State) (n m : LineId) (l : Line) :
    (s.setLine n l).line m = if m = n then l else s.line m := Quad.get_set _ _ _ _

theorem State.line_setLine_self (s : State) (n : LineId) (l : Line) : (s.setLine n l).line n = l := by simp

@[simp] theorem State.line_onLine (s : State) (n m : LineId) (f : Ctx → Line → Line) :
    (s.onLine n f).line m = if m = n then f (s.ctx n) (s.line n) else s.line m := Quad.get_set _ _ _ _

@[simp] theorem State.line_onLines (s : State) (m : LineId) (f : Ctx → Line → Line) :
    (s.onLines f).line m = f (s.ctx m) (s.line m) := Quad.get_mapIdx _ _ _

@[simp] theorem State.line_elapse (s : State) (m : LineId) (k : Nat) : (s.elapse k).line m = (s.line m).elapse k :=
  Quad.get_mapIdx _ _ _

@[simp] theorem State.line_setRing (s : State) (r : RingId) (x : Ring) (m : LineId) :
    (s.setRing r x).line m = s.line m := by cases r <;> rfl

@[simp] theorem State.line_hold (s : State) (c : Completion) (m : LineId) : (s.hold c).line m = s.line m := rfl

@[simp] theorem State.line_pointTo (s : State) (p : Producer) (m : LineId) : (s.pointTo p).line m = s.line m := rfl

@[simp] theorem State.ring_setRing (s : State) (r q : RingId) (x : Ring) :
    (s.setRing r x).ring q = if q = r then x else s.ring q := by
  cases r <;> cases q <;> simp [State.setRing, State.ring]

@[simp] theorem State.ring_setLine (s : State) (n : LineId) (l : Line) (q : RingId) :
    (s.setLine n l).ring q = s.ring q := by cases q <;> rfl

/-- A line replaced by itself. -/
@[simp] theorem State.setLine_line (s : State) (n : LineId) : s.setLine n (s.line n) = s := by
  have : s.lines.set n (s.lines.get n) = s.lines := Quad.ext_get fun m => by
    rw [Quad.get_set]
    split
    · next h => rw [h]
    · rfl
  simp [State.setLine, State.line, this]

theorem State.setLine_setLine (s : State) (n : LineId) (l m : Line) : (s.setLine n l).setLine n m = s.setLine n m := by
  have : (s.lines.set n l).set n m = s.lines.set n m := Quad.ext_get fun k => by
    simp only [Quad.get_set]
    split <;> simp_all
  simp [State.setLine, this]

@[simp] theorem State.ctx_setLine (s : State) (n m : LineId) (l : Line) : (s.setLine n l).ctx m = s.ctx m := rfl

@[simp] theorem State.ctx_n (s : State) (n : LineId) : (s.ctx n).n = n := rfl

@[simp] theorem State.ctx_now (s : State) (n : LineId) : (s.ctx n).now = s.timer.count := rfl

@[simp] theorem State.ctx_power (s : State) (n : LineId) : (s.ctx n).power = s.power.state := rfl

/-! ### Time -/

@[simp] theorem Line.elapse_run (k : Nat) (l : Line) : (l.elapse k).run = l.run := rfl

@[simp] theorem Line.elapse_engine (k : Nat) (l : Line) : (l.elapse k).engine = l.engine := rfl

@[simp] theorem Line.elapse_current (k : Nat) (l : Line) : (l.elapse k).current = l.current := rfl

@[simp] theorem Line.elapse_roster (k : Nat) (l : Line) : (l.elapse k).roster = l.roster := rfl

@[simp] theorem Line.elapse_profile (k : Nat) (l : Line) : (l.elapse k).profile = l.profile := rfl

@[simp] theorem Line.elapse_sweep (k : Nat) (l : Line) : (l.elapse k).sweep = l.sweep := rfl

@[simp] theorem Line.elapse_depth (k : Nat) (l : Line) : (l.elapse k).depth = l.depth := rfl

@[simp] theorem State.elapse_holding (k : Nat) (s : State) : (s.elapse k).cu.holding = s.cu.holding := rfl

@[simp] theorem State.elapse_ring (k : Nat) (s : State) (r : RingId) : (s.elapse k).ring r = s.ring r := by
  cases r <;> rfl

end Sys2Proof.Machine
end

