-- ==== Sys2Proof/Laws/Line.lean ====
section
/-! SUPPORT. What the operations of one Line Unit can do to it: what they leave alone (Line.Kept), and that they keep a
sound line sound (Line.Ok). -/

namespace Sys2Proof.Machine

/-! ### The two relations together -/

/-- One line becomes another by work that keeps what settling keeps and keeps a sound line sound. -/
structure Line.Works (l m : Line) : Prop where
  kept : l.Kept m
  ok : l.Ok → m.Ok

theorem Line.Kept.refl (l : Line) : l.Kept l := by constructor <;> simp

theorem Line.Kept.trans {l m k : Line} (h : l.Kept m) (g : m.Kept k) : l.Kept k := by
  refine ⟨by rw [g.brisk, h.brisk], by rw [g.lull, h.lull], by rw [g.valid, h.valid], by rw [g.sweep, h.sweep],
    by rw [g.base, h.base], by rw [g.round, h.round], by rw [g.timer, h.timer], by rw [g.halted, h.halted],
    by rw [g.stats, h.stats], by rw [g.seq, h.seq], by rw [g.pin, h.pin], by rw [g.roster, h.roster], ?_, ?_⟩
  · intro hr
    have h1 := h.run hr
    rw [← h1] at hr ⊢
    exact g.run hr
  · intro hc
    obtain ⟨a1, a2, a3, a4, a5, a6, a7, a8, a9, a10, a11, a12, a13⟩ := h.engine hc
    have hm : m.current.isSome = true := by
      cases hm : m.current <;> cases hl : l.current <;> simp_all
    obtain ⟨b1, b2, b3, b4, b5, b6, b7, b8, b9, b10, b11, b12, b13⟩ := g.engine hm
    exact ⟨b1.trans a1, b2.trans a2, b3.trans a3, b4.trans a4, b5.trans a5, b6.trans a6, b7.trans a7, b8.trans a8,
      b9.trans a9, b10.trans a10, b11.trans a11, b12.trans a12, b13.trans a13⟩

theorem Line.Works.refl (l : Line) : l.Works l := ⟨.refl l, id⟩

theorem Line.Works.trans {l m k : Line} (h : l.Works m) (g : m.Works k) : l.Works k :=
  ⟨h.kept.trans g.kept, fun o => g.ok (h.ok o)⟩

/-- A line without a current exchange keeps what settling keeps if it keeps these fields. -/
theorem Line.Kept.resting {l m : Line} (hc : l.current = none) (h1 : m.brisk = l.brisk) (h2 : m.lull = l.lull)
    (h3 : m.profilesValid = l.profilesValid) (h4 : m.sweep = l.sweep) (h5 : m.imageBase = l.imageBase)
    (h6 : m.round = l.round) (h7 : m.roundTimer = l.roundTimer) (h8 : m.sweepHalted = l.sweepHalted)
    (h9 : m.stats = l.stats) (h10 : m.nextSeq = l.nextSeq) (h11 : m.wire.space = l.wire.space)
    (h12 : m.roster = l.roster) (h13 : l.run ≠ .draining → m.run = l.run) : l.Kept m :=
  ⟨h1, h2, h3, h4, h5, h6, h7, h8, h9, h10, h11, by rw [h12], h13, by simp [hc]⟩

/-- A line stays sound where its engine, current exchange, run state, queue depth, roster and sweep table do. -/
theorem Line.Ok.of_same {l m : Line} (h : l.Ok) (h1 : m.engine = l.engine)
    (h2 : m.current.isSome = l.current.isSome) (h3 : m.run = l.run) (h4 : m.depth ≤ l.depth)
    (h5 : m.roster = l.roster) (h6 : m.sweep = l.sweep) : m.Ok := by
  refine ⟨⟨by rw [h1, h2]; exact h.engine.current, by rw [h1, h3]; exact h.engine.resting⟩, h4.trans h.queue,
    by rw [h5]; exact h.roster, ?_⟩
  intro i e he
  rw [h5]
  refine h.sweep i e ?_
  simpa [Line.sweepAt, h6] using he

/-! ### Slot writes and the hunt -/

/-- A queued slot write touches the writer alone. -/
theorem Line.queueSlot_eq (l : Line) (i : Nat) (r : Word) (b : SlotBody) :
    ∃ w, l.queueSlot i r b = { l with writer := w } := by
  unfold Line.queueSlot
  split
  · exact ⟨l.writer, rfl⟩
  · split
    · exact ⟨l.writer, rfl⟩
    · exact ⟨_, rfl⟩

/-- Clearing the mark of a hunt step leaves the rest of the current exchange. -/
theorem map_huntless (c : Option Current) :
    (c.map fun c => ({ c with huntLive := false } : Current)).map Current.huntless = c.map Current.huntless := by
  cases c <;> rfl

/-- The activation test touches the hunt, the owed HUNT_EMPTY and the mark of a current hunt step. -/
theorem Line.activateHunt_eq (x : Ctx) (l : Line) :
    ∃ h p o c, l.activateHunt x = { l with hunt := h, huntPending := p, owed := o, current := c } ∧
      c.map Current.huntless = l.current.map Current.huntless := by
  unfold Line.activateHunt
  split
  · split
    · exact ⟨_, _, _, _, rfl, rfl⟩
    · exact ⟨_, _, _, _, rfl, map_huntless _⟩
  · exact ⟨_, _, _, _, rfl, rfl⟩

/-- A hunt that ends empty touches the same. -/
theorem Line.huntEmpty_eq (l : Line) :
    ∃ h o c, l.huntEmpty = { l with hunt := h, owed := o, current := c } ∧
      c.map Current.huntless = l.current.map Current.huntless :=
  ⟨_, _, _, rfl, map_huntless _⟩

theorem huntless_isSome {a b : Option Current} (h : a.map Current.huntless = b.map Current.huntless) :
    a.isSome = b.isSome := by
  cases a <;> cases b <;> simp_all

/-- Changes of the hunt state keep what settling keeps. -/
theorem Line.Works.hunt {l : Line} {h : Option Walk} {p : Bool} {o : Owed} {c : Option Current}
    (hc : c.map Current.huntless = l.current.map Current.huntless) :
    l.Works { l with hunt := h, huntPending := p, owed := o, current := c } := by
  constructor
  · constructor <;> simp [hc]
  · intro ok
    exact ok.of_same rfl (huntless_isSome hc) rfl le_rfl rfl rfl

theorem Line.activateHunt_works (x : Ctx) (l : Line) : l.Works (l.activateHunt x) := by
  obtain ⟨h, p, o, c, e, hc⟩ := l.activateHunt_eq x
  rw [e]
  exact .hunt hc

theorem Line.huntEmpty_works (l : Line) : l.Works l.huntEmpty := by
  obtain ⟨h, o, c, e, hc⟩ := l.huntEmpty_eq
  rw [e]
  exact Line.Works.hunt (p := l.huntPending) hc

/-! ### Selection -/

/-- A line at an exchange boundary that may select. -/
structure Line.AtRest (l : Line) : Prop where
  idle : l.engine = .idle
  free : l.current = none
  going : l.run = .running ∨ l.run = .draining

theorem Line.AtRest.keep {l m : Line} (h : l.AtRest) (h1 : m.engine = l.engine)
    (h2 : m.current.isSome = l.current.isSome) (h3 : m.run = l.run) : m.AtRest := by
  refine ⟨by rw [h1, h.idle], ?_, by rw [h3]; exact h.going⟩
  rw [h.free] at h2
  cases hm : m.current <;> simp_all

/-- Selected work becomes the current exchange of a line at rest. -/
theorem Line.makeCurrent_works {l : Line} (h : l.AtRest) (o : Origin) (a : Nat) (c : Byte) (p : List Byte) (r : Nat) :
    l.Works (l.makeCurrent o a c p r) := by
  constructor
  · refine .resting h.free rfl rfl rfl rfl rfl rfl rfl rfl rfl rfl rfl rfl fun _ => rfl
  · intro ok
    refine ⟨⟨rfl, ?_⟩, ok.queue, ok.roster, ok.sweep⟩
    intro hr
    rcases h.going with g | g <;> simp [Line.makeCurrent, Line.enterLead, g] at hr

/-- Work on the queue, the lists, the slots and the flags of a line at rest. -/
theorem Line.Works.rest {l m : Line} (h : l.AtRest) (e : m = { l with
      waiting := m.waiting, holdSlot := m.holdSlot, due := m.due, probes := m.probes, writer := m.writer
      pace := m.pace }) (hw : m.waiting.length ≤ l.waiting.length) : l.Works m := by
  constructor
  · rw [e]
    exact .resting h.free rfl rfl rfl rfl rfl rfl rfl rfl rfl rfl rfl rfl fun _ => rfl
  · intro ok
    refine ok.of_same (by rw [e]) (by rw [e]) (by rw [e]) ?_ (by rw [e]) (by rw [e])
    have : m.ended = l.ended := by rw [e]
    simp only [Line.depth, this]
    omega

/-- What a pick does, whichever it is. -/
inductive Pick.Works (l : Line) : Pick → Prop
  | made {m : Line} : l.Works m → Pick.Works l (.made m)
  | again {m : Line} : l.Works m → m.AtRest → Pick.Works l (.again m)
  | nothing : Pick.Works l .nothing

theorem Pick.Works.after {l m : Line} {p : Pick} (h : l.Works m) (g : Pick.Works m p) : Pick.Works l p := by
  cases g with
  | made g => exact .made (h.trans g)
  | again g r => exact .again (h.trans g) r
  | nothing => exact .nothing

theorem Line.takeEntry_works {l : Line} (x : Ctx) (e : QEntry) (h : l.AtRest) : Pick.Works l (l.takeEntry x e) := by
  have hk : l.Works { l with waiting := l.waiting.erase e } :=
    .rest h rfl (List.length_erase_le)
  have rk : Line.AtRest { l with waiting := l.waiting.erase e } := h.keep rfl rfl rfl
  have hr (o : ExOutcome) : Pick.Works l (.again (({ l with waiting := l.waiting.erase e } : Line).refuseEntry x e o)) :=
    .again (.rest h rfl List.length_erase_le) (h.keep rfl rfl rfl)
  have hm := hk.trans (Line.makeCurrent_works rk (.host e.cls e.tag) e.node e.code e.payload e.retryLimit)
  unfold Line.takeEntry
  simp only
  split
  · exact .made hm
  · split
    · exact .made hm
    · exact hr _
    · exact hr _
    · exact hr _
    · exact hr _

theorem Line.takePace_works {l : Line} (x : Ctx) (h : l.AtRest) : l.Works (l.takePace x) := by
  have hk : l.Works { l with pace := .none } := .rest h rfl le_rfl
  have rk : Line.AtRest { l with pace := .none } := h.keep rfl rfl rfl
  exact hk.trans (Line.makeCurrent_works rk _ _ _ _ _)

theorem Line.takeSweep_works {l : Line} (x : Ctx) (i : Nat) (rest : List Nat) (h : l.AtRest) :
    Pick.Works l (l.takeSweep x i rest) := by
  have hk : l.Works { l with due := rest } := .rest h rfl le_rfl
  have rk : Line.AtRest { l with due := rest } := h.keep rfl rfl rfl
  unfold Line.takeSweep
  simp only
  split
  · exact .again hk rk
  · split
    · exact .made (hk.trans (Line.makeCurrent_works rk _ _ _ _ _))
    · obtain ⟨w, e⟩ := ({ l with due := rest } : Line).queueSlot_eq i l.round (.nonWire .skipped x.now)
      rw [e]
      exact .again (.rest h rfl le_rfl) (h.keep rfl rfl rfl)

theorem Line.takeProbe_works {l : Line} (a : Nat) (h : l.AtRest) : Pick.Works l (l.takeProbe a) := by
  have hk : l.Works { l with probes := l.probes.erase a } := .rest h rfl le_rfl
  have rk : Line.AtRest { l with probes := l.probes.erase a } := h.keep rfl rfl rfl
  unfold Line.takeProbe
  simp only
  split
  · exact .made (hk.trans (Line.makeCurrent_works rk _ _ _ _ _))
  · exact .again hk rk

theorem Line.pickProbe_works {l : Line} (x : Ctx) (h : l.AtRest) : Pick.Works l (l.pickProbe x) := by
  unfold Line.pickProbe
  split
  · split
    · exact Line.takeProbe_works _ h
    · exact .nothing
  · exact .nothing

theorem Line.pickTurn_works {l : Line} (x : Ctx) (h : l.AtRest) : Pick.Works l (l.pickTurn x) := by
  unfold Line.pickTurn
  split
  · split
    · exact Line.takeSweep_works x _ _ h
    · exact Line.takeEntry_works x _ h
  · exact Line.takeSweep_works x _ _ h
  · exact Line.takeEntry_works x _ h
  · exact Line.pickProbe_works x h

theorem Line.pickHunt_works {l : Line} (x : Ctx) (h : l.AtRest) : Pick.Works l (l.pickHunt x) := by
  unfold Line.pickHunt
  split
  · split
    · exact .made (Line.makeCurrent_works h _ _ _ _ _)
    · refine .again (l.huntEmpty_works.trans (Line.activateHunt_works x _)) ?_
      obtain ⟨h1, o1, c1, e1, hc1⟩ := l.huntEmpty_eq
      rw [e1]
      obtain ⟨h2, p2, o2, c2, e2, hc2⟩ := Line.activateHunt_eq x { l with hunt := h1, owed := o1, current := c1 }
      rw [e2]
      exact h.keep rfl ((huntless_isSome hc2).trans (huntless_isSome hc1)) rfl
  · exact Line.pickTurn_works x h

/-- One examination of the sources. -/
theorem Line.pick_works {l : Line} (x : Ctx) (h : l.AtRest) : Pick.Works l (l.pick x) := by
  unfold Line.pick
  split
  · exact .made (Line.takePace_works x h)
  · split
    · exact Line.takeEntry_works x _ h
    · exact Line.pickHunt_works x h

theorem Line.selectLoop_works (x : Ctx) (k : Nat) {l : Line} (h : l.AtRest) : l.Works (l.selectLoop x k) := by
  induction k generalizing l with
  | zero => exact .refl l
  | succ k ih =>
    unfold Line.selectLoop
    have hp := Line.pick_works x h
    generalize l.pick x = p at hp
    cases hp with
    | made g => exact g
    | again g r => exact g.trans (ih r)
    | nothing => exact .refl l

/-! ### Marks, the end of a drain, parking -/

theorem length_markOrder (w : List QEntry) : (markOrder w).length = w.length := by
  unfold markOrder
  induction w with
  | nil => rfl
  | cons e w ih =>
    cases h : e.cls <;> simp_all
    omega

/-- Marking the waiting entries keeps the depth of the queue. -/
theorem Line.depth_markAll (l : Line) (m : Mark) (now : Word) : (l.markAll m now).depth = l.depth := by
  simp [Line.markAll, Line.depth, length_markOrder]
  omega

theorem Line.markAll_works {l : Line} (h : l.AtRest) (m : Mark) (now : Word) : l.Works (l.markAll m now) := by
  constructor
  · exact .resting h.free rfl rfl rfl rfl rfl rfl rfl rfl rfl rfl rfl rfl fun _ => rfl
  · intro ok
    exact ok.of_same rfl rfl rfl (l.depth_markAll m now).le rfl rfl

theorem Line.atBoundary_rest {l : Line} (h : l.atBoundary = true) (g : l.run = .running ∨ l.run = .draining) :
    l.AtRest := by
  simp only [Line.atBoundary, Bool.and_eq_true, beq_iff_eq, Option.isNone_iff_eq_none] at h
  exact ⟨h.1, h.2, g⟩

theorem Line.arbitrate_works (x : Ctx) (l : Line) : l.Works (l.arbitrate x) := by
  unfold Line.arbitrate
  split
  · next hb =>
    split
    · next hr => exact Line.selectLoop_works x _ (Line.atBoundary_rest hb (.inl hr))
    · next hr =>
      split
      · exact Line.markAll_works (Line.atBoundary_rest hb (.inr hr)) _ _
      · exact Line.selectLoop_works x _ (Line.atBoundary_rest hb (.inr hr))
    · exact .refl l
    · exact .refl l
  · exact .refl l

/-- A line without a current exchange becomes QUIET. -/
theorem Line.becomeQuiet_works {l : Line} (x : Ctx) (hc : l.current = none) (hr : l.run = .draining) :
    l.Works (l.becomeQuiet x) := by
  constructor
  · exact .resting hc rfl rfl rfl rfl rfl rfl rfl rfl rfl rfl rfl rfl fun g => absurd hr g
  · intro ok
    exact ⟨⟨by simp [Line.becomeQuiet, Line.engineOff, Line.takeTarget, hc, Engine.working], fun _ => rfl⟩, ok.queue,
      ok.roster, ok.sweep⟩

theorem Line.drainEnd_works (x : Ctx) (l : Line) : l.Works (l.drainEnd x) := by
  unfold Line.drainEnd
  split
  · next h =>
    simp only [Bool.and_eq_true, beq_iff_eq, Option.isNone_iff_eq_none] at h
    exact Line.becomeQuiet_works x h.2 h.1.1.1
  · exact .refl l

theorem Line.park_works (x : Ctx) (l : Line) : l.Works (l.park x) := by
  unfold Line.park
  split
  · next h =>
    simp only [Bool.and_eq_true, beq_iff_eq] at h
    have r := Line.atBoundary_rest h.1.2 (.inl h.1.1.1)
    constructor
    · exact .resting r.free rfl rfl rfl rfl rfl rfl rfl rfl rfl rfl rfl rfl fun _ => rfl
    · intro ok
      refine ⟨⟨by simp [r.free, Engine.working], ?_⟩, ok.queue, ok.roster, ok.sweep⟩
      intro q
      simp [h.1.1.1] at q
  · exact .refl l

/-- All that a Line Unit does by itself. -/
theorem Line.settle_works (x : Ctx) (l : Line) : l.Works (l.settle x) :=
  (((l.activateHunt_works x).trans (Line.arbitrate_works x _)).trans (Line.drainEnd_works x _)).trans
    (Line.park_works x _)

end Sys2Proof.Machine
end

