-- ==== Sys2Proof/Laws/Settle.lean ====
section
/-! SUPPORT. What settling can do to the part: what it leaves alone (State.Kept), that it keeps a sound part sound
(State.Ok), and when it does nothing. -/

namespace Sys2Proof.Machine

/-! ### Rosters -/

/-- A change of records that keeps addresses and ranges keeps a roster. -/
theorem RosterOk.map {r : List Node} (h : RosterOk r) (f : Node → Node) (ha : ∀ x ∈ r, (f x).addr = x.addr)
    (hr : ∀ x ∈ r, x.InRange → (f x).InRange) : RosterOk (r.map f) := by
  refine ⟨?_, by simpa using h.room, ?_⟩
  · rw [List.pairwise_map]
    refine h.ascending.imp_of_mem ?_
    intro a b hma hmb hab
    rw [ha a hma, ha b hmb]
    exact hab
  · intro y hy
    obtain ⟨x, hx, rfl⟩ := List.mem_map.1 hy
    exact hr x hx (h.inRange x hx)

/-- The same for one record. -/
theorem RosterOk.update {r : List Node} (h : RosterOk r) (a : Nat) (f : Node → Node) (ha : ∀ x, (f x).addr = x.addr)
    (hr : ∀ x, x.InRange → (f x).InRange) : RosterOk (updateNode r a f) := by
  refine h.map _ ?_ ?_
  · intro x _
    split
    · exact ha x
    · rfl
  · intro x _ g
    split
    · exact hr x g
    · exact g

/-- A change of one record keeps the addresses of the roster. -/
theorem map_addr_updateNode (r : List Node) (a : Nat) (f : Node → Node) (ha : ∀ x, (f x).addr = x.addr) :
    (updateNode r a f).map (·.addr) = r.map (·.addr) := by
  simp only [updateNode, List.map_map]
  refine List.map_congr_left fun x _ => ?_
  simp only [Function.comp]
  split
  · exact ha x
  · rfl

/-- A change of the roster that keeps a roster and its addresses keeps a line sound. -/
theorem Line.Ok.withRoster {l : Line} (h : l.Ok) {r : List Node} (hr : RosterOk r)
    (ha : r.map (·.addr) = l.roster.map (·.addr)) : Line.Ok { l with roster := r } :=
  ⟨⟨h.engine.current, h.engine.resting⟩, h.queue, hr, fun i e he => by rw [ha]; exact h.sweep i e he⟩

/-- Clearing an owed flag of one record keeps what settling keeps. -/
theorem Line.Works.unowe (l : Line) (a : Nat) (f : Node → Node) (h : ∀ x, (f x).unowed = x.unowed) :
    l.Works { l with roster := updateNode l.roster a f } := by
  have hx (x : Node) : (f x).addr = x.addr ∧ (f x).failures = x.failures ∧ (f x).joinProbes = x.joinProbes := by
    have g := h x
    simp only [Node.unowed, Node.mk.injEq] at g
    tauto
  constructor
  · have hm : (updateNode l.roster a f).map Node.unowed = l.roster.map Node.unowed := by
      simp only [updateNode, List.map_map]
      refine List.map_congr_left fun x _ => ?_
      simp only [Function.comp]
      split
      · exact h x
      · rfl
    constructor <;> simp [hm]
  · intro ok
    refine ok.withRoster (ok.roster.update a f (fun x => (hx x).1) ?_) (map_addr_updateNode _ _ _ fun x => (hx x).1)
    intro x g
    obtain ⟨h1, h2, h3⟩ := hx x
    exact ⟨by rw [h1]; exact g.addr_low, by rw [h1]; exact g.addr_high, by rw [h2]; exact g.failures,
      by rw [h3]; exact g.joinProbes⟩

/-! ### Offers -/

/-- A line whose offer has been admitted. -/
theorem Line.offer_works {x : Ctx} {l m : Line} {c : Completion} (h : l.offer x = some (c, m)) : l.Works m := by
  unfold Line.offer at h
  split at h
  · cases h
    exact ⟨by constructor <;> simp, fun ok => ok.of_same rfl rfl rfl le_rfl rfl rfl⟩
  · split at h
    · next e rest he =>
      cases h
      refine ⟨by constructor <;> simp, fun ok => ok.of_same rfl rfl rfl ?_ rfl rfl⟩
      simp [Line.depth, he]
    · unfold Line.offerEvent at h
      split at h
      · cases h
        exact .unowe l _ _ fun _ => rfl
      · split at h
        · cases h
          exact .unowe l _ _ fun _ => rfl
        · cases ho : l.owed.first with
          | none => simp [ho] at h
          | some e =>
            simp only [ho, Option.map_some, Option.some.injEq, Prod.mk.injEq] at h
            obtain ⟨-, rfl⟩ := h
            exact ⟨by constructor <;> simp, fun ok => ok.of_same rfl rfl rfl le_rfl rfl rfl⟩

/-! ### The two relations on the part -/

/-- One part becomes another by work that keeps what settling keeps and keeps a sound part sound. -/
structure State.Works (s t : State) : Prop where
  kept : s.Kept t
  ok : s.Ok → t.Ok

/-- The part keeps what settling keeps where only these fields change. -/
theorem State.Kept.of_eq {s t : State} (h : t = { s with
      lines := t.lines, admin := t.admin, fetch := t.fetch, port := t.port
      cu := { s.cu with holding := t.cu.holding, statusPending := t.cu.statusPending, prevRecord := t.cu.prevRecord,
                        pointer := t.cu.pointer }
      power := { s.power with state := t.power.state, transition := t.power.transition } })
    (h1 : t.power.state = s.power.state ∨ s.power.state = .dozePending ∧ t.power.state = .doze)
    (h2 : s.cu.holding <+: t.cu.holding) (h3 : s.port.transfer.isSome = true → t.port.transfer = s.port.transfer)
    (h4 : ∀ n, (s.line n).Kept (t.line n)) : s.Kept t := by
  refine ⟨?_, ?_, ?_, ?_, ?_, ?_, ?_, ?_, ?_, ?_, ?_, ?_, h1, ?_, ?_, ?_, ?_, ?_, h2, h3, ?_, h4⟩
  case refine_13 => intro r; cases r <;> (rw [h]; rfl)
  all_goals rw [h]

theorem State.Kept.refl (s : State) : s.Kept s :=
  .of_eq rfl (.inl rfl) (List.prefix_refl _) (fun _ => rfl) fun _ => .refl _

theorem State.Kept.trans {s t u : State} (h : s.Kept t) (g : t.Kept u) : s.Kept u where
  part := g.part.trans h.part
  faultReason := g.faultReason.trans h.faultReason
  setupError := g.setupError.trans h.setupError
  resetCause := g.resetCause.trans h.resetCause
  resetLow := g.resetLow.trans h.resetLow
  softPending := g.softPending.trans h.softPending
  setupAddr := g.setupAddr.trans h.setupAddr
  enables := g.enables.trans h.enables
  causes := g.causes.trans h.causes
  setup := g.setup.trans h.setup
  timer := g.timer.trans h.timer
  wake := g.wake.trans h.wake
  power := by
    rcases h.power with a | ⟨a, b⟩ <;> rcases g.power with c | ⟨c, d⟩ <;> simp_all
  rings r := (g.rings r).trans (h.rings r)
  produced := g.produced.trans h.produced
  consumed := g.consumed.trans h.consumed
  mark := g.mark.trans h.mark
  holdoff := g.holdoff.trans h.holdoff
  holding := h.holding.trans g.holding
  transfer a := (g.transfer (by rw [h.transfer a]; exact a)).trans (h.transfer a)
  pending := g.pending.trans h.pending
  lines n := (h.lines n).trans (g.lines n)

theorem State.Works.refl (s : State) : s.Works s := ⟨.refl s, id⟩

theorem State.Works.trans {s t u : State} (h : s.Works t) (g : t.Works u) : s.Works u :=
  ⟨h.kept.trans g.kept, fun o => g.ok (h.ok o)⟩

/-- A change of the queue of commands, the fetch request, the Admin Unit's command, the transition, the status flags and
the pointers keeps a sound part sound. -/
theorem State.Ok.of_same {s t : State} (h : s.Ok) (h1 : t.lines = s.lines) (h2 : t.part = s.part)
    (h3 : t.cu.holding.length ≤ 16) (h4 : t.adminRing = s.adminRing) (h5 : t.lineRings = s.lineRings)
    (h6 : t.setup = s.setup) : t.Ok := by
  have hl (n : LineId) : t.line n = s.line n := by simp [State.line, h1]
  have hr (r : RingId) : t.ring r = s.ring r := by cases r <;> simp [State.ring, h4, h5]
  exact ⟨fun n => by rw [hl]; exact h.lines n, fun p n => by rw [hl]; exact h.stopped (by rwa [h2] at p) n, h3,
    fun r => by rw [hr, State.ringSize, h6]; exact h.rings r⟩

/-- Every line does work of its own in a RUNNING part. -/
theorem State.onLines_works {s : State} {f : Ctx → Line → Line} (h : s.part = .running)
    (hf : ∀ x l, Line.Works l (f x l)) : s.Works (s.onLines f) := by
  constructor
  · refine .of_eq rfl (.inl rfl) (List.prefix_refl _) (fun _ => rfl) fun n => ?_
    rw [State.line_onLines]
    exact (hf _ _).kept
  · intro ok
    refine ⟨fun n => ?_, fun p => absurd h p, ok.holding, fun r => ?_⟩
    · rw [State.line_onLines]
      exact (hf _ _).ok (ok.lines n)
    · cases r with
      | admin => exact ok.rings .admin
      | line n => exact ok.rings (.line n)

/-- One line does work of its own in a RUNNING part. -/
theorem State.setLine_works {s : State} {n : LineId} {l : Line} (h : s.part = .running) (hf : (s.line n).Works l) :
    s.Works (s.setLine n l) := by
  constructor
  · refine .of_eq rfl (.inl rfl) (List.prefix_refl _) (fun _ => rfl) fun m => ?_
    rw [State.line_setLine]
    split
    · next e => subst e; exact hf.kept
    · exact .refl _
  · intro ok
    refine ⟨fun m => ?_, fun p => absurd h p, ok.holding, fun r => by rw [State.ring_setLine]; exact ok.rings r⟩
    rw [State.line_setLine]
    split
    · exact hf.ok (ok.lines n)
    · exact ok.lines m

/-! ### Admission -/

/-- One admission in a RUNNING part: the holding queue has one record more. -/
theorem State.admitNext_works {s t : State} (h : s.admitNext = some t) :
    s.Works t ∧ s.part = .running ∧ t.cu.holding.length = s.cu.holding.length + 1 := by
  unfold State.admitNext at h
  split at h
  · next hp =>
    obtain ⟨hrun, hfree⟩ := hp
    have hfree : s.cu.holding.length < 16 := of_decide_eq_true hfree
    obtain ⟨p, -, hp⟩ := List.exists_of_findSome?_eq_some h
    simp only [State.admitFrom, Option.map_eq_some_iff] at hp
    obtain ⟨⟨c, u⟩, ho, rfl⟩ := hp
    have hu : s.Works u ∧ u.cu = s.cu := by
      cases p with
      | admin =>
        simp only [State.offerOf] at ho
        split at ho
        · cases ho
          refine ⟨⟨.of_eq rfl (.inl rfl) (List.prefix_refl _) (fun _ => rfl) fun _ => .refl _, fun ok => ?_⟩, rfl⟩
          exact ok.of_same rfl rfl ok.holding rfl rfl rfl
        · cases ho
        · cases ho
      | line n =>
        simp only [State.offerOf, Option.map_eq_some_iff] at ho
        obtain ⟨⟨c', m⟩, hm, he⟩ := ho
        cases he
        exact ⟨State.setLine_works hrun (Line.offer_works hm), rfl⟩
    obtain ⟨hw, hcu⟩ := hu
    refine ⟨hw.trans ⟨?_, fun ok => ?_⟩, hrun, by simp [State.pointTo, State.hold, hcu]⟩
    · exact .of_eq rfl (.inl rfl) (List.prefix_append _ _) (fun _ => rfl) fun _ => .refl _
    · refine ok.of_same rfl rfl ?_ rfl rfl rfl
      simp [State.hold, State.pointTo, hcu]
      omega
  · cases h

theorem State.admitLoop_works (k : Nat) (s : State) : s.Works (s.admitLoop k) := by
  induction k generalizing s with
  | zero => exact .refl s
  | succ k ih =>
    unfold State.admitLoop
    split
    · next t h => exact (State.admitNext_works h).1.trans (ih t)
    · exact .refl s

/-! ### The lines' work -/

theorem State.transitionStep_works (s : State) : s.Works s.transitionStep := by
  have hfin (u : State) : u.Works u.finishPower := by
    have e : ∃ a, u.finishPower = { u with power := { u.power with transition := none }, admin := a } := by
      unfold State.finishPower
      simp only
      split <;> exact ⟨_, rfl⟩
    obtain ⟨a, e⟩ := e
    rw [e]
    refine ⟨?_, fun ok => ok.of_same rfl rfl ok.holding rfl rfl rfl⟩
    exact .of_eq rfl (.inl rfl) (List.prefix_refl _) (fun _ => rfl) fun _ => .refl _
  unfold State.transitionStep
  split
  · exact .refl s
  · split
    · next hp =>
      split
      · refine State.Works.trans ?_ (hfin _)
        have e : s.setPower .doze =
            { s with power := { s.power with state := .doze }, cu := { s.cu with statusPending := true } } := by
          simp [State.setPower, hp, PowerState.target]
        rw [e]
        refine ⟨?_, fun ok => ok.of_same rfl rfl ok.holding rfl rfl rfl⟩
        exact .of_eq rfl (.inr ⟨hp, rfl⟩) (List.prefix_refl _) (fun _ => rfl) fun _ => .refl _
      · exact .refl s
    · split
      · exact hfin s
      · exact .refl s

theorem State.workLines_works {s : State} (h : s.part = .running) : s.Works s.workLines :=
  (State.onLines_works h Line.settle_works).trans (State.transitionStep_works _)

theorem State.workLoop_works (k : Nat) {s : State} (h : s.part = .running) : s.Works (s.workLoop k) := by
  induction k generalizing s with
  | zero => exact .refl s
  | succ k ih =>
    unfold State.workLoop
    have hw := State.workLines_works h
    split
    · next t ht =>
      have h1 := State.admitNext_works ht
      have h2 := State.admitLoop_works Config.holdingCapacity t
      refine hw.trans (h1.1.trans (h2.trans (ih ?_)))
      exact h2.kept.part.trans (h1.1.kept.part.trans (hw.kept.part.trans h))
    · exact hw

/-- The consequences of an event inside the part. -/
theorem State.work_works (s : State) : s.Works s.work := by
  unfold State.work
  split
  · next h =>
    have h2 := State.admitLoop_works Config.holdingCapacity s
    exact h2.trans (State.workLoop_works _ (h2.kept.part.trans h))
  · exact .refl s

/-! ### The Fetch Unit and the Memory Port -/

/-- The Fetch Unit's visit touches the Fetch Unit alone. -/
theorem State.fetchVisit_eq (s : State) : ∃ f, s.fetchVisit = { s with fetch := f } := by
  unfold State.fetchVisit
  split
  · exact ⟨s.fetch, rfl⟩
  · split
    · exact ⟨_, rfl⟩
    · exact ⟨s.fetch, rfl⟩

/-- A grant touches the fetch request, the two flags of the Completion Unit and the port, and only while the port is
open. -/
theorem State.grant_eq (s : State) :
    ∃ f a b p, s.grant = { s with fetch := f, cu := { s.cu with statusPending := a, prevRecord := b }, port := p } ∧
      (s.portOpen = false → p = s.port) := by
  unfold State.grant
  split
  · next ho =>
    split
    · next r t h =>
      refine ⟨(s.begun t).fetch, (s.begun t).cu.statusPending, (s.begun t).cu.prevRecord, ⟨some t, r⟩, ?_, by simp [ho]⟩
      cases t <;> rfl
    · exact ⟨s.fetch, s.cu.statusPending, s.cu.prevRecord, s.port, rfl, fun _ => rfl⟩
  · exact ⟨s.fetch, s.cu.statusPending, s.cu.prevRecord, s.port, rfl, fun _ => rfl⟩

theorem State.fetchVisit_works (s : State) : s.Works s.fetchVisit := by
  obtain ⟨f, e⟩ := s.fetchVisit_eq
  rw [e]
  refine ⟨?_, fun ok => ok.of_same rfl rfl ok.holding rfl rfl rfl⟩
  exact .of_eq rfl (.inl rfl) (List.prefix_refl _) (fun _ => rfl) fun _ => .refl _

theorem State.grant_works (s : State) : s.Works s.grant := by
  obtain ⟨f, a, b, p, e, hp⟩ := s.grant_eq
  rw [e]
  refine ⟨?_, fun ok => ok.of_same rfl rfl ok.holding rfl rfl rfl⟩
  refine .of_eq rfl (.inl rfl) (List.prefix_refl _) (fun ht => ?_) fun _ => .refl _
  dsimp only
  rw [hp]
  cases h : s.port.transfer <;> simp_all [State.portOpen]

/-- All that follows from an event within the same event. -/
theorem State.settle_works (s : State) : s.Works s.settle :=
  (s.work_works.trans (State.fetchVisit_works _)).trans (State.grant_works _)

/-- Settling does nothing to a part that is neither RUNNING nor asking for a transfer. -/
theorem State.settle_still {s : State} (h : s.part ≠ .running) (hf : s.fetch.request = none) : s.settle = s := by
  have hw : s.work = s := by simp [State.work, h]
  have hv : s.fetchVisit = s := by
    unfold State.fetchVisit
    split
    · rfl
    · have : s.fetch.pointer.rotation.find? s.eligible = none := by
        refine List.find?_eq_none.2 fun r _ => ?_
        simp [State.eligible, h]
      rw [this]
  have hg : s.grant = s := by
    unfold State.grant
    split
    · have : (s.port.last.rotation.findSome? fun r => (s.wanted r).map fun t => (r, t)) = none := by
        refine List.findSome?_eq_none_iff.2 fun r _ => ?_
        cases r <;> simp [State.wanted, hf, h]
      rw [this]
    · rfl
  rw [State.settle, hw, hv, hg]

/-- A command that is taken answers the settled state. -/
theorem State.take_some {s t : State} (h : s.resetLow = false) : s.take (some t) = .next t.settle := by
  simp [State.take, h]

/-- A command that changes nothing. -/
theorem State.take_none (s : State) : s.take none = .next s := by
  unfold State.take
  split <;> rfl

/-- While the RESET pin is low a command changes nothing. -/
theorem State.take_low {s : State} (h : s.resetLow = true) (o : Option State) : s.take o = .next s := by
  simp [State.take, h]

/-- What a taken command can answer. -/
theorem State.take_next {s t : State} {o : Option State} (h : s.take o = .next t) :
    t = s ∨ s.resetLow = false ∧ ∃ u, o = some u ∧ t = u.settle := by
  unfold State.take at h
  split at h
  · cases h; exact .inl rfl
  · next hr =>
    split at h
    · cases h; exact .inl rfl
    · cases h; exact .inr ⟨by simpa using hr, _, rfl, rfl⟩

end Sys2Proof.Machine
end

