-- ==== Sys2Proof/Laws/LineOk.lean ====
section
/-! SUPPORT. What the operations of the Line Engine, of the sweep, of Power Control and of the administrative commands do to
a line, said once for each, and that each keeps a sound line sound (Line.Ok). -/

namespace Sys2Proof.Machine

/-! ### Building a sound line -/

/-- A line is sound where these hold and its queue, roster and sweep table are no worse. -/
theorem Line.Ok.change {l m : Line} (h : l.Ok) (h1 : m.engine.working = m.current.isSome)
    (h2 : m.run = .quiet ∨ m.run = .faulted → m.engine = .off) (h3 : m.depth ≤ l.depth) (h4 : RosterOk m.roster)
    (h5 : m.roster.map (·.addr) = l.roster.map (·.addr)) (h6 : m.sweep = l.sweep) : m.Ok := by
  refine ⟨⟨h1, h2⟩, h3.trans h.queue, h4, fun i e he => ?_⟩
  rw [h5]
  exact h.sweep i e (by simpa [Line.sweepAt, h6] using he)

/-- A line with a current exchange is neither QUIET nor FAULTED. -/
theorem Line.Ok.going {l : Line} (h : l.Ok) (hc : l.current.isSome = true) : ¬(l.run = .quiet ∨ l.run = .faulted) := by
  intro g
  have := h.engine.current
  rw [h.engine.resting g, hc] at this
  cases this

/-- A line whose engine is not OFF is neither QUIET nor FAULTED. -/
theorem Line.Ok.awake {l : Line} (h : l.Ok) (he : l.engine ≠ .off) : ¬(l.run = .quiet ∨ l.run = .faulted) :=
  fun g => he (h.engine.resting g)

/-- A line whose engine rests has no current exchange. -/
theorem Line.Ok.free {l : Line} (h : l.Ok) (he : l.engine.working = false) : l.current = none := by
  have := h.engine.current
  rw [he] at this
  exact Option.not_isSome_iff_eq_none.1 (by rw [← this]; decide)

/-- A change outside the engine, the run state, the queue, the roster and the sweep table. -/
theorem Line.Ok.aside {l m : Line} (h : l.Ok) (e : m = { l with
      abandon := m.abandon, att := m.att, settleOwed := m.settleOwed, wire := m.wire, brisk := m.brisk, lull := m.lull
      profilesValid := m.profilesValid, inForce := m.inForce, pace := m.pace, nextSeq := m.nextSeq
      holdSlot := m.holdSlot, turn := m.turn, imageBase := m.imageBase, round := m.round, roundTimer := m.roundTimer
      due := m.due, probes := m.probes, sweepHalted := m.sweepHalted, writer := m.writer
      huntPending := m.huntPending, hunt := m.hunt, owed := m.owed, stats := m.stats }) : m.Ok := by
  rw [e]
  exact h.of_same rfl rfl rfl le_rfl rfl rfl

theorem Line.elapse_ok {l : Line} (h : l.Ok) (k : Nat) : (l.elapse k).Ok := h.aside rfl

/-! ### Node records -/

theorem Node.silence_inRange {x : Node} (h : x.InRange) : x.silence.InRange :=
  ⟨h.addr_low, h.addr_high, h.failures, h.joinProbes⟩

theorem Node.onHeard_inRange {x : Node} (h : x.InRange) (now : Word) : (x.onHeard now).InRange :=
  ⟨h.addr_low, h.addr_high, Nat.zero_le _, h.joinProbes⟩

theorem Node.onFailing_inRange {x : Node} (h : x.InRange) (t : Nat) : (x.onFailing t).InRange := by
  have g : Node.InRange { x with failures := min 15 (x.failures + 1) } :=
    ⟨h.addr_low, h.addr_high, Nat.min_le_left _ _, h.joinProbes⟩
  unfold Node.onFailing
  simp only
  split
  · exact Node.silence_inRange g
  · exact g

theorem Node.onFailing_addr (x : Node) (t : Nat) : (x.onFailing t).addr = x.addr := by
  unfold Node.onFailing
  simp only
  split <;> rfl

theorem Node.onAlert_shape (v : Verdict) (x : Node) :
    ∃ a b, x.onAlert v = { x with alertReported := a, alertOwed := b } := by
  cases v <;> simp only [Node.onAlert]
  case goodAlert =>
    split
    · exact ⟨_, _, rfl⟩
    · exact ⟨_, _, rfl⟩
  all_goals exact ⟨_, _, rfl⟩

theorem Node.onHealth_inRange {x : Node} (h : x.InRange) (now : Word) (t : Nat) (v : Verdict) :
    (x.onHealth now t v).InRange := by
  unfold Node.onHealth
  split
  · exact Node.onHeard_inRange h now
  · split
    · exact Node.onFailing_inRange h t
    · exact h

theorem Node.onHealth_addr (x : Node) (now : Word) (t : Nat) (v : Verdict) : (x.onHealth now t v).addr = x.addr := by
  unfold Node.onHealth
  split
  · rfl
  · split
    · exact Node.onFailing_addr x t
    · rfl

/-- A verdict keeps a record's address and its ranges. -/
theorem Node.onVerdict_spec (now : Word) (p : Profile) (b : Bool) (v : Verdict) (x : Node) :
    (x.onVerdict now p b v).addr = x.addr ∧ (x.InRange → (x.onVerdict now p b v).InRange) := by
  unfold Node.onVerdict
  simp only
  generalize hc : (b && x.state == NodeState.joining) = counted
  have hy : ∃ y : Node, (if counted then { x with joinProbes := min 15 (x.joinProbes + 1) } else x) = y ∧
      y.addr = x.addr ∧ (x.InRange → y.InRange) := by
    refine ⟨_, rfl, ?_⟩
    split
    · exact ⟨rfl, fun h => ⟨h.addr_low, h.addr_high, h.failures, Nat.min_le_left _ _⟩⟩
    · exact ⟨rfl, id⟩
  obtain ⟨y, e, ha, hi⟩ := hy
  rw [e]
  obtain ⟨a, o, hz⟩ := Node.onAlert_shape v (y.onHealth now p.failThreshold v)
  rw [hz]
  have hA : (y.onHealth now p.failThreshold v).addr = x.addr := (Node.onHealth_addr _ _ _ _).trans ha
  have hI (h : x.InRange) : (y.onHealth now p.failThreshold v).InRange := Node.onHealth_inRange (hi h) _ _ _
  split
  · exact ⟨hA, fun h => ⟨(hI h).addr_low, (hI h).addr_high, (hI h).failures, (hI h).joinProbes⟩⟩
  · exact ⟨hA, fun h => ⟨(hI h).addr_low, (hI h).addr_high, (hI h).failures, (hI h).joinProbes⟩⟩

theorem Node.roundPass_spec (p : Profile) (x : Node) :
    (x.roundPass p).addr = x.addr ∧ (x.InRange → (x.roundPass p).InRange) := by
  unfold Node.roundPass
  split
  · exact ⟨rfl, fun h => ⟨h.addr_low, h.addr_high, h.failures, h.joinProbes⟩⟩
  · split
    · exact ⟨rfl, Node.silence_inRange⟩
    · exact ⟨rfl, id⟩
  · exact ⟨rfl, id⟩
  · exact ⟨rfl, id⟩

theorem Node.bar_spec (x : Node) : x.bar.addr = x.addr ∧ (x.InRange → x.bar.InRange) := by
  unfold Node.bar
  split
  · exact ⟨rfl, id⟩
  · exact ⟨rfl, fun h => ⟨h.addr_low, h.addr_high, h.failures, h.joinProbes⟩⟩

theorem Node.unbar_spec (x : Node) : x.unbar.addr = x.addr ∧ (x.InRange → x.unbar.InRange) := by
  unfold Node.unbar
  split
  · exact ⟨rfl, fun h => ⟨h.addr_low, h.addr_high, Nat.zero_le _, Nat.zero_le _⟩⟩
  · exact ⟨rfl, id⟩

/-! ### The end of an exchange -/

/-- The hand-on of a hunt step touches the hunt, the owed HUNT_EMPTY and the mark of a current hunt step. -/
theorem Line.huntStepEnd_eq (x : Ctx) (c : Current) (l : Line) :
    ∃ h p o d, l.huntStepEnd x c = { l with hunt := h, huntPending := p, owed := o, current := d } ∧
      d.map Current.huntless = l.current.map Current.huntless := by
  unfold Line.huntStepEnd
  split
  · split
    · split
      · exact ⟨_, _, _, _, rfl, rfl⟩
      · obtain ⟨h1, o1, c1, e1, hc1⟩ := l.huntEmpty_eq
        obtain ⟨h2, p2, o2, c2, e2, hc2⟩ := Line.activateHunt_eq x { l with hunt := h1, owed := o1, current := c1 }
        rw [e1, e2]
        exact ⟨_, _, _, _, rfl, hc2.trans hc1⟩
    · exact ⟨_, _, _, _, rfl, rfl⟩
  · exact ⟨_, _, _, _, rfl, rfl⟩

/-- An exchange that ends leaves the engine IDLE with no current exchange, and the run state, the queue, the roster, the
sweep table and the statistics as they were. -/
theorem Line.endExchange_spec (x : Ctx) (c : Current) (o : ExOutcome) (l : Line) :
    (l.endExchange x c o).engine = .idle ∧ (l.endExchange x c o).current = none ∧
    (l.endExchange x c o).run = l.run ∧ (l.endExchange x c o).waiting = l.waiting ∧
    (l.endExchange x c o).ended = l.ended ∧ (l.endExchange x c o).roster = l.roster ∧
    (l.endExchange x c o).sweep = l.sweep ∧ (l.endExchange x c o).stats = l.stats ∧
    (l.endExchange x c o).abandon = l.abandon := by
  unfold Line.endExchange
  simp only
  split
  · exact ⟨rfl, rfl, rfl, rfl, rfl, rfl, rfl, rfl, rfl⟩
  · split
    · exact ⟨rfl, rfl, rfl, rfl, rfl, rfl, rfl, rfl, rfl⟩
    · next i r h g =>
      obtain ⟨w, e⟩ := Line.queueSlot_eq { l with engine := .idle, current := none, att := Attempt.clear, turn := .routine }
        i r (c.slotBody x.now)
      rw [e]
      exact ⟨rfl, rfl, rfl, rfl, rfl, rfl, rfl, rfl, rfl⟩
  · exact ⟨rfl, rfl, rfl, rfl, rfl, rfl, rfl, rfl, rfl⟩
  · obtain ⟨h1, p1, o1, c1, e1, hc1⟩ := Line.huntStepEnd_eq x c
      { l with engine := .idle, current := none, att := Attempt.clear }
    rw [e1]
    have : c1 = none := by
      cases c1 <;> simp_all
    exact ⟨rfl, this, rfl, rfl, rfl, rfl, rfl, rfl, rfl⟩
  · exact ⟨rfl, rfl, rfl, rfl, rfl, rfl, rfl, rfl, rfl⟩

theorem Line.endExchange_ok {l : Line} (h : l.Ok) (g : ¬(l.run = .quiet ∨ l.run = .faulted)) (x : Ctx) (c : Current)
    (o : ExOutcome) : (l.endExchange x c o).Ok := by
  obtain ⟨h1, h2, h3, h4, h5, h6, h7, -, -⟩ := l.endExchange_spec x c o
  refine h.change (by rw [h1, h2]; rfl) (by rw [h3]; exact fun q => absurd q g) ?_ (by rw [h6]; exact h.roster)
    (by rw [h6]) h7
  simp [Line.depth, h4, h5]

/-- A cut-off leaves the engine OFF with no current exchange, and the rest of the line's work as it was. -/
theorem Line.cutOff_spec (x : Ctx) (o : ExOutcome) (l : Line) :
    (l.cutOff x o).engine = .off ∧ (l.cutOff x o).current = none ∧ (l.cutOff x o).run = l.run ∧
    (l.cutOff x o).waiting = l.waiting ∧ (l.cutOff x o).ended = l.ended ∧ (l.cutOff x o).roster = l.roster ∧
    (l.cutOff x o).sweep = l.sweep ∧ (l.cutOff x o).stats = l.stats := by
  unfold Line.cutOff
  split
  · next hc => exact ⟨rfl, hc, rfl, rfl, rfl, rfl, rfl, rfl⟩
  · split <;> exact ⟨rfl, rfl, rfl, rfl, rfl, rfl, rfl, rfl⟩

/-! ### Verdicts -/

/-- A verdict's record updates: the line keeps its engine, run state and queue, and has the exchange with its result. -/
theorem Line.takeVerdict_spec (x : Ctx) (c : Current) (v : Verdict) (r : Option Reply) (t : Option Word) (l : Line) :
    (l.takeVerdict x c v r t).1.current = some (l.takeVerdict x c v r t).2 ∧
    (l.takeVerdict x c v r t).1.run = l.run ∧ (l.takeVerdict x c v r t).1.engine = l.engine ∧
    (l.takeVerdict x c v r t).1.depth = l.depth ∧ (l.takeVerdict x c v r t).1.sweep = l.sweep ∧
    (l.takeVerdict x c v r t).1.roster.map (·.addr) = l.roster.map (·.addr) ∧
    (RosterOk l.roster → RosterOk (l.takeVerdict x c v r t).1.roster) := by
  refine ⟨rfl, rfl, rfl, rfl, rfl, ?_, ?_⟩
  · simp only [Line.takeVerdict]
    split
    · rfl
    · exact map_addr_updateNode _ _ _ fun y => (Node.onVerdict_spec _ _ _ _ y).1
  · intro h
    simp only [Line.takeVerdict]
    split
    · exact h
    · exact h.update _ _ (fun y => (Node.onVerdict_spec _ _ _ _ y).1) fun y => (Node.onVerdict_spec _ _ _ _ y).2

theorem Line.onVerdict_ok {l : Line} (h : l.Ok) (g : ¬(l.run = .quiet ∨ l.run = .faulted)) (hw : l.engine.working = true)
    (x : Ctx) (c : Current) (v : Verdict) (r : Option Reply) (t : Option Word) : (l.onVerdict x c v r t).Ok := by
  obtain ⟨h1, h2, h3, h4, h5, h6, h7⟩ := l.takeVerdict_spec x c v r t
  unfold Line.onVerdict
  generalize hk : l.takeVerdict x c v r t = kc at h1 h2 h3 h4 h5 h6 h7
  obtain ⟨k, c1⟩ := kc
  simp only at h1 h2 h3 h4 h5 h6 h7 ⊢
  have ok : k.Ok := h.change (by rw [h3, h1, hw]; rfl) (by rw [h2]; exact fun q => absurd q g) h4.le (h7 h.roster) h6 h5
  split
  · refine ok.change (by simp [Line.enterLead, h1, Engine.working]) ?_ le_rfl ok.roster rfl rfl
    intro q
    exact absurd (h2 ▸ q) g
  · exact Line.endExchange_ok ok (by rw [h2]; exact g) x c1 _

theorem Line.attemptOver_ok {l : Line} (h : l.Ok) (g : ¬(l.run = .quiet ∨ l.run = .faulted)) (hw : l.engine.working = true)
    (x : Ctx) (c : Current) (v : Verdict) (t : Option Word) : (l.attemptOver x c v t).Ok := by
  obtain ⟨h1, h2, h3, h4, h5, h6, h7⟩ := l.takeVerdict_spec x c v none t
  refine (h.change (by rw [h3, h1, hw]; rfl) (by rw [h2]; exact fun q => absurd q g) h4.le (h7 h.roster) h6 h5).change
    (by simp [Line.attemptOver, Line.enterLead, h1, Engine.working]) ?_ le_rfl (h7 h.roster) rfl rfl
  intro q
  exact absurd (h2 ▸ q) g

/-! ### The engine's happenings -/

/-- An operation of the engine that only acts on a current exchange keeps a sound line sound if it does so then. -/
theorem Line.Ok.busy {l : Line} (h : l.Ok) (hc : l.current.isSome = true) :
    ¬(l.run = .quiet ∨ l.run = .faulted) ∧ l.engine.working = true :=
  ⟨h.going hc, by rw [h.engine.current, hc]⟩

/-- Another working engine state with a current exchange. -/
theorem Line.Ok.workOn {l m : Line} (h : l.Ok) (hc : l.current.isSome = true) (h1 : m.engine.working = true)
    (h2 : m.current.isSome = true) (h3 : m.run = l.run) (h4 : m.depth = l.depth) (h5 : m.roster = l.roster)
    (h6 : m.sweep = l.sweep) : m.Ok :=
  h.change (by rw [h1, h2]) (by rw [h3]; exact fun q => absurd q (h.going hc)) h4.le (by rw [h5]; exact h.roster)
    (by rw [h5]) h6

theorem Line.leadComplete_ok {l : Line} (h : l.Ok) (x : Ctx) : (l.leadComplete x).Ok := by
  unfold Line.leadComplete
  split
  · exact h
  · next c hc =>
    have hs : l.current.isSome = true := by simp [hc]
    split
    · exact Line.endExchange_ok h (h.going hs) x c _
    · exact h.workOn hs rfl rfl rfl rfl rfl rfl

theorem Line.headerDriven_ok {l : Line} (h : l.Ok) (c : Current) : (l.headerDriven c).Ok := by
  unfold Line.headerDriven
  have ho : Line.Ok { l with att := { l.att with headerDone := true } } := h.aside rfl
  refine ho.withRoster ?_ ?_
  · split
    · exact h.roster.update _ _ (fun _ => rfl) fun _ g => ⟨g.addr_low, g.addr_high, g.failures, g.joinProbes⟩
    · exact h.roster
  · split
    · exact map_addr_updateNode _ _ _ fun _ => rfl
    · rfl

theorem Line.withHeader_ok {l : Line} (h : l.Ok) (c : Current) :
    (l.withHeader c).Ok ∧ (l.withHeader c).current = l.current ∧ (l.withHeader c).engine = l.engine ∧
      (l.withHeader c).run = l.run := by
  unfold Line.withHeader
  split
  · exact ⟨h, rfl, rfl, rfl⟩
  · exact ⟨Line.headerDriven_ok h c, rfl, rfl, rfl⟩

theorem Line.headerEnd_ok {l : Line} (h : l.Ok) : l.headerEnd.Ok := by
  unfold Line.headerEnd
  split
  · exact h
  · exact Line.headerDriven_ok h _

theorem Line.collide_ok {l : Line} (h : l.Ok) (x : Ctx) : (l.collide x).Ok := by
  unfold Line.collide
  split
  · exact h
  · next c hc =>
    obtain ⟨g, h1, h2, h3⟩ := Line.withHeader_ok h c
    have hs : (l.withHeader c).current.isSome = true := by simp [h1, hc]
    exact Line.onVerdict_ok g (g.busy hs).1 (g.busy hs).2 _ _ _ _ _

theorem Line.frameEnd_ok {l : Line} (h : l.Ok) (x : Ctx) : (l.frameEnd x).Ok := by
  unfold Line.frameEnd
  split
  · exact h
  · next c hc =>
    obtain ⟨g, h1, h2, h3⟩ := Line.withHeader_ok h c
    have hs : (l.withHeader c).current.isSome = true := by simp [h1, hc]
    simp only
    split
    · exact Line.onVerdict_ok g (g.busy hs).1 (g.busy hs).2 _ _ _ _ _
    · exact g.workOn hs rfl hs rfl rfl rfl rfl

theorem Line.windowEnd_ok {l : Line} (h : l.Ok) (x : Ctx) : (l.windowEnd x).Ok := by
  unfold Line.windowEnd
  split
  · exact h
  · next c hc =>
    have hs : l.current.isSome = true := by simp [hc]
    exact Line.onVerdict_ok h (h.busy hs).1 (h.busy hs).2 _ _ _ _ _

theorem Line.gapEnd_ok {l : Line} (h : l.Ok) (x : Ctx) : (l.gapEnd x).Ok := by
  unfold Line.gapEnd
  split
  · exact h
  · next c hc =>
    have hs : l.current.isSome = true := by simp [hc]
    exact Line.onVerdict_ok h (h.busy hs).1 (h.busy hs).2 _ _ _ _ _

theorem Line.replyBegin_ok {l : Line} (h : l.Ok) (hc : l.current.isSome = true) : l.replyBegin.Ok :=
  h.workOn hc rfl hc rfl rfl rfl rfl

theorem Line.replyCharacter_ok {l : Line} (h : l.Ok) (x : Ctx) (ch : RxChar) : (l.replyCharacter x ch).Ok := by
  unfold Line.replyCharacter
  split
  · exact h
  · next c hc =>
    have hs : l.current.isSome = true := by simp [hc]
    have ho : Line.Ok { l with att := l.att.takeChar l.profile.parity ch, wire := l.wire.sampled l.profile ch (l.att.sampleAge l.profile) } := h.aside rfl
    simp only
    split
    · exact Line.onVerdict_ok ho (ho.busy hs).1 (ho.busy hs).2 _ _ _ _ _
    · exact ho

theorem Line.countPulse_ok {l : Line} (h : l.Ok) : l.countPulse.Ok := h.aside rfl

theorem Line.longSpaceEffect_ok {l : Line} (h : l.Ok) (x : Ctx) : (l.longSpaceEffect x).Ok := by
  have hk : l.countPulse.Ok := Line.countPulse_ok h
  unfold Line.longSpaceEffect
  simp only
  split
  · exact h
  · exact h
  · exact hk
  · exact hk
  · exact hk.aside rfl
  · split
    · next c hc =>
      have hs : l.countPulse.current.isSome = true := by simp [Line.countPulse, hc]
      exact Line.onVerdict_ok hk (hk.busy hs).1 (hk.busy hs).2 _ _ _ _ _
    · exact hk
  · split
    · next c hc =>
      have hs : l.countPulse.current.isSome = true := by simp [Line.countPulse, hc]
      exact Line.onVerdict_ok hk (hk.busy hs).1 (hk.busy hs).2 _ _ _ _ _
    · exact hk

theorem Line.becomeFaulted_ok {l : Line} (h : l.Ok) (x : Ctx) : (l.becomeFaulted x).Ok := by
  obtain ⟨h1, h2, -, h4, h5, h6, h7, -⟩ := l.cutOff_spec x .lineFault
  refine h.change ?_ (fun _ => h1) ?_ ?_ ?_ h7
  · change (l.cutOff x .lineFault).engine.working = (l.cutOff x .lineFault).current.isSome
    rw [h1, h2]
    rfl
  · have : ((l.cutOff x .lineFault).markAll .lineFault x.now).depth = l.depth := by
      rw [Line.depth_markAll]
      simp [Line.depth, h4, h5]
    exact this.le
  · exact h6 ▸ h.roster
  · exact congrArg _ h6

theorem Line.lineActivity_ok {l : Line} (h : l.Ok) (x : Ctx) (a : Activity) : (l.lineActivity x a).Ok := by
  have hk (w : Wire) (t : Attempt) : Line.Ok { l with wire := w, att := t } := h.aside rfl
  have hw (w : Wire) : Line.Ok { l with wire := w } := h.aside rfl
  unfold Line.lineActivity
  split
  · split
    · exact h
    · simp only
      split <;> first | exact hk _ _ | exact hw _ | skip
      split
      · exact hk _ _
      · exact hw _
  · split
    · simp only
      split <;> exact hk _ _
    · exact h
  · simp only
    split <;> first | exact hk _ _ | exact hw _ | skip
    split
    · next c hc =>
      split
      · have hs : (({ l with wire := Wire.idle } : Line)).current.isSome = true := by simp [hc]
        exact Line.onVerdict_ok (hw _) ((hw Wire.idle).busy hs).1 ((hw Wire.idle).busy hs).2 _ _ _ _ _
      · exact hk _ _
    · exact hw _

/-- Activity on a line whose engine is OFF leaves it OFF. -/
theorem Line.lineActivity_off {l : Line} (h : l.engine = .off) (x : Ctx) (a : Activity) :
    (l.lineActivity x a).engine = .off := by
  unfold Line.lineActivity
  split
  · split
    · exact h
    · simp [h]
  · split
    · simp [h]
    · exact h
  · simp [h]

/-! ### Rounds -/

/-- MISSED writes touch the writer alone. -/
theorem Line.foldl_queueSlot_eq (due : List Nat) (r : Word) (b : SlotBody) (l : Line) :
    ∃ w, due.foldl (fun k i => k.queueSlot i r b) l = { l with writer := w } := by
  induction due generalizing l with
  | nil => exact ⟨l.writer, rfl⟩
  | cons i is ih =>
    obtain ⟨w, e⟩ := l.queueSlot_eq i r b
    obtain ⟨v, g⟩ := ih { l with writer := w }
    exact ⟨v, by rw [List.foldl_cons, e, g]⟩

theorem Line.overrun_ok {l : Line} (h : l.Ok) (x : Ctx) : (l.overrun x).Ok ∧ (l.overrun x).roster = l.roster ∧
    (l.overrun x).engine = l.engine ∧ (l.overrun x).run = l.run := by
  obtain ⟨w, e⟩ := Line.foldl_queueSlot_eq l.due l.round (.nonWire .missed x.now) l
  unfold Line.overrun
  rw [e]
  refine ⟨h.of_same rfl ?_ rfl le_rfl rfl rfl, rfl, rfl, rfl⟩
  cases l.current <;> rfl

theorem Line.startRound_ok {l : Line} (h : l.Ok) (x : Ctx) (r : Word) :
    (l.startRound x r).Ok ∧ (l.startRound x r).engine = l.engine ∧ (l.startRound x r).run = l.run := by
  have hk : ∃ k : Line, (if l.due.isEmpty then l else l.overrun x) = k ∧ k.Ok ∧ k.engine = l.engine ∧ k.run = l.run := by
    refine ⟨_, rfl, ?_⟩
    split
    · exact ⟨h, rfl, rfl⟩
    · obtain ⟨a, -, c, d⟩ := Line.overrun_ok h x
      exact ⟨a, c, d⟩
  obtain ⟨k, e, ok, he, hr⟩ := hk
  unfold Line.startRound
  simp only [e]
  refine ⟨?_, he, hr⟩
  refine ok.change ok.engine.current ok.engine.resting le_rfl ?_ ?_ rfl
  · exact ok.roster.map _ (fun y _ => (Node.roundPass_spec _ y).1) fun y _ => (Node.roundPass_spec _ y).2
  · simp only [List.map_map]
    exact List.map_congr_left fun y _ => (Node.roundPass_spec _ y).1

/-! ### Power -/

theorem Line.takeTarget_ok {l : Line} (h : l.Ok) (x : Ctx) : (l.takeTarget x).Ok := h.aside rfl

theorem Line.retarget_ok {l : Line} (h : l.Ok) (x : Ctx) : (l.retarget x).Ok ∧ (l.retarget x).engine = l.engine := by
  unfold Line.retarget
  split
  · exact ⟨Line.takeTarget_ok h x, rfl⟩
  · exact ⟨Line.takeTarget_ok h x, rfl⟩
  · split
    · exact ⟨h.aside rfl, rfl⟩
    · split
      · exact ⟨h.aside rfl, rfl⟩
      · exact ⟨h, rfl⟩
  · split
    · exact ⟨h.aside rfl, rfl⟩
    · split
      · exact ⟨h.aside rfl, rfl⟩
      · exact ⟨h, rfl⟩

theorem Line.unpark_ok {l : Line} (h : l.Ok) (x : Ctx) : (l.unpark x).Ok := by
  unfold Line.unpark
  split
  · next he =>
    have hc := h.free (by rw [he]; rfl)
    have ho : Line.Ok { l with engine := .idle } :=
      h.change (by simp [hc, Engine.working]) (fun q => absurd q (h.awake (by simp [he]))) le_rfl h.roster rfl rfl
    exact (Line.startRound_ok ho x _).1
  · exact h

theorem Line.dropHunt_ok {l : Line} (h : l.Ok) : l.dropHunt.Ok := by
  refine h.of_same rfl ?_ rfl le_rfl rfl rfl
  simp only [Line.dropHunt]
  cases l.current <;> rfl

theorem Line.dozeCurrent_ok {l : Line} (h : l.Ok) (x : Ctx) : (l.dozeCurrent x).Ok := by
  unfold Line.dozeCurrent
  split
  · exact h
  · next c hc =>
    split
    · exact Line.endExchange_ok h (h.going (by simp [hc])) x c _
    · exact h

theorem Line.enterDoze_ok {l : Line} (h : l.Ok) (x : Ctx) : (l.enterDoze x).Ok := by
  unfold Line.enterDoze
  split
  · have h1 : l.dropRound.Ok := h.aside rfl
    exact Line.dozeCurrent_ok (Line.dropHunt_ok h1) x
  · exact h

/-! ### The part's fault and resets -/

theorem Line.partFault_ok {l : Line} (h : l.Ok) : l.partFault.Ok ∧ l.partFault.engine = .off := by
  refine ⟨h.change rfl (fun _ => rfl) ?_ h.roster rfl rfl, rfl⟩
  simp [Line.partFault, Line.depth]

theorem Line.reset_ok : Line.reset.Ok := by
  refine ⟨⟨rfl, fun _ => rfl⟩, Nat.zero_le _, ⟨List.Pairwise.nil, Nat.zero_le _, ?_⟩, ?_⟩
  · intro x hx
    cases hx
  · intro i e he
    have : Line.reset.sweepAt i = none := by
      unfold Line.sweepAt Line.reset
      rw [Vector.getElem?_replicate]
      split <;> rfl
    rw [this] at he
    cases he

theorem Line.resetKeepingPin_ok (l : Line) : l.resetKeepingPin.Ok ∧ l.resetKeepingPin.engine = .off :=
  ⟨Line.reset_ok.aside rfl, rfl⟩

/-! ### Entries and slot writes -/

theorem Line.insertEntry_ok {l : Line} (h : l.Ok) (hd : l.depth < 16) (e : RawExchange) : (l.insertEntry e).Ok := by
  refine ⟨⟨h.engine.current, h.engine.resting⟩, ?_, h.roster, h.sweep⟩
  simp only [Line.insertEntry, Line.depth, List.length_append, List.length_singleton] at hd ⊢
  omega

theorem Line.bodyWritten_ok {l : Line} (h : l.Ok) : l.bodyWritten.Ok ∧ l.bodyWritten.engine = l.engine := by
  unfold Line.bodyWritten
  split
  · exact ⟨h.aside rfl, rfl⟩
  · exact ⟨h, rfl⟩

theorem Line.stampWritten_ok {l : Line} (h : l.Ok) : l.stampWritten.Ok ∧ l.stampWritten.engine = l.engine :=
  ⟨h.aside rfl, rfl⟩

theorem Line.sweepFault_ok {l : Line} (h : l.Ok) : l.sweepFault.Ok ∧ l.sweepFault.engine = l.engine :=
  ⟨h.aside rfl, rfl⟩

end Sys2Proof.Machine
end

