-- ==== Sys2Proof/Laws/Admin.lean ====
section
/-! SUPPORT. What the administrative commands do on their line: rosters and sweep tables under edits, and that each command
keeps a sound line sound. -/

namespace Sys2Proof.Machine

/-! ### Roster edits -/

/-- The record at an address is on the roster under that address. -/
theorem findNode_some {r : List Node} {a : Nat} {x : Node} (h : findNode r a = some x) : x ∈ r ∧ x.addr = a := by
  exact ⟨List.mem_of_find?_eq_some h, by simpa using List.find?_some h⟩

/-- No record is at an address exactly when the roster does not hold the address. -/
theorem findNode_none {r : List Node} {a : Nat} : findNode r a = none ↔ a ∉ r.map (·.addr) := by
  unfold findNode
  rw [List.find?_eq_none]
  simp

theorem mem_insertNode {x y : Node} {r : List Node} : y ∈ insertNode x r ↔ y = x ∨ y ∈ r := by
  induction r with
  | nil => simp [insertNode]
  | cons z r ih =>
    unfold insertNode
    split
    · simp
    · simp [ih]
      tauto

theorem length_insertNode (x : Node) (r : List Node) : (insertNode x r).length = r.length + 1 := by
  induction r with
  | nil => rfl
  | cons z r ih =>
    unfold insertNode
    split
    · rfl
    · simp [ih]

theorem insertNode_ascending {x : Node} {r : List Node} (h : r.Pairwise fun x y => x.addr < y.addr)
    (ha : x.addr ∉ r.map (·.addr)) : (insertNode x r).Pairwise fun x y => x.addr < y.addr := by
  induction r with
  | nil => simp [insertNode]
  | cons z r ih =>
    rw [List.pairwise_cons] at h
    simp only [List.map_cons, List.mem_cons, not_or] at ha
    unfold insertNode
    split
    · next hz =>
      rw [List.pairwise_cons, List.pairwise_cons]
      refine ⟨?_, h⟩
      intro y hy
      rcases List.mem_cons.1 hy with rfl | hy
      · exact hz
      · exact hz.trans (h.1 y hy)
    · next hz =>
      rw [List.pairwise_cons]
      refine ⟨?_, ih h.2 ha.2⟩
      intro y hy
      rcases mem_insertNode.1 hy with rfl | hy
      · omega
      · exact h.1 y hy

/-- A new record at an address that the roster does not hold keeps a roster with room. -/
theorem RosterOk.insert {r : List Node} (h : RosterOk r) {x : Node} (hx : x.InRange) (ha : findNode r x.addr = none)
    (hl : r.length < 32) : RosterOk (insertNode x r) := by
  refine ⟨insertNode_ascending h.ascending (findNode_none.1 ha), by rw [length_insertNode]; omega, ?_⟩
  intro y hy
  rcases mem_insertNode.1 hy with rfl | hy
  · exact hx
  · exact h.inRange y hy

theorem RosterOk.remove {r : List Node} (h : RosterOk r) (a : Nat) : RosterOk (removeNode r a) :=
  ⟨h.ascending.filter _, (List.length_filter_le _ _).trans h.room, fun x hx => h.inRange x (List.mem_filter.1 hx).1⟩

/-! ### The sweep table -/

/-- The entry read at an index after one is replaced. -/
theorem Line.sweepAt_putSweep (l : Line) (i j : Nat) (e : Option SweepEntry) (hi : i < 48) :
    (l.putSweep i e).sweepAt j = if j = i then e else l.sweepAt j := by
  unfold Line.sweepAt Line.putSweep
  simp only [Vector.getElem?_setIfInBounds]
  by_cases h : j = i
  · subst h
    simp [hi]
  · rw [if_neg (fun g => h g.symm), if_neg h]

/-- A set entry names a node that the search of the table finds. -/
theorem Line.sweepNames_of_sweepAt {l : Line} {i : Nat} {e : SweepEntry} (h : l.sweepAt i = some e) :
    l.sweepNames e.node = true := by
  unfold Line.sweepAt at h
  cases hg : l.sweep[i]? with
  | none => simp [hg] at h
  | some o =>
    simp only [hg, Option.join_some] at h
    subst h
    unfold Line.sweepNames
    rw [List.any_eq_true]
    refine ⟨some e, ?_, by simp⟩
    rw [Vector.mem_toList_iff]
    exact Vector.mem_of_getElem? hg

/-! ### Each command keeps a sound line sound -/

theorem Line.setupCmd_ok {l m : Line} {b u : RawProfile} {y : AdminBody} (h : l.Ok)
    (e : l.setupCmd b u = .ok (m, y)) : m.Ok := by
  unfold Line.setupCmd at e
  split at e
  · cases e
  · cases e
    exact h.aside rfl

theorem Line.start_ok {l : Line} (h : l.Ok) (x : Ctx) (hq : l.run = .quiet) : (l.start x).Ok := by
  have hc := h.free (by rw [h.engine.resting (.inl hq)]; rfl)
  have hk : Line.Ok { l with run := .running, engine := .idle, inForce := .brisk, pace := .start, sweepHalted := false,
                             hunt := none } :=
    h.change (by simp [hc, Engine.working]) (by simp) le_rfl h.roster rfl rfl
  exact (Line.activateHunt_works x _).ok (Line.startRound_ok hk x 1).1

theorem Line.startCmd_ok {l m : Line} {x : Ctx} {y : AdminBody} (h : l.Ok) (hq : l.run = .quiet)
    (e : l.startCmd x = .ok (m, y)) : m.Ok := by
  unfold Line.startCmd at e
  split at e
  · cases e
  · split at e
    · cases e
    · cases e
      exact Line.start_ok h x hq

theorem Line.abandonCurrent_ok {l : Line} (h : l.Ok) (x : Ctx) : (l.abandonCurrent x).Ok := by
  unfold Line.abandonCurrent
  split
  · exact h
  · next c hc =>
    split
    · exact Line.endExchange_ok h (h.going (by simp [hc])) x c _
    · exact h

theorem Line.concludeStop_ok {l : Line} (h : l.Ok) (x : Ctx) : (l.concludeStop x).Ok := by
  unfold Line.concludeStop
  split
  · have ha := Line.abandonCurrent_ok h x
    refine (Line.drainEnd_works x _).ok ?_
    split
    · exact ha.of_same rfl rfl rfl (Line.depth_markAll _ _ _).le rfl rfl
    · exact ha
  · exact (Line.drainEnd_works x _).ok h

theorem Line.stopCmd_ok {l m : Line} {x : Ctx} {form : Byte} {y : AdminBody} (h : l.Ok)
    (e : l.stopCmd x form = .ok (m, y)) : m.Ok := by
  unfold Line.stopCmd at e
  split at e
  · cases e
  · split at e
    · next hr =>
      cases e
      refine Line.concludeStop_ok ?_ x
      have h1 : l.dropRound.Ok := h.aside rfl
      have h2 := Line.dropHunt_ok h1
      exact h2.change h2.engine.current (by simp) le_rfl h2.roster rfl rfl
    · split at e
      · cases e
        exact Line.concludeStop_ok (h.aside rfl) x
      · cases e
        exact h

theorem Line.resetLine_ok {l : Line} (h : l.Ok) (x : Ctx) : (l.resetLine x).Ok := by
  obtain ⟨h1, h2, -, h4, h5, h6, h7, -⟩ := l.cutOff_spec x .flushed
  refine h.change ?_ (fun _ => h1) ?_ ?_ ?_ h7
  · change (l.cutOff x .flushed).engine.working = ((l.cutOff x .flushed).current.map _).isSome
    rw [h1, h2]
    rfl
  · have hd : ((l.cutOff x .flushed).markAll .flushed x.now).depth = l.depth := by
      rw [Line.depth_markAll]
      simp [Line.depth, h4, h5]
    refine le_of_eq (Eq.trans ?_ hd)
    simp [Line.resetLine, Line.depth, Line.takeTarget, Line.dropHunt, Line.dropRound]
  · exact h6 ▸ h.roster
  · exact congrArg _ h6

theorem addressOk_iff (a : Byte) : addressOk a = true ↔ 1 ≤ a.toNat ∧ a.toNat ≤ 62 := by
  unfold addressOk
  rw [Bool.and_eq_true, decide_eq_true_eq, decide_eq_true_eq]
  rfl

theorem Line.nodeAddCmd_ok {l m : Line} {a : Byte} {t : Bool} {y : AdminBody} (h : l.Ok)
    (e : l.nodeAddCmd a t = .ok (m, y)) : m.Ok := by
  unfold Line.nodeAddCmd at e
  split at e
  · cases e
  · next ha =>
    split at e
    · cases e
    · next hf =>
      split at e
      · cases e
      · next hl =>
        cases e
        have ha : 1 ≤ a.toNat ∧ a.toNat ≤ 62 := (addressOk_iff a).1 (by simpa using ha)
        replace hf : findNode l.roster a.toNat = none := Option.not_isSome_iff_eq_none.1 (by simpa using hf)
        simp only [Config.rosterCapacity, not_le] at hl
        refine ⟨⟨h.engine.current, h.engine.resting⟩, h.queue,
          h.roster.insert ⟨ha.1, ha.2, Nat.zero_le _, Nat.zero_le _⟩ hf hl, ?_⟩
        intro i s hs
        have := h.sweep i s hs
        rw [List.mem_map] at this ⊢
        obtain ⟨z, hz, hza⟩ := this
        exact ⟨z, mem_insertNode.2 (.inr hz), hza⟩

theorem Line.nodeRemoveCmd_ok {l m : Line} {a : Byte} {y : AdminBody} (h : l.Ok)
    (e : l.nodeRemoveCmd a = .ok (m, y)) : m.Ok := by
  unfold Line.nodeRemoveCmd at e
  split at e
  · cases e
  · split at e
    · cases e
    · split at e
      · cases e
      · next hu =>
        cases e
        refine ⟨⟨h.engine.current, h.engine.resting⟩, h.queue, h.roster.remove _, ?_⟩
        intro i s hs
        have hm := h.sweep i s hs
        rw [List.mem_map] at hm ⊢
        obtain ⟨z, hz, hza⟩ := hm
        refine ⟨z, List.mem_filter.2 ⟨hz, ?_⟩, hza⟩
        have hn := Line.sweepNames_of_sweepAt hs
        simp only [bne_iff_ne, ne_eq, hza]
        intro q
        rw [q] at hn
        rw [Bool.or_eq_true, not_or] at hu
        exact hu.1 hn

theorem Line.barCurrent_ok {l : Line} (h : l.Ok) (a : Nat) : (l.barCurrent a).Ok := by
  refine h.of_same rfl ?_ rfl le_rfl rfl rfl
  simp only [Line.barCurrent]
  cases l.current <;> rfl

theorem Line.nodeBarCmd_ok {l m : Line} {a : Byte} {y : AdminBody} (h : l.Ok)
    (e : l.nodeBarCmd a = .ok (m, y)) : m.Ok := by
  unfold Line.nodeBarCmd at e
  split at e
  · cases e
  · split at e
    · cases e
    · have hk : Line.Ok { l with roster := updateNode l.roster a.toNat Node.bar } :=
        h.withRoster (h.roster.update _ _ (fun x => (Node.bar_spec x).1) fun x => (Node.bar_spec x).2)
          (map_addr_updateNode _ _ _ fun x => (Node.bar_spec x).1)
      simp only [Except.ok.injEq, Prod.mk.injEq] at e
      rw [← e.1]
      split
      · exact hk
      · exact Line.barCurrent_ok hk _

theorem Line.nodeUnbarCmd_ok {l m : Line} {a : Byte} {y : AdminBody} (h : l.Ok)
    (e : l.nodeUnbarCmd a = .ok (m, y)) : m.Ok := by
  unfold Line.nodeUnbarCmd at e
  split at e
  · cases e
  · split at e
    · cases e
    · simp only [Except.ok.injEq, Prod.mk.injEq] at e
      rw [← e.1]
      exact h.withRoster (h.roster.update _ _ (fun x => (Node.unbar_spec x).1) fun x => (Node.unbar_spec x).2)
        (map_addr_updateNode _ _ _ fun x => (Node.unbar_spec x).1)

theorem Line.nodeQueryCmd_ok {l m : Line} {a : Byte} {y : AdminBody} (h : l.Ok)
    (e : l.nodeQueryCmd a = .ok (m, y)) : m.Ok := by
  unfold Line.nodeQueryCmd at e
  split at e
  · cases e
  · split at e
    · cases e
    · cases e
      exact h

theorem sweepFieldsOk_index {e : RawSweep} (h : sweepFieldsOk e = true) : e.index.toNat < 48 := by
  simp only [sweepFieldsOk, Bool.and_eq_true, decide_eq_true_eq] at h
  omega

theorem Line.sweepSetCmd_ok {l m : Line} {r : RawSweep} {y : AdminBody} (h : l.Ok)
    (e : l.sweepSetCmd r = .ok (m, y)) : m.Ok := by
  unfold Line.sweepSetCmd at e
  split at e
  · cases e
  · next hf =>
    split at e
    · cases e
    · next hn =>
      split at e
      · cases e
      · cases e
        have hi := sweepFieldsOk_index (by simpa using hf)
        refine ⟨⟨h.engine.current, h.engine.resting⟩, h.queue, h.roster, ?_⟩
        intro j s hs
        rw [Line.sweepAt_putSweep _ _ _ _ hi] at hs
        split at hs
        · cases hs
          cases hx : findNode l.roster r.node.toNat with
          | none => simp [hx] at hn
          | some x =>
            obtain ⟨hm, ha⟩ := findNode_some hx
            exact List.mem_map.2 ⟨x, hm, ha⟩
        · exact h.sweep j s hs

theorem Line.sweepClearCmd_ok {l m : Line} {i : Byte} {y : AdminBody} (h : l.Ok)
    (e : l.sweepClearCmd i = .ok (m, y)) : m.Ok := by
  unfold Line.sweepClearCmd at e
  split at e
  · cases e
  · next hi =>
    cases e
    refine ⟨⟨h.engine.current, h.engine.resting⟩, h.queue, h.roster, ?_⟩
    intro j s hs
    have hs' : (l.putSweep i.toNat none).sweepAt j = some s := hs
    rw [Line.sweepAt_putSweep _ _ _ _ (by omega)] at hs'
    split at hs'
    · cases hs'
    · exact h.sweep j s hs'

theorem Line.sweepImageCmd_ok {l m : Line} {b : Addr} {y : AdminBody} (h : l.Ok)
    (e : l.sweepImageCmd b = .ok (m, y)) : m.Ok := by
  unfold Line.sweepImageCmd at e
  split at e
  · cases e
  · cases e
    exact h.aside rfl

theorem Line.cancelCurrent_ok {l : Line} (h : l.Ok) (x : Ctx) : (l.cancelCurrent x).Ok := by
  unfold Line.cancelCurrent
  split
  · exact h
  · next c hc =>
    simp only
    split
    · exact Line.endExchange_ok h (h.going (by simp [hc])) x _ _
    · exact h.of_same rfl (by simp [hc]) rfl le_rfl rfl rfl

/-- The waiting entries with a tag and those without it are all the waiting entries. -/
theorem length_filter_tag (w : List QEntry) (t : Half) :
    (w.filter (·.tag != t)).length + (w.filter (·.tag == t)).length = w.length := by
  induction w with
  | nil => rfl
  | cons e w ih =>
    by_cases h : e.tag = t <;> simp [h] <;> omega

theorem Line.cancelCmd_ok {l m : Line} {x : Ctx} {t : Half} {y : AdminBody} (h : l.Ok)
    (e : l.cancelCmd x t = .ok (m, y)) : m.Ok := by
  have hk : Line.Ok { l with
      waiting := l.waiting.filter (·.tag != t)
      ended := l.ended ++ (l.waiting.filter (·.tag == t)).map fun e => ⟨e, .cancelled, x.now⟩ } := by
    refine h.of_same rfl rfl rfl ?_ rfl rfl
    have := length_filter_tag l.waiting t
    simp only [Line.depth, List.length_append, List.length_map]
    omega
  unfold Line.cancelCmd at e
  simp only at e
  split at e
  · cases e
    exact Line.cancelCurrent_ok hk x
  · cases e
    exact hk

theorem Line.queryCmd_ok {l m : Line} {c : Bool} {y : AdminBody} (h : l.Ok) (e : l.queryCmd c = .ok (m, y)) : m.Ok := by
  simp only [Line.queryCmd, Except.ok.injEq, Prod.mk.injEq] at e
  rw [← e.1]
  split
  · exact h.aside rfl
  · exact h

/-- Whatever command is executed on a line whose run state allows it, a sound line stays sound. -/
theorem AdminCmd.onLine_ok {c : AdminCmd} {x : Ctx} {l m : Line} {y : AdminBody} (h : l.Ok)
    (hr : c.runAllows l.run = true) (e : c.onLine x l = .ok (m, y)) : m.Ok := by
  cases c <;> simp only [AdminCmd.onLine] at e
  case lineSetup => exact Line.setupCmd_ok h e
  case lineStart => exact Line.startCmd_ok h (by simpa [AdminCmd.runAllows] using hr) e
  case lineStop => exact Line.stopCmd_ok h e
  case lineReset => cases e; exact Line.resetLine_ok h x
  case nodeAdd => exact Line.nodeAddCmd_ok h e
  case nodeRemove => exact Line.nodeRemoveCmd_ok h e
  case nodeBar => exact Line.nodeBarCmd_ok h e
  case nodeUnbar => exact Line.nodeUnbarCmd_ok h e
  case nodeQuery => exact Line.nodeQueryCmd_ok h e
  case sweepSet => exact Line.sweepSetCmd_ok h e
  case sweepClear => exact Line.sweepClearCmd_ok h e
  case sweepImage => exact Line.sweepImageCmd_ok h e
  case cancel => exact Line.cancelCmd_ok h e
  case lineQuery => exact Line.queryCmd_ok h e
  case power => cases e
  case unknown => cases e

/-! ### An admin entry as it is read -/

/-- The read of an admin entry completes with the command it carries, on a part that takes it. -/
theorem State.adminRead_reading {s : State} {a : Addr} (h : s.port.transfer = some (.entryRead .admin a))
    (h1 : s.softPending = false) (h2 : s.part = .running) (line : Byte) (tag : Half) (cmd : AdminCmd) :
    s.adminRead line tag cmd =
      some ({ s with port := { s.port with transfer := none } }.adminEntry line tag cmd) := by
  simp [State.adminRead, State.endTransfer, h, h1, h2]

end Sys2Proof.Machine
end

