-- ==== Sys2Proof/Laws/Part.lean ====
section
/-! SUPPORT. The operations over the whole part keep a sound part sound (State.Ok). -/

namespace Sys2Proof.Machine

/-! ### Building a sound part -/

/-- The part with the same lines, rings and setup, and a holding queue within its size. -/
theorem State.Ok.aside {s t : State} (h : s.Ok) (e : t = { s with
      faultReason := t.faultReason, setupError := t.setupError, resetCause := t.resetCause, resetLow := t.resetLow
      softPending := t.softPending, setupAddr := t.setupAddr, enables := t.enables, causes := t.causes
      timer := t.timer, power := t.power, fetch := t.fetch, admin := t.admin, cu := t.cu, port := t.port
      pending := t.pending }) (h1 : t.cu.holding.length ≤ 16) : t.Ok := by
  refine h.of_same ?_ ?_ h1 ?_ ?_ ?_ <;> rw [e]

/-- Every line is replaced by a sound one. -/
theorem State.Ok.onLines {s : State} {f : Ctx → Line → Line} (h : s.Ok) (hp : s.part = .running)
    (hf : ∀ x n, (f x (s.line n)).Ok) : (s.onLines f).Ok := by
  refine ⟨fun n => ?_, fun p => absurd hp p, h.holding, fun r => ?_⟩
  · rw [State.line_onLines]
    exact hf _ n
  · cases r with
    | admin => exact h.rings .admin
    | line n => exact h.rings (.line n)

/-- A line is replaced by a sound one, OFF if the part does not run. -/
theorem State.Ok.setLine {s : State} (h : s.Ok) {n : LineId} {l : Line} (hl : l.Ok)
    (ho : s.part ≠ .running → l.engine = .off) : (s.setLine n l).Ok := by
  refine ⟨fun m => ?_, fun p m => ?_, h.holding, fun r => by rw [State.ring_setLine]; exact h.rings r⟩
  · rw [State.line_setLine]
    split
    · exact hl
    · exact h.lines m
  · rw [State.line_setLine]
    split
    · exact ho p
    · exact h.stopped p m

/-- A line of a RUNNING part is replaced by a sound one. -/
theorem State.Ok.onLine {s : State} (h : s.Ok) {n : LineId} {f : Ctx → Line → Line} (hp : s.part = .running)
    (hf : ∀ x, (f x (s.line n)).Ok) : (s.onLine n f).Ok :=
  h.setLine (hf _) fun p => absurd hp p

/-- A ring is replaced by one within its size. -/
theorem State.Ok.setRing {s : State} (h : s.Ok) {r : RingId} {x : Ring} (hx : x.Ok (s.ringSize r)) :
    (s.setRing r x).Ok := by
  have hz (q : RingId) : (s.setRing r x).ringSize q = s.ringSize q := by simp [State.ringSize]
  refine ⟨fun n => by rw [State.line_setRing]; exact h.lines n, fun p n => ?_, ?_, fun q => ?_⟩
  · rw [State.line_setRing]
    exact h.stopped (by simpa using p) n
  · simpa using h.holding
  · rw [State.ring_setRing, hz]
    split
    · next e => rw [e]; exact hx
    · exact h.rings q

/-! ### Time -/

theorem State.elapse_ok {s : State} (h : s.Ok) (k : Nat) : (s.elapse k).Ok := by
  refine ⟨fun n => ?_, fun p n => ?_, h.holding, fun r => by rw [State.elapse_ring]; exact h.rings r⟩
  · rw [State.line_elapse]
    exact Line.elapse_ok (h.lines n) k
  · rw [State.line_elapse]
    exact h.stopped p n

/-- A happening of a line whose moment comes. -/
theorem State.moment_ok {s t : State} {n : LineId} {left : Line → Option Nat} {f : Ctx → Line → Line} (h : s.Ok)
    (hf : ∀ x l, l.Ok → l.current = (s.line n).current → (f x l).Ok) (e : s.moment n left f = some t) : t.Ok := by
  unfold State.moment at e
  split at e
  · next hp =>
    rw [Option.map_eq_some_iff] at e
    obtain ⟨k, -, rfl⟩ := e
    refine (State.elapse_ok h k).onLine hp fun x => ?_
    rw [State.line_elapse]
    exact hf x _ (Line.elapse_ok (h.lines n) k) rfl
  · cases e

/-! ### Resets and the part fault -/

theorem State.reset_ok : State.reset.Ok := by
  refine ⟨fun n => ?_, fun _ n => ?_, Nat.zero_le _, fun r => ?_⟩
  · fin_cases n <;> exact Line.reset_ok
  · fin_cases n <;> rfl
  · cases r with
    | admin => intro q; cases q
    | line n => intro q; fin_cases n <;> cases q

theorem State.resetAll_ok (s : State) (c : ResetCause) : (s.resetAll c).Ok := by
  refine ⟨fun n => ?_, fun _ n => ?_, Nat.zero_le _, fun r => ?_⟩
  · rw [show (s.resetAll c).line n = (s.line n).resetKeepingPin from Quad.get_mapIdx _ _ _]
    exact (Line.resetKeepingPin_ok _).1
  · rw [show (s.resetAll c).line n = (s.line n).resetKeepingPin from Quad.get_mapIdx _ _ _]
    exact (Line.resetKeepingPin_ok _).2
  · cases r with
    | admin => intro q; cases q
    | line n => intro q; fin_cases n <;> cases q

theorem State.hardReset_ok (s : State) : s.hardReset.Ok := (s.resetAll_ok .hard).aside rfl (Nat.zero_le _)

theorem State.softReset_ok (s : State) : s.softReset.Ok := (s.resetAll_ok .soft).aside rfl (Nat.zero_le _)

theorem State.requestSoftReset_ok {s : State} (h : s.Ok) : s.requestSoftReset.Ok := by
  unfold State.requestSoftReset
  split
  · exact s.softReset_ok
  · exact h.aside rfl h.holding

theorem State.partFault_ok {s : State} (h : s.Ok) (r : FaultReason) : (s.partFault r).Ok := by
  refine ⟨fun n => ?_, fun _ n => ?_, h.holding, fun q => ?_⟩
  · rw [show (s.partFault r).line n = (s.line n).partFault from Quad.get_mapIdx _ _ _]
    exact (Line.partFault_ok (h.lines n)).1
  · rw [show (s.partFault r).line n = (s.line n).partFault from Quad.get_mapIdx _ _ _]
    exact (Line.partFault_ok (h.lines n)).2
  · cases q with
    | admin => exact h.rings .admin
    | line n => exact h.rings (.line n)

/-! ### Rings -/

theorem State.haltRing_ok {s : State} (h : s.Ok) (r : RingId) {x : RingState} (hx : x ≠ .opened) : (s.haltRing r x).Ok :=
  (h.setRing (r := r) (x := { s.ring r with state := x }) fun q => absurd q hx).aside rfl
    (by simpa [State.haltRing] using h.holding)

/-- One entry fewer waits in a ring that held one. -/
theorem Half.sub_succ {p t : Half} (h : t ≠ p) : (p - (t + 1)).toNat + 1 = (p - t).toNat := by
  have : p - (t + 1) = p - t - 1 := by ring
  rw [this]
  have h0 : p - t ≠ 0 := by
    intro q
    exact h (sub_eq_zero.1 q).symm
  have h1 : (p - t).toNat ≠ 0 := fun q => h0 (BitVec.eq_of_toNat_eq q)
  generalize p - t = d at *
  bv_omega

theorem State.countTaken_ok {s : State} (h : s.Ok) (r : RingId) (hp : (s.ring r).taken ≠ (s.ring r).posted) :
    (s.countTaken r).Ok := by
  refine (h.setRing (r := r) (x := { s.ring r with taken := (s.ring r).taken + 1 }) fun q => ?_).aside rfl ?_
  · have := h.rings r q
    have := Half.sub_succ hp
    simp only
    omega
  · simpa [State.countTaken] using h.holding

/-- An eligible ring holds an entry, and the part runs. -/
theorem State.eligible_spec {s : State} {r : RingId} (h : s.eligible r = true) :
    s.part = .running ∧ (s.ring r).state = .opened ∧ (s.ring r).taken ≠ (s.ring r).posted ∧
      s.ownCondition r = true := by
  simp only [State.eligible, Bool.and_eq_true, beq_iff_eq, bne_iff_ne] at h
  exact ⟨h.1.1.1, h.1.1.2, h.1.2, h.2⟩

theorem State.postTo_ok {s : State} (h : s.Ok) (r : RingId) (v : Half) : (s.postTo r v).Ok := by
  unfold State.postTo
  split
  · exact h
  · split
    · next hv => exact h.setRing fun _ => hv
    · exact State.haltRing_ok h r (by decide)

/-! ### Register writes -/

/-- The part state changes while every engine is OFF. -/
theorem State.Ok.repart {s t : State} (h : s.Ok) (hs : ∀ n, (s.line n).engine = .off) (e : t = { s with
      part := t.part, setupError := t.setupError, causes := t.causes, fetch := t.fetch }) : t.Ok := by
  have hr (r : RingId) : t.ring r = s.ring r := by rw [e]; cases r <;> rfl
  have hl (n : LineId) : t.line n = s.line n := by rw [e]; rfl
  exact ⟨fun n => hl n ▸ h.lines n, fun _ n => hl n ▸ hs n, by rw [e]; exact h.holding,
    fun r => by rw [hr, State.ringSize, e]; exact h.rings r⟩

theorem State.startLoading_ok {s : State} (h : s.Ok) (hp : s.part = .disabled) : s.startLoading.Ok := by
  have hs := h.stopped (by simp [hp])
  unfold State.startLoading
  split
  · exact h.repart hs rfl
  · exact h.repart hs rfl

theorem State.writeControl_ok {s : State} (h : s.Ok) (v : Word) : (s.writeControl v).Ok := by
  have ht : State.Ok { s with enables := Causes.ofBits v 8 } := h.aside rfl h.holding
  unfold State.writeControl
  simp only
  split
  · exact State.requestSoftReset_ok ht
  · split
    · next hp => exact State.startLoading_ok ht hp.2
    · exact ht

theorem State.writeConsumed_ok {s : State} (h : s.Ok) (v : Word) : (s.writeConsumed v).Ok := by
  unfold State.writeConsumed
  split
  · exact h
  · split
    · exact h.aside rfl h.holding
    · exact State.partFault_ok h _

theorem State.writePost_ok {s : State} (h : s.Ok) (v : Word) : (s.writePost v).Ok := by
  unfold State.writePost
  split
  · exact State.postTo_ok h _ _
  · exact h

theorem State.writeWord_ok {s : State} (h : s.Ok) (w : BitVec 5) (v : Word) : (s.writeWord w v).Ok := by
  unfold State.writeWord
  split
  · exact State.writeControl_ok h v
  · exact h.aside rfl h.holding
  · exact h.aside rfl h.holding
  · exact State.writePost_ok h v
  · exact State.writeConsumed_ok h v
  · exact h.aside rfl h.holding
  · exact h

/-! ### Power -/

theorem State.setPower_ok {s : State} (h : s.Ok) (hp : s.part = .running) (p : PowerState) :
    (s.setPower p).Ok ∧ (s.setPower p).part = .running := by
  have ht : State.Ok { s with power := { s.power with state := p }, cu := { s.cu with statusPending := true } } :=
    h.aside rfl h.holding
  unfold State.setPower
  simp only
  split
  · exact ⟨ht, hp⟩
  · exact ⟨ht.onLines hp fun x n => (Line.retarget_ok (ht.lines n) x).1, hp⟩

theorem State.leaveDoze_ok {s : State} (h : s.Ok) (hp : s.part = .running) (p : PowerState) : (s.leaveDoze p).Ok := by
  obtain ⟨h1, h2⟩ := State.setPower_ok h hp p
  exact h1.onLines h2 fun x n => Line.unpark_ok (h1.lines n) x

theorem State.enterDozePending_ok {s : State} (h : s.Ok) (hp : s.part = .running) : s.enterDozePending.Ok := by
  obtain ⟨h1, h2⟩ := State.setPower_ok h hp .dozePending
  exact h1.onLines h2 fun x n => Line.enterDoze_ok (h1.lines n) x

theorem State.wake_ok {s : State} (h : s.Ok) (hp : s.part = .running) (e : Engine) : (s.wake e).Ok := by
  unfold State.wake
  split
  · exact State.leaveDoze_ok h hp _
  · exact h

/-! ### The Admin Unit -/

/-- A command that finishes or waits leaves a sound part, with the same rings, holding queue and part state. -/
theorem State.runAdmin_ok {s t : State} {line : Byte} {c : AdminCmd} {y : AdminBody} {p : PowerState} (h : s.Ok)
    (hp : s.part = .running) (e : s.runAdmin line c = .done t y ∨ s.runAdmin line c = .waits t p) : t.Ok := by
  have hline (g : s.lineCmd line c = .done t y ∨ s.lineCmd line c = .waits t p) : t.Ok := by
    unfold State.lineCmd at g
    split at g
    · simp at g
    · split at g
      · simp at g
      · split at g
        · simp at g
        · next hr =>
          split at g
          · simp at g
          · next l body hb =>
            simp only [AdminResult.done.injEq, reduceCtorEq, or_false] at g
            rw [← g.1]
            exact h.setLine (AdminCmd.onLine_ok (h.lines _) (by simpa using hr) hb) fun q => absurd hp q
  unfold State.runAdmin at e
  split at e
  · simp at e
  · split at e
    · simp at e
    · unfold State.powerCmd State.powerWorking State.powerDoze at e
      split at e
      · split at e
        · simp only [AdminResult.done.injEq, reduceCtorEq, or_false] at e
          rw [← e.1]; exact h
        · split at e
          · simp only [AdminResult.waits.injEq, reduceCtorEq, false_or] at e
            rw [← e.1]; exact State.leaveDoze_ok h hp _
          · simp only [AdminResult.waits.injEq, reduceCtorEq, false_or] at e
            rw [← e.1]; exact (State.setPower_ok h hp _).1
      · split at e
        · simp only [AdminResult.done.injEq, reduceCtorEq, or_false] at e
          rw [← e.1]; exact h
        · split at e
          · simp only [AdminResult.waits.injEq, reduceCtorEq, false_or] at e
            rw [← e.1]; exact State.leaveDoze_ok h hp _
          · simp only [AdminResult.waits.injEq, reduceCtorEq, false_or] at e
            rw [← e.1]; exact (State.setPower_ok h hp _).1
      · split at e
        · simp only [AdminResult.done.injEq, reduceCtorEq, or_false] at e
          rw [← e.1]; exact h
        · split at e
          · simp at e
          · split at e
            · simp at e
            · simp only [AdminResult.waits.injEq, reduceCtorEq, false_or] at e
              rw [← e.1]; exact State.enterDozePending_ok h hp
      · simp at e
  · exact hline e

theorem State.adminTake_ok {s : State} (h : s.Ok) (hp : s.part = .running) (line : Byte) (tag : Half) (c : AdminCmd) :
    (s.adminTake line tag c).Ok := by
  unfold State.adminTake
  split
  · exact h.aside rfl h.holding
  · next e =>
    have ht := State.runAdmin_ok h hp (p := .active) (.inl e)
    exact ht.aside rfl ht.holding
  · next e =>
    have ht := State.runAdmin_ok h hp (y := .none) (.inr e)
    exact ht.aside rfl ht.holding

theorem State.adminEntry_ok {s : State} (h : s.Ok) (line : Byte) (tag : Half) (c : AdminCmd) :
    (s.adminEntry line tag c).Ok := by
  unfold State.adminEntry
  split
  · next he =>
    obtain ⟨h1, -, h3, -⟩ := State.eligible_spec he
    exact State.adminTake_ok (State.countTaken_ok h _ h3) h1 line tag c
  · exact h

/-! ### Ends of transfers -/

/-- Under a soft reset the end of a transfer is the reset, whatever the response. -/
theorem State.endTransfer_soft {s : State} {f : Transfer → Option (State → State)} {x : Transfer} {g : State → State}
    (h : s.softPending = true) (hx : s.port.transfer = some x) (hf : f x = some g) :
    s.endTransfer f = some s.softReset := by
  unfold State.endTransfer
  simp only [hx, hf]
  rw [if_pos h]
  rfl

/-- The end of a transfer that is acted on: its requester does what it does on the part with the transfer over. -/
theorem State.endTransfer_acts {s : State} {f : Transfer → Option (State → State)} {x : Transfer} {g : State → State}
    (h : s.Serving x) (hf : f x = some g) : s.endTransfer f = some (g s.released) := by
  unfold State.endTransfer
  simp only [h.transfer, hf]
  rw [if_neg (by simp [h.acts]), if_pos h.alive]
  rfl

/-- A transfer ends: soundness goes by what its requester does. -/
theorem State.endTransfer_ok {s t : State} {f : Transfer → Option (State → State)} (h : s.Ok)
    (hf : ∀ x g u, f x = some g → u.Ok → u.part = s.part → s.port.transfer = some x → u.part = .loading ∨ u.part = .running → (g u).Ok)
    (e : s.endTransfer f = some t) : t.Ok := by
  unfold State.endTransfer at e
  split at e
  · cases e
  · next x hx =>
    split at e
    · cases e
    · next g hg =>
      have hr : State.Ok { s with port := { s.port with transfer := none } } := h.aside rfl h.holding
      simp only at e
      split at e
      · cases e
        exact State.softReset_ok _
      · split at e
        · next hp =>
          cases e
          exact hf x g _ hg hr rfl hx hp
        · cases e
          exact hr

theorem State.enterRunning_ok {s : State} (h : s.Ok) (u : Setup) (w : Bool) : (s.enterRunning u w).Ok := by
  have hr (r : RingId) : (s.enterRunning u w).ring r = ⟨.opened, 0, 0⟩ := by
    cases r with
    | admin => rfl
    | line n => fin_cases n <;> rfl
  exact ⟨h.lines, fun p => absurd rfl p, Nat.zero_le _, fun r _ => by rw [hr]; exact Nat.zero_le _⟩

theorem State.setupFail_ok {s : State} (h : s.Ok) (hp : ∀ n, (s.line n).engine = .off) (e : SetupError) :
    (s.setupFail e).Ok := h.repart hp rfl

theorem State.setupRead_ok {s : State} (h : s.Ok) (r : ReadResp) : (s.setupRead r).Ok := by
  unfold State.setupRead
  split
  · exact h
  · next hp =>
    have hs := h.stopped (by rw [not_not] at hp; simp [hp])
    split
    · exact State.setupFail_ok h hs _
    · split
      · exact State.enterRunning_ok h _ _
      · exact State.setupFail_ok h hs _

theorem State.exchangeEntry_ok {s : State} (h : s.Ok) (n : LineId) (e : RawExchange) : (s.exchangeEntry n e).Ok := by
  unfold State.exchangeEntry
  split
  · next he =>
    obtain ⟨h1, -, h3, h4⟩ := State.eligible_spec he
    have hc := State.countTaken_ok h _ h3
    have hl : (s.countTaken (.line n)).line n = s.line n := State.line_setRing _ _ _ _
    simp only [State.ownCondition, Bool.and_eq_true, Config.queueCapacity] at h4
    unfold State.exchangeTake
    split
    · exact hc.setLine (Line.insertEntry_ok (h.lines n) (of_decide_eq_true h4.1.2) e) fun q => absurd h1 q
    · split
      · next hf =>
        refine hc.aside rfl ?_
        have hf : s.cu.holding.length < 16 := of_decide_eq_true hf
        simp only [State.hold, State.countTaken, State.setRing, List.length_append, List.length_singleton]
        omega
      · exact h
  · exact h

theorem State.entryRead_ok {s : State} (h : s.Ok) (r : RingId) (resp : ReadResp) : (s.entryRead r resp).Ok := by
  unfold State.entryRead
  split
  · exact State.haltRing_ok h r (by decide)
  · split
    · exact State.adminEntry_ok h _ _ _
    · exact State.exchangeEntry_ok h _ _

/-! ### The Completion Unit -/

theorem State.signal_ok {s : State} (h : s.Ok) : s.signal.Ok := h.aside rfl h.holding

theorem State.recordCounted_ok {s : State} (h : s.Ok) : s.recordCounted.Ok := by
  refine h.aside rfl ?_
  have := h.holding
  simp only [State.recordCounted, List.length_tail]
  omega

theorem State.moderate_ok {s : State} (h : s.Ok) : s.moderate.Ok := by
  unfold State.moderate
  split
  · exact State.signal_ok h
  · split
    · exact h.aside rfl h.holding
    · exact h

theorem State.holdoffPassed_ok {s : State} (h : s.Ok) : s.holdoffPassed.Ok := by
  have ht : State.Ok { s with cu := { s.cu with holdoff := none } } := h.aside rfl h.holding
  unfold State.holdoffPassed
  simp only
  split
  · exact State.signal_ok ht
  · exact ht

end Sys2Proof.Machine
end

