-- ==== Sys2Proof/Laws/AdminRead.lean ====
section
/-! SUPPORT. What the read of an admin entry comes to on a part that takes it: the command checked and executed on the part
with the entry counted. -/

namespace Sys2Proof.Machine

/-- The admin entry whose read ends is taken: its command is checked and executed on the part with the entry counted. -/
theorem State.adminRead_ready {s : State} (h : AdminReady s) (line : Byte) (tag : Half) (cmd : AdminCmd) :
    s.take (s.adminRead line tag cmd) = .next ((s.released.countTaken .admin).adminTake line tag cmd).settle := by
  obtain ⟨a, ha⟩ := h.reading
  have hs : s.Serving (.entryRead .admin a) := ⟨h.up, h.acts, .inr h.running, ha⟩
  unfold State.adminRead
  rw [State.endTransfer_acts hs rfl, State.take_some h.up]
  have e : s.released.eligible .admin = true := by
    simp [State.eligible, State.released, State.ownCondition, State.ring, h.running, h.opened, h.holds, h.free]
  unfold State.adminEntry
  rw [if_pos e]

/-- The circumstances of a line as the taken command finds them. -/
theorem State.taken_line (s : State) (n : LineId) : (s.released.countTaken .admin).line n = s.line n := rfl

theorem State.taken_ctx (s : State) (n : LineId) : (s.released.countTaken .admin).ctx n = s.ctx n := rfl

theorem lineOf_val {b : Byte} {n : LineId} (h : b.toNat = n.val) : lineOf b = some n := by
  unfold lineOf; rw [dif_pos (by omega)]; congr 1; exact Fin.ext h

/-- A command that names a line, past its first four checks: what its own checks and effect on the line come to. -/
theorem State.adminRead_line {s : State} (h : AdminReady s) {line : Byte} {n : LineId} (hn : line.toNat = n.val)
    (tag : Half) (cmd : AdminCmd) (hc : cmd.namesLine = true) (hp : cmd.powerAllows s.power.state = true)
    (hr : cmd.runAllows (s.line n).run = true) :
    s.take (s.adminRead line tag cmd) =
      .next (match cmd.onLine (s.ctx n) (s.line n) with
        | .error r => s.adminDone cmd.code (some line) tag cmd.node (.refused r)
        | .ok (l, body) => (s.adminDone cmd.code (some line) tag cmd.node (.done body)).setLine n l).settle := by
  rw [State.adminRead_ready h]
  congr 2
  unfold State.adminTake
  have : (s.released.countTaken .admin).runAdmin line cmd = (match cmd.onLine (s.ctx n) (s.line n) with
      | .error r => .refused r
      | .ok (l, body) => .done ((s.released.countTaken .admin).setLine n l) body) := by
    have e : (s.released.countTaken .admin).runAdmin line cmd = (s.released.countTaken .admin).lineCmd line cmd := by
      cases cmd <;> first | rfl | cases hc
    rw [e]; unfold State.lineCmd; rw [lineOf_val hn]
    dsimp only
    rw [if_neg (by rw [show (s.released.countTaken .admin).power.state = s.power.state from rfl, hp]; simp), if_neg (by rw [State.taken_line, hr]; simp)]
    rw [State.taken_ctx, State.taken_line]
    all_goals (rcases cmd.onLine (s.ctx n) (s.line n) with r | ⟨l, b⟩ <;> rfl)
  rw [this]
  rcases cmd.onLine (s.ctx n) (s.line n) with r | ⟨l, b⟩
  · dsimp only; unfold adminRecord; rw [if_pos hc]; rfl
  · dsimp only; unfold adminRecord; rw [if_pos hc]; rfl

/-- ACTIVE and LULL take every command. -/
theorem AdminCmd.powerAllows_working {c : AdminCmd} {s : State} (h : s.power.state = .active ∨ s.power.state = .lull) :
    c.powerAllows s.power.state = true := by
  unfold AdminCmd.powerAllows; rcases h with h | h <;> rw [h] <;> rfl

end Sys2Proof.Machine
end

