-- ==== Sys2Proof/Laws/LineSettled.lean ====
section
/-! SUPPORT. What a Line Unit's own work comes to (R80, R81, R91, R119, R179): after it nothing of it is left to begin
(Line.Settled), and a line with nothing left to begin stays as it is. -/

namespace Sys2Proof.Machine

theorem Line.atBoundary_iff (l : Line) : l.atBoundary = true ↔ l.resting := by
  simp [Line.atBoundary, Line.resting]

theorem PowerState.working_iff (p : PowerState) : p.working = true ↔ p = .active ∨ p = .lull := by
  cases p <;> simp [PowerState.working]

/-! ### The walk of a hunt -/

/-- The walk's next address is that of an ACTIVE record ahead of it. -/
theorem Walk.next_some {w : Walk} {r : List Node} {a : Nat} (h : w.next r = some a) :
    ∃ y ∈ r, y.addr = a ∧ y.state = .active ∧ (w.cursor < a ∨ a ∈ w.later) := by
  unfold Walk.next at h
  obtain ⟨y, hy, rfl⟩ := Option.map_eq_some_iff.1 h
  have := List.find?_some hy
  simp only [Bool.and_eq_true, beq_iff_eq, Walk.ahead, Bool.or_eq_true, decide_eq_true_eq, List.contains_iff_mem] at this
  exact ⟨y, List.mem_of_find?_eq_some hy, rfl, this.1, this.2⟩

/-- A walk has no next address where no ACTIVE record lies ahead of it. -/
theorem Walk.next_none {w : Walk} {r : List Node} :
    w.next r = none ↔ ∀ y ∈ r, y.state = .active → ¬ w.cursor < y.addr ∧ y.addr ∉ w.later := by
  simp [Walk.next, Walk.ahead]

/-! ### What the arbiter finds -/

theorem Line.oldest_none {l : Line} {cls : QClass} : l.oldest cls = none ↔ ∀ e ∈ l.waiting, e.cls ≠ cls := by
  simp [Line.oldest]

/-- With host exchanges open and none found in either class, no entry waits. -/
theorem Line.hostWork_none {x : Ctx} {l : Line} :
    (l.hostWork x .urgent = none ∧ l.hostWork x .routine = none) ↔ (l.hostOpen x = true → l.waiting = []) := by
  unfold Line.hostWork
  cases l.hostOpen x
  · simp
  · simp only [if_true, Line.oldest_none, forall_const, List.eq_nil_iff_forall_not_mem]
    constructor
    · rintro ⟨h1, h2⟩ e he
      cases hc : e.cls
      · exact h1 e he hc
      · exact h2 e he hc
    · intro h
      exact ⟨fun e he => absurd he (h e), fun e he => absurd he (h e)⟩

theorem Line.sweepWork_none {x : Ctx} {l : Line} :
    l.sweepWork x = none ↔ (l.ownOpen x = true → l.sweepHalted = true ∨ l.due = []) := by
  unfold Line.sweepWork
  cases l.ownOpen x <;> cases l.sweepHalted <;> cases l.due <;> simp

theorem Line.mem_of_probesToStart {l : Line} {a : Nat} (h : a ∈ l.probesToStart) : a ∈ l.probes := by
  unfold Line.probesToStart at h
  split at h
  · exact absurd h List.not_mem_nil
  · exact h

/-- At an exchange boundary all that stand on the list are still to be started. -/
theorem Line.probesToStart_idle {l : Line} (h : l.engine = .idle) : l.probesToStart = l.probes := by
  simp [Line.probesToStart, h]

/-- With the engine OFF none is. -/
theorem Line.probesToStart_off {l : Line} (h : l.engine = .off) : l.probesToStart = [] := by
  simp [Line.probesToStart, h]

/-- The probe that a pick takes stands on the list. -/
theorem Line.nextProbe_mem {l : Line} {a : Nat} (h : l.nextProbe = some a) : a ∈ l.probes := by
  apply Line.mem_of_probesToStart
  unfold Line.nextProbe at h
  split at h
  · cases h; exact List.mem_of_find?_eq_some ‹_›
  · split at h
    · cases h; exact List.mem_of_find?_eq_some ‹_›
    · exact List.mem_of_head? h

theorem Line.nextProbe_none {l : Line} : l.nextProbe = none ↔ l.probesToStart = [] := by
  constructor
  · intro h
    unfold Line.nextProbe at h
    split at h
    · cases h
    · split at h
      · cases h
      · simpa using h
  · intro h
    simp [Line.nextProbe, h]

theorem Line.takeEntry_something (x : Ctx) (l : Line) (e : QEntry) : l.takeEntry x e ≠ .nothing := by
  unfold Line.takeEntry
  dsimp only
  split
  · simp
  · split <;> simp

theorem Line.takeSweep_something (x : Ctx) (l : Line) (i : Nat) (rest : List Nat) : l.takeSweep x i rest ≠ .nothing := by
  unfold Line.takeSweep
  dsimp only
  split
  · simp
  · split <;> simp

theorem Line.takeProbe_something (l : Line) (a : Nat) : l.takeProbe a ≠ .nothing := by
  unfold Line.takeProbe
  dsimp only
  split <;> simp

theorem Line.pickProbe_nothing {x : Ctx} {l : Line} :
    l.pickProbe x = .nothing ↔ (l.ownOpen x = true → l.probesToStart = []) := by
  unfold Line.pickProbe
  cases l.ownOpen x
  · simp
  · rw [← Line.nextProbe_none]
    cases h : l.nextProbe with
    | none => simp
    | some a => simp [Line.takeProbe_something]

theorem Line.pickTurn_nothing {x : Ctx} {l : Line} : l.pickTurn x = .nothing ↔
    l.sweepWork x = none ∧ l.hostWork x .routine = none ∧ (l.ownOpen x = true → l.probesToStart = []) := by
  rw [← Line.pickProbe_nothing]
  unfold Line.pickTurn
  cases hs : l.sweepWork x with
  | none => cases hh : l.hostWork x .routine <;> simp [Line.takeEntry_something]
  | some p =>
    obtain ⟨i, rest⟩ := p
    cases hh : l.hostWork x .routine
    · simp [Line.takeSweep_something]
    · simp only [reduceCtorEq, false_and, iff_false]
      split
      · exact Line.takeSweep_something _ _ _ _
      · exact Line.takeEntry_something _ _ _

theorem Line.pickHunt_nothing {x : Ctx} {l : Line} : l.pickHunt x = .nothing ↔
    (l.ownOpen x = true → l.hunt = none) ∧ l.pickTurn x = .nothing := by
  unfold Line.pickHunt
  cases ho : l.ownOpen x
  · simp
  · cases hh : l.hunt with
    | none => simp
    | some w =>
      simp only [if_true, reduceCtorEq, imp_false, not_true_eq_false, false_and, iff_false]
      split <;> simp

/-- The arbiter finds nothing: what each source of R81 then lacks. -/
theorem Line.pick_nothing {x : Ctx} {l : Line} : l.pick x = .nothing ↔
    (l.pace = .none ∨ l.run = .draining ∧ l.abandon = true) ∧ (l.hostOpen x = true → l.waiting = []) ∧
    (l.ownOpen x = true → l.hunt = none ∧ (l.sweepHalted = true ∨ l.due = []) ∧ l.probesToStart = []) := by
  unfold Line.pick
  split
  · next h =>
    simp only [reduceCtorEq, false_iff, not_and]
    intro g
    rcases g with g | g
    · exact absurd g h.1
    · exact absurd g h.2
  · next h =>
    have hp : l.pace = .none ∨ l.run = .draining ∧ l.abandon = true := by
      by_cases q : l.pace = .none
      · exact .inl q
      · exact .inr (Classical.not_not.1 fun g => h ⟨q, g⟩)
    rw [← Line.hostWork_none]
    cases hu : l.hostWork x .urgent with
    | some e => simp [Line.takeEntry_something]
    | none =>
      simp only [Line.pickHunt_nothing, Line.pickTurn_nothing, Line.sweepWork_none, hp]
      tauto

/-! ### Selection comes to an end -/

/-- The hunts that can still end empty: the active one, and one that follows it. -/
def huntsLeft : Option Walk → Bool → Nat
  | none, _ => 0
  | some _, false => 1
  | some _, true => 2

/-- The disposals a line can still go through at a selection. -/
def Line.disposals (l : Line) : Nat :=
  l.due.length + l.probes.length + (!l.held).toNat + huntsLeft l.hunt l.huntPending

/-- A pending hunt is not left where it could start. -/
def Line.huntTested (x : Ctx) (l : Line) : Prop :=
  l.huntPending = true → l.hunt = none → l.run = .running → x.power.working = false

theorem Line.activateHunt_tested (x : Ctx) (l : Line) : (l.activateHunt x).huntTested x := by
  intro h1 h2 h3
  unfold Line.activateHunt at h1 h2 h3
  split at h1
  · next g => split at h1 <;> simp at h1
  · next g =>
    rw [if_neg g] at h2 h3
    cases hw : x.power.working
    · rfl
    · exact absurd (by simp [h1, h2, h3, hw]) g

/-- The test after a hunt that ended empty leaves no more hunts to come than before. -/
theorem Line.activateHunt_fewer (x : Ctx) {l : Line} (h : l.hunt.isSome = true) :
    (l.huntEmpty.activateHunt x).disposals < l.disposals := by
  obtain ⟨w, hw⟩ := Option.isSome_iff_exists.1 h
  have e : l.huntEmpty.disposals + huntsLeft (some w) l.huntPending = l.disposals := by
    rw [← hw]
    rfl
  unfold Line.activateHunt
  split
  · next g =>
    have hp : l.huntPending = true := by
      simp only [Bool.and_eq_true] at g
      exact g.1.1.1
    rw [hp] at e
    split
    · have : Line.disposals { l.huntEmpty with hunt := some Walk.start, huntPending := false } =
          l.huntEmpty.disposals + 1 := rfl
      rw [this, ← e]
      exact Nat.lt_succ_self _
    · have : Line.disposals { l.huntEmpty.huntEmpty with huntPending := false } = l.huntEmpty.disposals := rfl
      rw [this, ← e]
      exact Nat.lt_add_of_pos_right (by simp [huntsLeft])
  · rw [← e]
    refine Nat.lt_add_of_pos_right ?_
    cases l.huntPending <;> simp [huntsLeft]

/-- What a selection never leaves: a hunt untested, or another abandon flag. -/
structure Line.Onward (x : Ctx) (l m : Line) : Prop where
  tested : l.huntTested x → m.huntTested x
  abandon : m.abandon = l.abandon

theorem Line.Onward.trans {x : Ctx} {l m k : Line} (h : l.Onward x m) (g : m.Onward x k) : l.Onward x k :=
  ⟨fun q => g.tested (h.tested q), g.abandon.trans h.abandon⟩

/-- What a pick leaves: an exchange made current, or one disposal fewer to come. -/
inductive Pick.Nearer (x : Ctx) (l : Line) : Pick → Prop
  | made {m : Line} : ¬ m.resting → l.Onward x m → Pick.Nearer x l (.made m)
  | again {m : Line} : m.disposals < l.disposals → l.Onward x m → Pick.Nearer x l (.again m)
  | nothing : Pick.Nearer x l .nothing

theorem Line.makeCurrent_busy (l : Line) (o : Origin) (a : Nat) (c : Byte) (p : List Byte) (r : Nat) :
    ¬ (l.makeCurrent o a c p r).resting := by
  simp [Line.resting, Line.makeCurrent]

theorem Line.takeEntry_nearer {x : Ctx} {l : Line} {e : QEntry} (h : l.held = false) :
    Pick.Nearer x l (l.takeEntry x e) := by
  have hr (o : ExOutcome) :
      Pick.Nearer x l (.again (({ l with waiting := l.waiting.erase e } : Line).refuseEntry x e o)) := by
    refine .again ?_ ⟨id, rfl⟩
    have g : (Line.refuseEntry x { l with waiting := l.waiting.erase e } e o).held = true := rfl
    simp only [Line.disposals, g, h]
    exact Nat.add_lt_add_right (Nat.lt_succ_self _) _
  unfold Line.takeEntry
  dsimp only
  split
  · exact .made (Line.makeCurrent_busy _ _ _ _ _ _) ⟨id, rfl⟩
  · split
    · exact .made (Line.makeCurrent_busy _ _ _ _ _ _) ⟨id, rfl⟩
    · exact hr _
    · exact hr _
    · exact hr _
    · exact hr _

theorem Line.takeSweep_nearer {x : Ctx} {l : Line} {i : Nat} {rest : List Nat} (h : l.due = i :: rest) :
    Pick.Nearer x l (l.takeSweep x i rest) := by
  unfold Line.takeSweep
  dsimp only
  split
  · refine .again ?_ ⟨id, rfl⟩
    simp [Line.disposals, Line.held, h]
  · split
    · exact .made (Line.makeCurrent_busy _ _ _ _ _ _) ⟨id, rfl⟩
    · obtain ⟨w, e⟩ := ({ l with due := rest } : Line).queueSlot_eq i l.round (.nonWire .skipped x.now)
      rw [e]
      refine .again ?_ ⟨id, rfl⟩
      simp [Line.disposals, Line.held, h]

theorem Line.takeProbe_nearer {x : Ctx} {l : Line} {a : Nat} (h : a ∈ l.probes) :
    Pick.Nearer x l (l.takeProbe a) := by
  unfold Line.takeProbe
  dsimp only
  split
  · exact .made (Line.makeCurrent_busy _ _ _ _ _ _) ⟨id, rfl⟩
  · refine .again ?_ ⟨id, rfl⟩
    have := List.length_erase_of_mem h
    have := List.length_pos_of_mem h
    have e : Line.disposals { l with probes := l.probes.erase a } + 1 = l.disposals := by
      simp only [Line.disposals, Line.held]
      omega
    omega

theorem Line.hostWork_free {x : Ctx} {l : Line} {cls : QClass} {e : QEntry} (h : l.hostWork x cls = some e) :
    l.held = false := by
  unfold Line.hostWork at h
  split at h
  · next g =>
    simp only [Line.hostOpen, Bool.and_eq_true, Bool.not_eq_true'] at g
    exact g.2
  · cases h

theorem Line.sweepWork_due {x : Ctx} {l : Line} {i : Nat} {rest : List Nat} (h : l.sweepWork x = some (i, rest)) :
    l.due = i :: rest := by
  unfold Line.sweepWork at h
  split at h
  · split at h
    · cases h; assumption
    · cases h
  · cases h

/-- One examination of the sources brings the selection nearer to its end. -/
theorem Line.pick_nearer (x : Ctx) (l : Line) : Pick.Nearer x l (l.pick x) := by
  unfold Line.pick
  split
  · exact .made (Line.makeCurrent_busy _ _ _ _ _ _) ⟨id, rfl⟩
  · split
    · next h => exact Line.takeEntry_nearer (Line.hostWork_free h)
    · unfold Line.pickHunt
      split
      · next w hw =>
        split
        · exact .made (Line.makeCurrent_busy _ _ _ _ _ _) ⟨id, rfl⟩
        · obtain ⟨h1, p1, o1, c1, e1, -⟩ := Line.activateHunt_eq x l.huntEmpty
          refine .again (Line.activateHunt_fewer x ?_) ⟨fun _ => Line.activateHunt_tested x _, by rw [e1]; rfl⟩
          split at hw
          · simp [hw]
          · cases hw
      · unfold Line.pickTurn
        split
        · next h1 h2 =>
          split
          · exact Line.takeSweep_nearer (Line.sweepWork_due h1)
          · exact Line.takeEntry_nearer (Line.hostWork_free h2)
        · next h1 _ => exact Line.takeSweep_nearer (Line.sweepWork_due h1)
        · next _ h2 => exact Line.takeEntry_nearer (Line.hostWork_free h2)
        · unfold Line.pickProbe
          split
          · split
            · next h => exact Line.takeProbe_nearer (Line.nextProbe_mem h)
            · exact .nothing
          · exact .nothing

/-- A selection ends with an exchange made current or with nothing left to find, and leaves no hunt untested. -/
theorem Line.selectLoop_ends (x : Ctx) (k : Nat) {l : Line} (h : l.disposals < k) :
    (¬ (l.selectLoop x k).resting ∨ (l.selectLoop x k).pick x = .nothing) ∧ l.Onward x (l.selectLoop x k) := by
  induction k generalizing l with
  | zero => omega
  | succ k ih =>
    unfold Line.selectLoop
    have hn := Line.pick_nearer x l
    generalize hp : l.pick x = p at hn
    cases hn with
    | made g t => exact ⟨.inl g, t⟩
    | again g t =>
      obtain ⟨a, b⟩ := ih (l := _) (Nat.lt_of_lt_of_le g (Nat.le_of_lt_succ h))
      exact ⟨a, t.trans b⟩
    | nothing => exact ⟨.inr hp, id, rfl⟩

theorem Line.select_ends (x : Ctx) (l : Line) :
    (¬ (l.select x).resting ∨ (l.select x).pick x = .nothing) ∧ l.Onward x (l.select x) := by
  refine Line.selectLoop_ends x _ ?_
  have h1 : (!l.held).toNat ≤ 1 := Bool.toNat_le _
  have h2 : huntsLeft l.hunt l.huntPending ≤ 2 := by
    cases l.hunt <;> cases l.huntPending <;> simp [huntsLeft]
  unfold Line.disposals
  omega

/-! ### The line after its own work -/

/-- The selection's bound on its disposals does not matter once it is above what is left to dispose of. -/
theorem Line.selectLoop_bound (x : Ctx) (a b : Nat) {l : Line} (ha : l.disposals < a) (hb : l.disposals < b) :
    l.selectLoop x a = l.selectLoop x b := by
  induction a generalizing l b with
  | zero => omega
  | succ a ih =>
    cases b with
    | zero => omega
    | succ b =>
      unfold Line.selectLoop
      have hn := Line.pick_nearer x l
      generalize l.pick x = p at hn
      cases hn with
      | made g t => rfl
      | again g t => exact ih b (by omega) (by omega)
      | nothing => rfl

theorem Line.disposals_lt (l : Line) : l.disposals < l.due.length + l.probes.length + 4 := by
  have h1 : (!l.held).toNat ≤ 1 := Bool.toNat_le _
  have h2 : huntsLeft l.hunt l.huntPending ≤ 2 := by
    cases l.hunt <;> cases l.huntPending <;> simp [huntsLeft]
  unfold Line.disposals
  omega

/-- After a disposal the selection goes on from what it leaves. -/
theorem Line.select_again {x : Ctx} {l k : Line} (h : l.pick x = .again k) : l.select x = k.select x := by
  have hn := Line.pick_nearer x l
  rw [h] at hn
  have he := l.disposals_lt
  cases hn with
  | again g t =>
    conv => lhs; unfold Line.select
    obtain ⟨n, e⟩ : ∃ n, l.due.length + l.probes.length + 4 = n + 1 := ⟨_, rfl⟩
    rw [e]
    unfold Line.selectLoop
    rw [h]
    exact Line.selectLoop_bound x _ _ (by omega) k.disposals_lt

theorem Line.select_made {x : Ctx} {l k : Line} (h : l.pick x = .made k) : l.select x = k := by
  unfold Line.select Line.selectLoop
  rw [h]

theorem Line.select_nothing {x : Ctx} {l : Line} (h : l.pick x = .nothing) : l.select x = l := by
  unfold Line.select Line.selectLoop
  rw [h]

/-- What is left where the arbiter finds nothing. -/
theorem Line.found_nothing {x : Ctx} {l : Line} (h : l.pick x = .nothing) :
    (l.run = .running ∨ l.run = .draining ∧ l.abandon = false → l.pace = .none) ∧
    (l.run = .running ∧ (x.power = .active ∨ x.power = .lull) ∨ l.run = .draining ∧ l.abandon = false →
      l.holdSlot ≠ none ∨ l.ended ≠ [] ∨ l.waiting = []) ∧
    (l.run = .running → x.power = .active ∨ x.power = .lull →
      l.hunt = none ∧ (l.sweepHalted = true ∨ l.due = []) ∧ l.probesToStart = []) := by
  obtain ⟨h1, h2, h3⟩ := Line.pick_nothing.1 h
  refine ⟨fun g => ?_, fun g => ?_, fun g p => ?_⟩
  · rcases h1 with h1 | ⟨a, b⟩
    · exact h1
    · rcases g with g | ⟨-, g⟩
      · simp [g] at a
      · simp [g] at b
  · by_cases a : l.holdSlot = none
    · by_cases b : l.ended = []
      · refine .inr (.inr (h2 ?_))
        rcases g with ⟨g, p⟩ | ⟨g, p⟩
        · simp [Line.hostOpen, Line.held, g, a, b, (PowerState.working_iff _).2 p]
        · simp [Line.hostOpen, Line.held, g, a, b, p]
      · exact .inr (.inl b)
    · exact .inl a
  · exact h3 (by simp [Line.ownOpen, g, (PowerState.working_iff _).2 p])

/-- A line's own work leaves nothing of it to begin. -/
theorem Line.settle_settled (x : Ctx) (l : Line) : (l.settle x).Settled x.power := by
  have ht : (l.activateHunt x).huntTested x := Line.activateHunt_tested x l
  unfold Line.settle
  generalize l.activateHunt x = a at ht
  obtain ⟨m, hm, hmt, hr, hd, hf⟩ : ∃ m, a.arbitrate x = m ∧ m.huntTested x ∧
      (m.resting → m.run = .running → m.pick x = .nothing) ∧
      (m.resting → m.run = .draining → m.abandon = false → m.pick x = .nothing) ∧
      (m.resting → m.run = .draining → m.abandon = true → m.waiting = []) := by
    refine ⟨_, rfl, ?_⟩
    unfold Line.arbitrate
    split
    · next hb =>
      obtain ⟨s1, s2⟩ := Line.select_ends x a
      split
      · next hr =>
        have hk := (Line.selectLoop_works x (a.due.length + a.probes.length + 4)
          (Line.atBoundary_rest hb (.inl hr))).kept.run (by simp [hr])
        have hk : (a.select x).run = .running := hk.trans hr
        refine ⟨s2.tested ht, fun g _ => s1.resolve_left (not_not.2 g), ?_, ?_⟩
        · intro _ q
          rw [hk] at q
          cases q
        · intro _ q
          rw [hk] at q
          cases q
      · next hr =>
        split
        · next hab =>
          refine ⟨fun h1 h2 h3 => ht h1 h2 h3, ?_, ?_, fun _ _ _ => rfl⟩
          · intro _ q
            exact absurd (hr.symm.trans q) (by simp)
          · intro _ _ q
            exact absurd (hab.symm.trans q) (by simp)
        · next hab =>
          refine ⟨s2.tested ht, fun g _ => s1.resolve_left (not_not.2 g), fun g _ _ => s1.resolve_left (not_not.2 g), ?_⟩
          intro _ _ q
          exact absurd (s2.abandon.symm.trans q) hab
      · next hr =>
        refine ⟨ht, ?_, ?_, ?_⟩ <;> intro _ q <;> rw [hr] at q <;> cases q
      · next hr =>
        refine ⟨ht, ?_, ?_, ?_⟩ <;> intro _ q <;> rw [hr] at q <;> cases q
    · next hb =>
      refine ⟨ht, ?_, ?_, ?_⟩ <;> intro g <;> exact absurd ((Line.atBoundary_iff _).2 g) hb
  rw [hm]
  clear ht hm
  unfold Line.drainEnd
  split
  · next h =>
    have hq : ((m.becomeQuiet x).park x) = m.becomeQuiet x := by simp [Line.park, Line.becomeQuiet]
    rw [hq]
    have e : (m.becomeQuiet x).engine = .off := rfl
    have r : (m.becomeQuiet x).run = .quiet := rfl
    constructor <;> simp [Line.resting, e, r]
  · next h =>
    unfold Line.park
    split
    · next g =>
      simp only [Bool.and_eq_true, beq_iff_eq] at g
      have hw : x.power = .dozePending := g.1.1.2
      constructor <;> simp [Line.resting, hw, g.1.1.1]
    · next g =>
      refine ⟨fun h1 h2 h3 => ?_, fun q h1 => ?_, fun q h1 => ?_, fun q h1 h2 => ?_, hf, fun h1 h2 => ?_, fun q h1 h2 => ?_⟩
      · have := hmt h1 h2 h3
        revert this
        cases x.power <;> simp [PowerState.working]
      · rcases h1 with h1 | h1
        · exact (Line.found_nothing (hr q h1)).1 (.inl h1)
        · exact (Line.found_nothing (hd q h1.1 h1.2)).1 (.inr h1)
      · rcases h1 with h1 | h1
        · exact (Line.found_nothing (hr q h1.1)).2.1 (.inl h1)
        · exact (Line.found_nothing (hd q h1.1 h1.2)).2.1 (.inr h1)
      · exact Line.probesToStart_idle q.1 ▸ (Line.found_nothing (hr q h1)).2.2 h1 h2
      · by_contra hc
        simp only [not_or, not_not] at hc
        exact h (by simp [h1, h2, hc])
      · refine g ?_
        have := (Line.found_nothing (hr q h1)).1 (.inl h1)
        simp [h1, h2, this, (Line.atBoundary_iff m).2 q]

/-- A line with nothing of its own work left to begin stays as it is. -/
theorem Line.Settled.settle_eq {x : Ctx} {l : Line} (h : l.Settled x.power) : l.settle x = l := by
  have h1 : l.activateHunt x = l := by
    unfold Line.activateHunt
    rw [if_neg]
    intro g
    simp only [Bool.and_eq_true, Option.isNone_iff_eq_none, beq_iff_eq] at g
    have := h.hunt g.1.1.1 g.1.1.2 g.1.2
    rcases (PowerState.working_iff _).1 g.2 with q | q <;> simp [q] at this
  have hp (hb : l.resting) (hr : l.run = .running ∨ l.run = .draining ∧ l.abandon = false) : l.pick x = .nothing := by
    refine Line.pick_nothing.2 ⟨.inl (h.pace hb hr), fun ho => ?_, fun ho => ?_⟩
    · simp only [Line.hostOpen, Line.held, Bool.and_eq_true, Bool.or_eq_true, beq_iff_eq, Bool.not_eq_true',
        Bool.or_eq_false_iff, PowerState.working_iff] at ho
      obtain ⟨ho, hh, he⟩ := ho
      rcases h.host hb ho with q | q | q
      · cases hs : l.holdSlot <;> simp_all
      · simp at he
        exact absurd he q
      · exact q
    · simp only [Line.ownOpen, Bool.and_eq_true, beq_iff_eq, PowerState.working_iff] at ho
      exact (Line.probesToStart_idle hb.1).symm ▸ h.own hb ho.1 ho.2
  have hs (hb : l.resting) (hr : l.run = .running ∨ l.run = .draining ∧ l.abandon = false) : l.select x = l := by
    unfold Line.select Line.selectLoop
    rw [hp hb hr]
  have h2 : l.arbitrate x = l := by
    unfold Line.arbitrate
    split
    · next hb =>
      have hb := (Line.atBoundary_iff l).1 hb
      split
      · next hr => exact hs hb (.inl hr)
      · next hr =>
        split
        · next ha =>
          have hw := h.flushed hb hr ha
          simp only [Line.markAll, hw, markOrder, List.filter_nil, List.append_nil, List.map_nil]
          rw [← hw]
        · next ha => exact hs hb (.inr ⟨hr, by simpa using ha⟩)
      · rfl
      · rfl
    · rfl
  have h3 : l.drainEnd x = l := by
    unfold Line.drainEnd
    rw [if_neg]
    intro g
    simp only [Bool.and_eq_true, beq_iff_eq, List.isEmpty_iff, Option.isNone_iff_eq_none] at g
    rcases h.drained g.1.1.1 g.2 with q | q
    · exact q g.1.1.2
    · exact q g.1.2
  have h4 : l.park x = l := by
    unfold Line.park
    rw [if_neg]
    intro g
    simp only [Bool.and_eq_true, beq_iff_eq] at g
    exact h.parked ((Line.atBoundary_iff l).1 g.1.2) g.1.1.1 g.1.1.2
  rw [Line.settle, h1, h2, h3, h4]

/-- The step from DOZE_PENDING to DOZE leaves a line with nothing to begin. -/
theorem Line.Settled.doze {l : Line} (h : l.Settled .dozePending) : l.Settled .doze :=
  ⟨by simp, h.pace, fun a b => h.host a (by simpa using b), by simp, h.flushed, h.drained, by simp⟩

end Sys2Proof.Machine
end

