-- ==== Sys2Proof/Laws/Moments.lean ====
section
/-! SUPPORT. What a row that names a moment does: time moves on to it and the line takes the happening, or the row changes
nothing. What a run of space starts from, and which run a reply character's samples show. -/

namespace Sys2Proof.Machine

theorem State.elapse_line (k : Nat) (s : State) (n : LineId) : (s.elapse k).line n = (s.line n).elapse k := by
  fin_cases n <;> rfl

theorem State.setLine_self (s : State) (n : LineId) : s.setLine n (s.line n) = s := by
  fin_cases n <;> rfl

theorem State.onLine_eq (s : State) (n : LineId) (f : Ctx → Line → Line) :
    s.onLine n f = s.setLine n (f (s.ctx n) (s.line n)) := rfl

/-- A moment that the line's state rules out leaves the part as it is. -/
theorem State.take_moment_none {s : State} {n : LineId} {left : Line → Option Nat} {f : Ctx → Line → Line}
    (h : left (s.line n) = none) : s.take (s.moment n left f) = .next s := by
  unfold State.moment
  split
  · rw [h]
    exact State.take_none _
  · exact State.take_none _

/-- A moment that is `k` periods away: time moves on by them, and the line takes the happening. -/
theorem State.take_moment_some {s : State} (h : s.Live) {n : LineId} {left : Line → Option Nat} {f : Ctx → Line → Line}
    {k : Nat} (e : left (s.line n) = some k) :
    s.take (s.moment n left f) =
      .next ((s.elapse k).setLine n (f ((s.elapse k).ctx n) ((s.elapse k).line n))).settle := by
  unfold State.moment
  rw [if_pos h.running, e, Option.map_some, State.take_some h.up]
  rfl

/-- Time changes only the counts of an attempt: its mark, its characters, its expected length and its latency stay. -/
theorem Attempt.elapse_kept (k half : Nat) (e : Engine) (space : Bool) (a : Attempt) :
    (a.elapse k half e space).mark = a.mark ∧ (a.elapse k half e space).chars = a.chars ∧
    (a.elapse k half e space).expect = a.expect ∧ (a.elapse k half e space).latency = a.latency ∧
    (a.elapse k half e space).headerDone = a.headerDone ∧ (a.elapse k half e space).wait = a.wait ∧
    (a.elapse k half e space).edge = a.edge := by
  unfold Attempt.elapse Attempt.listen
  repeat' split
  all_goals exact ⟨rfl, rfl, rfl, rfl, rfl, rfl, rfl⟩

/-- A run of space in progress goes on. -/
theorem Line.spaceRun_of_space {x : Ctx} {l : Line} (h : l.wire.space = true) : l.spaceRun x = l := by
  simp [Line.spaceRun, Line.lineActivity, h]

/-- A run of space is in progress, on a line in the same engine state and run state. -/
theorem Line.spaceRun_spec (x : Ctx) (l : Line) :
    (l.spaceRun x).wire.space = true ∧ (l.spaceRun x).engine = l.engine ∧ (l.spaceRun x).run = l.run := by
  unfold Line.spaceRun Line.lineActivity
  dsimp only
  split
  · exact ⟨by assumption, rfl, rfl⟩
  · split <;> (try split) <;> exact ⟨rfl, by simp_all, rfl⟩

/-- The samples of a character end in as many at space as follow the last at mark. -/
theorem spaceTail_eq {p : Parity} {ch : RxChar} {front : List Bool} {z : Nat}
    (h : sampledLevels p ch = front ++ List.replicate z false) (last : ∀ y, front ≠ y ++ [false]) : spaceTail p ch = z := by
  have hf : front.reverse.takeWhile (fun level => !level) = [] := by
    rcases List.eq_nil_or_concat front with rfl | ⟨y, b, rfl⟩
    · rfl
    · cases b
      · exact absurd (List.concat_eq_append ..) (last y)
      · simp
  rw [spaceTail, h, List.reverse_append, List.reverse_replicate, List.takeWhile_append_of_pos (by simp), hf]
  simp

/-- A character has one sample for each of its bits. -/
theorem length_sampledLevels (p : Profile) (ch : RxChar) : (sampledLevels p.parity ch).length = p.charBits := by
  unfold sampledLevels Profile.charBits
  split <;> simp

/-- The receive pin after a stop-bit sample: at mark after a good stop bit, and after a framing error in the run as measured, if it does
not reach back over a sample at mark, or else in one that began half a bit time before the first sample of the unbroken space. -/
theorem Wire.sampled_eq (p : Profile) (ch : RxChar) (age : Nat) (w : Wire) :
    (ch.stop = true → w.sampled p ch age = Wire.idle) ∧
    ∀ front z, sampledLevels p.parity ch = front ++ List.replicate z false → (∀ y, front ≠ y ++ [false]) → ch.stop = false →
      let fits := w.space = true ∧ (front ≠ [] → w.run ≤ z * p.divisor + age)
      (fits → w.sampled p ch age = w) ∧
      (¬ fits → w.sampled p ch age = ⟨true, (z - 1) * p.divisor + p.halfBit + age, false⟩) := by
  refine ⟨fun h => by simp [Wire.sampled, h], fun front z hl last hs => ?_⟩
  have hz := spaceTail_eq hl last
  have hn : z < p.charBits ↔ front ≠ [] := by
    rw [← length_sampledLevels p ch, hl, List.length_append, List.length_replicate, ne_eq, ← List.length_eq_zero_iff]
    omega
  unfold Wire.sampled
  simp only [hs, hz, hn]
  exact ⟨fun f => if_pos f, fun f => if_neg f⟩

end Sys2Proof.Machine
end

