-- ==== Sys2Proof/Laws/Records.lean ====
section
/-! SUPPORT. What the bytes of a record are: the number that a run of bytes stands for, the padded body, and the levels of a
frame's characters on the wire. -/

namespace Sys2Proof.Machine

theorem length_leBytes (n v : Nat) : (leBytes n v).length = n := by
  induction n generalizing v with
  | zero => rfl
  | succ n ih => simp [leBytes, ih]

/-- The bytes of a number give it back, reduced to their width. -/
theorem leNat_leBytes (n v : Nat) : leNat (leBytes n v) = v % 256 ^ n := by
  induction n generalizing v with
  | zero => simp [leBytes, leNat, Nat.mod_one]
  | succ n ih =>
    simp only [leBytes, leNat, ih, BitVec.toNat_ofNat]
    rw [pow_succ' 256 n]
    exact Nat.mod_mul.symm

theorem length_padTo (n : Nat) (bs : List Byte) : (padTo n bs).length = n := by
  simp [padTo]
  omega

/-- A padded body has its own bytes and then zeros. -/
theorem recordByte_padTo (n : Nat) (bs : List Byte) (k : Nat) :
    recordByte (padTo n bs) k = if k < n then recordByte bs k else 0 := by
  simp only [recordByte, padTo, List.getD_eq_getElem?_getD]
  by_cases h : k < (bs.take n).length
  · rw [List.getElem?_append_left h]
    have : k < n := by simp at h; omega
    simp [this]
  · rw [List.getElem?_append_right (by omega)]
    have h2 : bs.length ≤ k ∨ n ≤ k := by simp at h; omega
    split
    · rw [List.getElem?_eq_none (l := bs) (by omega), List.getElem?_replicate]
      split <;> rfl
    · rw [List.getElem?_replicate]
      split <;> rfl

theorem recordByte_append_right {a b : List Byte} {k : Nat} (h : a.length ≤ k) :
    recordByte (a ++ b) k = recordByte b (k - a.length) := by
  simp [recordByte, List.getD_eq_getElem?_getD, List.getElem?_append_right h]

/-- The field of a record that lies behind `pre` is what the bytes there stand for. -/
theorem recordField_append {pre mid post : List Byte} {a n : Nat} (h1 : pre.length = a) (h2 : mid.length = n) :
    recordField (pre ++ mid ++ post) a n = leNat mid := by
  subst h1 h2
  simp [recordField, List.append_assoc]

/-- A field of one byte is that byte. -/
theorem recordField_one (b : List Byte) (a : Nat) : recordField b a 1 = (recordByte b a).toNat := by
  simp only [recordField, recordByte, List.getD_eq_getElem?_getD]
  rcases h : b.drop a with _ | ⟨x, t⟩
  · rw [List.getElem?_eq_none (by simpa using h)]
    rfl
  · have : b[a]? = some x := by
      have := congrArg (·[0]?) h
      simpa using this
    simp [this, leNat]

/-- A character is ten bit times long, or eleven with a parity bit (R1). -/
theorem length_charLevels (p : Parity) (b : Byte) : (charLevels p b).length = if p = .none then 10 else 11 := by
  cases p <;> rfl

/-- Level `k` of the character at index `i`, where every character has the same length. -/
theorem getElem?_flatMap_uniform {α β : Type} {xs : List α} {f : α → List β} {w : Nat} (h : ∀ x, (f x).length = w)
    {i k : Nat} {x : α} (hx : xs[i]? = some x) (hk : k < w) : (xs.flatMap f)[i * w + k]? = (f x)[k]? := by
  induction xs generalizing i with
  | nil => simp at hx
  | cons y ys ih =>
    rw [List.flatMap_cons]
    cases i with
    | zero =>
      simp only [List.getElem?_cons_zero, Option.some.injEq] at hx
      rw [List.getElem?_append_left (by rw [h]; omega), hx]
      simp
    | succ i =>
      rw [List.getElem?_append_right (by rw [h, Nat.succ_mul]; omega), h, ← ih (i := i) (by simpa using hx)]
      congr 1
      rw [Nat.succ_mul]
      omega

end Sys2Proof.Machine
end

