-- ==== Sys2Proof/Laws/Settled.lean ====
section
/-! SUPPORT. What settling comes to: a settled part (State.Settled), after any event. -/

namespace Sys2Proof.Machine

/-! ### The work loop -/

/-- No admission can be made. -/
theorem State.offers_of_admitNext {s : State} (h : s.admitNext = none) (hr : s.part = .running)
    (hf : s.placeFree = true) (p : Producer) : s.offerOf p = none := by
  unfold State.admitNext at h
  rw [if_pos ⟨hr, hf⟩, List.findSome?_eq_none_iff] at h
  have hp : p ∈ s.cu.pointer.rotation := by
    rcases s.cu.pointer with _ | n
    · rcases p with _ | m
      · simp [Producer.rotation]
      · fin_cases m <;> simp [Producer.rotation]
    · fin_cases n <;> rcases p with _ | m <;> (try (fin_cases m)) <;> simp [Producer.rotation]
  have e := h p hp
  simpa [State.admitFrom] using e

/-- The transition in progress, if one is left, waits for a line. -/
structure State.Waits (s : State) : Prop where
  parked : s.power.transition ≠ none → s.power.state = .dozePending → s.lines.all Line.countsParked = false
  switched : s.power.transition ≠ none → s.power.state ≠ .dozePending →
    s.lines.all (Line.switched s.power.state) = false

theorem State.finishPower_transition (s : State) : s.finishPower.power.transition = none := by
  unfold State.finishPower
  dsimp only
  split <;> rfl

/-- The test of the transition leaves none whose condition holds. -/
theorem State.transitionStep_waits (s : State) : s.transitionStep.Waits := by
  unfold State.transitionStep
  split
  · next h => exact ⟨fun g => absurd h g, fun g => absurd h g⟩
  · next p h =>
    split
    · next hd =>
      split
      · exact ⟨fun g => absurd (State.finishPower_transition _) g, fun g => absurd (State.finishPower_transition _) g⟩
      · next ha => exact ⟨fun _ _ => by simpa using ha, fun _ g => absurd hd g⟩
    · next hd =>
      split
      · exact ⟨fun g => absurd (State.finishPower_transition _) g, fun g => absurd (State.finishPower_transition _) g⟩
      · next ha => exact ⟨fun _ g => absurd g hd, fun _ _ => by simpa using ha⟩

/-- The test of the transition leaves the lines, and the power state but for the step from DOZE_PENDING to DOZE. -/
theorem State.transitionStep_lines (s : State) : s.transitionStep.lines = s.lines ∧
    (s.transitionStep.power.state = s.power.state ∨
      s.power.state = .dozePending ∧ s.transitionStep.power.state = .doze) := by
  have hf (u : State) : u.finishPower.lines = u.lines ∧ u.finishPower.power.state = u.power.state := by
    unfold State.finishPower
    dsimp only
    split <;> exact ⟨rfl, rfl⟩
  unfold State.transitionStep
  split
  · exact ⟨rfl, .inl rfl⟩
  · split
    · next hd =>
      split
      · obtain ⟨h1, h2⟩ := hf (s.setPower .doze)
        rw [h1, h2]
        exact ⟨by simp [State.setPower, hd, PowerState.target], .inr ⟨hd, by simp [State.setPower, hd, PowerState.target]⟩⟩
      · exact ⟨rfl, .inl rfl⟩
    · split
      · exact ⟨(hf s).1, .inl (hf s).2⟩
      · exact ⟨rfl, .inl rfl⟩

/-- The lines' own work leaves none of it to begin. -/
theorem State.workLines_settled (s : State) (n : LineId) :
    (s.workLines.line n).Settled s.workLines.power.state := by
  have hl : ((s.onLines Line.settle).line n).Settled s.power.state := by
    rw [State.line_onLines]
    exact Line.settle_settled (s.ctx n) (s.line n)
  obtain ⟨h1, h2⟩ := (s.onLines Line.settle).transitionStep_lines
  have e : s.workLines.line n = (s.onLines Line.settle).line n := by
    simp only [State.line, State.workLines, h1]
  rw [e]
  rcases h2 with h2 | ⟨h2, h3⟩
  · exact h2 ▸ hl
  · have hd : s.power.state = .dozePending := h2
    rw [hd] at hl
    exact h3 ▸ hl.doze

/-- The work loop ends with no admission to make, no line's work to begin, and no transition to finish. -/
theorem State.workLoop_done (k : Nat) {s : State} (h : s.part = .running)
    (hk : 16 < k + s.cu.holding.length) (h0 : k ≠ 0) :
    (s.workLoop k).admitNext = none ∧ (s.workLoop k).Waits ∧
      ∀ n, ((s.workLoop k).line n).Settled (s.workLoop k).power.state := by
  induction k generalizing s with
  | zero => exact absurd rfl h0
  | succ k ih =>
    unfold State.workLoop
    have hw := State.workLines_works h
    have hl := hw.kept.holding.length_le
    split
    · next t ht =>
      have h1 := State.admitNext_works ht
      have h2 := State.admitLoop_works Config.holdingCapacity t
      have h3 := h2.kept.holding.length_le
      have hp : t.admitAll.part = .running :=
        h2.kept.part.trans (h1.1.kept.part.trans (hw.kept.part.trans h))
      have hc : t.cu.holding.length ≤ 16 := by
        have hf : s.workLines.placeFree = true := by
          unfold State.admitNext at ht
          split at ht
          · next q => exact q.2
          · cases ht
        have : s.workLines.cu.holding.length < 16 := of_decide_eq_true hf
        omega
      have hle : t.cu.holding.length ≤ t.admitAll.cu.holding.length := h3
      refine ih hp (by omega) ?_
      rintro rfl
      omega
    · next hn => exact ⟨hn, State.transitionStep_waits _, s.workLines_settled⟩

/-- The consequences inside a RUNNING part leave no admission to make, no line's work to begin, and no transition to
finish. -/
theorem State.work_done {s : State} (h : s.part = .running) : s.work.admitNext = none ∧ s.work.Waits ∧
    ∀ n, (s.work.line n).Settled s.work.power.state := by
  unfold State.work
  rw [if_pos h]
  have h2 := State.admitLoop_works Config.holdingCapacity s
  exact State.workLoop_done _ (h2.kept.part.trans h) (by show 16 < 16 + 1 + _; omega) (by simp)

/-! ### The Fetch Unit and the Memory Port -/

/-- The Fetch Unit is busy after its visit, or no ring is eligible. -/
theorem State.fetchVisit_rings (s : State) (r : RingId) (h : s.fetchVisit.eligible r = true) :
    s.fetchVisit.fetchBusy = true := by
  unfold State.fetchVisit at h ⊢
  split
  · assumption
  · next hb =>
    rw [if_neg hb] at h
    split
    · simp [State.fetchBusy]
    · next hn =>
      rw [hn] at h
      rw [List.find?_eq_none] at hn
      have hr : r ∈ s.fetch.pointer.rotation := by
        rcases s.fetch.pointer with _ | n
        · rcases r with _ | m
          · simp [RingId.rotation]
          · fin_cases m <;> simp [RingId.rotation]
        · fin_cases n <;> rcases r with _ | m <;> (try (fin_cases m)) <;> simp [RingId.rotation]
      exact absurd h (hn r hr)

/-- The grant leaves the port busy or closed, or nothing asked for. -/
theorem State.grant_port (s : State) (h : s.grant.portOpen = true) (q : Requester) : s.grant.wanted q = none := by
  unfold State.grant at h ⊢
  split
  · next ho =>
    rw [if_pos ho] at h
    split
    · next r t hf =>
      rw [hf] at h
      simp [State.portOpen] at h
    · next hf =>
      rw [List.findSome?_eq_none_iff] at hf
      have hq : q ∈ s.port.last.rotation := by
        rcases s.port.last with _ | _ | n
        · rcases q with _ | _ | m <;> (try (fin_cases m)) <;> simp [Requester.rotation]
        · rcases q with _ | _ | m <;> (try (fin_cases m)) <;> simp [Requester.rotation]
        · fin_cases n <;> rcases q with _ | _ | m <;> (try (fin_cases m)) <;> simp [Requester.rotation]
      simpa using hf q hq
  · next ho =>
    rw [if_neg ho] at h
    exact absurd h ho

/-- The grant changes only who holds the port, the Fetch Unit's request, and what the Completion Unit remembers of its
writes; a request it takes up is a read in progress. -/
theorem State.grant_only (s : State) : ∃ f st pr p, s.grant = { s with
    fetch := { s.fetch with request := f }, cu := { s.cu with statusPending := st, prevRecord := pr }, port := p } ∧
    (s.fetchBusy = true → s.grant.fetchBusy = true) := by
  unfold State.grant
  split
  · next ho =>
    split
    · next r t hf =>
      cases t <;> refine ⟨_, _, _, _, rfl, fun hb => ?_⟩ <;>
        simp [State.fetchBusy, State.begun, Transfer.isRead, State.portOpen] at hb ho ⊢
      all_goals
        rcases hb with hb | hb
        · exact hb
        · rw [ho.1.1] at hb; simp at hb
    · exact ⟨_, _, _, _, rfl, id⟩
  · exact ⟨_, _, _, _, rfl, id⟩

/-! ### Settling -/

/-- A test on the four lines fails at one of them. -/
theorem Quad.all_false {α : Type} {q : Quad α} {p : α → Bool} (h : q.all p = false) : ∃ n, p (q.get n) = false := by
  simp only [Quad.all, Bool.and_eq_false_iff] at h
  rcases h with ((h | h) | h) | h
  · exact ⟨0, h⟩
  · exact ⟨1, h⟩
  · exact ⟨2, h⟩
  · exact ⟨3, h⟩

theorem State.grant_offers {s : State} {p : Producer} (h : s.offerOf p = none) : s.grant.offerOf p = none := by
  obtain ⟨f, st, pr, q, e, -⟩ := s.grant_only
  rw [e]
  rcases p with _ | n
  · unfold State.offerOf at h ⊢
    dsimp only at h ⊢
    split <;> simp_all
  · simpa [State.offerOf, State.line, State.ctx] using h

theorem State.fetchVisit_offers {s : State} {p : Producer} (h : s.offerOf p = none) : s.fetchVisit.offerOf p = none := by
  obtain ⟨f, e⟩ := s.fetchVisit_eq
  rw [e]
  rcases p with _ | n
  · unfold State.offerOf at h ⊢
    dsimp only at h ⊢
    split <;> simp_all
  · simpa [State.offerOf, State.line, State.ctx] using h

/-- After an event nothing waits that could go on. -/
theorem State.settle_settled (s : State) : s.settle.Settled := by
  have hk := State.work_works s
  obtain ⟨f, e⟩ := s.work.fetchVisit_eq
  obtain ⟨f', st, pr, q, e', hb⟩ := s.work.fetchVisit.grant_only
  have hpart : s.settle.part = s.part := by
    have : s.settle = s.work.fetchVisit.grant := rfl
    rw [this, e', e]
    exact hk.kept.part
  have hpow : s.settle.power = s.work.power := by
    have : s.settle = s.work.fetchVisit.grant := rfl
    rw [this, e', e]
  have hlin : s.settle.lines = s.work.lines := by
    have : s.settle = s.work.fetchVisit.grant := rfl
    rw [this, e', e]
  have hhold : s.settle.cu.holding = s.work.cu.holding := by
    have : s.settle = s.work.fetchVisit.grant := rfl
    rw [this, e', e]
  refine ⟨fun hr hp p => ?_, fun hr n => ?_, fun hr ht hd => ?_, fun hr ht hd => ?_, fun r hr => ?_, fun ho r => ?_⟩
  · rw [hpart] at hr
    have hf : s.work.placeFree = true := by
      simpa only [State.placeFree, hhold] using hp
    have := State.offers_of_admitNext (State.work_done hr).1 (hk.kept.part.trans hr) hf p
    exact State.grant_offers (State.fetchVisit_offers this)
  · rw [hpart] at hr
    have := (State.work_done hr).2.2 n
    simpa only [State.line, hlin, hpow] using this
  · rw [hpart] at hr
    rw [hpow] at ht hd
    obtain ⟨n, hn⟩ := Quad.all_false ((State.work_done hr).2.1.parked ht hd)
    refine ⟨n, ?_⟩
    have hl : s.settle.line n = s.work.lines.get n := by rw [State.line, hlin]
    rw [hl]
    simpa [Line.countsParked, and_assoc] using hn
  · rw [hpart] at hr
    rw [hpow] at ht hd
    obtain ⟨n, hn⟩ := Quad.all_false ((State.work_done hr).2.1.switched ht hd)
    refine ⟨n, ?_⟩
    have hl : s.settle.line n = s.work.lines.get n := by rw [State.line, hlin]
    rw [hl, hpow]
    simp only [Line.switched, Bool.or_eq_false_iff, beq_eq_false_iff_ne] at hn
    exact ⟨hn.2, hn.1.1, hn.1.2⟩
  · refine hb (State.fetchVisit_rings s.work r ?_)
    have : s.settle = s.work.fetchVisit.grant := rfl
    rw [this, e'] at hr
    cases r <;> exact hr
  · exact State.grant_port _ ho r

/-! ### Admission is repeated until it ends -/

theorem State.admitNext_full {s : State} (h : 16 ≤ s.cu.holding.length) : s.admitNext = none := by
  unfold State.admitNext
  rw [if_neg]
  rintro ⟨-, g⟩
  have : s.cu.holding.length < 16 := of_decide_eq_true g
  omega

/-- Sixteen rounds of admission are enough from any state, so one more changes nothing. -/
theorem State.admitLoop_more (k : Nat) {s : State} (h : 16 ≤ k + s.cu.holding.length) :
    s.admitLoop (k + 1) = s.admitLoop k := by
  induction k generalizing s with
  | zero =>
    unfold State.admitLoop
    rw [State.admitNext_full (by omega)]
  | succ k ih =>
    conv => lhs; unfold State.admitLoop
    conv => rhs; unfold State.admitLoop
    split
    · next t ht =>
      have := (State.admitNext_works ht).2.2
      exact ih (by omega)
    · rfl

/-- Admitting the next offer is the first thing that admitting all of them does. -/
theorem State.admitAll_next {s t : State} (h : s.admitNext = some t) : s.admitAll = t.admitAll := by
  unfold State.admitAll
  show s.admitLoop (15 + 1) = t.admitLoop (15 + 1)
  rw [State.admitLoop_more 15 (s := t) (by have := (State.admitNext_works h).2.2; omega)]
  conv => lhs; unfold State.admitLoop
  rw [h]

/-- As many rounds of the lines' work as the holding queue has room for are enough. -/
theorem State.workLoop_more (k : Nat) {s : State} (h : s.part = .running) (hk : 16 < k + s.cu.holding.length)
    (h0 : k ≠ 0) : s.workLoop (k + 1) = s.workLoop k := by
  induction k generalizing s with
  | zero => exact absurd rfl h0
  | succ k ih =>
    have hw := State.workLines_works h
    have hl := hw.kept.holding.length_le
    conv => lhs; unfold State.workLoop
    conv => rhs; unfold State.workLoop
    split
    · next t ht =>
      have h1 := State.admitNext_works ht
      have h2 := State.admitLoop_works Config.holdingCapacity t
      have h3 := h2.kept.holding.length_le
      have hp : t.admitAll.part = .running := h2.kept.part.trans (h1.1.kept.part.trans (hw.kept.part.trans h))
      have hle : t.cu.holding.length ≤ t.admitAll.cu.holding.length := h3
      by_cases hz : k = 0
      · have : 16 ≤ s.workLines.cu.holding.length := by omega
        rw [State.admitNext_full this] at ht
        cases ht
      · exact ih hp (by omega) hz
    · rfl

end Sys2Proof.Machine
end

