-- ==== Sys2Proof/Tests/Slice0.lean ====
section
/-! SUPPORT. Tests: the well-formedness checks, values and short steps whose expected results stand in the manual, and for
every statement with hypotheses a state and operands that meet them, at the boundary values of its clauses. -/

namespace Sys2Proof.Tests

open Sys2Proof Sys2Proof.Machine

set_option Elab.async false

/-! ### Small states -/

/-- A setup with submission rings of 8 entries, a completion ring of 16, threshold 2 and a holdoff of 256 µs. -/
def setup : Setup :=
  { adminBase := 0x10000, lineBases := ⟨0x20000, 0x30000, 0x40000, 0x50000⟩, completionBase := 0x60000,
    statusAddr := 0x70000, adminSize := 8, lineSizes := ⟨8, 8, 8, 8⟩, completionSize := 16, threshold := 2,
    holdoff := 256 }

/-- The setup block of `setup` with threshold `t`, by its layout (R188): seven little-endian addresses, the exponents 3 and 4,
the threshold, the holdoff low byte first, and wake-on-alert set. -/
def setupBlock (t : Byte) : List Byte :=
  [0, 0, 1, 0, 0, 0, 0, 0, 0, 0, 2, 0, 0, 0, 0, 0, 0, 0, 3, 0, 0, 0, 0, 0, 0, 0, 4, 0, 0, 0, 0, 0,
   0, 0, 5, 0, 0, 0, 0, 0, 0, 0, 6, 0, 0, 0, 0, 0, 0, 0, 7, 0, 0, 0, 0, 0, 0x33, 0x33, 0x43, t, 0, 1, 1, 0]

/-- A RUNNING part with its rings open and empty. -/
def up : State :=
  { State.reset with
    part := .running, setup := some setup, adminRing := ⟨.opened, 0, 0⟩
    lineRings := ⟨⟨.opened, 0, 0⟩, ⟨.opened, 0, 0⟩, ⟨.opened, 0, 0⟩, ⟨.opened, 0, 0⟩⟩, timer := ⟨true, 0, 0⟩ }

/-- That part with a transfer in progress. -/
def serving (t : Transfer) : State := { up with port := ⟨some t, .fetch⟩ }

/-- That part reading an admin entry, with line 0 as given. -/
def withLine (l : Line) : State :=
  { up with
    adminRing := ⟨.opened, 1, 0⟩, port := ⟨some (.entryRead .admin 0x10000), .fetch⟩
    lines := ⟨l, Line.reset, Line.reset, Line.reset⟩ }

/-- That part with line 0 as given and nothing else going on. -/
def at0 (l : Line) : State := { up with lines := ⟨l, Line.reset, Line.reset, Line.reset⟩ }

/-- The part in a power state. -/
def inPower (p : PowerState) (s : State) : State := { s with power := ⟨p, true, none⟩ }

/-- What a command comes to. -/
def after (c : Instr) (s : State) : State :=
  match exec c s with
  | .next t => t
  | .fault _ => s
  | .refused _ => s

/-- The outcome of the ADMIN completion that is the one record in the holding queue. -/
def adminOutcome (s : State) : Option AdminOutcome :=
  match s.cu.holding with
  | [.admin r] => some r.outcome
  | _ => none

/-- The EXCHANGE completions in the holding queue. -/
def exchanges (s : State) : List ExchangeRec := s.cu.holding.filterMap fun c =>
  match c with
  | .exchange r => some r
  | _ => none

/-- Profiles within every limit: 480 periods a bit, EVEN parity. -/
def rawBrisk : RawProfile := ⟨480, 1, 20, 200, 4, 40, 200, 20, 4, 3, 2, 5⟩

/-- A slower profile without parity. -/
def rawLull : RawProfile := ⟨4800, 0, 16, 60, 4, 30, 60, 100, 4, 3, 4, 10⟩

/-- A node record in a state. -/
def node (a : Nat) (s : NodeState) : Node := ⟨a, s, 0, true, none, 0, 0, false, false, false⟩

/-- A line with its profiles set. -/
def ready : Line :=
  { Line.reset with brisk := some (profileOfRaw rawBrisk), lull := some (profileOfRaw rawLull), profilesValid := true }

/-- A RUNNING line at a boundary, with nodes 5 and 6. -/
def running : Line :=
  { ready with run := .running, engine := .idle, roster := [node 5 .active, node 6 .silent], round := 1, roundTimer := some 960000 }

/-- A current exchange to node 5. -/
def cur (o : Origin) : Current :=
  { origin := o, node := 5, code := 0x20, payload := [], retryLimit := 2, profile := .brisk, toggle := false, attempts := 1,
    last := none, wentSilent := false, cancelReq := false, barred := false, superseded := false, huntLive := false }

/-- A host exchange. -/
def hostCur : Current := cur (.host .routine 0x77)

/-- A RUNNING line at work on an exchange in an engine state. -/
def busy (e : Engine) (c : Current) : Line := { running with engine := e, current := some c }

/-- A waiting entry. -/
def entry (tag : Half) (cls : QClass) (a : Nat) : QEntry := ⟨tag, cls, a, 0x21, [], 2, 0⟩

/-- A sweep entry to node 5. -/
def sweepEntry : SweepEntry := ⟨5, 0x30, [], 1, 0, 2⟩

/-- A line with one sweep entry set, at index 47. -/
def swept (l : Line) : Line := l.putSweep 47 (some sweepEntry)

/-- A SWEEP SET body at the limits of its fields. -/
def rawSweep : RawSweep := ⟨47, 5, 0x30, 16, 8, 7, 3, List.replicate 16 0⟩

theorem line_ready (l : Line) : LineReady (withLine l) 0 0 :=
  ⟨⟨rfl, rfl, rfl, ⟨_, rfl⟩, rfl, by simp [withLine], rfl⟩, rfl, .inl rfl⟩

/-! ### Well-formedness (R188) -/

theorem test_short_setup_block_ill_formed : (Instr.setupReadDone (.data (List.replicate 63 0))).wellFormed = false := by decide
theorem test_long_entry_ill_formed : (Instr.entryReadDone (.data (List.replicate 65 0))).wellFormed = false := by decide
theorem test_short_sweep_payload_ill_formed :
    (Instr.sweepSet 0 0 { rawSweep with payload := List.replicate 15 0 }).wellFormed = false := by decide
theorem test_whole_record_well_formed : (Instr.setupReadDone (.data (setupBlock 2))).wellFormed = true := by decide
theorem test_ill_formed_faults : exec (.setupReadDone (.data [])) up = .fault .illFormed := rfl

/-! ### The table gives no bits -/

theorem test_no_row_has_bits : decodeTableWord 16 0x1234 = none := rfl
theorem test_fetch_word_changes_nothing : State.reset.withFetchWord 32 7 = State.reset := rfl

/-! ### Values that stand in the manual -/

/-- R9: the check string. -/
theorem test_crc_check_string : crc16 [0x31, 0x32, 0x33, 0x34, 0x35, 0x36, 0x37, 0x38, 0x39] = 0x29B1 := by decide +kernel

/-- R1: 0x00 with EVEN parity holds space for ten bit times, and the stop bit is at mark. -/
theorem test_zero_with_even_parity : charLevels .even 0x00 = List.replicate 10 false ++ [true] := by decide

/-- R1: ODD parity over 0x01, which has one 1 bit, is 0; without parity a character has ten bits. -/
theorem test_odd_parity : charLevels .odd 0x01 = [false, true, false, false, false, false, false, false, false, false, true] ∧
    (charLevels .none 0x01).length = 10 := by decide

/-- R6: a PACE frame is 8 characters long, and announces the divisor high byte first and the parity selector. -/
theorem test_pace_payload : pacePayload (profileOfRaw rawLull) = [0x12, 0xC0, 0] ∧
    (requestFrame false 0 1 (pacePayload (profileOfRaw rawLull))).length = 8 := by decide +kernel

/-- R183: IDENT. -/
theorem test_ident : State.reset.readWord 0 = 0x4C5A0001#32 := by decide

/-- R184: after a power-on reset STATE holds the cause 1 and nothing else. -/
theorem test_state_after_power_on : State.reset.readWord 2 = 0x10#32 := by decide

/-- R188: the codes of the last verdict, 1 to 14 in the order of 1.6. -/
theorem test_verdict_codes : Verdict.good.code = 1 ∧ Verdict.timeout.code = 5 ∧ Verdict.sent.code = 14 := by decide

/-- R188: a CANCELLED EXCHANGE completion of an entry marked in the queue: kind 1, line 2, outcome 6, the tag low byte first,
the address, no attempts, no verdict, and the absent codes of reply and latency. -/
theorem test_exchange_record_bytes :
    (Completion.exchange ⟨2, .cancelled, .none, 0x1234, 5, 0, none, 0x01020304⟩).bytes.take 24 =
      [1, 2, 6, 0, 0x34, 0x12, 5, 0, 0, 0xFF, 0xFF, 0, 0xFF, 0xFF, 0xFF, 0xFF, 4, 3, 2, 1, 0, 0, 0, 0] := by decide +kernel

/-- R149, R188: an ADMIN completion of LINE START names its line, and no node: 0xFF. -/
theorem test_admin_record_names_no_node :
    (Completion.admin ⟨2, some 3, 9, none, .done .none, 0⟩).bytes.take 7 = [2, 3, 0, 0, 9, 0, 0xFF] := by decide +kernel

/-- R183: the second byte of IDENT, bits 15 to 8. -/
theorem test_read_byte : State.reset.readByte 0 2 = 0x5A ∧ State.reset.readByte 0 0 = 0x01 := by decide

/-- R188: the setup block's fields. -/
theorem test_setup_block : parseSetup (setupBlock 2) = setup ∧ parseWake (setupBlock 2) = true := by decide +kernel

/-! ### One step of each command -/

/-- R148: a power-on reset of a RUNNING part leaves it DISABLED and its lines QUIET. -/
theorem test_power_on_reset : (after .powerOnReset (at0 running)).part = .disabled ∧
    ((after .powerOnReset (at0 running)).line 0).run = .quiet := by decide +kernel

/-- R184: the last reset cause after the RESET pin returns high reads 2. -/
theorem test_hard_reset : (after .hardReset up).readWord 2 = 0x20#32 := by decide +kernel

/-- R129: ENABLE requests the 64 bytes at SETUP ADDRESS. -/
theorem test_enable : (after (.enable 1) { State.reset with setupAddr := 0x1000 }).port.transfer = some (.setupRead 0x1000) := by
  decide +kernel

/-- R129, R131: an address that is not a multiple of 64 fails SETUP_INVALID with no read. -/
theorem test_enable_unaligned : (after (.enable 1) { State.reset with setupAddr := 0x1020 }).setupError = .setupInvalid ∧
    (after (.enable 1) { State.reset with setupAddr := 0x1020 }).port.transfer = none := by decide +kernel

/-- R183: a single write with SOFT_RESET and ENABLE starts the soft reset. -/
theorem test_soft_reset : (after (.softReset 3) State.reset).part = .disabled ∧
    (after (.softReset 3) State.reset).resetCause = .soft := by decide +kernel

/-- R146: under a transfer the soft reset waits for its end. -/
theorem test_soft_reset_waits :
    (after (.softReset 2) (serving (.statusWrite 0 []))).part = .running ∧
    (after .softResetTakesEffect (after (.softReset 2) (serving (.statusWrite 0 [])))).part = .disabled := by decide +kernel

/-- R185: the high half of SETUP ADDRESS. -/
theorem test_register_write : (after (.registerWrite 4 true 0x12345678) State.reset).setupAddr = 0x1234567800000000#64 := by
  decide +kernel

/-- R134: a POST to line 3's ring makes the Fetch Unit read the entry at its base. -/
theorem test_post : (after (.post 0x40001) (at0 Line.reset)).lineRings.q3.posted = 1 ∧
    (after (.post 0x10001) (at0 running)).port.transfer = some (.entryRead (.line 0) 0x20000) := by decide +kernel

/-- R155: a count above the produced count faults the part BAD_CONSUMED. -/
theorem test_consumed : (after (.consumed 1) up).part = .faulted ∧ (after (.consumed 1) up).faultReason = .badConsumed := by
  decide +kernel

/-- R187: only the bit written 1 is cleared. -/
theorem test_cause : (after (.cause 2) { up with causes := ⟨true, true, true, true⟩ }).causes = ⟨true, false, true, true⟩ := by
  decide +kernel

/-- R132: the part RUNNING with the status block written first. -/
theorem test_setup_read_done :
    (after (.setupReadDone (.data (setupBlock 2))) { State.reset with part := .loading, port := ⟨some (.setupRead 0), .fetch⟩ }).part
      = .running := by decide +kernel

/-- R130: a threshold of 0 fails the setup. -/
theorem test_setup_threshold_zero :
    (after (.setupReadDone (.data (setupBlock 0))) { State.reset with part := .loading, port := ⟨some (.setupRead 0), .fetch⟩ }).setupError
      = .setupInvalid := by decide +kernel

/-- An exchange entry by its layout: tag 0x0102, node, code, length, retry limit, priority. -/
def entryBytes (a c len retry pri : Byte) : List Byte :=
  [2, 1, a, c, len, retry, pri, 0] ++ List.replicate 32 0xAA ++ List.replicate 24 0

/-- The part reading line 0's ring. -/
def reading0 (l : Line) : State :=
  { at0 l with
    lineRings := ⟨⟨.opened, 1, 0⟩, ⟨.opened, 0, 0⟩, ⟨.opened, 0, 0⟩, ⟨.opened, 0, 0⟩⟩
    port := ⟨some (.entryRead (.line 0) 0x20000), .fetch⟩ }

/-- R78, R81: a valid entry on a line at a boundary becomes the current exchange. -/
theorem test_entry_read_done :
    ((after (.entryReadDone (.data (entryBytes 5 0x20 2 7 1))) (reading0 running)).line 0).current.map
      (fun c => (c.origin, c.payload)) = some (.host .urgent 0x0102, [0xAA, 0xAA]) := by decide +kernel

/-- R138: an address above 62 is refused BAD_ADDRESS. -/
theorem test_entry_refused :
    (after (.entryReadDone (.data (entryBytes 63 0x20 0 0 0))) (reading0 running)).cu.holding =
      [.exchange ⟨0, .refused, .badAddress, 0x0102, 63, 0, none, 0⟩] := by decide +kernel

/-- R23: a bit divisor of 15 is below its range. -/
theorem test_line_setup : ((after (.lineSetup 9 0 rawBrisk rawLull) (withLine Line.reset)).line 0).profilesValid = true ∧
    adminOutcome (after (.lineSetup 9 0 { rawBrisk with divisor := 15 } rawLull) (withLine Line.reset)) =
      some (.refused (.badProfile .brisk 1)) := by decide +kernel

/-- R30, R166: a started line selects the PACE that announces BRISK, in round 1. -/
theorem test_line_start : ((after (.lineStart 9 0) (withLine ready)).line 0).current.map (·.origin) = some (.pace .brisk) ∧
    ((after (.lineStart 9 0) (withLine ready)).line 0).round = 1 := by decide +kernel

/-- R91: a drain with nothing to do is over at once. -/
theorem test_line_stop : ((after (.lineStop 9 0 0) (withLine running)).line 0).run = .quiet ∧
    ((after (.lineStop 9 0 0) (withLine (busy .sending hostCur))).line 0).run = .draining := by decide +kernel

/-- R94: a current host exchange ends FLUSHED. -/
theorem test_line_reset : (exchanges (after (.lineReset 9 0) (withLine (busy .sending hostCur)))).map (·.outcome) = [.flushed] := by
  decide +kernel

/-- R46: an untrusted node starts JOINING, in its place in the roster. -/
theorem test_node_add : ((after (.nodeAdd 9 0 4 false) (withLine { ready with roster := [node 3 .active, node 5 .active] })).line
    0).roster.map (fun x => (x.addr, x.state)) = [(3, .active), (4, .joining), (5, .active)] := by decide +kernel

/-- R47: a node that a sweep entry names is IN_USE. -/
theorem test_node_remove : adminOutcome (after (.nodeRemove 9 0 5) (withLine (swept { ready with roster := [node 5 .active] })))
    = some (.refused .inUse) := by decide +kernel

/-- R48, R52: a bar owes a report, which joins the holding queue. -/
theorem test_node_bar : ((after (.nodeBar 9 0 5) (withLine { ready with roster := [node 5 .active] })).line 0).roster.map
    (·.state) = [.barred] := by decide +kernel

/-- R49. -/
theorem test_node_unbar : ((after (.nodeUnbar 9 0 5) (withLine { ready with roster := [node 5 .barred] })).line 0).roster.map
    (·.state) = [.joining] := by decide +kernel

/-- R170: an address that no record has is UNKNOWN_NODE. -/
theorem test_node_query : adminOutcome (after (.nodeQuery 9 0 7) (withLine running)) = some (.refused .unknownNode) ∧
    adminOutcome (after (.nodeQuery 9 0 6) (withLine running)) = some (.done (.node (node 6 .silent))) := by decide +kernel

/-- R98: every field at its limit is accepted; a phase equal to the cadence is not. -/
theorem test_sweep_set :
    ((after (.sweepSet 9 0 rawSweep) (withLine { ready with roster := [node 5 .active] })).line 0).sweepAt 47 =
      some ⟨5, 0x30, List.replicate 16 0, 8, 7, 3⟩ ∧
    adminOutcome (after (.sweepSet 9 0 { rawSweep with phase := 8 }) (withLine { ready with roster := [node 5 .active] })) =
      some (.refused .badField) := by decide +kernel

/-- R99. -/
theorem test_sweep_clear : ((after (.sweepClear 9 0 47) (withLine (swept ready))).line 0).sweepAt 47 = none := by decide +kernel

/-- R100: the highest base leaves exactly 3,072 bytes. -/
theorem test_sweep_image :
    ((after (.sweepImage 9 0 0xFFFFFFFFFFFFF400) (withLine ready)).line 0).imageBase = some 0xFFFFFFFFFFFFF400 ∧
    adminOutcome (after (.sweepImage 9 0 0xFFFFFFFFFFFFF440) (withLine ready)) = some (.refused .badField) := by decide +kernel

/-- R88: a current exchange in SENDING is flagged and goes on. -/
theorem test_cancel :
    ((after (.cancel 9 0 0x77) (withLine (busy .sending hostCur))).line 0).current.map (·.cancelReq) = some true ∧
    adminOutcome (after (.cancel 9 0 0x77) (withLine (busy .sending hostCur))) = some (.done (.cancel 0x77 1)) := by decide +kernel

/-- R177: with no line running POWER LULL is over at once; R178: DOZE is refused from ACTIVE. -/
theorem test_power : (after (.power 9 1) (withLine Line.reset)).power.state = .lull ∧
    adminOutcome (after (.power 9 2) (withLine Line.reset)) = some (.refused .wrongPowerState) := by decide +kernel

/-- R76: the clear flag clears the counters after they are reported. -/
theorem test_line_query :
    ((after (.lineQuery 9 0 true) (withLine { ready with stats := ⟨1, 2, 3, 4, 5⟩ })).line 0).stats = ⟨0, 0, 0, 0, 0⟩ := by
  decide +kernel

/-- R12, R60: the attempt begins, counted, with the toggle opposite to the record's. -/
theorem test_lead_wait_complete :
    let l := busy .lead { hostCur with attempts := 0 }
    ((after (.leadWaitComplete 0) (at0 l)).line 0).engine = .sending ∧
    ((after (.leadWaitComplete 0) (at0 l)).line 0).current.map (fun c => (c.attempts, c.toggle)) = some (1, false) := by
  decide +kernel

/-- R41: the record takes the toggle at the end of the HEADER. -/
theorem test_header_stop_bit_end :
    ((after (.headerStopBitEnd 0) (at0 (busy .sending hostCur))).line 0).roster.map (·.lastToggle) = [false, true] := by
  decide +kernel

/-- R11, R62: an echo that differs ends the attempt COLLISION, and the retry waits two lead gaps. -/
theorem test_echo_failure :
    let t := after (.echoFailure 0 1 (.taken ⟨0x21, true, true⟩)) (at0 (busy .sending hostCur))
    (t.line 0).current.map (fun c => c.last.map (·.verdict)) = some (some .collision) ∧ (t.line 0).att.wait = 40 := by
  decide +kernel

/-- R13: the reply window opens; R7: a broadcast ends SENT. -/
theorem test_request_frame_end : ((after (.requestFrameEnd 0) (at0 (busy .sending hostCur))).line 0).engine = .awaiting ∧
    (exchanges (after (.requestFrameEnd 0) (at0 (busy .sending { hostCur with node := 0 })))).map
      (fun r => (r.outcome, r.last.map (·.verdict))) = [(.done, some .sent)] := by decide +kernel

/-- R13, R62: TIMEOUT, and the retry waits the retry gap. -/
theorem test_reply_window_expiry :
    let t := after (.replyWindowExpiry 0) (at0 (busy .awaiting hostCur))
    (t.line 0).current.map (fun c => c.last.map (·.verdict)) = some (some .timeout) ∧ (t.line 0).att.wait = 40 := by
  decide +kernel

/-- R17: a transition 4800 periods after the request's last stop bit gives a latency of 100 µs. -/
theorem test_reply_start :
    ((after (.replyStart 0) (at0 { busy .awaiting hostCur with att := { Attempt.clear with window := 4800 } })).line 0).att.latency =
      some 100 := by decide +kernel

/-- The engine at the last character of an OK reply of node 5 with toggle 0, with no payload. -/
def lastChar : Line :=
  let crc := crcChars (crc16 [0x85, 0, 0])
  { busy .receiving hostCur with
    att := { Attempt.clear with latency := some 100, chars := [0x85, 0, 0, crc.getD 0 0], expect := some 5, gap := .fromSample 0 } }

/-- R18, R64: a good reply ends the exchange DONE. -/
theorem test_reply_character :
    let b := (crcChars (crc16 [0x85, 0, 0])).getD 1 0
    (exchanges (after (.replyCharacter 0 ⟨b, dataParity b, true⟩) (at0 lastChar))).map (fun r => (r.outcome, r.last)) =
      [(.done, some ⟨.good, some ⟨.ok, []⟩, some 100, 5⟩)] := by decide +kernel

/-- R15: BROKEN. -/
theorem test_character_gap_exceeded :
    ((after (.characterGapExceeded 0) (at0 lastChar)).line 0).current.map (fun c => c.last.map (·.verdict)) =
      some (some .broken) := by decide +kernel

/-- R116: an alert pulse on an IDLE line is counted, and starts a hunt of its ACTIVE nodes (R119). -/
theorem test_long_space : ((after (.longSpace 0) (at0 running)).line 0).stats.alertPulses = 1 ∧
    ((after (.longSpace 0) (at0 running)).line 0).current.map (fun c => (c.origin, c.node)) = some (.hunt, 5) := by decide +kernel

/-- R72: a stuck line is FAULTED. -/
theorem test_stuck_line : ((after (.stuckLine 0) (at0 running)).line 0).run = .faulted ∧
    ((after (.stuckLine 0) (at0 running)).line 0).engine = .off := by decide +kernel

/-- R74: a cancel or a bar taken in SENDING, AWAITING or RECEIVING, then the stuck line: LINE_FAULT, with the attempt's own verdict. -/
theorem test_stuck_line_overrides_cancel_and_bar :
    let ends (e : Engine) (c : Current) := (exchanges (after (.stuckLine 0) (at0 { busy e c with wire := ⟨true, 0, false⟩ }))).map
      fun r => (r.outcome, r.last.map (·.verdict))
    ends .sending { hostCur with cancelReq := true } = [(.lineFault, some .collision)] ∧
    ends .awaiting { hostCur with barred := true } = [(.lineFault, some .broken)] ∧
    ends .receiving { hostCur with cancelReq := true, barred := true } = [(.lineFault, some .broken)] := by decide +kernel

/-- R71, R119, R117: a run not marked before, found stuck in AWAITING: the hunt that its pulse starts is active, not pending, on the
FAULTED line. -/
theorem test_stuck_line_starts_the_hunt_first :
    let l := (after (.stuckLine 0) (at0 { busy .awaiting hostCur with wire := ⟨true, 0, false⟩ })).line 0
    l.run = .faulted ∧ l.hunt = some ⟨0, []⟩ ∧ l.huntPending = false ∧ l.stats.alertPulses = 1 := by decide +kernel

/-- R3: half a bit time of 480 periods after the transition the line is back at mark: a glitch, with the idle count running. -/
theorem test_glitch_between_characters :
    (({ lastChar with att := { lastChar.att with gap := .edge 239 (some 3) 0 } }).elapse 1).att.gap = .fromMark 4 := by decide +kernel

/-- R15: a glitch of 10 periods that begins 30 periods after the stop bit's sample leaves the frame its whole gap from the stop bit's
end, 240 periods after that sample. -/
theorem test_glitch_within_the_stop_bit :
    let l : Line := { lastChar with att := { lastChar.att with gap := .fromSample 30 } }
    let later := (((l.lineActivity ⟨0, 0, .active⟩ .toSpace).elapse 10).lineActivity ⟨0, 0, .active⟩ .toMark).elapse 230
    later.att.gap = .fromMark 30 ∧ l.gapLeft = some (240 + 1921 - 30) ∧ later.gapLeft = some (1921 - 30) := by decide +kernel

/-- R127: a trusted node added below the current hunt step is stepped later in this hunt. -/
theorem test_node_added_below_the_step :
    let c : Current := { cur .hunt with node := 8, huntLive := true }
    let l := { busy .awaiting c with hunt := some ⟨0, []⟩, roster := [node 8 .active] }
    let t := after (.nodeAdd 9 0 3 true) (withLine l)
    (t.line 0).hunt = some ⟨0, [3]⟩ ∧ ((t.line 0).endExchange (t.ctx 0) c .noReply).hunt = some ⟨8, [3]⟩ := by decide +kernel

/-- R102, R103: the next round and its deadline, 20 ms away. -/
theorem test_round_start : ((after (.roundStart 0) (at0 running)).line 0).round = 2 ∧
    ((after (.roundStart 0) (at0 running)).line 0).roundTimer = some 960000 := by decide +kernel

/-- R158: the deadline signals the one completion that is unsignalled. -/
theorem test_holdoff_expiry :
    (after .holdoffExpiry { up with cu := { up.cu with produced := 1, holdoff := some 5 } }).causes.completions = true := by
  decide +kernel

/-- The part writing the one record it holds. -/
def writing : State :=
  { serving (.recordWrite 0x60000 []) with cu := { up.cu with holding := [.lineEvent 0 .drained 0] } }

/-- R154, R158: the record is produced, and below the threshold the holdoff runs, 256 µs. -/
theorem test_completion_write_done : (after (.completionWriteDone .good) writing).cu.produced = 1 ∧
    (after (.completionWriteDone .good) writing).cu.holdoff = some 12288 := by decide +kernel

/-- R142: a bus error faults the part. -/
theorem test_status_write_done : (after (.statusWriteDone .busError) (serving (.statusWrite 0x70000 []))).faultReason =
    .statusWriteError := by decide +kernel

/-- A line whose writer is at a phase of a slot write for index 1 of round 7. -/
def slotLine (p : SlotPhase) : Line :=
  { running with imageBase := some 0x80000, writer := ⟨[], some (⟨1, 0x80040, 7, .nonWire .skipped 9⟩, p)⟩ }

/-- The part with that write's transfer in progress. -/
def slotPart (p : SlotPhase) : State :=
  { at0 (slotLine p) with
    port := ⟨some (match p with | .body => .slotBody 0 0x80044 [] | .stamp => .slotStamp 0 0x80040 []), .writer 0⟩ }

/-- R109: the stamp, the round number, follows the body at the slot's first four bytes. -/
theorem test_slot_body_write_done : (after (.slotBodyWriteDone .good) (slotPart .body)).port.transfer =
    some (.slotStamp 0 0x80040 [7, 0, 0, 0]) := by decide +kernel

/-- R109, R114: the writer is free after the stamp, and halts on a bus error. -/
theorem test_slot_stamp_write_done : ((after (.slotStampWriteDone .good) (slotPart .stamp)).line 0).writer = ⟨[], none⟩ ∧
    ((after (.slotStampWriteDone .busError) (slotPart .stamp)).line 0).sweepHalted = true := by decide +kernel

/-- R12: a return to mark starts the LEAD count again. -/
theorem test_line_activity :
    ((after (.lineActivity 0 .toMark) (at0 { busy .lead hostCur with wire := ⟨true, 50, false⟩ })).line 0).wire = ⟨false, 0, false⟩ := by
  decide +kernel

/-- R184: while the RESET pin is low no register write is taken. -/
theorem test_hard_reset_held : (after (.registerWrite 3 true 5) (after .hardResetHeld State.reset)).setupAddr = 0 := by
  decide +kernel

/-! ### Witnesses: the step, the resets and the register window

A theorem witness_<statement> shows, for each clause of that statement, values that meet its hypotheses together, at the
boundaries of their ranges. -/

theorem serves (t : Transfer) : State.Serving (serving t) t := ⟨rfl, rfl, .inr rfl, rfl⟩

theorem rosterOk_of {r : List Node} (h : r.Pairwise (fun x y => x.addr < y.addr) ∧ r.length ≤ 32 ∧
    ∀ x ∈ r, 1 ≤ x.addr ∧ x.addr ≤ 62 ∧ x.failures ≤ 15 ∧ x.joinProbes ≤ 15) : RosterOk r :=
  ⟨h.1, h.2.1, fun x m => ⟨(h.2.2 x m).1, (h.2.2 x m).2.1, (h.2.2 x m).2.2.1, (h.2.2 x m).2.2.2⟩⟩

theorem running_roster : RosterOk running.roster := rosterOk_of (by decide)

theorem witness_StepTakesTheFrontCommand :
    (up.withPending [.post 0, .cause 1]).pending = .post 0 :: [.cause 1] := rfl

/-- Each happening in the period in which it falls due, and the first three one period earlier. The bit time is 480 periods, the
stuck limit 5 ms, the lead gap 20, the reply window 200 and the character gap limit 4 bit times, and a frame with no payload has 5
characters of 11 bit times. Line 0 comes before line 1, and the long space before the stuck line. -/
theorem witness_StepOnAnEmptyQueue :
    (let due (l : Line) := l.dueEvent 0
     let space (k : Nat) (marked : Bool) : Line := { busy .lead hostCur with wire := ⟨true, k, marked⟩ }
     let at_ (e : Engine) (a : Attempt) : Line := { busy e hostCur with att := a }
     let edge : Attempt := { Attempt.clear with window := 96000, edge := some 95760 }
     let sent (k : Nat) (header : Bool) := at_ .sending { Attempt.clear with sent := k, headerDone := header }
     due (space 10560 false) = some (.longSpace 0) ∧ due (space 10559 false) = none ∧
     due (space 240000 true) = some (.stuckLine 0) ∧ due (space 239999 true) = none ∧
     due (space 240000 false) = some (.longSpace 0) ∧
     due (at_ .lead { Attempt.clear with wait := 20, markCount := 9600 }) = some (.leadWaitComplete 0) ∧
     due (at_ .lead { Attempt.clear with wait := 20, markCount := 9599 }) = none ∧
     due (sent 5280 false) = some (.headerStopBitEnd 0) ∧ due (sent 26400 true) = some (.requestFrameEnd 0) ∧
     due { at_ .awaiting edge with wire := ⟨true, 240, false⟩ } = some (.replyStart 0) ∧
     due (at_ .awaiting edge) = some (.lineActivity 0 .glitch) ∧
     due (at_ .awaiting { Attempt.clear with window := 96000 }) = some (.replyWindowExpiry 0) ∧
     due (at_ .receiving { Attempt.clear with gap := .fromSample 2161 }) = some (.characterGapExceeded 0) ∧
     due (at_ .receiving { Attempt.clear with gap := .fromMark 1921 }) = some (.characterGapExceeded 0) ∧
     due { running with roundTimer := some 0 } = some (.roundStart 0) ∧
     ({ up with lines := ⟨running, { running with roundTimer := some 0 }, { running with roundTimer := some 0 }, running⟩ } :
       State).dueEvent = some (.roundStart 1)) ∧
    (let t : State := ({ up with timer := ⟨true, 0xFFFFFFFF, 47⟩, cu := { up.cu with holdoff := some 2 } } : State).elapse 1
     t.timer.count = 0 ∧ t.timer.clocks = 0 ∧ t.cu.holdoff = some 1) ∧
    (State.reset.pending = [] ∧ State.reset.resetLow = false ∧ State.reset.part ≠ .running) ∧
    (let s : State := { up with resetLow := true }; s.pending = [] ∧ s.resetLow = true) ∧
    (let s : State := { up with cu := { up.cu with holdoff := some 0 } }
     s.pending = [] ∧ s.dueEvent = some .holdoffExpiry) ∧
    (let s : State := { up with cu := { up.cu with holdoff := some 1 } }
     s.pending = [] ∧ s.resetLow = false ∧ s.dueEvent = none) := by decide +kernel

theorem witness_EveryCommandAnswers : (Instr.setupReadDone (.data (List.replicate 64 0))).wellFormed = true ∧
    (Instr.setupReadDone (.data (List.replicate 63 0))).wellFormed = false ∧
    (Instr.setupReadDone (.data (List.replicate 65 0))).wellFormed = false := by decide

theorem witness_SettlingKeepsTheRest : (at0 running).settle.Settled ∧ State.reset.settle.Settled :=
  ⟨State.settle_settled _, State.settle_settled _⟩

/-- With no transfer, with each kind of transfer in progress, and with one whose end a soft reset waits for. -/
theorem witness_SoftResetAtOnceOrWhenTheTransferEnds :
    (up.resetLow = false ∧ up.softPending = false ∧ up.port.transfer = none) ∧
    ∀ t ∈ [Transfer.setupRead 0, .entryRead .admin 0, .recordWrite 0 [], .statusWrite 0 [], .slotBody 3 0 [], .slotStamp 3 0 []],
      ((serving t).resetLow = false ∧ (serving t).port.transfer = some t) ∧
      (let s : State := { serving t with softPending := true }
       s.resetLow = false ∧ s.softPending = true ∧ s.port.transfer = some t ∧
       (ReadResp.data (List.replicate 64 0)).wellFormed = true) := by decide

theorem witness_ResetPinHoldsThePart : let s : State := { up with resetLow := true }
    s.resetLow = true ∧ (Instr.post 0).wellFormed = true ∧ Instr.post 0 ≠ .powerOnReset ∧ Instr.post 0 ≠ .hardReset ∧
    Instr.post 0 ≠ .hardResetHeld ∧ ∀ n a, Instr.post 0 ≠ .lineActivity n a := by
  refine ⟨rfl, rfl, ?_, ?_, ?_, ?_⟩ <;> simp

theorem witness_EnableStartsLoading :
    (3#32).getLsbD 1 = true ∧ (1#32).getLsbD 1 = false ∧
    (∀ a : Addr, a = 0 ∨ a = 64 → let s : State := { State.reset with setupAddr := a }
      s.resetLow = false ∧ s.part = .disabled ∧ s.setupAddr.toNat % 64 = 0 ∧ s.port.transfer = none ∧
      s.softPending = false ∧ s.port.last = .writer 3) ∧
    (∀ a : Addr, a = 1 ∨ a = 63 → let s : State := { State.reset with setupAddr := a }
      s.part = .disabled ∧ s.setupAddr.toNat % 64 ≠ 0 ∧ s.fetch.request = none) ∧
    up.part ≠ .disabled := by
  refine ⟨by decide, by decide, ?_, ?_, by decide⟩ <;> rintro a (rfl | rfl) <;> decide +kernel

theorem witness_RegisterWindow : up.resetLow = false ∧ (2#32).getLsbD 1 = true ∧
    ((1#32).getLsbD 1 = false ∧ (1#32).getLsbD 0 = true) ∧ ((0xF00#32).getLsbD 1 = false ∧ (0xF00#32).getLsbD 0 = false) ∧
    7 < (8#5).toNat ∧ 7 < (31#5).toNat ∧ (2 ≤ 2 ∧ 2 ≤ 7 ∨ 12 ≤ 2) ∧ (2 ≤ 7 ∧ 7 ≤ 7 ∨ 12 ≤ 7) ∧ (2 ≤ 12 ∧ 12 ≤ 7 ∨ 12 ≤ 12) ∧
    (2 ≤ 31 ∧ 31 ≤ 7 ∨ 12 ≤ 31) := by decide

/-- A POST to the admin ring of 8 entries: 8 posted are taken, 9 are too many; ring numbers 4 and 5; a part and a ring that do
not take a POST. -/
theorem witness_PostMovesOrHaltsARing :
    up.resetLow = false ∧ 4 < ((0x50000#32) >>> 16).toNat % 8 ∧ 4 < ((0x70000#32) >>> 16).toNat % 8 ∧
    State.reset.part ≠ .running ∧
    (((0x8#32) >>> 16).toNat % 8 = RingId.admin.number ∧ up.part = .running ∧ (up.ring .admin).state = .opened ∧
      ((0x8#32).setWidth 16 - (up.ring .admin).taken).toNat ≤ up.ringSize .admin) ∧
    (((0x40009#32) >>> 16).toNat % 8 = (RingId.line 3).number ∧ (up.ring (.line 3)).state = .opened ∧
      up.ringSize (.line 3) < ((0x40009#32).setWidth 16 - (up.ring (.line 3)).taken).toNat) ∧
    (let s : State := { up with adminRing := ⟨.haltedBadPost, 0, 0⟩}
     s.part = .running ∧ (s.ring .admin).state ≠ .opened) := by decide +kernel

/-- Of a completion ring of 16 records with the produced count at 16, a consumed count of 0 leaves 16 and one of 65,535 leaves
17. -/
theorem witness_ConsumedMovesOrFaults : State.reset.part ≠ .running ∧
    (let s : State := { up with cu := { up.cu with produced := 16 } }
     s.resetLow = false ∧ s.part = .running ∧ (s.cu.produced - (0#32).setWidth 16).toNat ≤ s.completionSize ∧
     s.completionSize < (s.cu.produced - (0xFFFF#32).setWidth 16).toNat) := by decide +kernel

theorem witness_CauseClearsAndInterruptFollows : up.resetLow = false := rfl

/-! ### Witnesses: the ends of reads -/

/-- The part reading the setup block. -/
def loading : State := { State.reset with part := .loading, port := ⟨some (.setupRead 0x1000), .fetch⟩ }

theorem setup_passes : SetupPasses setup where
  aligned := by decide
  rings := by intro r; cases r with
    | admin => decide
    | line n => revert n; decide
  completions := by decide
  extent := by decide
  apart := by
    have h : setup.areas = [(0x10000, 512), (0x20000, 512), (0x30000, 512), (0x40000, 512), (0x50000, 512), (0x60000, 1024),
      (0x70000, 64)] := by decide
    rw [h]; simp only [List.pairwise_cons, List.mem_cons, areasMeet]
    refine ⟨?_, ?_, ?_, ?_, ?_, ?_, ?_, List.Pairwise.nil⟩ <;> rintro b hb ⟨x, h1, h2⟩ <;>
      simp only [List.not_mem_nil, or_false] at hb <;>
      rcases hb with rfl | rfl | rfl | rfl | rfl | rfl <;> simp only at h1 h2 <;> omega
  threshold := by decide

theorem witness_SetupPassesOrFails : loading.Serving (.setupRead 0x1000) ∧ loading.part = .loading ∧
    (setupBlock 1).length = 64 ∧ SetupPasses (parseSetup (setupBlock 2)) ∧ ¬ SetupPasses (parseSetup (setupBlock 0)) := by
  refine ⟨⟨rfl, rfl, .inl rfl, rfl⟩, rfl, rfl, ?_, fun h => ?_⟩
  · rw [test_setup_block.1]; exact setup_passes
  · have := h.threshold; revert this; decide +kernel

/-- The part reading line 0's ring with a number of records in the holding queue. -/
def reading0With (k : Nat) : State :=
  { reading0 running with cu := { up.cu with holding := List.replicate k (.lineEvent 0 .drained 0) } }

theorem witness_ExchangeEntryIsCheckedAndTaken :
    ((⟨0, 63, 1, 33, 8, 2, []⟩ : RawExchange).firstBad = some .badAddress ∧
      (⟨0, 62, 1, 33, 8, 2, []⟩ : RawExchange).firstBad = some .badCode ∧
      (⟨0, 62, 0, 33, 8, 2, []⟩ : RawExchange).firstBad = some .badLength ∧
      (⟨0, 62, 0, 32, 8, 2, []⟩ : RawExchange).firstBad = some .badRetry ∧
      (⟨0, 62, 0, 32, 7, 2, []⟩ : RawExchange).firstBad = some .badPriority ∧
      (⟨0, 62, 0, 32, 7, 1, []⟩ : RawExchange).firstBad = none) ∧
    State.Serving (reading0 running) (.entryRead (.line 0) 0x20000) ∧ (entryBytes 62 0 0 0 0).length = 64 ∧
    (reading0 Line.reset).eligible (.line 0) = false ∧
    (reading0 { running with waiting := List.replicate 16 (entry 1 .routine 5) }).eligible (.line 0) = false ∧
    (reading0 { running with waiting := List.replicate 15 (entry 1 .routine 5) }).eligible (.line 0) = true ∧
    (parseExchange (entryBytes 62 0 32 7 1)).firstBad = none ∧
    (parseExchange (entryBytes 62 0 33 7 1)).firstBad = some .badLength ∧
    (reading0With 15).eligible (.line 0) = true ∧ (reading0With 15).cu.holding.length < 16 ∧
    (reading0With 16).eligible (.line 0) = true ∧ 16 ≤ (reading0With 16).cu.holding.length :=
  ⟨by decide, ⟨rfl, rfl, .inr rfl, rfl⟩, by decide +kernel⟩

theorem witness_ReadErrorHaltsTheRing : State.Serving (serving (.entryRead (.line 3) 0)) (.entryRead (.line 3) 0) ∧
    State.Serving (serving (.entryRead .admin 0)) (.entryRead .admin 0) := ⟨serves _, serves _⟩

/-! ### Witnesses: administrative commands -/

/-- An admin entry with its command byte, line 0, tag 0x0102, and zero bytes. -/
def adminBytes (c : Byte) : List Byte := [c, 0, 2, 1] ++ List.replicate 60 0

theorem witness_AdminEntryIsItsCommand :
    (withLine running).port.transfer = some (.entryRead .admin 0x10000) ∧ AdminReady (withLine running) ∧
    (∀ c : Byte, (adminBytes c).length = 64 ∧ recordByte (adminBytes c) 0 = c) ∧ 15 < (16#8).toNat ∧ 15 < (255#8).toNat :=
  ⟨rfl, (line_ready _).ready, fun _ => ⟨rfl, rfl⟩, by decide, by decide⟩

theorem witness_AdminEntryLeftUntaken :
    adminHead (.lineStart 9 3) ≠ none ∧ (∃ tag target, Instr.power 9 255 = .power tag target) ∧
    ((Instr.lineStart 9 3).wellFormed = true ∧ (Instr.power 9 255).wellFormed = true) ∧
    (∀ a, up.port.transfer ≠ some (.entryRead .admin a)) ∧
    State.Serving (serving (.entryRead .admin 0)) (.entryRead .admin 0) ∧
    (serving (.entryRead .admin 0)).eligible .admin = false :=
  ⟨by simp [adminHead], ⟨9, 255, rfl⟩, ⟨rfl, rfl⟩, fun _ h => (by cases h), serves _, by decide⟩

theorem witness_AdminRefusedByLinePowerOrRun :
    adminHead (.lineStart 9 4) = some (9, 4, 2, none) ∧ AdminReady (withLine running) ∧
    4 ≤ (4#8).toNat ∧ 4 ≤ (255#8).toNat ∧ (3#8).toNat = (3 : LineId).val ∧
    (AdminReady (inPower .doze (withLine running)) ∧ (inPower .doze (withLine running)).power.state = .doze) ∧
    ((withLine running).power.state = .active ∧ ((withLine running).line 0).run ≠ .quiet) ∧
    (((withLine running).line 3).run ≠ .running ∧ ((withLine running).line 3).run ≠ .draining) :=
  ⟨rfl, (line_ready _).ready, by decide, by decide, rfl,
   ⟨⟨rfl, rfl, rfl, ⟨_, rfl⟩, rfl, by decide, rfl⟩, rfl⟩, ⟨rfl, by decide⟩, by decide, by decide⟩

theorem brisk_passes : profilePasses rawBrisk := by intro f; unfold fieldPasses; split <;> decide
theorem lull_passes : profilePasses rawLull := by intro f; unfold fieldPasses; split <;> decide

/-- Each of the limits of R23 that a field can miss, with the fields before it passing. -/
theorem witness_LineSetupChecksThenReplaces : LineReady (withLine ready) 0 0 ∧ ((withLine ready).line 0).run = .quiet ∧
    firstFails { rawBrisk with divisor := 15 } 1 ∧ firstFails { rawBrisk with divisor := 40001 } 1 ∧
    firstFails { rawBrisk with parity := 3 } 2 ∧ firstFails { rawBrisk with leadGap := 11 } 3 ∧
    firstFails { rawBrisk with retryGap := 19 } 6 ∧ firstFails { rawBrisk with sweepPeriod := 60001 } 8 ∧
    firstFails { rawBrisk with stuckLimit := 0 } 12 ∧
    (profilePasses rawBrisk ∧ firstFails { rawLull with joinLimit := 16 } 10) ∧
    (profilePasses rawLull ∧ rawBrisk.divisor.toNat < rawLull.divisor.toNat) ∧
    (profilePasses { rawLull with divisor := 480, sweepPeriod := 19 } ∧ (19#16).toNat < rawBrisk.sweepPeriod.toNat) ∧
    (rawBrisk.divisor.toNat ≤ rawBrisk.divisor.toNat ∧ rawBrisk.sweepPeriod.toNat ≤ rawBrisk.sweepPeriod.toNat) ∧
    (rawBrisk.parity = 1 ∧ rawLull.parity = 0 ∧ profilePasses { rawBrisk with parity := 2 }) := by
  refine ⟨line_ready _, rfl, ?_, ?_, ?_, ?_, ?_, ?_, ?_, ⟨brisk_passes, ?_⟩, ⟨lull_passes, by decide⟩,
    ⟨fun f => ?_, by decide⟩, by decide, rfl, rfl, fun f => ?_⟩
  all_goals first
    | (refine ⟨by simp [fieldPasses, rawBrisk], fun g h => ?_⟩; interval_cases g <;> simp [fieldPasses, rawBrisk]; done)
    | (refine ⟨by simp [fieldPasses, rawLull], fun g h => ?_⟩; interval_cases g <;> simp [fieldPasses, rawLull])
    | (unfold fieldPasses; split <;> decide)

theorem witness_LineStartStartsRoundOne :
    (LineReady (withLine Line.reset) 0 0 ∧ Line.reset.run = .quiet ∧ Line.reset.profilesValid = false) ∧
    (LineReady (withLine (swept ready)) 0 0 ∧ (swept ready).run = .quiet ∧ (swept ready).profilesValid = true ∧
      (∃ i e, (swept ready).sweepAt i = some e) ∧ (swept ready).imageBase = none) ∧
    (LineReady (withLine ready) 0 0 ∧ ready.profilesValid = true ∧ ∀ i, ready.sweepAt i = none) ∧
    { swept ready with imageBase := some 0 }.imageBase ≠ none := by
  refine ⟨⟨line_ready _, rfl, rfl⟩, ⟨line_ready _, rfl, rfl, ⟨47, sweepEntry, by decide +kernel⟩, rfl⟩,
    ⟨line_ready _, rfl, fun i => ?_⟩, by simp⟩
  by_cases h : i < 48 <;> simp [Line.sweepAt, ready, Line.reset, h]

/-- A DRAINING line with a current host exchange. -/
def draining : Line := { busy .sending hostCur with run := .draining, roundTimer := none }

theorem witness_LineStopDrain :
    LineReady (withLine running) 0 0 ∧ 1 < (2#8).toNat ∧ running.run = .running ∧ draining.run = .draining ∧
    (busy .sending hostCur).current.isSome = true ∧
    { running with waiting := [entry 1 .urgent 5] }.waiting ≠ [] ∧
    (running.current = none ∧ running.waiting = [] ∧ running.ended = []) ∧
    { draining with abandon := true }.abandon = true := by
  exact ⟨line_ready _, by decide, rfl, rfl, rfl, by simp, ⟨rfl, rfl, rfl⟩, rfl⟩

/-- Lines that LINE STOP ABANDON reaches, and as it leaves them before it concludes. -/
theorem witness_LineStopAbandon :
    let k (l : Line) : Line := { l with
      run := .draining, abandon := true, roundTimer := none, due := [], probes := [], hunt := none
      current := l.current.map fun c => { c with huntLive := false } }
    LineReady (withLine running) 0 0 ∧ running.run = .running ∧ (draining.run = .draining ∧ draining.abandon = false) ∧
    ((k (busy .sending hostCur)).current = some hostCur ∧ (k (busy .sending hostCur)).engine ≠ .lead ∧
      (k (busy .sending hostCur)).engine ≠ .idle) ∧
    ((k (busy .lead hostCur)).engine = .lead ∧ 0 < hostCur.attempts) ∧
    (let m := { running with waiting := [entry 1 .routine 5] }
     (k m).current = none ∧ (k m).engine = .idle ∧ (k m).waiting ≠ []) ∧
    (let m := { running with ended := [⟨entry 1 .routine 5, .cancelled, 0⟩] }
     (k m).current = none ∧ (k m).waiting = [] ∧ (k m).ended ≠ []) ∧
    ((k running).current = none ∧ (k running).engine = .idle ∧ (k running).waiting = [] ∧ (k running).ended = []) :=
  ⟨line_ready _, by decide +kernel⟩

theorem witness_LineResetEndsEverything : LineReady (withLine running) 0 0 := line_ready _

/-- A roster of `k` ACTIVE nodes from address 1. -/
def rosterOf (k : Nat) : List Node := (List.range k).map fun i => node (i + 1) .active

/-- Added: address 0 and 63; one that a record has; a full roster and one with a place; below, at and above the step of a hunt in
progress whose cursor is 4. Removed: an address that no record has, one that a sweep entry names, one that the current exchange
addresses, and a free one. -/
theorem witness_NodesAreAddedAndRemoved :
    LineReady (withLine ready) 0 0 ∧ (0#8).toNat = 0 ∧ 62 < (63#8).toNat ∧
    (1 ≤ (1#8).toNat ∧ (1#8).toNat ∈ (rosterOf 32).map (·.addr)) ∧
    ((62#8).toNat ≤ 62 ∧ (62#8).toNat ∉ (rosterOf 32).map (·.addr) ∧ 32 ≤ (rosterOf 32).length) ∧
    ((62#8).toNat ∉ (rosterOf 31).map (·.addr) ∧ (rosterOf 31).length < 32) ∧ RosterOk (rosterOf 31) ∧
    (let c : Current := { cur .hunt with node := 8, huntLive := true }
     let l := { busy .awaiting c with hunt := some ⟨4, []⟩ }
     LineReady (withLine l) 0 0 ∧ l.hunt = some ⟨4, []⟩ ∧
     (∃ d, l.current = some d ∧ d.origin = .hunt ∧ d.huntLive = true ∧ (7#8).toNat < d.node) ∧ 4 < (7#8).toNat ∧
     ¬ 4 < (4#8).toNat ∧ (8#8).toNat ∉ l.roster.map (·.addr) ∧ ¬ (8#8).toNat < c.node) ∧
    ((5#8).toNat ∈ running.roster.map (·.addr) ∧ (7#8).toNat ∉ running.roster.map (·.addr)) ∧
    (∃ i e, (swept running).sweepAt i = some e ∧ e.node = (5#8).toNat) ∧
    (∃ c, (busy .lead hostCur).current = some c ∧ c.node = (5#8).toNat) ∧
    ¬ ((∃ i e, running.sweepAt i = some e ∧ e.node = (6#8).toNat) ∨ ∃ c, running.current = some c ∧ c.node = (6#8).toNat) := by
  refine ⟨line_ready _, by decide, by decide, by decide, by decide, by decide, rosterOk_of (by decide),
    ⟨line_ready _, rfl, ⟨_, rfl, rfl, rfl, by decide⟩, by decide, by decide, by decide, by decide⟩, by decide,
    ⟨47, sweepEntry, by decide +kernel, rfl⟩, ⟨hostCur, rfl, rfl⟩, ?_⟩
  rintro (⟨i, e, h, -⟩ | ⟨c, h, -⟩)
  · by_cases g : i < 48 <;> simp [Line.sweepAt, running, ready, Line.reset, g] at h
  · cases h

theorem witness_NodeBarBarsTheRecord : LineReady (withLine running) 0 0 ∧ RosterOk running.roster ∧
    (∃ x ∈ running.roster, x.addr = (5#8).toNat ∧ x.state ≠ .barred) ∧
    (∃ x ∈ [node 62 .barred], x.addr = (62#8).toNat ∧ x.state = .barred) :=
  ⟨line_ready _, running_roster, by decide, by decide⟩

theorem witness_NodeUnbarReturnsToJoining : LineReady (withLine { ready with roster := [node 62 .barred] }) 0 0 ∧
    RosterOk [node 62 .barred] ∧ (∃ x ∈ [node 62 .barred], x.addr = (62#8).toNat ∧ x.state = .barred) ∧
    (∃ x ∈ running.roster, x.addr = (6#8).toNat ∧ x.state ≠ .barred) :=
  ⟨line_ready _, rosterOk_of (by decide), by decide, by decide⟩

theorem witness_NodeQueryReportsTheRecord : AdminReady (inPower .doze (withLine running)) ∧
    (inPower .doze (withLine running)).power.state ≠ .dozePending ∧ (0#8).toNat = (0 : LineId).val ∧
    (∃ x ∈ running.roster, RosterOk running.roster ∧ x.addr = (5#8).toNat) :=
  ⟨⟨rfl, rfl, rfl, ⟨_, rfl⟩, rfl, by decide, rfl⟩, by decide, rfl, node 5 .active, by decide, running_roster, rfl⟩

theorem witness_LineQueryReportsTheLine : AdminReady (inPower .doze (withLine running)) ∧
    (inPower .doze (withLine running)).power.state ≠ .dozePending ∧ (0#8).toNat = (0 : LineId).val :=
  ⟨⟨rfl, rfl, rfl, ⟨_, rfl⟩, rfl, by decide, rfl⟩, by decide, rfl⟩

/-- The body at every limit is good; one step past each of them it is not. -/
theorem witness_SweepSetSetsTheEntry :
    let good (e : RawSweep) := e.index.toNat ≤ 47 ∧ (1 ≤ e.node.toNat ∧ e.node.toNat ≤ 62) ∧ e.code ≠ 1 ∧ e.length.toNat ≤ 16 ∧
      (e.cadence = 1 ∨ e.cadence = 2 ∨ e.cadence = 4 ∨ e.cadence = 8) ∧ e.phase.toNat < e.cadence.toNat ∧ e.retry.toNat ≤ 3
    LineReady (withLine running) 0 0 ∧ rawSweep.wellFormed = true ∧ good rawSweep ∧ ¬ good { rawSweep with index := 48 } ∧
    ¬ good { rawSweep with node := 63 } ∧ ¬ good { rawSweep with length := 17 } ∧ ¬ good { rawSweep with phase := 8 } ∧
    ¬ good { rawSweep with retry := 4 } ∧ ¬ good { rawSweep with cadence := 16 } ∧
    rawSweep.node.toNat ∉ ready.roster.map (·.addr) ∧
    (rawSweep.node.toNat ∈ running.roster.map (·.addr) ∧ running.run = .running ∧ running.imageBase = none) ∧
    { running with imageBase := some 0 }.imageBase ≠ none := by
  refine ⟨line_ready _, by decide, ?_, ?_, ?_, ?_, ?_, ?_, ?_, by decide, by decide, by simp⟩ <;> dsimp only <;> decide

theorem witness_SweepClearAndSweepImage : LineReady (withLine ready) 0 0 ∧ 47 < (48#8).toNat ∧ (47#8).toNat ≤ 47 ∧
    ready.run = .quiet ∧ (1#64).toNat % 64 ≠ 0 ∧ 2 ^ 64 < (0xFFFFFFFFFFFFF440#64).toNat + 3072 ∧
    ((0xFFFFFFFFFFFFF400#64).toNat % 64 = 0 ∧ (0xFFFFFFFFFFFFF400#64).toNat + 3072 ≤ 2 ^ 64) :=
  ⟨line_ready _, by decide⟩

theorem witness_CancelMarksAndFinds : LineReady (withLine running) 0 0 ∧
    (∀ c cls, running.current = some c → c.origin ≠ .host cls 0x77) ∧
    ((busy .lead hostCur).current = some hostCur ∧ hostCur.origin = .host .routine 0x77 ∧ (busy .lead hostCur).engine = .lead) ∧
    (busy .sending hostCur).engine ≠ .lead :=
  ⟨line_ready _, fun _ _ h => (by cases h), ⟨rfl, rfl, rfl⟩, by decide⟩

theorem witness_PowerChangesTheState :
    (∀ p ∈ [PowerState.active, .lull, .doze], AdminReady (inPower p (withLine running)) ∧
      (inPower p (withLine running)).power.state = p ∧ p ≠ .dozePending) ∧
    2 < (3#8).toNat ∧ 2 < (255#8).toNat ∧
    (∃ n, ((inPower .lull (withLine (busy .sending hostCur))).line n).run = .running ∧
      ∃ c cls t, ((inPower .lull (withLine (busy .sending hostCur))).line n).current = some c ∧ c.origin = .host cls t) ∧
    (∀ n, ((inPower .lull (withLine running)).line n).run ≠ .draining ∧
      (((inPower .lull (withLine running)).line n).run = .running →
        ((inPower .lull (withLine running)).line n).waiting = [] ∧ ((inPower .lull (withLine running)).line n).ended = [] ∧
        ((inPower .lull (withLine running)).line n).current = none)) := by
  refine ⟨fun p h => ⟨⟨rfl, rfl, rfl, ⟨_, rfl⟩, rfl, by simp [inPower, withLine], rfl⟩, rfl, ?_⟩, by decide, by decide,
    ⟨0, rfl, hostCur, _, _, rfl, rfl⟩, by decide +kernel⟩
  revert p; decide

/-! ### Witnesses: the attempt on the wire -/

theorem live (l : Line) : (at0 l).Live := ⟨rfl, rfl⟩

/-- A current exchange that `mayGo` rules out: its node is barred. -/
theorem witness_LeadWaitBeginsOrWithdraws :
    (at0 (busy .lead hostCur)).Live ∧ running.engine ≠ .lead ∧ { busy .lead hostCur with wire := ⟨true, 1, false⟩ }.wire.space = true ∧
    ((busy .lead hostCur).engine = .lead ∧ (busy .lead hostCur).wire.space = false ∧ (busy .lead hostCur).current = some hostCur ∧
      mayGo hostCur (busy .lead hostCur).roster) ∧
    ¬ mayGo { hostCur with barred := true } (busy .lead hostCur).roster ∧
    ¬ mayGo { hostCur with node := 6 } (busy .lead hostCur).roster ∧ mayGo { hostCur with node := 0 } [] ∧
    mayGo { cur .probe with node := 6 } running.roster ∧ ¬ mayGo (cur .probe) running.roster := by
  refine ⟨live _, by decide, rfl, ⟨rfl, rfl, rfl, ?_⟩, ?_, ?_, .inl rfl, ?_, ?_⟩ <;>
    simp [mayGo, findNode, busy, running, hostCur, cur, node]

theorem witness_HeaderAndFrameEnd :
    (at0 running).Live ∧ ((busy .lead hostCur).current = some hostCur ∧ (busy .lead hostCur).engine ≠ .sending) ∧
    ((busy .sending hostCur).engine = .sending ∧ (busy .sending hostCur).att.headerDone = false ∧ hostCur.node ≠ 0) ∧
    (let l := { busy .sending { hostCur with node := 0 } with att := { Attempt.clear with headerDone := true } }
     l.current = some { hostCur with node := 0 } ∧ l.att.headerDone = true) :=
  ⟨live _, by decide +kernel⟩

/-- The HEADER's echo checked as its stop bit ends, and the last character's. -/
theorem witness_EchoFailureIsACollision :
    let l := { busy .sending hostCur with att := { Attempt.clear with sent := 5280 } }
    (at0 l).Live ∧ l.engine = .sending ∧ l.current = some hostCur ∧ hostCur.frame[0]? = some 0x05 ∧
    l.att.sent ≤ (0 + 1) * l.profile.charClocks ∧ (hostCur.frame[4]?).isSome = true ∧ hostCur.frame[5]? = none ∧
    (l.profile.parity = .even ∧ onesOf { (⟨0x05, true, true⟩ : RxChar) with data := 0x05 } % 2 = 1) ∧
    (¬ ((0x05 : Byte) ≠ 0x05 ∨ true = false ∨ (l.profile.parity = .even ∧ onesOf ⟨0x05, false, true⟩ % 2 = 1) ∨
      (l.profile.parity = .odd ∧ onesOf ⟨0x05, false, true⟩ % 2 = 0))) :=
  ⟨live _, by decide +kernel⟩

/-- A request at every limit; an EVEN and an ODD parity profile and one without; the levels at the first bit time, at the stop bit of
the last character, and past the frame. -/
theorem witness_RequestFrameCrcAndPins :
    let c : Current := { hostCur with node := 62, payload := List.replicate 32 0 }
    let l (t : Nat) := { busy .sending c with att := { Attempt.clear with sent := t * 480 } }
    c.node ≤ 62 ∧ c.payload.length ≤ 32 ∧ c.frame.length = 37 ∧ ((l 0).engine = .sending ∧ (l 0).current = some c) ∧
    (l 0).profile.parity = .even ∧ { (l 0) with inForce := .lull }.profile.parity = .none ∧
    ((l 406).att.sent / (l 406).profile.divisor = 36 * 11 + 10 ∧ (c.frame[36]?).isSome = true) ∧
    (l 405).att.sent / (l 405).profile.divisor = 36 * 11 + 9 ∧
    c.frame.length * 11 ≤ (l 407).att.sent / (l 407).profile.divisor ∧ running.engine ≠ .sending := by
  dsimp only
  refine ⟨?_, ?_, ?_, ?_, ?_, ?_, ?_, ?_, ?_, ?_⟩ <;> decide +kernel

/-- The reply window not begun and at its end, both idle counts at their first period, and the forms that end nothing. -/
theorem witness_WindowAndGapEndTheAttempt :
    (at0 (busy .awaiting hostCur)).Live ∧
    ((busy .awaiting hostCur).current = some hostCur ∧ (busy .awaiting hostCur).engine = .awaiting ∧
      (busy .awaiting hostCur).att.edge = none) ∧
    { Attempt.clear with edge := some 0 }.edge ≠ none ∧
    (lastChar.engine = .receiving ∧ lastChar.current = some hostCur ∧ lastChar.att.gap = .fromSample 0 ∧ lastChar.att.mark = none ∧
      2161 = lastChar.profile.charGap * lastChar.profile.divisor + lastChar.profile.divisor / 2 + 1 - 0) ∧
    (let l := { lastChar with att := { lastChar.att with gap := .fromMark 1, mark := some .charError } }
     l.att.gap = .fromMark 1 ∧ 1920 = l.profile.charGap * l.profile.divisor + 1 - 1 ∧ l.att.mark = some .charError) ∧
    { Attempt.clear with mark := some .lengthError }.mark = some .lengthError ∧
    (busy .receiving hostCur).att.gap = .stopped ∧ { Attempt.clear with gap := .awaitMark }.gap = .awaitMark ∧
    { Attempt.clear with gap := .edge 0 none 0 }.gap = .edge 0 none 0 :=
  ⟨live _, by decide +kernel⟩

/-- The window of 200 bit times of 480 periods ends at 96,000: a transition there is the last that begins a reply. -/
theorem witness_ReplyStartEntersReceiving :
    let waiting (w : Nat) (e : Option Nat) (space : Bool) : Line :=
      { busy .awaiting hostCur with att := { Attempt.clear with window := w, edge := e }, wire := ⟨space, 0, false⟩ }
    (at0 running).Live ∧ (busy .lead hostCur).current = some hostCur ∧ (busy .lead hostCur).engine ≠ .awaiting ∧
    ((waiting 100 (some 0) true).engine = .awaiting ∧ (waiting 100 (some 0) true).att.edge = some 0 ∧
      (waiting 100 (some 0) true).wire.space = true) ∧
    ((waiting 96000 none false).att.edge = none ∧ (waiting 96000 none false).wire.space = false ∧
      (waiting 96000 none false).att.window ≤
        (waiting 96000 none false).profile.replyWindow * (waiting 96000 none false).profile.divisor) ∧
    ((waiting 100 (some 0) false).att.edge ≠ none ∧ (waiting 100 (some 0) false).wire.space = false) ∧
    (waiting 96001 none false).profile.replyWindow * (waiting 96001 none false).profile.divisor < (waiting 96001 none false).att.window ∧
    (waiting 0 none true).wire.space = true :=
  ⟨live _, by decide +kernel⟩

/-- A line that has received `k` reply characters, with a frame length and a mark. -/
def received (k : Nat) (x : Option Nat) (m : Option FrameMark) : Line :=
  { busy .receiving hostCur with
    att := { Attempt.clear with chars := List.replicate k 0x85, expect := x, mark := m, gap := .fromSample 0 } }

/-- A third character of 32 and of 33, with its parity right and wrong; the last character of a known length, and the 37th of an
unknown one. EVEN parity: 32 has one 1 bit, 33 two. -/
theorem witness_ReplyCharacterAssembles :
    let bad (ch : RxChar) := ch.stop = false ∨ ((received 2 none none).profile.parity = .even ∧ onesOf ch % 2 = 1) ∨
      ((received 2 none none).profile.parity = .odd ∧ onesOf ch % 2 = 0)
    (at0 (received 2 none none)).Live ∧
    (let l := { received 2 none none with att := { Attempt.clear with gap := .awaitMark } }
     l.engine = .receiving ∧ l.att.gap = .awaitMark) ∧
    ((busy .receiving hostCur).att.gap ≠ .awaitMark ∧ Gap.fromMark 0 ≠ .awaitMark ∧ Gap.edge 0 none 0 ≠ .awaitMark) ∧ (received 2 none none).engine = .receiving ∧
    (received 2 none none).current = some hostCur ∧ (received 2 none none).att.gap ≠ .awaitMark ∧
    ((received 2 none none).att.mark = none ∧ ¬ bad ⟨32, true, true⟩ ∧ (received 2 none none).att.chars.length = 2 ∧
      (32#8).toNat ≤ 32 ∧ ¬ ((received 2 none none).att.chars.length = 2 ∧ 32 < (32#8).toNat)) ∧
    (¬ bad ⟨33, false, true⟩ ∧ 32 < (33#8).toNat) ∧ bad ⟨32, false, true⟩ ∧ bad ⟨32, true, false⟩ ∧
    (received 3 none (some .lengthError)).att.mark ≠ none ∧
    (5 ≤ (received 4 (some 5) none).att.chars.length + 1 ∧ ¬ 5 ≤ (received 3 (some 5) none).att.chars.length + 1) ∧
    (37 ≤ (received 36 none none).att.chars.length + 1 ∧ ¬ 37 ≤ (received 35 none none).att.chars.length + 1) ∧
    (received 4 (some 5) (some .charError)).att.mark = some .charError ∧
    (sampledLevels .even ⟨0, false, false⟩ = [] ++ List.replicate 11 false ∧
      sampledLevels .none ⟨0x80, false, false⟩ = (List.replicate 8 false ++ [true]) ++ List.replicate 1 false ∧
      (∀ y, List.replicate 8 false ++ [true] ≠ y ++ [false]) ∧ ∀ y, [] ≠ y ++ [false]) := by
  refine ⟨live _, ?_⟩
  dsimp only
  refine ⟨?_, ?_, ?_, ?_, ?_, ?_, ?_, ?_, ?_, ?_, ?_, ?_, ?_, ?_, ?_,
    fun y h => by simpa using (List.append_inj' h rfl).2, by simp⟩ <;> decide +kernel

/-- R4 after a framing error: the run goes on from its reported transition, after a return to mark between two samples too; and where
the samples show that it began unreported, it holds no sample at mark. -/
theorem test_framing_error_run :
    let run (ch : RxChar) (w : Wire) := ((after (.replyCharacter 0 ch) (at0 { busy .receiving hostCur with wire := w })).line 0).wire
    let late (ch : RxChar) (w : Wire) := ((after (.replyCharacter 0 ch) (at0 { busy .receiving hostCur with
      wire := w, att := { Attempt.clear with since := 960 } })).line 0).wire
    run ⟨0, false, false⟩ ⟨true, 240, false⟩ = ⟨true, 5040, false⟩ ∧ late ⟨0, false, false⟩ ⟨true, 0, false⟩ = ⟨true, 3840, false⟩ ∧
    run ⟨0xFF, true, false⟩ ⟨true, 240, false⟩ = ⟨true, 240, false⟩ ∧ run ⟨0, false, false⟩ ⟨false, 0, false⟩ = ⟨true, 5040, false⟩ := by
  decide +kernel

theorem witness_ReplyIsJudgedInOrder :
    (List.replicate 32 (0 : Byte)).length ≤ 32 ∧
    (0#16 ≠ crc16 [0x85, 0, 0]) ∧ (0x85#8).getLsbD 7 = true ∧ (0x85#8).toNat % 64 = 5 ∧ (0x85#8).getLsbD 6 = false ∧
    (0x05#8).getLsbD 7 = false ∧ (0x86#8).toNat % 64 ≠ 5 ∧ (0xC5#8).getLsbD 6 = true ∧ 3 < (4#8).toNat := by decide +kernel

/-! ### Witnesses: spaces, rounds and the receive pin -/

/-- A line in an engine state, its pin at space for `k` periods. -/
def spacing (e : Engine) (k : Nat) (marked : Bool) : Line := { busy e hostCur with wire := ⟨true, k, marked⟩ }

/-- A PARKED line, its pin at space. -/
def parkedLine : Line := { running with engine := .parked, wire := ⟨true, 0, false⟩, roundTimer := none }

/-- The stuck limit of the profile in force is 5 ms, 240,000 periods. -/
theorem witness_LongSpacePulsesBreaksOrWakes :
    (at0 running).Live ∧ (spacing .sending 0 false).engine = .sending ∧
    ((spacing .lead 10560 true).wire.space = true ∧ (spacing .lead 10560 true).wire.marked = true) ∧
    (running.engine ≠ .off ∧ running.engine ≠ .sending ∧ running.wire.space = false) ∧
    ((spacing .lead 10560 false).wire.space = true ∧ (spacing .lead 10560 false).wire.marked = false ∧
      (spacing .lead 10560 false).engine = .lead) ∧
    ((spacing .lead 240000 true).pastStuckLimit ∧ ¬ (spacing .lead 239999 true).pastStuckLimit) ∧
    ((spacing .awaiting 0 false).engine = .awaiting ∧ (spacing .awaiting 0 false).current = some hostCur) ∧
    (spacing .receiving 0 false).engine = .receiving ∧
    (let l := { spacing .awaiting 240000 false with current := some { hostCur with cancelReq := true } }
     l.pastStuckLimit ∧ l.engine = .awaiting ∧ l.wire.marked = false ∧ l.current = some { hostCur with cancelReq := true }) ∧
    ((inPower .doze (at0 parkedLine)).Live ∧ parkedLine.engine = .parked ∧ parkedLine.wire.marked = false ∧
      (inPower .doze (at0 parkedLine)).power.state = .doze ∧ (inPower .doze (at0 parkedLine)).power.wake = true) ∧
    (inPower .dozePending (at0 parkedLine)).power.state ≠ .doze ∧ (at0 parkedLine).power.wake = false :=
  ⟨live _, rfl, ⟨rfl, rfl⟩, by decide, ⟨rfl, rfl, rfl⟩,
   ⟨⟨by decide, .inl rfl, rfl, by decide⟩, fun h => absurd h.2.2.2 (by decide)⟩, ⟨rfl, rfl⟩, rfl,
   ⟨⟨by decide, .inl rfl, rfl, by decide⟩, rfl, rfl, rfl⟩, ⟨⟨rfl, rfl⟩, rfl, rfl, rfl, rfl⟩, by decide, rfl⟩

theorem witness_StuckLineFaults :
    (at0 running).Live ∧ ready.engine = .off ∧ ready.run = .quiet ∧
    (running.engine ≠ .off ∧ running.run = .running ∧ running.wire.space = false) ∧
    ((spacing .idle 240000 true).wire.space = true ∧ (spacing .idle 240000 true).wire.marked = true ∧
      (spacing .idle 240000 true).engine ≠ .sending) ∧
    (∀ m, (spacing .sending 0 m).engine = .sending ∧ (spacing .sending 0 m).current = some hostCur ∧
      (spacing .sending 0 m).wire.marked = m) ∧
    ((spacing .lead 0 false).wire.marked = false ∧ (spacing .lead 0 false).engine = .lead) ∧
    ((inPower .doze (at0 parkedLine)).Live ∧ parkedLine.run = .running ∧ parkedLine.wire.marked = false ∧
      parkedLine.engine = .parked ∧ (inPower .doze (at0 parkedLine)).power.wake = true) ∧
    ((spacing .awaiting 0 false).wire.marked = false ∧ (spacing .awaiting 0 false).engine = .awaiting ∧
      (spacing .awaiting 0 false).current = some hostCur) :=
  ⟨live _, rfl, rfl, by decide, ⟨rfl, rfl, by decide⟩, fun _ => ⟨rfl, rfl, rfl⟩, ⟨rfl, rfl⟩, ⟨⟨rfl, rfl⟩, rfl, rfl, rfl, rfl⟩,
   ⟨rfl, rfl, rfl⟩⟩

theorem witness_RoundStartFormsTheRound : (at0 running).Live ∧ ((at0 ready).line 0).roundTimer = none ∧
    ((at0 running).line 0).roundTimer = some 960000 := ⟨live _, rfl, rfl⟩

/-- The window's last period is the first after which a glitch ends it; half of an odd divisor of 17 is 9 periods. -/
theorem witness_LineActivityIsFollowed :
    let waiting (w : Nat) (e : Option Nat) : Line := { busy .awaiting hostCur with att := { Attempt.clear with window := w, edge := e } }
    let receiving (g : Gap) : Line := { busy .receiving hostCur with att := { Attempt.clear with gap := g } }
    let odd : Line := { receiving (.edge 5 none 3) with brisk := some (profileOfRaw { rawBrisk with divisor := 17 }) }
    (at0 running).resetLow = false ∧ (spacing .lead 0 false).wire.space = true ∧ running.wire.space = false ∧
    (busy .lead hostCur).engine = .lead ∧
    ((waiting 96000 none).engine = .awaiting ∧ (waiting 96000 none).att.edge = none ∧
      (waiting 96000 none).att.window ≤ (waiting 96000 none).profile.replyWindow * (waiting 96000 none).profile.divisor) ∧
    (waiting 96001 none).profile.replyWindow * (waiting 96001 none).profile.divisor < (waiting 96001 none).att.window ∧
    (waiting 0 (some 0)).att.edge ≠ none ∧ running.engine = .idle ∧
    ((receiving .stopped).engine = .receiving ∧ (receiving .stopped).att.gap = .stopped ∧
      (receiving .awaitMark).att.gap = .awaitMark ∧ (receiving (.fromSample 3)).att.gap = .fromSample 3 ∧
      (receiving (.edge 5 (some 2) 5)).att.gap = .edge 5 (some 2) 5 ∧ (receiving (.edge 5 none 6)).att.gap = .edge 5 none 6 ∧
      Gap.stopped ≠ .awaitMark ∧ ∀ k e, Gap.edge 5 (some 2) 5 ≠ .edge k none e) ∧
    (3 < (receiving .stopped).profile.divisor / 2 ∧ (receiving (.fromSample 240)).profile.divisor / 2 ≤ 240) ∧
    ((waiting 96000 (some 95800)).current = some hostCur ∧ (waiting 96000 (some 95800)).att.edge ≠ none ∧
      (waiting 96000 none).profile.replyWindow * (waiting 96000 none).profile.divisor ≤ (waiting 96000 (some 95800)).att.window) ∧
    (waiting 95999 (some 95800)).att.window < (waiting 96000 none).profile.replyWindow * (waiting 96000 none).profile.divisor ∧
    (odd.engine = .receiving ∧ odd.att.gap = .edge 5 none 3 ∧ odd.wire.space = false ∧
      5 + 3 < (odd.profile.divisor + 1) / 2 ∧ (odd.profile.divisor + 1) / 2 ≤ 5 + 4) := by
  dsimp only
  refine ⟨?_, ?_, ?_, ?_, ?_, ?_, ?_, ?_, ⟨?_, ?_, ?_, ?_, ?_, ?_, ?_, ?_⟩, ?_, ?_, ?_, ?_⟩ <;> first | decide +kernel | (intro k e; simp)

/-! ### Witnesses: writes -/

/-- Threshold 2: the first unsignalled record starts the holdoff, the second signals; without a holdoff neither waits. A deadline that
finds nothing unsignalled, and one that does, the counts having wrapped. -/
theorem witness_CompletionUnitWritesAndSignals :
    State.Serving (serving (.statusWrite 0 [])) (.statusWrite 0 []) ∧ writing.Serving (.recordWrite 0x60000 []) ∧
    writing.setup = some setup ∧
    (let p := writing.cu.produced + 1
     (p - writing.cu.mark).toNat < setup.threshold ∧ (p - writing.cu.mark).toNat = 1 ∧ setup.holdoff ≠ 0) ∧
    (let p := (1 : Half) + 1
     setup.threshold ≤ (p - 0).toNat) ∧
    { setup with holdoff := 0 }.holdoff = 0 ∧
    (up.Live ∧ up.cu.holdoff = none) ∧
    (let s : State := { up with cu := { up.cu with holdoff := some 0, produced := 1, mark := 1 } }
     s.Live ∧ s.cu.holdoff = some 0 ∧ s.cu.produced = s.cu.mark) ∧
    (let s : State := { up with cu := { up.cu with holdoff := some 5, produced := 0, mark := 0xFFFF } }
     s.Live ∧ s.cu.holdoff = some 5 ∧ s.cu.produced ≠ s.cu.mark) :=
  ⟨serves _, ⟨rfl, rfl, .inr rfl, rfl⟩, rfl, by decide, by decide, rfl, ⟨⟨rfl, rfl⟩, rfl⟩, ⟨⟨rfl, rfl⟩, rfl, rfl⟩,
   ⟨⟨rfl, rfl⟩, rfl, by decide⟩⟩

theorem witness_SlotWritesGoBodyThenStamp :
    State.Serving (slotPart .body) (.slotBody 0 0x80044 []) ∧ (slotLine .body).writer.busy = some (⟨1, 0x80040, 7, .nonWire .skipped 9⟩, .body) ∧
    State.Serving (slotPart .stamp) (.slotStamp 0 0x80040 []) ∧ (slotLine .stamp).writer.waiting = [] ∧
    (let v : SlotWrite := ⟨47, 0x80BC0, 7, .nonWire .missed 9⟩
     let l := { slotLine .body with writer := ⟨[v], (slotLine .body).writer.busy⟩ }
     l.imageBase = some 0x80000 ∧ l.sweepHalted = false ∧ l.writer.waiting = v :: [] ∧ l.writer.waiting = [] ++ v :: [] ∧
      v.index = 47 ∧ (∀ u ∈ l.writer.waiting, u.index ≠ 0) ∧ l.writer.busy = some (⟨1, 0x80040, 7, .nonWire .skipped 9⟩, .body)) ∧
    { slotLine .body with writer := ⟨[], none⟩ }.writer = ⟨[], none⟩ ∧ { slotLine .body with sweepHalted := true }.sweepHalted = true :=
  ⟨⟨rfl, rfl, .inr rfl, rfl⟩, rfl, ⟨rfl, rfl, .inr rfl, rfl⟩, rfl, by decide +kernel, rfl, rfl⟩

/-! ### Witnesses: verdicts, ends and selection -/

/-- A failure threshold of 4 reached at the fourth failure, a join limit of 3 at the third probe, and a saturated count. -/
theorem witness_VerdictUpdatesTheRecord :
    let p := profileOfRaw rawBrisk
    ({ node 5 .active with failures := 3 }.state = .active ∧ p.failThreshold ≤ min 15 (3 + 1)) ∧
    (min 15 (2 + 1) < p.failThreshold) ∧ min 15 (15 + 1) = 15 ∧
    ({ node 5 .joining with joinProbes := 2 }.state = .joining ∧ p.joinLimit ≤ min 15 (2 + 1)) ∧
    (min 15 (1 + 1) < p.joinLimit) ∧ (node 5 .barred).state = .barred ∧ (node 5 .silent).state ≠ .joining := by decide

/-- A retry limit of 2: the second attempt is retried, the third is the last. -/
theorem witness_VerdictEndsOrRetries :
    RosterOk running.roster ∧
    (false = true ↔ ∃ y ∈ (busy .awaiting hostCur).roster, y.addr = hostCur.node ∧ y.state ≠ .silent ∧
      (y.onVerdict 0 (busy .awaiting hostCur).profile false .timeout).state = .silent) ∧
    (false = true ↔ Verdict.timeout = .goodAlert ∧ ∃ y ∈ (busy .awaiting hostCur).roster, y.addr = hostCur.node ∧ y.alertReported = false) ∧
    (true = true ↔ ∃ y ∈ [{ node 5 .active with failures := 3 }], y.addr = hostCur.node ∧ y.state ≠ .silent ∧
      (y.onVerdict 0 (profileOfRaw rawBrisk) false .timeout).state = .silent) ∧
    (true = true ↔ Verdict.goodAlert = .goodAlert ∧ ∃ y ∈ running.roster, y.addr = hostCur.node ∧ y.alertReported = false) ∧
    ({ hostCur with attempts := 2 }.attempts ≤ hostCur.retryLimit) ∧ (hostCur.retryLimit < { hostCur with attempts := 3 }.attempts) ∧
    (hostCur.cancelReq = false ∧ hostCur.barred = false) :=
  ⟨running_roster, by decide +kernel⟩

theorem witness_ExchangeIsHandedOn :
    hostCur.origin = .host .routine 0x77 ∧ (cur (.sweep 47 1)).origin = .sweep 47 1 ∧ (cur .probe).origin = .probe ∧
    ((cur .hunt).origin = .hunt ∧ (cur .hunt).huntLive = false) ∧
    ({ cur .hunt with huntLive := true }.huntLive = true ∧ { running with hunt := some ⟨4, []⟩ }.hunt = some ⟨4, []⟩) ∧
    (let ahead (w : Walk) (n : Nat) (y : Node) := y.state = .active ∧ (max w.cursor n < y.addr ∨ y.addr ∈ w.later.filter fun a => a ≠ n)
     (∃ y ∈ running.roster, ahead ⟨0, []⟩ 4 y) ∧ (∃ y ∈ running.roster, ahead ⟨0, [5]⟩ 8 y) ∧ (∀ y ∈ running.roster, ¬ ahead ⟨0, [5]⟩ 5 y)) ∧
    (cur (.pace .lull)).origin = .pace .lull ∧
    (cur (.sweep 47 1)).superseded = false ∧ (cur (.sweep 47 1)).last = none ∧ { cur (.sweep 47 1) with superseded := true }.superseded = true ∧
    { cur (.sweep 47 1) with last := some ⟨.timeout, none, none, 5⟩ }.last = some ⟨.timeout, none, none, 5⟩ := by
  dsimp only
  decide

/-- For each source and each disposal, a line and a power state that come to it. -/
theorem witness_SelectionTakesTheSourcesInOrder :
    (running.engine = .idle ∧ running.current = none ∧ running.run = .running ∧ running.pace = .none ∧ running.hunt = none ∧
      running.probes = [] ∧ running.due = [] ∧ running.waiting = []) ∧
    ({ ready with engine := .idle }.run = .quiet ∧
      (let l := { running with run := .draining, abandon := true }; l.run = .draining ∧ l.abandon = true) ∧
      (let l := { running with run := .draining }; l.run = .draining ∧ l.abandon = false)) ∧
    { running with pace := .start }.pace ≠ .none ∧
    (let l := { running with waiting := [entry 1 .routine 5, entry 2 .urgent 5, entry 3 .urgent 6] }
     l.waiting = [entry 1 .routine 5] ++ entry 2 .urgent 5 :: [entry 3 .urgent 6] ∧ entry 2 .urgent 5 ∉ [entry 1 .routine 5] ∧
     (∀ f ∈ [entry 1 .routine 5], f.cls ≠ .urgent) ∧ l.holdSlot = none ∧ l.ended = [] ∧
     nodeState l.roster 5 = some .active ∧ nodeState l.roster 6 = some .silent ∧ nodeState l.roster 7 = none ∧
     l.waiting = [] ++ entry 1 .routine 5 :: [entry 2 .urgent 5, entry 3 .urgent 6]) ∧
    ((∀ e ∈ [entry 1 .routine 5], e.cls ≠ .urgent) ∧ nodeState [node 5 .joining, node 62 .barred] 5 = some .joining ∧
      nodeState [node 5 .joining, node 62 .barred] 62 = some .barred) ∧
    (let ahead (w : Walk) (y : Node) := y.state = .active ∧ (w.cursor < y.addr ∨ y.addr ∈ w.later)
     RosterOk running.roster ∧ node 5 .active ∈ running.roster ∧ ahead ⟨4, []⟩ (node 5 .active) ∧ ahead ⟨8, [5]⟩ (node 5 .active) ∧
     (∀ z ∈ running.roster, ahead ⟨4, []⟩ z → 5 ≤ z.addr) ∧ (∀ y ∈ running.roster, ¬ ahead ⟨5, []⟩ y)) ∧
    (let l := { swept running with due := [47] }
     l.due = 47 :: [] ∧ l.sweepHalted = false ∧ l.sweepAt 47 = some sweepEntry ∧
     nodeState l.roster sweepEntry.node = some .active ∧ l.turn = .sweep ∧
     nodeState [node 5 .silent] sweepEntry.node ≠ some .active ∧ running.sweepAt 47 = none) ∧
    { running with turn := .routine }.turn = .routine ∧ { running with sweepHalted := true }.sweepHalted = true ∧
    (let l := { running with roster := [node 5 .silent, node 6 .joining], probes := [5, 6] }
     l.probes = [5] ++ 6 :: [] ∧ nodeState l.roster 6 = some .joining ∧ ∀ b ∈ [5], nodeState l.roster b ≠ some .joining) ∧
    (let l := { running with probes := [7, 6] }
     l.probes = [7] ++ 6 :: [] ∧ nodeState l.roster 6 = some .silent ∧ (∀ b ∈ [7], nodeState l.roster b ≠ some .silent) ∧
     ∀ b ∈ l.probes, nodeState l.roster b ≠ some .joining) ∧
    (let l := { running with probes := [7, 5] }
     l.probes = 7 :: [5] ∧ ∀ b ∈ l.probes, nodeState l.roster b ≠ some .joining ∧ nodeState l.roster b ≠ some .silent) := by
  refine ⟨?_, ?_, ?_, ?_, ?_, ⟨running_roster, ?_⟩, ?_, ?_, ?_, ?_, ?_, ?_⟩ <;> decide +kernel

/-! ### Witnesses: what the part does by itself -/

/-- A DRAINING line with nothing to do, and one that may park. -/
theorem witness_LinesDoTheirOwnWork :
    (let l := { running with huntPending := true }
     l.huntPending = true ∧ l.hunt = none ∧ l.run = .running ∧ RosterOk l.roster ∧ ∃ y ∈ l.roster, y.state = .active) ∧
    (∀ y ∈ [node 6 .silent], y.state ≠ .active) ∧ RosterOk [node 6 .silent] ∧ ready.huntPending = false ∧
    (let l := { running with run := .draining }
     l.run = .draining ∧ l.waiting = [] ∧ l.ended = [] ∧ l.current = none) ∧
    ¬ (draining.run = .draining ∧ draining.waiting = [] ∧ draining.ended = [] ∧ draining.current = none) ∧
    (running.run = .running ∧ running.engine = .idle ∧ running.current = none ∧ running.pace = .none) ∧
    { running with pace := .switch }.pace ≠ .none ∧
    State.reset.part ≠ .running ∧ up.part = .running ∧ up.admitAll.workLines.admitNext = none ∧
    (let s := at0 { running with run := .draining }
     s.part = .running ∧ s.admitAll.workLines.admitNext.isSome = true) := by
  refine ⟨⟨rfl, rfl, rfl, running_roster, by decide⟩, by decide, rosterOk_of (by decide), rfl, ⟨rfl, rfl, rfl, rfl⟩,
    by simp [draining, busy], ⟨rfl, rfl, rfl, rfl⟩, by decide, by decide, rfl, by decide +kernel, rfl, by decide +kernel⟩

theorem witness_PowerTransitionEnds :
    let at_ (p : PowerState) (l : Line) : State := { at0 l with power := ⟨p, true, some p⟩, admin := some (.waiting 9 p) }
    (up.power.transition = none) ∧
    ((at_ .dozePending parkedLine).power.transition = some .dozePending ∧ (at_ .dozePending parkedLine).admin = some (.waiting 9 .dozePending) ∧
      ∀ n, ((at_ .dozePending parkedLine).line n).engine = .parked ∨ ((at_ .dozePending parkedLine).line n).run = .quiet) ∧
    ¬ (∀ n, ((at_ .dozePending running).line n).engine = .parked ∨ ((at_ .dozePending running).line n).run = .quiet ∨
      ((at_ .dozePending running).line n).run = .faulted) ∧
    (let l := { running with inForce := ProfileSel.lull }
     (at_ .lull l).power.state = .lull ∧ ∀ n, ((at_ .lull l).line n).inForce = .lull ∨ ((at_ .lull l).line n).run = .quiet) ∧
    ¬ (∀ n, ((at_ .lull running).line n).inForce = (at_ .lull running).power.state.target ∨
      ((at_ .lull running).line n).run = .quiet ∨ ((at_ .lull running).line n).run = .faulted) ∧
    (∀ tag w, up.admin ≠ some (.waiting tag w)) := by
  dsimp only
  refine ⟨rfl, ⟨rfl, rfl, by decide +kernel⟩, by decide +kernel, ⟨rfl, by decide +kernel⟩, by decide +kernel, fun _ _ h => (by cases h)⟩

/-- One line for each kind of offer, and a part with one place and with none. -/
theorem witness_OffersAreAdmittedInRotation :
    (∃ r, { running with holdSlot := some ⟨0, .done, .none, 1, 5, 1, none, 0⟩ }.holdSlot = some r) ∧
    (let l := { running with ended := [⟨entry 1 .routine 5, .lineFault, 7⟩] }
     l.holdSlot = none ∧ l.ended = ⟨entry 1 .routine 5, .lineFault, 7⟩ :: []) ∧
    (let r := [{ node 5 .active with alertOwed := true, reportOwed := true }, { node 6 .active with alertOwed := true }]
     RosterOk r ∧ (∃ a, a ∈ r ∧ a.alertOwed = true ∧ ∀ y ∈ r, y.alertOwed = true → a.addr ≤ y.addr)) ∧
    (let r := [node 5 .active, { node 6 .silent with reportOwed := true }]
     RosterOk r ∧ (∀ y ∈ r, y.alertOwed = false) ∧ ∃ a, a ∈ r ∧ a.reportOwed = true ∧ ∀ y ∈ r, y.reportOwed = true → a.addr ≤ y.addr) ∧
    (let o : Owed := ⟨false, true, false, true, false, false⟩
     o.owes .drained = true ∧ (∀ d, o.owes d = true → LineEvent.drained.code ≤ d.code) ∧ o.owes .faulted = false) ∧
    (∀ e, running.owed.owes e = false) ∧
    (∃ r, { up with admin := some (.offered r) }.admin = some (.offered r)) ∧ (∀ r, up.admin ≠ some (.offered r)) ∧
    (State.reset.part ≠ .running ∧ 16 ≤ (reading0With 16).cu.holding.length ∧ ∀ p, up.offerOf p = none) ∧
    (let s := { at0 { running with owed := ⟨false, true, false, false, false, false⟩ } with
       cu := { up.cu with holding := List.replicate 15 (.lineEvent 0 .drained 0), pointer := .admin } }
     s.part = .running ∧ s.cu.holding.length < 16 ∧ (s.offerOf (.line 0)).isSome = true ∧
     (∀ q, s.offerOf q ≠ none → turnsBefore 5 s.cu.pointer.number (Producer.line 0).number ≤ turnsBefore 5 s.cu.pointer.number q.number)) := by
  refine ⟨⟨_, rfl⟩, ⟨rfl, rfl⟩, ⟨rosterOk_of (by decide), _, .head _, rfl, by decide⟩,
    ⟨rosterOk_of (by decide), by decide, _, .tail _ (.head _), rfl, by decide⟩, ?_, ?_, ⟨⟨0, none, 9, none, .done .none, 0⟩, rfl⟩,
    fun _ h => (by cases h), ⟨by decide, by decide, ?_⟩, ⟨rfl, by decide, rfl, ?_⟩⟩
  · refine ⟨rfl, fun d => ?_, rfl⟩
    cases d <;> decide
  · intro e
    cases e <;> rfl
  · intro p
    rcases p with _ | n
    · rfl
    · fin_cases n <;> rfl
  · intro q h
    rcases q with _ | n
    · exact absurd rfl h
    · fin_cases n <;> decide

/-- A part with the admin ring and line 3's ring eligible, the admin ring having been visited last. -/
theorem witness_FetchVisitTakesTheNextEligibleRing :
    let s : State := { up with
      adminRing := ⟨.opened, 1, 0⟩, lineRings := ⟨⟨.opened, 0, 0⟩, ⟨.opened, 0, 0⟩, ⟨.opened, 0, 0⟩, ⟨.opened, 9, 8⟩⟩
      lines := ⟨Line.reset, Line.reset, Line.reset, running⟩, fetch := ⟨none, .admin⟩ }
    (s.fetch.request = none ∧ s.port.transfer = none) ∧ s.setup = some setup ∧ s.eligible (.line 3) = true ∧ s.eligible .admin = true ∧
    (∀ q, s.eligible q = true →
      turnsBefore 5 s.fetch.pointer.number (RingId.line 3).number ≤ turnsBefore 5 s.fetch.pointer.number q.number) ∧
    (∀ r, up.eligible r = false) ∧ (serving (.entryRead .admin 0)).port.transfer = some (.entryRead .admin 0) := by
  refine ⟨⟨rfl, rfl⟩, rfl, by decide, by decide, fun q h => ?_, fun r => ?_, rfl⟩
  · rcases q with _ | n
    · decide
    · fin_cases n <;> first | decide | (revert h; decide)
  · rcases r with _ | n
    · decide
    · fin_cases n <;> decide

/-- The completion ring of 16 with 15 and with 16 records not consumed; a free port of a LOADING and of a RUNNING part, and one that is
not free. -/
theorem witness_PortGrantsTheNextRequester :
    (let unit (p : Half) (mark prev : Bool) (h : List Completion) : State :=
       { up with cu := { up.cu with produced := p, statusPending := mark, prevRecord := prev, holding := h } }
     let c : Completion := .lineEvent 0 .drained 0
     ((unit 15 true true [c]).setup = some setup ∧ (unit 15 true true [c]).cu.statusPending = true ∧ (unit 15 true true [c]).cu.prevRecord = true) ∧
     ((unit 15 true false [c]).cu.prevRecord = false ∧ (unit 15 true false [c]).cu.holding = c :: [] ∧
       ((unit 15 true false [c]).cu.produced - (unit 15 true false [c]).cu.consumed).toNat < setup.completionSize) ∧
     (¬ ((unit 16 true false [c]).cu.produced - (unit 16 true false [c]).cu.consumed).toNat < setup.completionSize) ∧
     (unit 0 false false []).cu.holding = []) ∧
    ((at0 (slotLine .body)).part = .running ∧ ((at0 (slotLine .body)).line 0).writer.busy = some (⟨1, 0x80040, 7, .nonWire .skipped 9⟩, .body)) ∧
    ((slotLine .stamp).writer.busy = some (⟨1, 0x80040, 7, .nonWire .skipped 9⟩, .stamp)) ∧ running.writer.busy = none ∧
    (let s : State := { at0 (slotLine .body) with cu := { up.cu with statusPending := true }, port := ⟨none, .completion⟩ }
     s.port.transfer = none ∧ s.softPending = false ∧ s.part = .running ∧ (s.wanted (.writer 0)).isSome = true ∧
     ∀ p, s.wanted p ≠ none →
       turnsBefore 6 s.port.last.number (Requester.writer 0).number ≤ turnsBefore 6 s.port.last.number p.number) ∧
    (loading.part = .loading ∧ loading.port.transfer ≠ none) ∧ (∀ q, up.wanted q = none) := by
  refine ⟨by decide +kernel, ⟨rfl, rfl⟩, rfl, rfl, ⟨rfl, rfl, rfl, rfl, fun p h => ?_⟩, ⟨rfl, by simp [loading]⟩, fun q => ?_⟩
  · rcases p with _ | _ | n
    · exact absurd rfl h
    · decide
    · fin_cases n <;> decide
  · rcases q with _ | _ | n
    · rfl
    · rfl
    · fin_cases n <;> rfl

/-- The kinds of record whose clauses have a hypothesis. -/
theorem witness_WrittenRecords :
    (∃ sel f, Reason.badProfile .lull 12 = .badProfile sel f) ∧ (∀ sel f, Reason.busy ≠ .badProfile sel f) ∧
    (∃ r : AdminRec, r.outcome = .refused .badField ∧ r.node = none ∧ r.line = none) ∧
    (∃ r : AdminRec, r.outcome = .done (.node (node 62 .barred)) ∧ r.node = some 62) ∧
    (∃ r : AdminRec, r.outcome = .done (.cancel 0xFFFF 17)) ∧ (∃ r : AdminRec, r.outcome = .done (.line running.report)) :=
  ⟨⟨_, _, rfl⟩, (fun _ _ h => (by cases h)), ⟨⟨0, none, 9, none, .refused .badField, 0⟩, rfl, rfl, rfl⟩,
   ⟨⟨9, some 0, 9, some 62, .done (.node (node 62 .barred)), 0⟩, rfl, rfl⟩, ⟨⟨13, some 0, 9, none, .done (.cancel 0xFFFF 17), 0⟩, rfl⟩,
   ⟨⟨15, some 0, 9, none, .done (.line running.report), 0⟩, rfl⟩⟩

/-! ### Witnesses: the whole part -/

theorem off_line_ok : Line.reset.Ok :=
  ⟨⟨rfl, fun _ => rfl⟩, by decide, rosterOk_of (by decide), fun i e h => by
    by_cases g : i < 48 <;> simp [Line.sweepAt, Line.reset, g] at h⟩

theorem running_ok : running.Ok :=
  ⟨⟨rfl, fun h => by rcases h with h | h <;> cases h⟩, by decide, running_roster, fun i e h => by
    by_cases g : i < 48 <;> simp [Line.sweepAt, running, ready, Line.reset, g] at h⟩

/-- A FAULTED part. -/
def faulted : State := { up with part := .faulted, faultReason := .badConsumed }

theorem faulted_ok : faulted.Ok :=
  ⟨fun n => by fin_cases n <;> exact off_line_ok, fun _ n => by fin_cases n <;> rfl, by decide, fun r h => by
    cases r with
    | admin => decide
    | line n => revert h; revert n; decide⟩

/-- A POST, and each way back to DISABLED. -/
theorem witness_FaultedIsLeftByResetOnly : faulted.Ok ∧ faulted.part = .faulted ∧
    exec (.post 0) faulted = .next (after (.post 0) faulted) ∧
    (∀ c ∈ [Instr.powerOnReset, .hardReset, .softReset 2, .enable 2, .registerWrite 1 true 2],
      exec c faulted = .next (after c faulted) ∧ (after c faulted).part = .disabled) ∧
    (let s : State := { faulted with softPending := true, port := ⟨some (.statusWrite 0 []), .completion⟩ }
     s.Ok ∧ s.softPending = true ∧ endsTransfer (.statusWriteDone .busError) = true ∧
     (after (.statusWriteDone .busError) s).part = .disabled ∧ (after .softResetTakesEffect s).part = .disabled) := by
  refine ⟨faulted_ok, rfl, rfl, ?_, ⟨faulted_ok.lines, faulted_ok.stopped, faulted_ok.holding, faulted_ok.rings⟩, rfl, rfl, rfl, rfl⟩
  simp only [List.forall_mem_cons, List.not_mem_nil, false_implies, implies_true, and_true]
  exact ⟨⟨rfl, rfl⟩, ⟨rfl, rfl⟩, ⟨rfl, rfl⟩, ⟨rfl, rfl⟩, ⟨rfl, rfl⟩⟩

/-- A settled part with a line at work, and the step it takes with no command waiting. -/
theorem witness_NothingWaitsThatCouldGoOn :
    ((at0 running).settle.resetLow = false → (at0 running).settle.Settled) ∧
    (step (at0 running).settle = .next ((at0 running).settle.elapse 1)) ∧
    ((at0 running).settle.elapse 1).resetLow = false :=
  ⟨fun _ => State.settle_settled _, rfl, rfl⟩

theorem witness_StepKeepsThePartSound : (at0 running).Ok ∧ step (at0 running) = .next ((at0 running).elapse 1) :=
  ⟨⟨fun n => by fin_cases n <;> first | exact running_ok | exact off_line_ok, fun h => absurd rfl h, by decide, fun r h => by
    cases r with
    | admin => decide
    | line n => revert h; revert n; decide⟩, rfl⟩

end Sys2Proof.Tests
end

section
/-! PROOFS. What the rows of a line's own happenings are taken as: a moment, or the change of the receive pin. What a line's
parts keep while time passes. -/

namespace Sys2Proof.Machine

/-! ### The rows of a line -/

theorem exec_leadWaitComplete (n : LineId) (s : State) :
    exec (.leadWaitComplete n) s = s.take (s.moment n Line.leadLeft Line.leadComplete) := rfl

theorem exec_echoFailure (n : LineId) (i : Nat) (e : Echo) (s : State) : exec (.echoFailure n i e) s =
    s.take (if (s.line n).echoFailsAt i e then s.moment n (·.charLeft i) Line.collide else none) := rfl

theorem exec_replyWindowExpiry (n : LineId) (s : State) :
    exec (.replyWindowExpiry n) s = s.take (s.moment n Line.windowLeft Line.windowEnd) := rfl

theorem exec_characterGapExceeded (n : LineId) (s : State) :
    exec (.characterGapExceeded n) s = s.take (s.moment n Line.gapLeft Line.gapEnd) := rfl

theorem exec_replyStart (n : LineId) (s : State) : exec (.replyStart n) s =
    s.take ((s.onLine n Line.replyEdge).moment n Line.replyLeft fun _ l => l.replyBegin) := rfl

theorem exec_replyCharacter (n : LineId) (ch : RxChar) (s : State) : exec (.replyCharacter n ch) s =
    s.take (s.moment n Line.sampleLeft fun x l => l.replyCharacter x ch) := rfl

theorem exec_longSpace (n : LineId) (s : State) :
    exec (.longSpace n) s = s.take ((s.spaceMoment n Line.longLeft).map (·.longSpace n)) := rfl

theorem exec_lineActivity {s : State} (up : s.resetLow = false) (n : LineId) (a : Activity) :
    exec (.lineActivity n a) s = .next (s.setLine n ((s.line n).lineActivity (s.ctx n) a)).settle := by
  change execLineActivity n a s = _
  rw [execLineActivity, if_neg (by simp [up]), State.take_some up]

/-! ### Moments -/

theorem State.moment_none {s : State} {n : LineId} {left : Line → Option Nat} {f : Ctx → Line → Line}
    (h : left (s.line n) = none) : s.moment n left f = none := by
  simp [State.moment, h]

theorem State.moment_some {s : State} (run : s.part = .running) {n : LineId} {left : Line → Option Nat}
    {f : Ctx → Line → Line} {k : Nat} (e : left (s.line n) = some k) :
    s.moment n left f = some ((s.elapse k).onLine n f) := by
  simp [State.moment, run, e]

/-! ### Time passes on one line -/

/-- Time passes on every line by itself: a line may be replaced before or after. -/
theorem State.elapse_setLine (k : Nat) (s : State) (n : LineId) (l : Line) :
    (s.setLine n l).elapse k = (s.elapse k).setLine n (l.elapse k) := by
  fin_cases n <;> rfl

@[simp] theorem Line.elapse_mark (k : Nat) (l : Line) : (l.elapse k).att.mark = l.att.mark :=
  (Attempt.elapse_kept ..).1

@[simp] theorem Line.elapse_chars (k : Nat) (l : Line) : (l.elapse k).att.chars = l.att.chars :=
  (Attempt.elapse_kept ..).2.1

@[simp] theorem Line.elapse_expect (k : Nat) (l : Line) : (l.elapse k).att.expect = l.att.expect :=
  (Attempt.elapse_kept ..).2.2.1

@[simp] theorem Line.elapse_latency (k : Nat) (l : Line) : (l.elapse k).att.latency = l.att.latency :=
  (Attempt.elapse_kept ..).2.2.2.1

@[simp] theorem Line.elapse_edge (k : Nat) (l : Line) : (l.elapse k).att.edge = l.att.edge :=
  (Attempt.elapse_kept ..).2.2.2.2.2.2

end Sys2Proof.Machine
end

section
/-! PROOFS. The end of the LEAD wait (R12, R35, R60). -/

namespace Sys2Proof.Machine

/-- The LEAD wait has an end only on a line in LEAD whose pin is at mark (R12). -/
theorem Line.leadLeft_none {l : Line} (h : l.engine ≠ .lead ∨ l.wire.space = true) : l.leadLeft = none := by
  refine if_neg fun ⟨lead, _, mark⟩ => ?_
  rcases h with h | h
  · exact h lead
  · simp [mark] at h

theorem Line.leadLeft_some {l : Line} {c : Current} (lead : l.engine = .lead) (mark : l.wire.space = false)
    (cur : l.current = some c) : l.leadLeft = some (l.att.wait * l.profile.divisor - l.att.markCount) :=
  if_pos ⟨lead, by simp [cur], mark⟩

/-- What R35 lets a node's state pass, said of the record. -/
theorem stateAllows_record (probe : Bool) (x : Node) : stateAllows probe (some x.state) = true ↔
    if probe then x.state = .joining ∨ x.state = .silent else x.state = .active := by
  cases x.state <;> cases probe <;> simp [stateAllows]

/-- The test at the end of the LEAD wait withdraws exactly what may not go (R35, R66). -/
theorem mayGo_iff (c : Current) (roster : List Node) : mayGo c roster ↔
    ¬ (c.node ≠ 0 ∧ (c.barred = true ∨ stateAllows (c.origin == .probe) (nodeState roster c.node) = false)) := by
  unfold mayGo nodeState
  cases h : findNode roster c.node with
  | none => simp [stateAllows]
  | some x => simp [stateAllows_record, imp_iff_not_or]

/-- The attempt begins with the toggle that the claims give it (R10, R41, R60). -/
theorem Line.beginAttempt_eq (c : Current) (l : Line) : l.beginAttempt c = { l with
    engine := .sending, settleOwed := false, att := Attempt.clear
    stats := { l.stats with attempts := satInc l.stats.attempts }
    current := some { c with attempts := c.attempts + 1, toggle := attemptToggle c l.roster } } := by
  have toggle : (if c.attempts = 0 then
      if c.node = 0 then false else ((findNode l.roster c.node).map fun x => !x.lastToggle).getD false
      else c.toggle) = attemptToggle c l.roster := by
    unfold attemptToggle
    by_cases first : c.attempts = 0
    · cases findNode l.roster c.node <;> simp [first]
    · simp [first]
  rw [Line.beginAttempt, toggle]

theorem Line.leadComplete_goes {l : Line} {c : Current} (cur : l.current = some c) (go : mayGo c l.roster) (x : Ctx) :
    l.leadComplete x = l.beginAttempt c := by
  simp only [Line.leadComplete, cur]
  exact if_neg ((mayGo_iff c l.roster).1 go)

theorem Line.leadComplete_withdrawn {l : Line} {c : Current} (cur : l.current = some c) (stays : ¬ mayGo c l.roster)
    (x : Ctx) : l.leadComplete x = l.endExchange x c .nodeBarred := by
  simp only [Line.leadComplete, cur]
  exact if_pos (not_not.1 fun h => stays ((mayGo_iff c l.roster).2 h))

/-- Settles O33: the row is a moment of the line, at which `leadComplete` begins or withdraws the attempt. -/
theorem leadWaitBeginsOrWithdraws : Obligations.LeadWaitBeginsOrWithdraws := by
  intro s n c live
  rw [exec_leadWaitComplete]
  refine ⟨fun h => State.take_moment_none (Line.leadLeft_none h), fun lead mark cur => ?_⟩
  rw [State.take_moment_some live (Line.leadLeft_some lead mark cur)]
  refine ⟨fun go => ?_, fun stays => ?_⟩
  · rw [Line.leadComplete_goes (by simpa using cur) go, Line.beginAttempt_eq]
  · rw [Line.leadComplete_withdrawn (by simpa using cur) stays]

end Sys2Proof.Machine
end

section
/-! PROOFS. The parity bit of a character counts its 1 bits (R1, R3). -/

namespace Sys2Proof.Machine

/-! ### Parity -/

theorem odd_succ (k : Nat) : decide ((k + 1) % 2 = 1) = !decide (k % 2 = 1) := by
  rw [← decide_not, decide_eq_decide]
  omega

/-- A running exclusive or tells whether the count is odd. -/
theorem foldl_bne_eq_odd {α : Type} (f : α → Bool) (xs : List α) (a : Bool) :
    xs.foldl (fun acc x => acc != f x) a = (a != decide ((xs.filter f).length % 2 = 1)) := by
  induction xs generalizing a with
  | nil => simp
  | cons x xs ih =>
    rw [List.foldl_cons, ih]
    cases h : f x
    · simp [h]
    · rw [List.filter_cons_of_pos h, List.length_cons, odd_succ]
      cases a <;> simp

theorem dataParity_eq (b : Byte) :
    dataParity b = decide (((List.range 8).filter b.getLsbD).length % 2 = 1) := by
  rw [dataParity, foldl_bne_eq_odd]
  simp

/-- A sampled character has a parity error when its count of 1 bits is not what its parity requires (R3). -/
theorem parityError_iff (p : Parity) (ch : RxChar) : parityError p ch = true ↔
    (p = .even ∧ onesOf ch % 2 = 1) ∨ (p = .odd ∧ onesOf ch % 2 = 0) := by
  have odd : (dataParity ch.data != ch.parity) = decide (onesOf ch % 2 = 1) := by
    rw [dataParity_eq, onesOf]
    cases ch.parity
    · simp
    · rw [Bool.toNat_true, odd_succ, Bool.bne_true]
  cases p with
  | none => simp [parityError, parityBit]
  | even => simp [parityError, parityBit, odd]
  | odd =>
    have : ((!dataParity ch.data) != ch.parity) = !(dataParity ch.data != ch.parity) := by simp
    simp [parityError, parityBit, this, odd]

/-- A character is received in error when its stop bit is at space or its parity is wrong (R3). -/
theorem characterError_iff (p : Parity) (ch : RxChar) : characterError p ch = true ↔
    ch.stop = false ∨ (p = .even ∧ onesOf ch % 2 = 1) ∨ (p = .odd ∧ onesOf ch % 2 = 0) := by
  rw [characterError, Bool.or_eq_true, parityError_iff, Bool.not_eq_true', or_comm]

end Sys2Proof.Machine
end

section
/-! PROOFS. The echo check (R11). -/

namespace Sys2Proof.Machine

/-- An assembled echo fails its check when it differs from the character driven (R11). -/
theorem echoFails_taken (p : Parity) (b : Byte) (ch : RxChar) : echoFails p b (.taken ch) = true ↔
    ch.data ≠ b ∨ ch.stop = false ∨ (p = .even ∧ onesOf { ch with data := b } % 2 = 1) ∨
      (p = .odd ∧ onesOf { ch with data := b } % 2 = 0) := by
  simp only [echoFails, Bool.or_eq_true, parityError_iff, bne_iff_ne, Bool.not_eq_true']
  tauto

/-- The HEADER accounted for, as the claims say it (R10, R41). -/
theorem Line.withHeader_eq (l : Line) (c : Current) : l.withHeader c = l.headerOver c := by
  simp [Line.withHeader, Line.headerOver, Line.headerDriven, updateNode]

theorem Line.collide_eq {l : Line} {c : Current} (cur : l.current = some c) (x : Ctx) :
    l.collide x = (l.headerOver c).onVerdict x c .collision none none := by
  simp only [Line.collide, cur, Line.withHeader_eq]

theorem Line.echoFailsAt_eq {l : Line} {c : Current} {i : Nat} {b : Byte} (cur : l.current = some c)
    (char : c.frame[i]? = some b) (e : Echo) : l.echoFailsAt i e = echoFails l.profile.parity b e := by
  simp [Line.echoFailsAt, cur, char]

theorem Line.charLeft_some {l : Line} {c : Current} {i : Nat} {b : Byte} (sending : l.engine = .sending)
    (cur : l.current = some c) (char : c.frame[i]? = some b) (left : l.att.sent ≤ (i + 1) * l.profile.charClocks) :
    l.charLeft i = some ((i + 1) * l.profile.charClocks - l.att.sent) := by
  obtain ⟨inFrame, -⟩ := List.getElem?_eq_some_iff.1 char
  simp only [Line.charLeft, cur]
  exact if_pos ⟨sending, inFrame, left⟩

/-- Settles O35: an echo that fails its check makes the row a moment at which the attempt collides. -/
theorem echoFailureIsACollision : Obligations.EchoFailureIsACollision := by
  intro s n c i e b live sending cur char left differs t
  rw [exec_echoFailure, Line.echoFailsAt_eq cur char]
  refine ⟨fun wrong => ?_, ?_⟩
  · have fails : echoFails (s.line n).profile.parity b e = true := by
      rcases wrong with rfl | ⟨r, rfl, hr⟩
      · rfl
      · exact (echoFails_taken _ _ _).2 hr
    rw [if_pos fails, State.take_moment_some live (Line.charLeft_some sending cur char left),
      Line.collide_eq (by simpa using cur)]
  · rintro ⟨r, rfl, same⟩
    rw [if_neg (fun fails => same ((echoFails_taken _ _ _).1 fails)), State.take_none]

end Sys2Proof.Machine
end

section
/-! PROOFS. The CRC of a sequence followed by its own CRC, the characters of a request frame, and the levels of the transmit
data pin (R1, R2, R5, R9, R10). -/

namespace Sys2Proof.Machine

/-! ### CRC (R9) -/

theorem crcBit_of_msb {crc : Half} {d : Bool} (h : crc.msb = d) : crcBit crc d = crc <<< 1 := by
  simp [crcBit, h]

/-- Data bits that repeat the register's own high bits shift the register and no more. -/
theorem foldl_crcBit_of_top (k : Nat) (b : Byte) (crc : Half) (hk : k ≤ 8)
    (top : ∀ i < k, b.getLsbD i = crc.getLsbD (i + 16 - k)) :
    (List.range k).reverse.foldl (fun r i => crcBit r (b.getLsbD i)) crc = crc <<< k := by
  induction k generalizing crc with
  | zero => simp
  | succ k ih =>
    have first : crc.msb = b.getLsbD k := by
      rw [top k (by omega), BitVec.msb_eq_getLsbD_last]
      congr 1
      omega
    rw [List.range_succ, List.reverse_append, List.reverse_singleton, List.singleton_append, List.foldl_cons,
      crcBit_of_msb first, ih _ (by omega)]
    · rw [← BitVec.shiftLeft_add, Nat.add_comm]
    · intro i hi
      have place : i + 16 - k - 1 = i + 16 - (k + 1) := by omega
      rw [top i (by omega), BitVec.getLsbD_shiftLeft, decide_eq_true (by omega : i + 16 - k < 16),
        decide_eq_false (by omega : ¬ i + 16 - k < 1), place]
      rfl

/-- A byte that repeats the register's high byte shifts it out. -/
theorem crcByte_of_top {b : Byte} {crc : Half} (top : ∀ i < 8, b.getLsbD i = crc.getLsbD (i + 8)) :
    crcByte crc b = crc <<< 8 :=
  foldl_crcBit_of_top 8 b crc le_rfl top

/-- The register's own two bytes leave it at zero. -/
theorem foldl_crcByte_crcChars (crc : Half) : (crcChars crc).foldl crcByte crc = 0 := by
  have high : crcByte crc ((crc >>> 8).setWidth 8) = crc <<< 8 :=
    crcByte_of_top fun i hi => by simp [hi, Nat.add_comm]
  have low : crcByte (crc <<< 8) (crc.setWidth 8) = crc <<< 8 <<< 8 :=
    crcByte_of_top fun i hi => by
      rw [BitVec.getLsbD_setWidth, BitVec.getLsbD_shiftLeft, decide_eq_true hi, decide_eq_true (by omega : i + 8 < 16),
        decide_eq_false (by omega : ¬ i + 8 < 8), Nat.add_sub_cancel]
      rfl
  rw [crcChars, List.foldl_cons, List.foldl_cons, List.foldl_nil, high, low, ← BitVec.shiftLeft_add]
  exact BitVec.shiftLeft_eq_zero le_rfl

/-- The residue of a sequence with its CRC is zero. -/
theorem crc16_append_crcChars (bs : List Byte) : crc16 (bs ++ crcChars (crc16 bs)) = 0 := by
  rw [crc16, List.foldl_append]
  exact foldl_crcByte_crcChars (crc16 bs)

/-! ### The request frame (R5, R7, R10) -/

/-- The fields of a HEADER. -/
theorem headerChar_request (toggle : Bool) {addr : Nat} (h : addr ≤ 62) :
    (headerChar false toggle addr).getLsbD 7 = false ∧ (headerChar false toggle addr).toNat % 64 = addr ∧
    (headerChar false toggle addr).getLsbD 6 = toggle := by
  have value : (headerChar false toggle addr).toNat = toggle.toNat * 64 + addr := by
    cases toggle <;> simp [headerChar] <;> omega
  simp only [BitVec.getLsbD, value, Nat.testBit_eq_decide_div_mod_eq]
  cases toggle <;> simp <;> omega

theorem Current.frame_eq (c : Current) : c.frame =
    [headerChar false (c.toggle && c.node != 0) c.node, c.code, BitVec.ofNat 8 c.payload.length] ++ c.payload ++
      crcChars (crc16 ([headerChar false (c.toggle && c.node != 0) c.node, c.code,
        BitVec.ofNat 8 c.payload.length] ++ c.payload)) := rfl

theorem Current.length_frame (c : Current) : c.frame.length = 5 + c.payload.length := by
  simp [Current.frame_eq, crcChars]
  omega

/-! ### Transmit data (R1, R2) -/

theorem Line.transmitData_resting {l : Line} (h : l.engine ≠ .sending) : l.transmitData = true := by
  unfold Line.transmitData
  split
  · next e _ => exact absurd e h
  · rfl

/-- Transmit data while SENDING: the level of the bit time under way, mark past the frame. -/
theorem Line.transmitData_sending {l : Line} {c : Current} (h : l.engine = .sending) (cur : l.current = some c) :
    l.transmitData =
      ((c.frame.flatMap (charLevels l.profile.parity))[l.att.sent / l.profile.divisor]?).getD true := by
  simp only [Line.transmitData, h, cur]

/-- The levels of one character after another, each of the same length, end with the last. -/
theorem length_flatMap_charLevels (p : Parity) (bs : List Byte) :
    (bs.flatMap (charLevels p)).length = bs.length * if p = .none then 10 else 11 := by
  simp [List.length_flatMap, length_charLevels]

/-- The levels of one character: start bit, data bits, parity bit, stop bit (R1). -/
theorem charLevels_levels (p : Parity) (b : Byte) :
    (charLevels p b)[0]? = some false ∧ (∀ k, 1 ≤ k → k ≤ 8 → (charLevels p b)[k]? = some (b.getLsbD (k - 1))) ∧
    (p = .even → (charLevels p b)[9]? = some (dataParity b)) ∧
    (p = .odd → (charLevels p b)[9]? = some (!dataParity b)) ∧
    (charLevels p b)[(if p = .none then 10 else 11) - 1]? = some true := by
  refine ⟨rfl, fun k low high => ?_, ?_, ?_, ?_⟩
  · interval_cases k <;> rfl
  · rintro rfl; rfl
  · rintro rfl; rfl
  · cases p <;> rfl

/-- Settles O36: the residue of the CRC, the parts of the frame, and the levels of each character in its place. -/
theorem requestFrameCrcAndPins : Obligations.RequestFrameCrcAndPins := by
  refine ⟨by decide +kernel, crc16_append_crcChars, fun c hn _ => ?_, fun l => ⟨by simp [Line.driverEnable],
    Line.transmitData_resting, fun c sending cur => ?_⟩⟩
  · obtain ⟨direction, address, toggle⟩ := headerChar_request (c.toggle && c.node != 0) hn
    exact ⟨_, direction, address, by rw [toggle]; simp [and_comm], c.frame_eq, c.length_frame⟩
  · intro bits time
    have level := Line.transmitData_sending sending cur
    refine ⟨fun past => ?_, fun i k b char within now => ?_⟩
    · rw [level, List.getElem?_eq_none (by rwa [length_flatMap_charLevels]), Option.getD_none]
    · have level : l.transmitData = ((charLevels l.profile.parity b)[k]?).getD true := by
        rw [level, ← getElem?_flatMap_uniform (length_charLevels l.profile.parity) char within, ← now]
      obtain ⟨start, data, even, odd, stop⟩ := charLevels_levels l.profile.parity b
      refine ⟨?_, fun low high => by rw [level, data k low high]; rfl, ?_, ?_, fun last => ?_⟩
      · rintro rfl
        rw [level, start]; rfl
      · rintro rfl p
        rw [level, even p, dataParity_eq]; rfl
      · rintro rfl p
        rw [level, odd p, dataParity_eq, Option.getD_some, ← decide_not, decide_eq_decide]
        omega
      · have : k = bits - 1 := by omega
        rw [level, this, stop]; rfl

end Sys2Proof.Machine
end

section
/-! PROOFS. The end of the reply window and of the idle time between two reply characters (R13, R15, R18). -/

namespace Sys2Proof.Machine

theorem Line.windowLeft_none {l : Line} (h : l.engine ≠ .awaiting ∨ l.att.edge ≠ none) : l.windowLeft = none :=
  if_neg fun ⟨awaiting, _, edge⟩ => h.elim (· awaiting) (· edge)

theorem Line.windowLeft_some {l : Line} {c : Current} (awaiting : l.engine = .awaiting) (cur : l.current = some c)
    (edge : l.att.edge = none) :
    l.windowLeft = some (l.profile.replyWindow * l.profile.divisor - l.att.window) :=
  if_pos ⟨awaiting, by simp [cur], edge⟩

theorem Line.windowEnd_eq {l : Line} {c : Current} (cur : l.current = some c) (x : Ctx) :
    l.windowEnd x = l.onVerdict x c .timeout none none := by
  simp only [Line.windowEnd, cur]

/-- No idle time runs out but in RECEIVING, after a stop-bit sample or a return to mark (R15). -/
theorem Line.gapLeft_none {l : Line} (h : l.engine ≠ .receiving ∨ l.att.gap = .stopped ∨ l.att.gap = .awaitMark ∨
    ∃ j b e, l.att.gap = .edge j b e) : l.gapLeft = none := by
  unfold Line.gapLeft
  split
  · next engaged =>
    obtain away | gap | gap | ⟨j, b, e, gap⟩ := h
    · exact absurd engaged.1 away
    all_goals rw [gap]
  · rfl

/-- The idle time left, after a stop-bit sample or a return to mark (R15). -/
theorem Line.gapLeft_some {l : Line} {c : Current} {j k : Nat} (receiving : l.engine = .receiving)
    (cur : l.current = some c)
    (idle : l.att.gap = .fromSample j ∧ k = l.profile.charGap * l.profile.divisor + l.profile.divisor / 2 + 1 - j ∨
      l.att.gap = .fromMark j ∧ k = l.profile.charGap * l.profile.divisor + 1 - j) : l.gapLeft = some k := by
  rw [Line.gapLeft, if_pos ⟨receiving, by simp [cur]⟩]
  obtain ⟨gap, rfl⟩ | ⟨gap, rfl⟩ := idle
  · rw [gap]; rfl
  · rw [gap]

theorem Line.gapEnd_eq {l : Line} {c : Current} (cur : l.current = some c) (x : Ctx) :
    l.gapEnd x = l.onVerdict x c l.att.gapVerdict none l.att.latency := by
  simp only [Line.gapEnd, cur]

/-- The verdict of a frame that ends by its gap (R18). -/
theorem Attempt.gapVerdict_cases (a : Attempt) : (a.mark = none → a.gapVerdict = .broken) ∧
    (a.mark = some .charError → a.gapVerdict = .charError) ∧
    (a.mark = some .lengthError → a.gapVerdict = .lengthError) := by
  refine ⟨fun h => ?_, fun h => ?_, fun h => ?_⟩ <;> rw [Attempt.gapVerdict, h]

/-- Settles O37: each row is a moment of the line, or is ruled out. -/
theorem windowAndGapEndTheAttempt : Obligations.WindowAndGapEndTheAttempt := by
  intro s n c live cur p a
  rw [exec_replyWindowExpiry, exec_characterGapExceeded]
  refine ⟨fun awaiting edge => ?_, fun h => State.take_moment_none (Line.windowLeft_none h),
    fun k j receiving idle => ?_, fun h => State.take_moment_none (Line.gapLeft_none h)⟩
  · rw [State.take_moment_some live (Line.windowLeft_some awaiting cur edge), Line.windowEnd_eq (by simpa using cur)]
  · intro t ends
    have ended {v : Verdict} (h : (t.line n).att.gapVerdict = v) : ends v := by
      refine (State.take_moment_some live (Line.gapLeft_some receiving cur idle)).trans ?_
      rw [Line.gapEnd_eq (by simpa using cur), ← h, State.line_elapse, Line.elapse_latency]
    have mark : (t.line n).att.mark = a.mark := by rw [State.line_elapse, Line.elapse_mark]
    obtain ⟨broken, charError, lengthError⟩ := (t.line n).att.gapVerdict_cases
    rw [mark] at broken charError lengthError
    exact ⟨fun h => ended (broken h), fun h => ended (charError h), fun h => ended (lengthError h)⟩

end Sys2Proof.Machine
end

section
/-! PROOFS. The start of a reply (R13, R17). -/

namespace Sys2Proof.Machine

/-- A reply starts only from AWAITING, with the line at space and a transition to confirm. -/
theorem Line.replyLeft_none {l : Line} (h : l.engine ≠ .awaiting ∨ l.wire.space = false ∨ l.att.edge = none) :
    l.replyLeft = none := by
  unfold Line.replyLeft Line.confirmLeft
  split
  · next space =>
    split
    · rfl
    · next e edge =>
      refine if_neg fun awaits => ?_
      simp [awaits.1, space, edge] at h
  · rfl

theorem Line.replyLeft_some {l : Line} {c : Current} {e : Nat} (awaiting : l.engine = .awaiting)
    (cur : l.current = some c) (edge : l.att.edge = some e) (space : l.wire.space = true) :
    l.replyLeft = some ((l.profile.divisor + 1) / 2 - (l.att.window - e)) := by
  simp only [Line.replyLeft, space, Line.confirmLeft, edge, awaiting, cur, Profile.halfBit]
  simp

theorem Line.replyBegin_eq {l : Line} {e : Nat} (edge : l.att.edge = some e) : l.replyBegin = { l with
    engine := .receiving, att := { Attempt.clear with latency := some (BitVec.ofNat 32 (e / 48)) } } := by
  rw [Line.replyBegin, edge]
  rfl

/-- A pending transition is the one that begins the reply. -/
theorem Line.replyEdge_pending {l : Line} (h : l.att.edge ≠ none) (x : Ctx) : l.replyEdge x = l :=
  if_neg (by simpa using h)

/-- The line as a transition to space falls on it, within its reply window. -/
def Line.edgeNow (l : Line) : Line :=
  { l with wire := ⟨true, 0, false⟩, att := { l.att with edge := some l.att.window } }

/-- With none pending and the line at mark in a running window, the transition falls now (R13). -/
theorem Line.replyEdge_now {l : Line} (awaiting : l.engine = .awaiting) (edge : l.att.edge = none)
    (mark : l.wire.space = false) (opened : l.att.window ≤ l.profile.replyWindow * l.profile.divisor) (x : Ctx) :
    l.replyEdge x = l.edgeNow := by
  simp [Line.replyEdge, Line.edgeNow, Line.spaceRun, Line.lineActivity, awaiting, edge, mark, opened]

/-- With none pending, a line at space or past its window's end has none (R13). -/
theorem Line.replyEdge_none {l : Line} (awaiting : l.engine = .awaiting) (edge : l.att.edge = none)
    (h : l.wire.space = true ∨ l.profile.replyWindow * l.profile.divisor < l.att.window) (x : Ctx) :
    (l.replyEdge x).att.edge = none := by
  rw [Line.replyEdge, if_pos (by simp [edge])]
  cases space : l.wire.space with
  | true => rw [Line.spaceRun_of_space space, edge]
  | false =>
    have late : ¬ l.att.window ≤ l.profile.replyWindow * l.profile.divisor := by simpa [space] using h
    simp [Line.spaceRun, Line.lineActivity, awaiting, edge, space, late]

theorem Line.replyEdge_engine (l : Line) (x : Ctx) : (l.replyEdge x).engine = l.engine := by
  unfold Line.replyEdge
  split
  · exact (l.spaceRun_spec x).2.1
  · rfl

/-- REPLY_START where no reply can start. -/
theorem State.take_replyStart_none {s : State} {n : LineId} (h : ((s.line n).replyEdge (s.ctx n)).replyLeft = none) :
    exec (.replyStart n) s = .next s := by
  rw [exec_replyStart, State.moment_none (by simpa using h), State.take_none]

/-- REPLY_START at the confirmation of a transition. -/
theorem State.take_replyStart_some {s : State} (live : s.Live) {n : LineId} {m : Line} {k : Nat}
    (edge : (s.line n).replyEdge (s.ctx n) = m) (left : m.replyLeft = some k) :
    exec (.replyStart n) s = .next ((s.elapse k).setLine n (m.elapse k).replyBegin).settle := by
  have moment := State.moment_some (s := s.onLine n Line.replyEdge) (n := n) (f := fun _ l => l.replyBegin)
    (by simpa using live.running) (left := Line.replyLeft) (k := k) (by simpa [edge] using left)
  rw [exec_replyStart, moment, State.take_some live.up, State.onLine_eq, State.onLine_eq, edge, State.elapse_setLine,
    State.setLine_setLine, State.line_setLine_self]

/-- Settles O38: the transition that begins the reply is the one pending, or it falls now. -/
theorem replyStartEntersReceiving : Obligations.ReplyStartEntersReceiving := by
  intro s n c live cur l half begun
  refine ⟨fun away => ?_, fun e awaiting edge space => ?_, fun awaiting edge mark opened => ?_,
    fun awaiting edge mark => ?_, fun awaiting edge h => ?_⟩
  · exact State.take_replyStart_none (Line.replyLeft_none (.inl (by rwa [Line.replyEdge_engine])))
  · have pending : l.replyEdge (s.ctx n) = l := Line.replyEdge_pending (by simp [edge]) _
    refine (State.take_replyStart_some live pending (Line.replyLeft_some awaiting cur edge space)).trans ?_
    rw [Line.replyBegin_eq (by simpa using edge), State.line_elapse]
  · have now : l.replyEdge (s.ctx n) = l.edgeNow := Line.replyEdge_now awaiting edge mark opened _
    have left : l.edgeNow.replyLeft = some half := by
      rw [Line.replyLeft_some (l := l.edgeNow) awaiting cur rfl rfl]
      exact congrArg some (by rw [show l.edgeNow.att.window = l.att.window from rfl, Nat.sub_self]; rfl)
    have wire : Wire.elapse half l.engine ⟨true, 0, false⟩ = ⟨true, half, false⟩ := by
      simp [Wire.elapse, awaiting]
    refine (State.take_replyStart_some live now left).trans ?_
    rw [Line.replyBegin_eq (e := l.att.window) (by simp [Line.edgeNow]), State.line_elapse]
    simp only [Line.elapse, Line.edgeNow, wire]
    rfl
  · exact State.take_replyStart_none (Line.replyLeft_none (.inr (.inl (by rw [Line.replyEdge_pending edge, mark]))))
  · exact State.take_replyStart_none (Line.replyLeft_none (.inr (.inr (Line.replyEdge_none awaiting edge h _))))

end Sys2Proof.Machine
end

section
/-! PROOFS. The judging of a complete reply (R18 steps 3 to 7). -/

namespace Sys2Proof.Machine

/-- The two characters of a CRC tell it. -/
theorem crcChars_inj {a b : Half} : crcChars a = crcChars b ↔ a = b := by
  refine ⟨fun h => ?_, congrArg _⟩
  simp only [crcChars, List.cons.injEq, and_true] at h
  obtain ⟨high, low⟩ := h
  bv_omega

/-- A reply frame's characters before its CRC (R5, R8). -/
def replyBody (h status : Byte) (payload : List Byte) : List Byte :=
  [h, status, BitVec.ofNat 8 payload.length] ++ payload

/-- The judging of a reply frame by its own fields. -/
theorem judgeReply_frame (node : Nat) (toggle : Bool) (h status : Byte) {payload : List Byte} (crc : Half)
    (short : payload.length ≤ 32) :
    judgeReply node toggle (replyBody h status payload ++ crcChars crc) =
      if crc ≠ crc16 (replyBody h status payload) then (.crcError, none)
      else if h.getLsbD 7 = false ∨ h.toNat % 64 ≠ node then (.wrongNode, none)
      else if h.getLsbD 6 ≠ toggle then (.stale, none)
      else judgeStatus status payload := by
  have length : (replyBody h status payload).length = 3 + payload.length := by
    simp [replyBody]
    omega
  have len : (BitVec.ofNat 8 payload.length).toNat = payload.length := by
    rw [BitVec.toNat_ofNat]
    omega
  have header : recordByte (replyBody h status payload ++ crcChars crc) 0 = h := rfl
  have code : recordByte (replyBody h status payload ++ crcChars crc) 1 = status := rfl
  have third : recordByte (replyBody h status payload ++ crcChars crc) 2 = BitVec.ofNat 8 payload.length := rfl
  have contents : ((replyBody h status payload ++ crcChars crc).drop 3).take payload.length = payload :=
    List.take_left
  simp only [judgeReply, header, code, third, len, contents]
  rw [List.take_left' length, List.drop_left' length]
  have sent : (crcChars crc).take 2 = crcChars crc := rfl
  simp only [sent, ne_eq, crcChars_inj, eq_comm (a := crc16 _)]

theorem judgeStatus_cases (status : Byte) (payload : List Byte) :
    (3 < status.toNat → judgeStatus status payload = (.badStatus, none)) ∧
    (status = 0 → judgeStatus status payload = (.good, some ⟨.ok, payload⟩)) ∧
    (status = 1 → judgeStatus status payload = (.goodBusy, some ⟨.busy, payload⟩)) ∧
    (status = 2 → judgeStatus status payload = (.goodReject, some ⟨.reject, payload⟩)) ∧
    (status = 3 → judgeStatus status payload = (.goodAlert, some ⟨.alert, payload⟩)) := by
  refine ⟨fun high => ?_, ?_, ?_, ?_, ?_⟩
  · unfold judgeStatus
    split
    case h_5 => rfl
    all_goals omega
  all_goals
    rintro rfl
    rfl

/-- Settles O40: the checks of `judgeReply_frame` in their order. -/
theorem replyIsJudgedInOrder : Obligations.ReplyIsJudgedInOrder := by
  intro node toggle h status payload crc short body judged
  have frame : judged = _ := judgeReply_frame node toggle h status crc short
  change _ = if crc ≠ crc16 body then _ else _ at frame
  refine ⟨fun crcBad => ?_, fun crcGood other => ?_, fun crcGood reply address => ⟨fun old => ?_, fun current => ?_⟩⟩
  · rw [frame, if_pos crcBad]
  · rw [frame, if_neg (not_not.2 crcGood), if_pos other]
  all_goals
    have named : ¬ (h.getLsbD 7 = false ∨ h.toNat % 64 ≠ node) := by simp [-BitVec.getLsbD_eq_getElem, reply, address]
    rw [frame, if_neg (not_not.2 crcGood), if_neg named]
  · rw [if_pos old]
  · rw [if_neg (not_not.2 current)]
    exact judgeStatus_cases status payload

end Sys2Proof.Machine
end

section
/-! PROOFS. A reply character joins the frame (R14, R18). -/

namespace Sys2Proof.Machine

/-- To the stop-bit sample of a character while none awaits a return to mark (R3). -/
theorem Line.sampleLeft_some {l : Line} {c : Current} (receiving : l.engine = .receiving) (cur : l.current = some c)
    (listens : l.att.gap ≠ .awaitMark) : l.sampleLeft = some (match l.att.gap with
      | .stopped => l.profile.charClocks - l.profile.divisor - l.att.since
      | .fromSample k => l.profile.divisor / 2 - k + (l.profile.divisor + 1) / 2 +
          (l.profile.charClocks - l.profile.divisor)
      | .fromMark _ => (l.profile.divisor + 1) / 2 + (l.profile.charClocks - l.profile.divisor)
      | .edge k _ _ => (l.profile.divisor + 1) / 2 - k + (l.profile.charClocks - l.profile.divisor)
      | .awaitMark => 0) := by
  rw [Line.sampleLeft, if_pos ⟨receiving, by simp [cur]⟩]
  cases gap : l.att.gap with
  | awaitMark => exact absurd gap listens
  | stopped => rfl
  | fromSample k => rfl
  | fromMark k => rfl
  | edge k b e => rfl

theorem Line.sampleLeft_none {l : Line} (waits : l.att.gap = .awaitMark) : l.sampleLeft = none := by
  simp [Line.sampleLeft, waits]

/-- Every run of levels is what leads up to its last mark, and the unbroken space after it. -/
theorem exists_space_tail (levels : List Bool) :
    ∃ front z, levels = front ++ List.replicate z false ∧ ∀ y, front ≠ y ++ [false] := by
  induction levels using List.reverseRecOn with
  | nil => exact ⟨[], 0, rfl, by simp⟩
  | append_singleton xs b ih =>
    cases b with
    | true => exact ⟨xs ++ [true], 0, by simp, fun y h => by simpa using (List.append_inj' h rfl).2⟩
    | false =>
      obtain ⟨front, z, rfl, last⟩ := ih
      exact ⟨front, z + 1, by rw [List.replicate_succ', List.append_assoc], last⟩

/-- Only a character under way can be reported after its sample. -/
theorem Attempt.sampleAge_eq (p : Profile) (a : Attempt) : a.sampleAge p =
    match a.gap with
    | .stopped => a.since - (p.charClocks - p.divisor)
    | _ => 0 := by
  unfold Attempt.sampleAge
  cases a.gap <;> rfl

/-- The receive pin after a stop-bit sample is determined by what the claim says of it. -/
theorem Wire.sampled_unique {p : Profile} {ch : RxChar} {age : Nat} {w wire : Wire} (good : ch.stop = true → wire = Wire.idle)
    (wrong : ∀ z front, sampledLevels p.parity ch = front ++ List.replicate z false → (∀ y, front ≠ y ++ [false]) →
      ch.stop = false →
      let fits := w.space = true ∧ (front ≠ [] → w.run ≤ z * p.divisor + age)
      (fits → wire = w) ∧ (¬ fits → wire = ⟨true, (z - 1) * p.divisor + (p.divisor + 1) / 2 + age, false⟩)) :
    w.sampled p ch age = wire := by
  obtain ⟨atMark, atSpace⟩ := Wire.sampled_eq p ch age w
  cases stop : ch.stop with
  | true => rw [atMark stop, good stop]
  | false =>
    obtain ⟨front, z, levels, last⟩ := exists_space_tail (sampledLevels p.parity ch)
    obtain ⟨kept, begun⟩ := atSpace front z levels last stop
    obtain ⟨kept', begun'⟩ := wrong z front levels last stop
    by_cases fits : w.space = true ∧ (front ≠ [] → w.run ≤ z * p.divisor + age)
    · rw [kept fits, kept' fits]
    · rw [begun fits, begun' fits]
      rfl

/-- The mark of the frame once a character has joined it (R14): the first error in time. -/
theorem Attempt.takeChar_mark {p : Parity} {ch : RxChar} {a : Attempt} {m : Option FrameMark}
    (h : m = a.mark ∧ a.mark ≠ none ∨ a.mark = none ∧ characterError p ch = true ∧ m = some .charError ∨
      a.mark = none ∧ ¬ characterError p ch = true ∧ a.chars.length = 2 ∧ 32 < ch.data.toNat ∧ m = some .lengthError ∨
      a.mark = none ∧ ¬ characterError p ch = true ∧ ¬ (a.chars.length = 2 ∧ 32 < ch.data.toNat) ∧ m = none) :
    (a.takeChar p ch).mark = m := by
  obtain ⟨rfl, marked⟩ | ⟨clean, bad, rfl⟩ | ⟨clean, good, third, long, rfl⟩ | ⟨clean, good, fits, rfl⟩ := h
  · exact if_pos (Option.isSome_iff_ne_none.2 marked)
  · simp [Attempt.takeChar, clean, bad]
  · simp [Attempt.takeChar, clean, good, third, Config.maxPayload, long]
  · have fits : ¬ (a.chars.length = 2 ∧ Config.maxPayload < ch.data.toNat) := fits
    simp [Attempt.takeChar, clean, good, fits]

/-- The length of the frame once a character has joined it (R14): a clean LENGTH of 0 to 32 gives it. -/
theorem Attempt.takeChar_expect {p : Parity} {ch : RxChar} {a : Attempt} {x : Option Nat}
    (h : a.chars.length = 2 ∧ ¬ characterError p ch = true ∧ ch.data.toNat ≤ 32 ∧ x = some (5 + ch.data.toNat) ∨
      ¬ (a.chars.length = 2 ∧ ¬ characterError p ch = true ∧ ch.data.toNat ≤ 32) ∧ x = a.expect) :
    (a.takeChar p ch).expect = x := by
  obtain ⟨third, good, short, rfl⟩ | ⟨other, rfl⟩ := h
  · have short : ¬ Config.maxPayload < ch.data.toNat := Nat.not_lt.2 short
    simp [Attempt.takeChar, third, good, short]
  · refine if_neg fun given => other ?_
    simp only [Bool.and_eq_true, beq_iff_eq, Bool.not_eq_true', Bool.and_eq_false_iff, decide_eq_false_iff_not,
      Nat.not_lt] at given
    obtain ⟨⟨third, good⟩, short⟩ := given
    exact ⟨third, by simp [good], short.resolve_left (by simp [third])⟩

/-- A frame is whole at its known length (R14). -/
theorem Attempt.frameDone_some {a : Attempt} {len : Nat} (h : a.expect = some len) :
    a.frameDone = true ↔ len ≤ a.chars.length := by
  simp [Attempt.frameDone, h]

/-- A frame of unknown length is whole at 37 characters (R14). -/
theorem Attempt.frameDone_none {a : Attempt} (h : a.expect = none) : a.frameDone = true ↔ 37 ≤ a.chars.length := by
  simp only [Attempt.frameDone, h]
  exact decide_eq_true_iff

/-- The line after a reply character, apart from the judging of a whole frame. -/
def Line.joined (ch : RxChar) (l : Line) : Line :=
  { l with
    att := l.att.takeChar l.profile.parity ch
    wire := l.wire.sampled l.profile ch (l.att.sampleAge l.profile) }

theorem Line.replyCharacter_eq {l : Line} {c : Current} (cur : l.current = some c) (x : Ctx) (ch : RxChar) :
    l.replyCharacter x ch = if (l.joined ch).att.frameDone = true then
      (l.joined ch).onVerdict x c ((l.joined ch).att.judge c).1 ((l.joined ch).att.judge c).2 l.att.latency
      else l.joined ch := by
  unfold Line.replyCharacter
  split
  · next free => simp [cur] at free
  · next d busy =>
    obtain rfl : c = d := by simpa [cur] using busy
    rfl

/-- The verdict of a whole frame by its mark (R18). -/
theorem Attempt.judge_cases (c : Current) (a : Attempt) :
    (a.mark = some .charError → a.judge c = (.charError, none)) ∧
    (a.mark = some .lengthError → a.judge c = (.lengthError, none)) ∧
    (a.mark = none → a.judge c = judgeReply c.node c.toggle a.chars) := by
  refine ⟨fun h => ?_, fun h => ?_, fun h => ?_⟩
  all_goals rw [Attempt.judge, h]

/-- Settles O39: the row is the moment of the stop-bit sample, at which the character joins the frame, and a whole frame is
judged. -/
theorem replyCharacterAssembles : Obligations.ReplyCharacterAssembles := by
  intro s n c ch live receiving cur
  rw [exec_replyCharacter]
  refine ⟨fun waits => State.take_moment_none (Line.sampleLeft_none waits), fun listens => ?_⟩
  intro p a half rest t l bad m x hm hx wire levels good wrong k judged whole
  have hbad : bad ↔ characterError p.parity ch = true := (characterError_iff p.parity ch).symm
  rw [hbad] at hm hx
  have ht : l = (s.line n).elapse _ := State.line_elapse ..
  have curT : l.current = some c := by rw [ht, Line.elapse_current, cur]
  have chars : l.att.chars = a.chars := by rw [ht, Line.elapse_chars]
  have mark : l.att.mark = a.mark := by rw [ht, Line.elapse_mark]
  have expect : l.att.expect = a.expect := by rw [ht, Line.elapse_expect]
  have latency : l.att.latency = a.latency := by rw [ht, Line.elapse_latency]
  have profile : l.profile = p := by rw [ht, Line.elapse_profile]
  have joined : l.joined ch = k := by
    have pin : l.wire.sampled p ch (l.att.sampleAge p) = wire := by
      rw [Attempt.sampleAge_eq]
      exact Wire.sampled_unique good wrong
    have hm' : (l.att.takeChar p.parity ch).mark = m := Attempt.takeChar_mark (by rwa [mark, chars])
    have hx' : (l.att.takeChar p.parity ch).expect = x := Attempt.takeChar_expect (by rwa [expect, chars])
    rw [Line.joined, profile, pin]
    simp only [k, ← hm', ← hx', ← chars]
    rfl
  have taken : s.take (s.moment n Line.sampleLeft fun x l => l.replyCharacter x ch) =
      .next (t.setLine n (l.replyCharacter (t.ctx n) ch)).settle :=
    State.take_moment_some live (Line.sampleLeft_some receiving cur listens)
  rw [Line.replyCharacter_eq curT, joined, latency] at taken
  have done : k.att.frameDone = true ↔ whole := by
    have length : k.att.chars.length = a.chars.length + 1 := List.length_append
    cases hl : x with
    | some len => rw [Attempt.frameDone_some (len := len) hl, length]; simp only [whole, hl]
    | none => rw [Attempt.frameDone_none hl, length]; simp only [whole, hl]
  refine ⟨fun part => ?_, fun h marked => ?_, fun h marked => ?_, fun h marked => ?_⟩
  · rw [taken, if_neg (by rwa [done])]
  all_goals
    obtain ⟨charError, lengthError, clean⟩ := k.att.judge_cases c
    refine taken.trans ?_
    rw [if_pos (done.2 h)]
  · rw [charError marked]
  · rw [lengthError marked]
  · rw [clean marked]

end Sys2Proof.Machine
end

section
/-! PROOFS. A change of the receive pin in each engine state (R3, R12, R13, R15). -/

namespace Sys2Proof.Machine

/-! ### A transition to space -/

theorem Line.toSpace_again {l : Line} (space : l.wire.space = true) (x : Ctx) : l.lineActivity x .toSpace = l :=
  Line.spaceRun_of_space space

theorem Line.toSpace_lead {l : Line} (mark : l.wire.space = false) (h : l.engine = .lead) (x : Ctx) :
    l.lineActivity x .toSpace = { l with wire := ⟨true, 0, false⟩, att := { l.att with markCount := 0 } } := by
  simp [Line.lineActivity, mark, h]

/-- The first transition of a running reply window is the one to be confirmed (R13). -/
theorem Line.toSpace_first {l : Line} (mark : l.wire.space = false) (h : l.engine = .awaiting) (edge : l.att.edge = none)
    (opened : l.att.window ≤ l.profile.replyWindow * l.profile.divisor) (x : Ctx) :
    l.lineActivity x .toSpace = l.edgeNow := by
  simp [Line.lineActivity, Line.edgeNow, mark, h, edge, opened]

theorem Line.toSpace_later {l : Line} (mark : l.wire.space = false) (h : l.engine = .awaiting)
    (late : l.att.edge ≠ none ∨ l.profile.replyWindow * l.profile.divisor < l.att.window) (x : Ctx) :
    l.lineActivity x .toSpace = { l with wire := ⟨true, 0, false⟩ } := by
  have closed : ¬ (l.att.edge = none ∧ l.att.window ≤ l.profile.replyWindow * l.profile.divisor) :=
    fun ⟨edge, opened⟩ => late.elim (· edge) (Nat.not_lt.2 opened)
  simp [Line.lineActivity, mark, h, closed]

theorem Line.toSpace_receiving {l : Line} (mark : l.wire.space = false) (h : l.engine = .receiving) {g : Gap}
    (gap : l.att.gap.toSpace (l.profile.divisor / 2) = g) (x : Ctx) :
    l.lineActivity x .toSpace = { l with wire := ⟨true, 0, false⟩, att := { l.att with gap := g } } := by
  subst gap
  simp [Line.lineActivity, mark, h, Profile.halfStop]

theorem Line.toSpace_deaf {l : Line} (mark : l.wire.space = false)
    (h : l.engine = .off ∨ l.engine = .idle ∨ l.engine = .sending ∨ l.engine = .parked) (x : Ctx) :
    l.lineActivity x .toSpace = { l with wire := ⟨true, 0, false⟩ } := by
  obtain h | h | h | h := h <;> simp [Line.lineActivity, mark, h]

/-! ### A return to mark -/

theorem Line.toMark_again {l : Line} (mark : l.wire.space = false) (x : Ctx) : l.lineActivity x .toMark = l := by
  simp [Line.lineActivity, mark]

theorem Line.toMark_lead {l : Line} (space : l.wire.space = true) (h : l.engine = .lead) (x : Ctx) :
    l.lineActivity x .toMark = { l with wire := Wire.idle, att := { l.att with markCount := 0 } } := by
  simp [Line.lineActivity, space, h]

theorem Line.toMark_receiving {l : Line} (space : l.wire.space = true) (h : l.engine = .receiving) {g : Gap}
    (gap : l.att.gap.toMark = g) (x : Ctx) :
    l.lineActivity x .toMark = { l with wire := Wire.idle, att := { l.att with gap := g } } := by
  subst gap
  simp [Line.lineActivity, space, h]

theorem Line.toMark_deaf {l : Line} (space : l.wire.space = true) (lead : l.engine ≠ .lead)
    (receiving : l.engine ≠ .receiving) (x : Ctx) : l.lineActivity x .toMark = { l with wire := Wire.idle } := by
  cases h : l.engine <;> simp_all [Line.lineActivity]

/-- A return to mark matters to a receiver that waits for it, and to a transition not yet found back at mark. -/
theorem Gap.toMark_kept {g : Gap} (waits : g ≠ .awaitMark) (edge : ∀ k e, g ≠ .edge k none e) : g.toMark = g := by
  cases g with
  | awaitMark => exact absurd rfl waits
  | edge k b e =>
    cases b with
    | none => exact absurd rfl (edge k e)
    | some b => rfl
  | stopped => rfl
  | fromSample k => rfl
  | fromMark k => rfl

/-! ### A glitch -/

theorem Line.glitch_lead {l : Line} (h : l.engine = .lead) (x : Ctx) :
    l.lineActivity x .glitch = { l with wire := Wire.idle, att := { l.att with markCount := 0 } } := by
  simp [Line.lineActivity, h]

theorem Line.glitch_awaiting {l : Line} {c : Current} (h : l.engine = .awaiting) (cur : l.current = some c) (x : Ctx) :
    l.lineActivity x .glitch = if l.att.edge.isSome && l.windowOver then
      ({ l with wire := Wire.idle } : Line).onVerdict x c .timeout none none
      else { l with wire := Wire.idle, att := { l.att with edge := none } } := by
  simp only [Line.lineActivity, h]
  split
  · next d busy =>
    obtain rfl : c = d := by simpa [cur] using busy
    rfl
  · next free => simp [cur] at free

/-- A glitch that proves the pending transition wrong after the window's length ends the attempt (R13). -/
theorem Line.glitch_late {l : Line} {c : Current} (h : l.engine = .awaiting) (cur : l.current = some c)
    (edge : l.att.edge ≠ none) (ended : l.profile.replyWindow * l.profile.divisor ≤ l.att.window) (x : Ctx) :
    l.lineActivity x .glitch = ({ l with wire := Wire.idle } : Line).onVerdict x c .timeout none none := by
  rw [Line.glitch_awaiting h cur, if_pos]
  simp [Line.windowOver, Option.isSome_iff_ne_none.2 edge, ended]

/-- A glitch within the window's length, or with no transition pending, leaves the window running (R13). -/
theorem Line.glitch_early {l : Line} {c : Current} (h : l.engine = .awaiting) (cur : l.current = some c)
    (runs : l.att.edge = none ∨ l.att.window < l.profile.replyWindow * l.profile.divisor) (x : Ctx) :
    l.lineActivity x .glitch = { l with wire := Wire.idle, att := { l.att with edge := none } } := by
  rw [Line.glitch_awaiting h cur, if_neg]
  obtain none | early := runs
  · simp [none]
  · simp [Line.windowOver, Nat.not_le.2 early]

theorem Line.glitch_receiving {l : Line} (h : l.engine = .receiving) {g : Gap}
    (gap : l.att.gap.glitch (l.profile.divisor / 2) = g) (x : Ctx) :
    l.lineActivity x .glitch = { l with wire := Wire.idle, att := { l.att with gap := g } } := by
  subst gap
  simp [Line.lineActivity, h, Profile.halfStop]

theorem Line.glitch_deaf {l : Line}
    (h : l.engine = .off ∨ l.engine = .idle ∨ l.engine = .sending ∨ l.engine = .parked) (x : Ctx) :
    l.lineActivity x .glitch = { l with wire := Wire.idle } := by
  obtain h | h | h | h := h <;> simp [Line.lineActivity, h]

/-! ### The sample half a bit time after a transition -/

/-- A receiver between a transition and its sample, `k` periods later (R3, R15). -/
theorem Line.elapse_afterEdge {l : Line} (h : l.engine = .receiving) {j stop : Nat} {back : Option Nat}
    (gap : l.att.gap = .edge j back stop) (k : Nat) : (l.elapse k).att =
      if j + k < (l.profile.divisor + 1) / 2 then { l.att with gap := .edge (j + k) (back.map (· + k)) stop }
      else if l.wire.space = true then { l.att with since := j + k - (l.profile.divisor + 1) / 2, gap := .stopped }
      else { l.att with gap := .fromMark (min (back.getD 0 + k) (j + k - stop)) } := by
  have listens : (l.elapse k).att = l.att.listen k l.profile.halfBit l.wire.space := by
    simp [Line.elapse, h, Attempt.elapse]
  rw [listens, Attempt.listen, gap]
  rfl

/-- Settles O44: each clause is the line's own change, by activity, engine state and what the receiver is about. -/
theorem lineActivityIsFollowed : Obligations.LineActivityIsFollowed := by
  refine ⟨fun s n up => ?_, fun l j k stop back receiving gap => ?_⟩
  · intro l becomes space mark stopBit
    have follow {a : Activity} {m : Line} (h : l.lineActivity (s.ctx n) a = m) : becomes a m := by
      rw [← h]
      exact exec_lineActivity up n a
    refine ⟨fun atSpace => follow (Line.toSpace_again atSpace _), fun atMark => ?_, fun atSpace => ?_,
      fun lead => follow (Line.glitch_lead lead _), fun c awaiting cur =>
        ⟨fun edge ended => follow (Line.glitch_late awaiting cur edge ended _),
          fun runs => follow (Line.glitch_early awaiting cur runs _)⟩,
      fun receiving stopped => ?_, fun receiving => ?_, fun deaf => follow (Line.glitch_deaf deaf _)⟩
    · have starts {g : Gap} (receiving : l.engine = .receiving) (gap : l.att.gap.toSpace stopBit = g) :=
        follow (Line.toSpace_receiving atMark receiving gap (s.ctx n))
      refine ⟨follow (Line.toMark_again atMark _), fun lead => follow (Line.toSpace_lead atMark lead _),
        fun awaiting edge opened => follow (Line.toSpace_first atMark awaiting edge opened _),
        fun awaiting late => follow (Line.toSpace_later atMark awaiting late _), fun receiving => ⟨?_, ?_, ?_, ?_⟩,
        fun deaf => follow (Line.toSpace_deaf atMark deaf _)⟩
      · rintro (gap | gap)
        · exact starts (g := l.att.gap) receiving (by rw [gap]; rfl)
        · exact starts (g := l.att.gap) receiving (by rw [gap]; rfl)
      · exact fun k gap => starts receiving (congrArg _ gap)
      · exact fun k gap => starts receiving (congrArg _ gap)
      · exact fun k b e gap => starts receiving (congrArg _ gap)
    · have ends {g : Gap} (receiving : l.engine = .receiving) (gap : l.att.gap.toMark = g) :=
        follow (Line.toMark_receiving atSpace receiving gap (s.ctx n))
      refine ⟨fun lead => follow (Line.toMark_lead atSpace lead _), fun receiving => ⟨?_, ?_, ?_⟩,
        fun lead receiving => follow (Line.toMark_deaf atSpace lead receiving _)⟩
      · exact fun gap => ends receiving (congrArg _ gap)
      · exact fun k e gap => ends receiving (congrArg _ gap)
      · exact fun waits edge => ends receiving (Gap.toMark_kept waits edge)
    · exact follow (Line.glitch_receiving (g := l.att.gap) receiving (by rw [stopped]; rfl) _)
    · intro idle
      have restarts {g : Gap} (gap : l.att.gap.glitch stopBit = g) : idle g :=
        follow (Line.glitch_receiving receiving gap _)
      refine ⟨?_, fun k gap => ⟨fun within => ?_, fun past => ?_⟩, fun k b e gap => ⟨fun within => ?_, fun past => ?_⟩⟩
      · rintro k (gap | gap)
        · exact restarts (congrArg _ gap)
        · exact restarts (congrArg _ gap)
      · exact restarts ((congrArg _ gap).trans (if_pos within))
      · exact restarts ((congrArg _ gap).trans (if_neg (Nat.not_lt.2 past)))
      · exact restarts ((congrArg _ gap).trans (if_pos within))
      · exact restarts ((congrArg _ gap).trans (if_neg (Nat.not_lt.2 past)))
  · rw [Line.elapse_afterEdge receiving gap]
    refine ⟨fun early => if_pos early, fun late space => ?_, fun late mark => ?_⟩
    · rw [if_neg (Nat.not_lt.2 late), if_pos space]
    · rw [if_neg (Nat.not_lt.2 late), if_neg (by simp [mark])]

end Sys2Proof.Machine
end

section
/-! PROOFS. The limits of a run of space, a line found stuck, and the wake of a part in DOZE (R4, R71, R72, R180, R181). -/

namespace Sys2Proof.Machine

/-! ### The run of space -/

@[simp] theorem Line.elapse_space (k : Nat) (l : Line) : (l.elapse k).wire.space = l.wire.space := by
  simp only [Line.elapse, Wire.elapse]
  split <;> rfl

@[simp] theorem Line.elapse_marked (k : Nat) (l : Line) : (l.elapse k).wire.marked = l.wire.marked := by
  simp only [Line.elapse, Wire.elapse]
  split <;> rfl

/-- A run of space that begins now (R4). -/
theorem Line.spaceRun_wire {l : Line} (mark : l.wire.space = false) (x : Ctx) :
    (l.spaceRun x).wire = ⟨true, 0, false⟩ := by
  simp only [Line.spaceRun, Line.lineActivity, mark, Bool.false_eq_true, ↓reduceIte]
  split
  case h_2 => split <;> rfl
  all_goals rfl

theorem Engine.takesLongSpace_iff {e : Engine} : e.takesLongSpace = true ↔ e ≠ .off ∧ e ≠ .sending := by
  cases e <;> simp [Engine.takesLongSpace]

theorem Line.longLeft_none {l : Line} (h : l.engine.takesLongSpace = false ∨ l.wire.marked = true) :
    l.longLeft = none := by
  refine if_neg fun ⟨takes, _, fresh⟩ => ?_
  simp [takes, fresh] at h

theorem Line.longLeft_some {l : Line} (takes : l.engine.takesLongSpace = true) (space : l.wire.space = true)
    (fresh : l.wire.marked = false) : l.longLeft = some (22 * l.profile.divisor - l.wire.run) :=
  if_pos ⟨takes, space, fresh⟩

theorem Line.stuckLeft_zero {l : Line} : l.stuckLeft = some 0 ↔ l.pastStuckLimit := by
  unfold Line.stuckLeft Line.pastStuckLimit Config.clocksPerMillisecond
  split
  · next h =>
    rw [Option.some.injEq, Nat.sub_eq_zero_iff_le]
    exact ⟨fun long => ⟨h.1, h.2.1, h.2.2, long⟩, fun ⟨_, _, _, long⟩ => long⟩
  · next h => exact ⟨nofun, fun ⟨on, runs, space, _⟩ => absurd ⟨on, runs, space⟩ h⟩

theorem State.spaceMoment_none {s : State} {n : LineId} {left : Line → Option Nat}
    (h : left ((s.line n).spaceRun (s.ctx n)) = none) : s.spaceMoment n left = none :=
  State.moment_none (by simpa using h)

/-- The moment of a limit of a run of space in progress: time moves on to it. -/
theorem State.spaceMoment_some {s : State} (run : s.part = .running) {n : LineId} {left : Line → Option Nat} {k : Nat}
    (space : (s.line n).wire.space = true) (e : left (s.line n) = some k) : s.spaceMoment n left = some (s.elapse k) := by
  rw [State.spaceMoment, State.onLine_eq, Line.spaceRun_of_space space, State.setLine_line, State.moment_some run e,
    State.onLine_eq, State.setLine_line]

/-- With the line at mark the limit is that of the run which begins now. -/
theorem State.spaceMoment_begun (s : State) (n : LineId) (left : Line → Option Nat) :
    (s.setLine n ((s.line n).spaceRun (s.ctx n))).spaceMoment n left = s.spaceMoment n left := by
  have space : ((s.line n).spaceRun (s.ctx n)).wire.space = true := (Line.spaceRun_spec _ _).1
  rw [State.spaceMoment, State.onLine_eq, State.line_setLine_self, Line.spaceRun_of_space space, State.setLine_setLine]
  rfl

/-! ### A line found stuck -/

/-- The current exchange cut off by a line found stuck: a host exchange leaves its record, and the turn flag takes the end
(R70, R72, R82). -/
theorem Line.cutOff_lineFault (x : Ctx) (l : Line) (target : ProfileSel) : l.cutOff x .lineFault =
    { l.engineOff with
      current := none, holdSlot := (l.foundStuck x.n x.now target).holdSlot, turn := l.turnAfter } := by
  cases cur : l.current with
  | none => simp [Line.cutOff, Line.foundStuck, Line.turnAfter, Line.engineOff, cur]
  | some c =>
    cases origin : c.origin with
    | host cls tag =>
      cases cls <;> simp [Line.cutOff, Line.foundStuck, Line.turnAfter, Line.engineOff, Current.record, cur, origin]
    | _ => simp [Line.cutOff, Line.foundStuck, Line.turnAfter, Line.engineOff, cur, origin]

/-- The line found stuck, by the fields that R72 changes. -/
theorem Line.becomeFaulted_eq (x : Ctx) (l : Line) : l.becomeFaulted x = l.foundStuck x.n x.now x.power.target := by
  have order : markOrder l.waiting =
      (l.waiting.filter fun e => e.cls = .urgent) ++ l.waiting.filter fun e => e.cls = .routine := by
    simp [markOrder, beq_eq_decide]
  rw [Line.becomeFaulted, Line.cutOff_lineFault x l x.power.target]
  simp only [Line.foundStuck, ← order]
  rfl

theorem State.foundStuck_eq (s : State) (n : LineId) : s.foundStuck n = s.withStuck n := by
  rw [State.foundStuck, State.onLine_eq, State.onLine_eq, State.setLine_setLine, State.line_setLine_self,
    Line.becomeFaulted_eq]
  rfl

/-! ### The wake of a part in DOZE -/

/-- The part that leaves DOZE for LULL, whose target is the same (R180, R181). -/
theorem State.leaveDoze_eq {s : State} (doze : s.power.state = .doze) : s.leaveDoze .lull = s.wokenTo .lull := by
  have same : s.setPower .lull =
      { s with power := { s.power with state := .lull }, cu := { s.cu with statusPending := true } } :=
    if_pos (by rw [doze]; rfl)
  rw [State.leaveDoze, same]
  rfl

theorem State.wake_wakes {s : State} (doze : s.power.state = .doze) (wake : s.power.wake = true) :
    s.wake .parked = s.wokenTo .lull := by
  rw [State.wake, if_pos ⟨rfl, doze, wake⟩, State.leaveDoze_eq doze]

theorem State.wake_sleeps {s : State} {e : Engine} (h : e ≠ .parked ∨ s.power.state ≠ .doze ∨ s.power.wake = false) :
    s.wake e = s := by
  refine if_neg fun ⟨parked, doze, wake⟩ => ?_
  simp [parked, doze, wake] at h

end Sys2Proof.Machine
end

section
/-! PROOFS. The run of space that reaches 22 bit times, and the event of a line found stuck with it (R4, R16, R71, R72, R116,
R180, R181). -/

namespace Sys2Proof.Machine

/-! ### The 22-bit-time effect -/

theorem State.longEffect_pulse {t : State} {n : LineId} (h : (t.line n).engine = .idle ∨ (t.line n).engine = .lead) :
    t.longEffect n = t.setLine n (t.line n).pulsed := by
  have pulse : (t.line n).longSpaceEffect (t.ctx n) = (t.line n).pulsed := by
    obtain h | h := h <;> simp only [Line.longSpaceEffect, h] <;> rfl
  rw [State.longEffect, State.wake_sleeps (.inl ?_), State.onLine_eq, pulse]
  obtain h | h := h <;> simp [h]

theorem State.longEffect_broken {t : State} {n : LineId} {c : Current}
    (h : (t.line n).engine = .awaiting ∨ (t.line n).engine = .receiving) (cur : (t.line n).current = some c) :
    t.longEffect n = t.setLine n
      ((t.line n).pulsed.onVerdict (t.ctx n) c .broken none (t.line n).att.brokenLatency) := by
  have broken : (t.line n).longSpaceEffect (t.ctx n) =
      (t.line n).pulsed.onVerdict (t.ctx n) c .broken none (t.line n).att.brokenLatency := by
    simp only [Line.longSpaceEffect]
    obtain h | h := h
    all_goals
      simp only [h]
      split
      · next d busy =>
        obtain rfl : c = d := by simpa [cur] using busy
        rfl
      · next free => simp [cur] at free
  rw [State.longEffect, State.wake_sleeps (.inl ?_), State.onLine_eq, broken]
  obtain h | h := h <;> simp [h]

/-- The effect on a PARKED line: an alert pulse in DOZE, and the wake it calls for (R180). -/
theorem State.longEffect_parked {t : State} {n : LineId} (h : (t.line n).engine = .parked) :
    t.longEffect n = (t.setLine n { (t.line n).pulsed with
      owed := { (t.line n).pulsed.owed with alertPulseInDoze := true } }).wake .parked := by
  have pulse : (t.line n).longSpaceEffect (t.ctx n) = { (t.line n).pulsed with
      owed := { (t.line n).pulsed.owed with alertPulseInDoze := true } } := by
    simp only [Line.longSpaceEffect, h]
    rfl
  rw [State.longEffect, State.onLine_eq, pulse, h]

/-! ### What comes before the fault -/

/-- Nothing comes before the effect and the fault where no attempt is on the wire, or none that a cancel or a bar would end. -/
theorem Line.attemptFirst_none {l : Line} (h : l.engine = .idle ∨ l.engine = .lead ∨ l.engine = .parked ∨
    ∃ c, l.current = some c ∧ c.cancelReq = false ∧ c.barred = false) (x : Ctx) : l.attemptFirst x = l := by
  unfold Line.attemptFirst
  split
  · rfl
  · next c cur =>
    split
    · next ends =>
      obtain h | h | h | ⟨d, cur', cancel, bar⟩ := h
      · simp only [h]
      · simp only [h]
      · simp only [h]
      · obtain rfl : c = d := by simpa [cur] using cur'
        simp [cancel, bar] at ends
    · rfl

/-- An exchange under a cancel or a bar ends its attempt BROKEN with the effect, and is left for the fault to end (R74). -/
theorem Line.attemptFirst_broken {l : Line} {c : Current} (h : l.engine = .awaiting ∨ l.engine = .receiving)
    (fresh : l.wire.marked = false) (cur : l.current = some c) (ends : c.cancelReq = true ∨ c.barred = true) (x : Ctx) :
    l.attemptFirst x = l.pulsed.attemptOver x c .broken l.att.brokenLatency := by
  have ends : (c.cancelReq || c.barred) = true := Bool.or_eq_true_iff.2 ends
  unfold Line.attemptFirst
  split
  · next free => simp [cur] at free
  · next d busy =>
    obtain rfl : c = d := by simpa [cur] using busy
    rw [if_pos ends]
    obtain h | h := h
    · simp only [h, fresh]; rfl
    · simp only [h, fresh]; rfl

/-- The event of a line found stuck by a run that has not had its effect, with no attempt to end before it. -/
theorem State.stuckEvent_effect {t : State} {n : LineId} (sending : (t.line n).engine ≠ .sending)
    (long : (t.line n).longLeft.isSome = true) (first : (t.line n).attemptFirst (t.ctx n) = t.line n) :
    t.stuckEvent n = (t.longEffect n).withStuck n := by
  rw [State.stuckEvent, State.onLine_eq, first, State.setLine_line, State.echoFirst, if_neg sending, State.longFirst,
    if_pos long, State.foundStuck_eq]

/-- The event of a line found stuck by a run that ends an attempt under a cancel or a bar. -/
theorem State.stuckEvent_broken {t : State} {n : LineId} {m : Line}
    (first : (t.line n).attemptFirst (t.ctx n) = m) (lead : m.engine = .lead) (marked : m.wire.marked = true) :
    t.stuckEvent n = (t.setLine n m).withStuck n := by
  have line : (t.setLine n m).line n = m := State.line_setLine_self ..
  rw [State.stuckEvent, State.onLine_eq, first, State.echoFirst, if_neg (by simp [line, lead]), State.longFirst,
    if_neg (by simp [line, Line.longLeft_none (.inr marked)]), State.foundStuck_eq]

/-- LONG_SPACE on a run in progress: time moves on to the mark, and the line takes the effect or is found stuck. -/
theorem exec_longSpace_run {s : State} (live : s.Live) {n : LineId} (takes : (s.line n).engine.takesLongSpace = true)
    (space : (s.line n).wire.space = true) (fresh : (s.line n).wire.marked = false) {t : State}
    (ht : t = s.elapse (22 * (s.line n).profile.divisor - (s.line n).wire.run)) :
    (¬ (t.line n).pastStuckLimit → exec (.longSpace n) s = .next (t.longEffect n).settle) ∧
    ((t.line n).pastStuckLimit → exec (.longSpace n) s = .next (t.stuckEvent n).settle) := by
  subst ht
  rw [exec_longSpace, State.spaceMoment_some live.running space (Line.longLeft_some takes space fresh), Option.map_some,
    State.take_some live.up, State.longSpace]
  refine ⟨fun short => ?_, fun long => ?_⟩
  · rw [if_neg (fun h => short (Line.stuckLeft_zero.1 h))]
  · rw [if_pos (Line.stuckLeft_zero.2 long)]

/-- Settles O41: the effect by engine state, and the event of a stuck line by what comes before the fault. -/
theorem longSpacePulsesBreaksOrWakes : Obligations.LongSpacePulsesBreaksOrWakes := by
  intro s n live
  refine ⟨fun rest => ?_, fun on sending mark => ?_, fun space fresh => ?_⟩
  · have none : ((s.line n).spaceRun (s.ctx n)).longLeft = none := by
      obtain h | h | ⟨space, marked⟩ := rest
      · exact Line.longLeft_none (.inl (by rw [(Line.spaceRun_spec _ _).2.1, h]; rfl))
      · exact Line.longLeft_none (.inl (by rw [(Line.spaceRun_spec _ _).2.1, h]; rfl))
      · exact Line.longLeft_none (.inr (by rw [Line.spaceRun_of_space space, marked]))
    rw [exec_longSpace, State.spaceMoment_none none, Option.map_none, State.take_none]
  · change _ = exec (.longSpace n) (s.setLine n ((s.line n).spaceRun (s.ctx n)))
    obtain ⟨space, engine, -⟩ := (s.line n).spaceRun_spec (s.ctx n)
    have left : ((s.line n).spaceRun (s.ctx n)).longLeft = some _ :=
      Line.longLeft_some (by rw [engine, Engine.takesLongSpace_iff]; exact ⟨on, sending⟩) space
        (by rw [Line.spaceRun_wire mark])
    have moment := State.spaceMoment_some (s := s.setLine n ((s.line n).spaceRun (s.ctx n))) (n := n) live.running
      (by rwa [State.line_setLine_self]) (left := Line.longLeft) (by rw [State.line_setLine_self]; exact left)
    rw [exec_longSpace, exec_longSpace, ← State.spaceMoment_begun s, moment, Option.map_some, State.take_some live.up]
    exact (State.take_some (by simpa using live.up)).symm
  · intro t l stuck answers
    have line : l = (s.line n).elapse _ := State.line_elapse ..
    have engine : l.engine = (s.line n).engine := by rw [line, Line.elapse_engine]
    have space' : l.wire.space = true := by rw [line, Line.elapse_space, space]
    have fresh' : l.wire.marked = false := by rw [line, Line.elapse_marked, fresh]
    have run (takes : l.engine.takesLongSpace = true) := exec_longSpace_run live (engine ▸ takes) space fresh (t := t) rfl
    have effect {u : State} (takes : l.engine.takesLongSpace = true) (h : t.longEffect n = u)
        (first : l.pastStuckLimit → l.attemptFirst (t.ctx n) = l) : answers u := by
      subst h
      refine ⟨(run takes).1, fun long => ((run takes).2 long).trans ?_⟩
      have left : l.longLeft.isSome = true := by rw [Line.longLeft_some takes space' fresh']; rfl
      rw [State.stuckEvent_effect (Engine.takesLongSpace_iff.1 takes).2 left (first long)]
    refine ⟨fun h => ?_, fun c h cur => ?_, fun parked => ?_⟩
    · have h : l.engine = .idle ∨ l.engine = .lead := by rwa [engine]
      refine effect (by obtain h | h := h <;> rw [h] <;> rfl) (State.longEffect_pulse h) fun _ => ?_
      exact Line.attemptFirst_none (h.imp_right .inl) _
    · intro latency
      have h : l.engine = .awaiting ∨ l.engine = .receiving := by rwa [engine]
      have cur : l.current = some c := by rw [line, Line.elapse_current, cur]
      have takes : l.engine.takesLongSpace = true := by obtain h | h := h <;> rw [h] <;> rfl
      have broken : latency = l.att.brokenLatency := rfl
      rw [broken]
      refine ⟨fun spared => effect takes (State.longEffect_broken h cur) fun long => ?_, fun long ends => ?_⟩
      · obtain ⟨cancel, bar⟩ := spared.resolve_left (not_not.2 long)
        exact Line.attemptFirst_none (.inr (.inr (.inr ⟨c, cur, cancel, bar⟩))) _
      · refine ((run takes).2 long).trans ?_
        rw [State.stuckEvent_broken (Line.attemptFirst_broken h fresh' cur ends _) rfl rfl]
    · intro u
      have parked : l.engine = .parked := by rw [engine, parked]
      have takes : l.engine.takesLongSpace = true := by rw [parked]; rfl
      have first : l.attemptFirst (t.ctx n) = l := Line.attemptFirst_none (.inr (.inr (.inl parked))) _
      have pulse : t.longEffect n = u.wake .parked := State.longEffect_parked parked
      exact ⟨fun doze wake => effect takes (pulse.trans (State.wake_wakes doze wake)) fun _ => first,
        fun sleeps => effect takes (pulse.trans (State.wake_sleeps (.inr sleeps))) fun _ => first⟩

end Sys2Proof.Machine
end

section
/-! PROOFS. What a row that names a line comes to where the admin entry it carries is taken in a working power state: a
refusal, or the line changed. -/

namespace Sys2Proof.Machine

/-- A command that names a line and fails one of its own checks changes no line. -/
theorem State.adminRead_refused {s : State} {line : Byte} {n : LineId} (ready : LineReady s line n) (tag : Half)
    {cmd : AdminCmd} (names : cmd.namesLine = true) (run : cmd.runAllows (s.line n).run = true) {r : Reason}
    (fails : cmd.onLine (s.ctx n) (s.line n) = .error r) : s.take (s.adminRead line tag cmd) =
      .next (s.adminDone cmd.code (some line) tag cmd.node (.refused r)).settle := by
  rw [State.adminRead_line ready.ready ready.names tag cmd names (AdminCmd.powerAllows_working ready.power) run, fails]

/-- A command that names a line and passes its own checks replaces that line. -/
theorem State.adminRead_done {s : State} {line : Byte} {n : LineId} (ready : LineReady s line n) (tag : Half)
    {cmd : AdminCmd} (names : cmd.namesLine = true) (run : cmd.runAllows (s.line n).run = true) {l : Line}
    {body : AdminBody} (passes : cmd.onLine (s.ctx n) (s.line n) = .ok (l, body)) : s.take (s.adminRead line tag cmd) =
      .next ((s.adminDone cmd.code (some line) tag cmd.node (.done body)).setLine n l).settle := by
  rw [State.adminRead_line ready.ready ready.names tag cmd names (AdminCmd.powerAllows_working ready.power) run, passes]

end Sys2Proof.Machine
end

section
/-! PROOFS. LINE SETUP: the checks of the profiles in their order, and the joint replacement (R22 to R24, R165). -/

namespace Sys2Proof.Machine

/-! ### The fields of one profile -/

/-- The answer `o` of the checks from field `k` on is right: none for a profile that passes, and the first failing field
where that is `k` or later. -/
def ChecksFrom (p : RawProfile) (k : Nat) (o : Option Nat) : Prop :=
  (profilePasses p → o = none) ∧ ∀ f, k ≤ f → firstFails p f → o = some f

/-- A field that always passes needs no check. -/
theorem ChecksFrom.skip {p : RawProfile} {k : Nat} {o : Option Nat} (passes : fieldPasses p k)
    (rest : ChecksFrom p (k + 1) o) : ChecksFrom p k o := by
  refine ⟨rest.1, fun f le first => rest.2 f (Nat.lt_of_le_of_ne le ?_) first⟩
  rintro rfl
  exact first.1 passes

/-- One check goes before the checks of the later fields. -/
theorem ChecksFrom.check {p : RawProfile} {k : Nat} {c : Bool} {o : Option Nat} (passes : c = true ↔ fieldPasses p k)
    (rest : ChecksFrom p (k + 1) o) : ChecksFrom p k (if !c then some k else o) := by
  have later (h : fieldPasses p k) : (if !c then some k else o) = o := if_neg (by simp [passes.2 h])
  refine ⟨fun all => (later (all k)).trans (rest.1 all), fun f le first => ?_⟩
  obtain rfl | lt := Nat.eq_or_lt_of_le le
  · exact if_pos (by simpa [← passes] using first.1)
  · exact (later (first.2 k lt)).trans (rest.2 f lt first)

/-- There are no fields after the twelfth. -/
theorem ChecksFrom.last (p : RawProfile) : ChecksFrom p 13 none := by
  refine ⟨fun _ => rfl, fun f le first => absurd ?_ first.1⟩
  obtain ⟨j, rfl⟩ := Nat.exists_eq_add_of_le' le
  exact trivial

/-- The checks of a profile answer its first failing field (R22, R23). The upper limits that R23 sets at the width of a
field are left out of the checks, and so is field 11, which has no other limit. -/
theorem firstBadField_checks (p : RawProfile) : ChecksFrom p 0 (firstBadField p) := by
  refine .skip trivial <| .check ?_ <| .check ?_ <| .check ?_ <| .check ?_ <| .check ?_ <| .check ?_ <| .check ?_ <|
    .check ?_ <| .check ?_ <| .check ?_ <| .skip (Nat.le_of_lt_succ p.probeInterval.isLt) <| .check ?_ <| .last p
  all_goals simp only [fieldPasses, stuckLimitOk, Bool.and_eq_true, decide_eq_true_eq] <;> omega

theorem firstBadField_none {p : RawProfile} (h : profilePasses p) : firstBadField p = none :=
  (firstBadField_checks p).1 h

theorem firstBadField_some {p : RawProfile} {f : Nat} (h : firstFails p f) : firstBadField p = some f :=
  (firstBadField_checks p).2 f f.zero_le h

/-! ### Both profiles -/

theorem profilesFirstBad_brisk {b : RawProfile} {f : Nat} (h : firstFails b f) (u : RawProfile) :
    profilesFirstBad b u = some (.brisk, f) := by
  simp [profilesFirstBad, firstBadField_some h]

theorem profilesFirstBad_lull {b u : RawProfile} {f : Nat} (hb : profilePasses b) (hu : firstFails u f) :
    profilesFirstBad b u = some (.lull, f) := by
  simp [profilesFirstBad, firstBadField_none hb, firstBadField_some hu]

/-- Once each profile passes by itself the two are compared, the rate first (R24). -/
theorem profilesFirstBad_compare {b u : RawProfile} (hb : profilePasses b) (hu : profilePasses u) :
    profilesFirstBad b u =
      if u.divisor.toNat < b.divisor.toNat then some (.lull, 1)
      else if u.sweepPeriod.toNat < b.sweepPeriod.toNat then some (.lull, 8) else none := by
  simp [profilesFirstBad, firstBadField_none hb, firstBadField_none hu]

theorem parityOf_selected {b : Byte} {p : Parity} (h : b = 0 ∧ p = .none ∨ b = 1 ∧ p = .even ∨ b = 2 ∧ p = .odd) :
    parityOf b = p := by
  obtain ⟨rfl, rfl⟩ | ⟨rfl, rfl⟩ | ⟨rfl, rfl⟩ := h <;> rfl

/-! ### The command -/

theorem exec_lineSetup (tag : Half) (line : Byte) (b u : RawProfile) (s : State) :
    exec (.lineSetup tag line b u) s = s.take (s.adminRead line tag (.lineSetup b u)) := rfl

theorem exec_lineSetup_refused {s : State} {line : Byte} {n : LineId} (ready : LineReady s line n)
    (quiet : (s.line n).run = .quiet) (tag : Half) {b u : RawProfile} {p : ProfileSel} {f : Nat}
    (bad : profilesFirstBad b u = some (p, f)) : exec (.lineSetup tag line b u) s =
      .next (s.adminDone 1 (some line) tag none (.refused (.badProfile p f))).settle := by
  rw [exec_lineSetup]
  exact State.adminRead_refused ready tag rfl (by rw [quiet]; rfl) (by simp [AdminCmd.onLine, Line.setupCmd, bad])

theorem exec_lineSetup_done {s : State} {line : Byte} {n : LineId} (ready : LineReady s line n)
    (quiet : (s.line n).run = .quiet) (tag : Half) {b u : RawProfile} (good : profilesFirstBad b u = none) :
    exec (.lineSetup tag line b u) s = .next ((s.adminDone 1 (some line) tag none (.done .none)).setLine n
      { s.line n with
        brisk := some (profileOfRaw b), lull := some (profileOfRaw u), profilesValid := true }).settle := by
  rw [exec_lineSetup]
  exact State.adminRead_done ready tag rfl (by rw [quiet]; rfl) (by simp [AdminCmd.onLine, Line.setupCmd, good, doneWith])

/-- Settles O19: each clause gives the answer of `profilesFirstBad`, on which the command turns. -/
theorem lineSetupChecksThenReplaces : Obligations.LineSetupChecksThenReplaces := by
  intro s tag line n b u ready quiet profile selects refusal
  have refused {p f} (bad : profilesFirstBad b u = some (p, f)) : refusal p f :=
    exec_lineSetup_refused ready quiet tag bad
  refine ⟨fun f first => refused (profilesFirstBad_brisk first u),
    fun f hb first => refused (profilesFirstBad_lull hb first),
    fun hb hu rate => refused ?_, fun hb hu rate period => refused ?_, fun hb hu rate period pb pu selb selu => ?_⟩
  · rw [profilesFirstBad_compare hb hu, if_pos rate]
  · rw [profilesFirstBad_compare hb hu, if_neg (Nat.not_lt.2 rate), if_pos period]
  · have good : profilesFirstBad b u = none := by
      rw [profilesFirstBad_compare hb hu, if_neg (Nat.not_lt.2 rate), if_neg (Nat.not_lt.2 period)]
    rw [exec_lineSetup_done ready quiet tag good, profileOfRaw, profileOfRaw, parityOf_selected selb,
      parityOf_selected selu]

end Sys2Proof.Machine
end

section
/-! PROOFS. The ends of transfers, the resets and the register writes keep a sound part sound (R33, R34, R56, R57, R77, R97,
R133, R150). -/

namespace Sys2Proof.Machine

/-! ### Outcomes with a sound next state -/

/-- If a row answers a next state, it is sound. -/
def OutcomeOk (o : Host.Outcome State Fault Refusal) : Prop := ∀ t, o = .next t → t.Ok

theorem OutcomeOk.next {t : State} (h : t.Ok) : OutcomeOk (.next t) := by
  rintro _ ⟨⟩
  exact h

theorem OutcomeOk.fault (f : Fault) : OutcomeOk (.fault f) := by
  intro t e
  cases e

/-- A command that is taken answers a sound state if what it makes of the part is sound: settling keeps it so. -/
theorem State.take_ok {s : State} {o : Option State} (h : s.Ok) (ho : ∀ u, o = some u → u.Ok) : OutcomeOk (s.take o) := by
  intro t e
  obtain rfl | ⟨-, u, some, rfl⟩ := State.take_next e
  · exact h
  · exact u.settle_works.ok (ho u some)

theorem State.take_some_ok {s u : State} (h : s.Ok) (hu : u.Ok) : OutcomeOk (s.take (some u)) := by
  refine State.take_ok h ?_
  rintro _ ⟨⟩
  exact hu

theorem State.take_none_ok {s : State} (h : s.Ok) : OutcomeOk (s.take none) := by
  rw [State.take_none]
  exact .next h

theorem State.withPending_ok {s : State} (h : s.Ok) (q : List Instr) : (s.withPending q).Ok := h.aside rfl h.holding

/-! ### Ends of transfers -/

/-- A row that is the end of a transfer is sound if what the requester makes of the response is. -/
theorem State.take_endTransfer_ok {s : State} {f : Transfer → Option (State → State)} (h : s.Ok)
    (hf : ∀ x g, f x = some g → ∀ u : State, u.Ok → (g u).Ok) : OutcomeOk (s.take (s.endTransfer f)) :=
  State.take_ok h fun _ e => State.endTransfer_ok h (fun x g u hg ok _ _ _ => hf x g hg u ok) e

theorem State.adminRead_ok {s : State} (h : s.Ok) (line : Byte) (tag : Half) (cmd : AdminCmd) :
    OutcomeOk (s.take (s.adminRead line tag cmd)) := by
  refine State.take_endTransfer_ok h fun x g hg u hu => ?_
  split at hg
  · cases hg
    exact State.adminEntry_ok hu line tag cmd
  · cases hg

theorem execSetupReadDone_ok {s : State} (h : s.Ok) (resp : ReadResp) : OutcomeOk (execSetupReadDone resp s) := by
  unfold execSetupReadDone
  split
  · refine State.take_endTransfer_ok h fun x g hg u hu => ?_
    cases x <;> cases hg
    exact State.setupRead_ok hu resp
  · exact .fault _

theorem execEntryReadDone_ok {s : State} (h : s.Ok) (resp : ReadResp) : OutcomeOk (execEntryReadDone resp s) := by
  unfold execEntryReadDone
  split
  · refine State.take_endTransfer_ok h fun x g hg u hu => ?_
    cases x <;> cases hg
    exact State.entryRead_ok hu _ resp
  · exact .fault _

theorem State.recordWritten_ok {s : State} (h : s.Ok) (resp : Resp) : (s.recordWritten resp).Ok := by
  cases resp with
  | good => exact State.moderate_ok (State.recordCounted_ok h)
  | busError => exact State.partFault_ok h _

theorem State.statusWritten_ok {s : State} (h : s.Ok) (resp : Resp) : (s.statusWritten resp).Ok := by
  cases resp with
  | good => exact h
  | busError => exact State.partFault_ok h _

/-- A line replaced by a sound one whose engine is in the same state. -/
theorem State.Ok.setLine_engine {s : State} (h : s.Ok) {n : LineId} {l : Line} (hl : l.Ok ∧ l.engine = (s.line n).engine) :
    (s.setLine n l).Ok :=
  h.setLine hl.1 fun p => hl.2.trans (h.stopped p n)

theorem State.bodyWritten_ok {s : State} (h : s.Ok) (n : LineId) (resp : Resp) : (s.bodyWritten n resp).Ok := by
  cases resp with
  | good => exact h.setLine_engine (Line.bodyWritten_ok (h.lines n))
  | busError => exact h.setLine_engine (Line.sweepFault_ok (h.lines n))

theorem State.stampWritten_ok {s : State} (h : s.Ok) (n : LineId) (resp : Resp) : (s.stampWritten n resp).Ok := by
  cases resp with
  | good => exact h.setLine_engine (Line.stampWritten_ok (h.lines n))
  | busError => exact h.setLine_engine (Line.sweepFault_ok (h.lines n))

theorem execCompletionWriteDone_ok {s : State} (h : s.Ok) (resp : Resp) : OutcomeOk (execCompletionWriteDone resp s) := by
  refine State.take_endTransfer_ok h fun x g hg u hu => ?_
  cases x <;> cases hg
  exact State.recordWritten_ok hu resp

theorem execStatusWriteDone_ok {s : State} (h : s.Ok) (resp : Resp) : OutcomeOk (execStatusWriteDone resp s) := by
  refine State.take_endTransfer_ok h fun x g hg u hu => ?_
  cases x <;> cases hg
  exact State.statusWritten_ok hu resp

theorem execSlotBodyWriteDone_ok {s : State} (h : s.Ok) (resp : Resp) : OutcomeOk (execSlotBodyWriteDone resp s) := by
  refine State.take_endTransfer_ok h fun x g hg u hu => ?_
  cases x <;> cases hg
  exact State.bodyWritten_ok hu _ resp

theorem execSlotStampWriteDone_ok {s : State} (h : s.Ok) (resp : Resp) : OutcomeOk (execSlotStampWriteDone resp s) := by
  refine State.take_endTransfer_ok h fun x g hg u hu => ?_
  cases x <;> cases hg
  exact State.stampWritten_ok hu _ resp

/-! ### Resets and register writes -/

theorem execSoftResetTakesEffect_ok {s : State} (h : s.Ok) : OutcomeOk (execSoftResetTakesEffect s) := by
  unfold execSoftResetTakesEffect
  split
  · exact State.take_some_ok h s.softReset_ok
  · exact State.take_none_ok h

theorem execRegisterWrite_ok {s : State} (h : s.Ok) (word : BitVec 5) (whole : Bool) (value : Word) :
    OutcomeOk (execRegisterWrite word whole value s) := by
  unfold execRegisterWrite
  split
  · exact State.take_some_ok h (State.writeWord_ok h word value)
  · exact State.take_none_ok h

theorem execHoldoffExpiry_ok {s : State} (h : s.Ok) : OutcomeOk (execHoldoffExpiry s) := by
  refine State.take_ok h fun t e => ?_
  split at e
  · obtain ⟨k, -, rfl⟩ := Option.map_eq_some_iff.1 e
    exact State.holdoffPassed_ok (State.elapse_ok h k)
  · cases e

end Sys2Proof.Machine
end

section
/-! PROOFS. The happenings of a line keep a sound part sound, the runs of space among them (R4, R12 to R18, R71, R72). -/

namespace Sys2Proof.Machine

/-! ### Moments, and the receive pin -/

/-- A row that is the moment of a happening which keeps a sound line sound. -/
theorem State.take_moment_ok {s : State} (h : s.Ok) {n : LineId} {left : Line → Option Nat} {f : Ctx → Line → Line}
    (hf : ∀ x l, l.Ok → (f x l).Ok) : OutcomeOk (s.take (s.moment n left f)) :=
  State.take_ok h fun _ e => State.moment_ok h (fun x l ok _ => hf x l ok) e

theorem execEchoFailure_ok {s : State} (h : s.Ok) (n : LineId) (i : Nat) (e : Echo) :
    OutcomeOk (execEchoFailure n i e s) := by
  unfold execEchoFailure
  split
  · exact State.take_moment_ok h fun x l ok => Line.collide_ok ok x
  · exact State.take_none_ok h

theorem Line.spaceRun_ok {l : Line} (h : l.Ok) (x : Ctx) : (l.spaceRun x).Ok := Line.lineActivity_ok h x .toSpace

theorem Line.replyEdge_ok {l : Line} (h : l.Ok) (x : Ctx) : (l.replyEdge x).Ok := by
  unfold Line.replyEdge
  split
  · exact Line.spaceRun_ok h x
  · exact h

/-- A reply is confirmed only for a current exchange (R13). -/
theorem Line.current_of_replyLeft {l : Line} {k : Nat} (h : l.replyLeft = some k) : l.current.isSome = true := by
  unfold Line.replyLeft Line.confirmLeft at h
  split at h
  · split at h
    · cases h
    · split at h
      · next waits => exact waits.2
      · cases h
  · cases h

/-- A moment that comes lies in a RUNNING part, at what is left of its limit. -/
theorem State.moment_eq_some {s t : State} {n : LineId} {left : Line → Option Nat} {f : Ctx → Line → Line}
    (e : s.moment n left f = some t) :
    s.part = .running ∧ ∃ k, left (s.line n) = some k ∧ t = (s.elapse k).onLine n f := by
  unfold State.moment at e
  split at e
  · next running =>
    obtain ⟨k, left, rfl⟩ := Option.map_eq_some_iff.1 e
    exact ⟨running, k, left, rfl⟩
  · cases e

theorem execReplyStart_ok {s : State} (h : s.Ok) (n : LineId) : OutcomeOk (execReplyStart n s) := by
  refine State.take_ok h fun t e => ?_
  obtain ⟨running, k, left, -⟩ := State.moment_eq_some e
  have edge : (s.onLine n Line.replyEdge).Ok := h.onLine running fun x => Line.replyEdge_ok (h.lines n) x
  refine State.moment_ok edge (fun x l ok cur => Line.replyBegin_ok ok ?_) e
  rw [cur]
  exact Line.current_of_replyLeft left

theorem execLineActivity_ok {s : State} (h : s.Ok) (n : LineId) (a : Activity) : OutcomeOk (execLineActivity n a s) := by
  unfold execLineActivity
  split
  · exact .next (h.setLine_engine ⟨(h.lines n).aside rfl, rfl⟩)
  · exact State.take_some_ok h (h.setLine (Line.lineActivity_ok (h.lines n) _ a) fun p =>
      Line.lineActivity_off (h.stopped p n) _ a)

/-! ### Runs of space -/

theorem Line.attemptFirst_ok {l : Line} (h : l.Ok) (x : Ctx) : (l.attemptFirst x).Ok := by
  unfold Line.attemptFirst
  split
  · exact h
  · next c cur =>
    have busy : l.current.isSome = true := by simp [cur]
    have broken (t : Option Word) : (if l.wire.marked then l else l.countPulse.attemptOver x c .broken t).Ok := by
      split
      · exact h
      · have pulse := Line.countPulse_ok h
        exact Line.attemptOver_ok pulse (pulse.busy busy).1 (pulse.busy busy).2 _ _ _ _
    split
    · split
      · obtain ⟨header, cur', -, -⟩ := Line.withHeader_ok h c
        have busy' : (l.withHeader c).current.isSome = true := by rw [cur', busy]
        exact Line.attemptOver_ok header (header.busy busy').1 (header.busy busy').2 _ _ _ _
      · exact broken _
      · exact broken _
      all_goals exact h
    · exact h

/-- Happenings on a line of a RUNNING part leave a sound RUNNING part. -/
structure State.RunsOk (s : State) : Prop where
  ok : s.Ok
  running : s.part = .running

theorem State.RunsOk.onLine {s : State} (h : s.RunsOk) (n : LineId) {f : Ctx → Line → Line}
    (hf : ∀ x l, l.Ok → (f x l).Ok) : (s.onLine n f).RunsOk :=
  ⟨h.ok.onLine h.running fun x => hf x _ (h.ok.lines n), h.running⟩

theorem State.RunsOk.wake {s : State} (h : s.RunsOk) (e : Engine) : (s.wake e).RunsOk := by
  refine ⟨State.wake_ok h.ok h.running e, ?_⟩
  unfold State.wake
  split
  · exact (State.setPower_ok h.ok h.running .lull).2
  · exact h.running

theorem State.RunsOk.longEffect {s : State} (h : s.RunsOk) (n : LineId) : (s.longEffect n).RunsOk :=
  (h.onLine n fun x _ ok => Line.longSpaceEffect_ok ok x).wake _

theorem State.RunsOk.foundStuck {s : State} (h : s.RunsOk) (n : LineId) : (s.foundStuck n).RunsOk :=
  (h.onLine n fun x l ok => (l.activateHunt_works x).ok ok).onLine n fun x _ ok => Line.becomeFaulted_ok ok x

theorem State.RunsOk.echoFirst {s : State} (h : s.RunsOk) (n : LineId) : (s.echoFirst n).RunsOk := by
  unfold State.echoFirst
  split
  · exact h.onLine n fun x _ ok => Line.collide_ok ok x
  · exact h

theorem State.RunsOk.longFirst {s : State} (h : s.RunsOk) (n : LineId) : (s.longFirst n).RunsOk := by
  unfold State.longFirst
  split
  · exact h.longEffect n
  · exact h

theorem State.RunsOk.stuckEvent {s : State} (h : s.RunsOk) (n : LineId) : (s.stuckEvent n).RunsOk :=
  (((h.onLine n fun x _ ok => Line.attemptFirst_ok ok x).echoFirst n).longFirst n).foundStuck n

theorem State.RunsOk.longSpace {s : State} (h : s.RunsOk) (n : LineId) : (s.longSpace n).RunsOk := by
  unfold State.longSpace
  split
  · exact h.stuckEvent n
  · exact h.longEffect n

/-- The part at the moment of a limit of a run of space. -/
theorem State.spaceMoment_ok {s t : State} {n : LineId} {left : Line → Option Nat} (h : s.Ok)
    (e : s.spaceMoment n left = some t) : t.RunsOk := by
  obtain ⟨running, k, -, rfl⟩ := State.moment_eq_some e
  have begun : (s.onLine n Line.spaceRun).Ok := h.onLine running fun x => Line.spaceRun_ok (h.lines n) x
  exact State.RunsOk.onLine ⟨State.elapse_ok begun k, running⟩ n fun _ _ ok => ok

/-- A row that is the moment of a limit of a run of space. -/
theorem State.take_spaceMoment_ok {s : State} (h : s.Ok) {n : LineId} {left : Line → Option Nat} {f : State → State}
    (hf : ∀ u : State, u.RunsOk → (f u).RunsOk) : OutcomeOk (s.take ((s.spaceMoment n left).map f)) := by
  refine State.take_ok h fun t e => ?_
  obtain ⟨u, moment, rfl⟩ := Option.map_eq_some_iff.1 e
  exact (hf u (State.spaceMoment_ok h moment)).ok

end Sys2Proof.Machine
end

section
/-! PROOFS. Every row and the passing of time keep a sound part sound, and so does the step. -/

namespace Sys2Proof.Machine

theorem exec_ok {s : State} (h : s.Ok) (c : Instr) : OutcomeOk (exec c s) := by
  cases c with
  | powerOnReset => exact .next (s.resetAll_ok .powerOn)
  | hardReset => exact .next s.hardReset_ok
  | enable value => exact State.take_some_ok h (State.writeControl_ok h _)
  | softReset value => exact State.take_some_ok h (State.writeControl_ok h _)
  | softResetTakesEffect => exact execSoftResetTakesEffect_ok h
  | registerWrite word whole value => exact execRegisterWrite_ok h word whole value
  | post value => exact State.take_some_ok h (State.writePost_ok h value)
  | consumed value => exact State.take_some_ok h (State.writeConsumed_ok h value)
  | cause value => exact State.take_some_ok h (h.aside rfl h.holding)
  | setupReadDone resp => exact execSetupReadDone_ok h resp
  | entryReadDone resp => exact execEntryReadDone_ok h resp
  | sweepSet tag line entry =>
    change OutcomeOk (execSweepSet tag line entry s)
    unfold execSweepSet
    split
    · exact State.adminRead_ok h _ _ _
    · exact .fault _
  | lineSetup | lineStart | lineStop | lineReset | nodeAdd | nodeRemove | nodeBar | nodeUnbar | nodeQuery | sweepClear
  | sweepImage | cancel | power | lineQuery => exact State.adminRead_ok h _ _ _
  | leadWaitComplete n => exact State.take_moment_ok h fun x _ ok => Line.leadComplete_ok ok x
  | headerStopBitEnd n => exact State.take_moment_ok h fun _ _ ok => Line.headerEnd_ok ok
  | echoFailure n i e => exact execEchoFailure_ok h n i e
  | requestFrameEnd n => exact State.take_moment_ok h fun x _ ok => Line.frameEnd_ok ok x
  | replyWindowExpiry n => exact State.take_moment_ok h fun x _ ok => Line.windowEnd_ok ok x
  | replyStart n => exact execReplyStart_ok h n
  | replyCharacter n ch => exact State.take_moment_ok h fun x _ ok => Line.replyCharacter_ok ok x ch
  | characterGapExceeded n => exact State.take_moment_ok h fun x _ ok => Line.gapEnd_ok ok x
  | longSpace n => exact State.take_spaceMoment_ok h fun _ runs => runs.longSpace n
  | stuckLine n => exact State.take_spaceMoment_ok h fun _ runs => runs.stuckEvent n
  | roundStart n => exact State.take_moment_ok h fun x l ok => (Line.startRound_ok ok x _).1
  | holdoffExpiry => exact execHoldoffExpiry_ok h
  | completionWriteDone resp => exact execCompletionWriteDone_ok h resp
  | statusWriteDone resp => exact execStatusWriteDone_ok h resp
  | slotBodyWriteDone resp => exact execSlotBodyWriteDone_ok h resp
  | slotStampWriteDone resp => exact execSlotStampWriteDone_ok h resp
  | lineActivity n a => exact execLineActivity_ok h n a
  | hardResetHeld => exact .next (h.aside rfl h.holding)

theorem State.advance_ok {s : State} (h : s.Ok) : s.advance.Ok := by
  unfold State.advance
  split
  · exact h
  · exact State.elapse_ok h 1

theorem State.idle_ok {s : State} (h : s.Ok) : OutcomeOk s.idle := by
  unfold State.idle
  split
  · exact exec_ok h _
  · exact .next (State.advance_ok h)

/-- Settles O59: a step runs a command or lets time pass, and each of them keeps a sound part sound. -/
theorem stepKeepsThePartSound : Obligations.StepKeepsThePartSound := by
  intro s t ok e
  unfold step at e
  split at e
  · exact exec_ok (State.withPending_ok ok _) _ t e
  · exact State.idle_ok ok t e

end Sys2Proof.Machine
end

section
/-! PROOFS. What the node commands look up and change: the address check, a record of a roster, and a command that leaves its
line as it is (R33, R169). -/

namespace Sys2Proof.Machine

/-- A command that names a line, passes its own checks and leaves the line as it is. -/
theorem State.adminRead_unchanged {s : State} {line : Byte} {n : LineId} (ready : LineReady s line n) (tag : Half)
    {cmd : AdminCmd} (names : cmd.namesLine = true) (run : cmd.runAllows (s.line n).run = true) {body : AdminBody}
    (passes : cmd.onLine (s.ctx n) (s.line n) = .ok (s.line n, body)) : s.take (s.adminRead line tag cmd) =
      .next (s.adminDone cmd.code (some line) tag cmd.node (.done body)).settle := by
  have same : (s.adminDone cmd.code (some line) tag cmd.node (.done body)).setLine n (s.line n) =
      s.adminDone cmd.code (some line) tag cmd.node (.done body) := State.setLine_line _ n
  rw [State.adminRead_done ready tag names run passes, same]

theorem addressOk_false {a : Byte} (h : a.toNat = 0 ∨ 62 < a.toNat) : addressOk a = false := by
  rw [← Bool.not_eq_true, addressOk_iff]
  omega

theorem addressOk_true {a : Byte} (low : 1 ≤ a.toNat) (high : a.toNat ≤ 62) : addressOk a = true :=
  (addressOk_iff a).2 ⟨low, high⟩

theorem findNode_isSome {r : List Node} {a : Nat} : (findNode r a).isSome = true ↔ a ∈ r.map (·.addr) := by
  rw [Option.isSome_iff_ne_none, ne_eq, findNode_none, not_not]

/-- Records of a roster at one address are one record (R33). -/
theorem RosterOk.unique {r : List Node} (h : RosterOk r) {x y : Node} (hx : x ∈ r) (hy : y ∈ r) (ha : x.addr = y.addr) :
    x = y := by
  have ascending : (r.map (·.addr)).Pairwise (· < ·) := List.pairwise_map.2 h.ascending
  exact List.inj_on_of_nodup_map (ascending.imp Nat.ne_of_lt) hx hy ha

/-- A record of a roster is the one found at its address. -/
theorem RosterOk.findNode_addr {r : List Node} (h : RosterOk r) {x : Node} (hx : x ∈ r) : findNode r x.addr = some x := by
  have some : (findNode r x.addr).isSome = true := findNode_isSome.2 (List.mem_map_of_mem hx)
  obtain ⟨y, found⟩ := Option.isSome_iff_exists.1 some
  obtain ⟨hy, ha⟩ := findNode_some found
  rw [found, h.unique hy hx ha]

/-- A record of a roster changed: it is replaced by what it becomes. -/
theorem RosterOk.updateNode_eq {r : List Node} (h : RosterOk r) {x : Node} (hx : x ∈ r) (f : Node → Node) :
    updateNode r x.addr f = r.map fun z => if z.addr = x.addr then f x else z := by
  refine List.map_congr_left fun z hz => ?_
  by_cases ha : z.addr = x.addr
  · rw [h.unique hz hx ha]; simp
  · simp [ha]

/-- A change that leaves its record as it is leaves the roster as it is. -/
theorem RosterOk.updateNode_self {r : List Node} (h : RosterOk r) {x : Node} (hx : x ∈ r) {f : Node → Node}
    (hf : f x = x) : updateNode r x.addr f = r := by
  rw [h.updateNode_eq hx, hf]
  refine (List.map_congr_left fun z hz => ?_).trans (List.map_id r)
  split
  · next ha => exact h.unique hx hz ha.symm
  · rfl

end Sys2Proof.Machine
end

section
/-! PROOFS. NODE ADD and NODE REMOVE (R34, R46, R47, R127). -/

namespace Sys2Proof.Machine

/-! ### NODE ADD -/

theorem exec_nodeAdd (tag : Half) (line a : Byte) (trusted : Bool) (s : State) :
    exec (.nodeAdd tag line a trusted) s = s.take (s.adminRead line tag (.nodeAdd a trusted)) := rfl

theorem Line.nodeAddCmd_badField {a : Byte} (bad : a.toNat = 0 ∨ 62 < a.toNat) (trusted : Bool) (l : Line) :
    l.nodeAddCmd a trusted = .error .badField := by
  simp [Line.nodeAddCmd, addressOk_false bad]

/-- The checks of NODE ADD on an address in range (R46). -/
theorem Line.nodeAddCmd_inRange {a : Byte} (low : 1 ≤ a.toNat) (high : a.toNat ≤ 62) (trusted : Bool) (l : Line) :
    l.nodeAddCmd a trusted =
      if a.toNat ∈ l.roster.map (·.addr) then .error .exists
      else if 32 ≤ l.roster.length then .error .rosterFull
      else .ok (l.addNode (Node.fresh a.toNat trusted) trusted, .node (Node.fresh a.toNat trusted)) := by
  simp only [Line.nodeAddCmd, addressOk_true low high, findNode_isSome]
  rfl

theorem Line.stepAbove_iff (l : Line) (a : Nat) : l.stepAbove a = true ↔
    ∃ c, l.current = some c ∧ c.origin = .hunt ∧ c.huntLive = true ∧ a < c.node := by
  unfold Line.stepAbove
  cases l.current with
  | none => simp
  | some c => simp [and_assoc]

/-- The hunt after a trusted NODE ADD above its cursor and below its current step (R127). -/
theorem Line.walkAdds_some {l : Line} {w : Walk} (hunt : l.hunt = some w) (a : Nat) (trusted : Bool) :
    l.walkAdds a trusted =
      some (if (trusted = true ∧ l.stepAbove a = true) ∧ w.cursor < a then ⟨w.cursor, w.later ++ [a]⟩ else w) := by
  simp [Line.walkAdds, hunt]

/-- The line with a new record, by the fields that change. -/
theorem Line.addNode_eq (x : Node) (trusted : Bool) (l : Line) : l.addNode x trusted = { l with
    roster := insertNode x l.roster, probes := l.probes.filter fun b => b ≠ x.addr
    hunt := l.walkAdds x.addr trusted } := by
  simp [Line.addNode, bne, beq_eq_decide]

/-! ### NODE REMOVE -/

theorem exec_nodeRemove (tag : Half) (line a : Byte) (s : State) :
    exec (.nodeRemove tag line a) s = s.take (s.adminRead line tag (.nodeRemove a)) := rfl

theorem Line.nodeRemoveCmd_badField {a : Byte} (bad : a.toNat = 0 ∨ 62 < a.toNat) (l : Line) :
    l.nodeRemoveCmd a = .error .badField := by
  simp [Line.nodeRemoveCmd, addressOk_false bad]

/-- The search of the sweep table finds the nodes that its set entries name (R47). -/
theorem Line.sweepNames_iff (l : Line) (a : Nat) :
    l.sweepNames a = true ↔ ∃ i e, l.sweepAt i = some e ∧ e.node = a := by
  refine ⟨fun names => ?_, ?_⟩
  · obtain ⟨entry, member, named⟩ := List.any_eq_true.1 names
    obtain ⟨i, hi, at_i⟩ := Vector.getElem_of_mem (Vector.mem_toList_iff.1 member)
    cases entry with
    | none => cases named
    | some e => exact ⟨i, e, by simp [Line.sweepAt, hi, at_i], by simpa using named⟩
  · rintro ⟨i, e, set, rfl⟩
    exact Line.sweepNames_of_sweepAt set

theorem Line.currentNames_iff (l : Line) (a : Nat) :
    l.currentNames a = true ↔ ∃ c, l.current = some c ∧ c.node = a := by
  unfold Line.currentNames
  cases l.current with
  | none => simp
  | some c => simp

/-- A node is in use where a set sweep entry or the current exchange names it (R47). -/
theorem Line.inUse_iff (l : Line) (a : Nat) : (l.sweepNames a || l.currentNames a) = true ↔
    (∃ i e, l.sweepAt i = some e ∧ e.node = a) ∨ ∃ c, l.current = some c ∧ c.node = a := by
  rw [Bool.or_eq_true, Line.sweepNames_iff, Line.currentNames_iff]

/-- The checks of NODE REMOVE on an address in range, and the line without the record (R47). -/
theorem Line.nodeRemoveCmd_inRange {a : Byte} (low : 1 ≤ a.toNat) (high : a.toNat ≤ 62) (l : Line) :
    l.nodeRemoveCmd a =
      if a.toNat ∉ l.roster.map (·.addr) then .error .unknownNode
      else if l.sweepNames a.toNat || l.currentNames a.toNat then .error .inUse
      else .ok ({ l with
        roster := l.roster.filter fun x => x.addr ≠ a.toNat
        hunt := l.hunt.map fun w => ⟨w.cursor, w.later.filter fun b => b ≠ a.toNat⟩ }, .none) := by
  simp only [Line.nodeRemoveCmd, addressOk_true low high, Option.isNone_iff_eq_none, findNode_none]
  simp [doneWith, removeNode, Walk.without, bne, beq_eq_decide]

/-- Settles O24: each clause is a branch of the command's checks. -/
theorem nodesAreAddedAndRemoved : Obligations.NodesAreAddedAndRemoved := by
  intro s tag line a n ready l
  refine ⟨fun trusted => ?_, ?_⟩
  · intro x later refusal
    have fails {r : Reason} (h : l.nodeAddCmd a trusted = .error r) : refusal r :=
      (exec_nodeAdd tag line a trusted s).trans (State.adminRead_refused ready tag rfl rfl h)
    refine ⟨fun bad => fails (Line.nodeAddCmd_badField bad trusted l), fun low high present => fails ?_,
      fun low high absent full => fails ?_, fun low high absent room => ?_⟩
    · rw [Line.nodeAddCmd_inRange low high, if_pos present]
    · rw [Line.nodeAddCmd_inRange low high, if_neg absent, if_pos full]
    · have ahead : later ↔ trusted = true ∧ l.stepAbove a.toNat = true := and_congr_right' (l.stepAbove_iff _).symm
      refine ⟨insertNode x l.roster, l.walkAdds a.toNat trusted, fun y => mem_insertNode, fun ok => ?_, fun none => ?_,
        fun w hunt => ?_, ?_⟩
      · exact ok.insert ⟨low, high, Nat.zero_le _, Nat.zero_le _⟩ (findNode_none.2 absent) room
      · rw [Line.walkAdds, none, Option.map_none]
      · rw [Line.walkAdds_some hunt, ahead]
        exact ⟨fun adds => by rw [if_pos adds], fun keeps => by rw [if_neg keeps]⟩
      · have passes : l.nodeAddCmd a trusted = .ok (l.addNode x trusted, .node x) := by
          rw [Line.nodeAddCmd_inRange low high, if_neg absent, if_neg (Nat.not_le.2 room)]
          rfl
        rw [Line.addNode_eq] at passes
        exact (exec_nodeAdd tag line a trusted s).trans (State.adminRead_done ready tag rfl rfl passes)
  · intro used refusal
    have fails {r : Reason} (h : l.nodeRemoveCmd a = .error r) : refusal r :=
      (exec_nodeRemove tag line a s).trans (State.adminRead_refused ready tag rfl rfl h)
    have inUse : used ↔ (l.sweepNames a.toNat || l.currentNames a.toNat) = true := (l.inUse_iff _).symm
    refine ⟨fun bad => fails (Line.nodeRemoveCmd_badField bad l), fun low high absent => fails ?_,
      fun low high present uses => fails ?_, fun low high present unused => ?_⟩
    · rw [Line.nodeRemoveCmd_inRange low high, if_pos absent]
    · rw [Line.nodeRemoveCmd_inRange low high, if_neg (not_not.2 present), if_pos (inUse.1 uses)]
    · have passes := Line.nodeRemoveCmd_inRange low high l
      rw [if_neg (not_not.2 present), if_neg (fun h => unused (inUse.2 h))] at passes
      exact (exec_nodeRemove tag line a s).trans (State.adminRead_done ready tag rfl rfl passes)

end Sys2Proof.Machine
end

section
/-! PROOFS. NODE BAR and NODE UNBAR (R48, R49, R66). -/

namespace Sys2Proof.Machine

/-- A record of a roster, at an address that a command gives, passes the command's address check. -/
theorem RosterOk.addressOk_addr {r : List Node} (h : RosterOk r) {x : Node} (hx : x ∈ r) {a : Byte} (ha : x.addr = a.toNat) :
    addressOk a = true := by
  have range := h.inRange x hx
  exact addressOk_true (ha ▸ range.addr_low) (ha ▸ range.addr_high)

/-! ### NODE BAR -/

theorem exec_nodeBar (tag : Half) (line a : Byte) (s : State) :
    exec (.nodeBar tag line a) s = s.take (s.adminRead line tag (.nodeBar a)) := rfl

theorem Line.nodeBarCmd_badField {a : Byte} (bad : a.toNat = 0 ∨ 62 < a.toNat) (l : Line) :
    l.nodeBarCmd a = .error .badField := by
  simp [Line.nodeBarCmd, addressOk_false bad]

theorem Line.nodeBarCmd_unknown {a : Byte} {l : Line} (low : 1 ≤ a.toNat) (high : a.toNat ≤ 62)
    (absent : a.toNat ∉ l.roster.map (·.addr)) : l.nodeBarCmd a = .error .unknownNode := by
  simp [Line.nodeBarCmd, addressOk_true low high, findNode_none.2 absent]

theorem Node.bar_barred {x : Node} (h : x.state = .barred) : x.bar = x := if_pos h

theorem Node.bar_other {x : Node} (h : x.state ≠ .barred) : x.bar = { x with state := .barred, reportOwed := true } :=
  if_neg h

/-- NODE BAR on a BARRED record changes nothing (R48). -/
theorem Line.nodeBarCmd_barred {l : Line} (ok : RosterOk l.roster) {x : Node} (hx : x ∈ l.roster) {a : Byte}
    (ha : x.addr = a.toNat) (barred : x.state = .barred) : l.nodeBarCmd a = .ok (l, .node x) := by
  have same := ok.updateNode_self hx (Node.bar_barred barred)
  have found := ok.findNode_addr hx
  rw [ha] at same found
  simp [Line.nodeBarCmd, ok.addressOk_addr hx ha, found, barred, same, Node.bar_barred]

/-- NODE BAR on a record that is not BARRED (R48, R66). -/
theorem Line.nodeBarCmd_bars {l : Line} (ok : RosterOk l.roster) {x : Node} (hx : x ∈ l.roster) {a : Byte}
    (ha : x.addr = a.toNat) (other : x.state ≠ .barred) : l.nodeBarCmd a = .ok ({ l with
      roster := l.roster.map fun z => if z.addr = a.toNat then x.bar else z
      current := l.current.map fun c => if c.node = a.toNat then { c with barred := true } else c }, .node x.bar) := by
  have update := ok.updateNode_eq hx Node.bar
  have found := ok.findNode_addr hx
  rw [ha] at update found
  simp [Line.nodeBarCmd, ok.addressOk_addr hx ha, found, other, update, Line.barCurrent]

/-- Settles O25: each clause is a branch of the command, with the record found at its address. -/
theorem nodeBarBarsTheRecord : Obligations.NodeBarBarsTheRecord := by
  intro s tag line a n ready ok l refusal
  have fails {r : Reason} (h : l.nodeBarCmd a = .error r) : refusal r :=
    (exec_nodeBar tag line a s).trans (State.adminRead_refused ready tag rfl rfl h)
  refine ⟨fun bad => fails (Line.nodeBarCmd_badField bad l),
    fun low high absent => fails (Line.nodeBarCmd_unknown low high absent), fun x hx ha barred => ?_,
    fun x hx ha other => ?_⟩
  · exact (exec_nodeBar tag line a s).trans (State.adminRead_unchanged ready tag rfl rfl
      (Line.nodeBarCmd_barred ok hx ha barred))
  · have passes := Line.nodeBarCmd_bars ok hx ha other
    rw [Node.bar_other other] at passes
    exact (exec_nodeBar tag line a s).trans (State.adminRead_done ready tag rfl rfl passes)

/-! ### NODE UNBAR -/

theorem exec_nodeUnbar (tag : Half) (line a : Byte) (s : State) :
    exec (.nodeUnbar tag line a) s = s.take (s.adminRead line tag (.nodeUnbar a)) := rfl

theorem Line.nodeUnbarCmd_badField {a : Byte} (bad : a.toNat = 0 ∨ 62 < a.toNat) (l : Line) :
    l.nodeUnbarCmd a = .error .badField := by
  simp [Line.nodeUnbarCmd, addressOk_false bad]

theorem Line.nodeUnbarCmd_unknown {a : Byte} {l : Line} (low : 1 ≤ a.toNat) (high : a.toNat ≤ 62)
    (absent : a.toNat ∉ l.roster.map (·.addr)) : l.nodeUnbarCmd a = .error .unknownNode := by
  simp [Line.nodeUnbarCmd, addressOk_true low high, findNode_none.2 absent]

theorem Node.unbar_barred {x : Node} (h : x.state = .barred) :
    x.unbar = { x with state := .joining, failures := 0, joinProbes := 0, reportOwed := true } := if_pos h

theorem Node.unbar_other {x : Node} (h : x.state ≠ .barred) : x.unbar = x := if_neg h

/-- NODE UNBAR on a record that is not BARRED changes nothing (R49). -/
theorem Line.nodeUnbarCmd_other {l : Line} (ok : RosterOk l.roster) {x : Node} (hx : x ∈ l.roster) {a : Byte}
    (ha : x.addr = a.toNat) (other : x.state ≠ .barred) : l.nodeUnbarCmd a = .ok (l, .node x) := by
  have same := ok.updateNode_self hx (Node.unbar_other other)
  have found := ok.findNode_addr hx
  rw [ha] at same found
  simp [Line.nodeUnbarCmd, ok.addressOk_addr hx ha, found, same, Node.unbar_other other]

/-- NODE UNBAR on a record of the roster (R49). -/
theorem Line.nodeUnbarCmd_found {l : Line} (ok : RosterOk l.roster) {x : Node} (hx : x ∈ l.roster) {a : Byte}
    (ha : x.addr = a.toNat) : l.nodeUnbarCmd a = .ok ({ l with
      roster := l.roster.map fun z => if z.addr = a.toNat then x.unbar else z }, .node x.unbar) := by
  have update := ok.updateNode_eq hx Node.unbar
  have found := ok.findNode_addr hx
  rw [ha] at update found
  simp [Line.nodeUnbarCmd, ok.addressOk_addr hx ha, found, update]

/-- Settles O26: each clause is a branch of the command, with the record found at its address. -/
theorem nodeUnbarReturnsToJoining : Obligations.NodeUnbarReturnsToJoining := by
  intro s tag line a n ready ok l refusal
  have fails {r : Reason} (h : l.nodeUnbarCmd a = .error r) : refusal r :=
    (exec_nodeUnbar tag line a s).trans (State.adminRead_refused ready tag rfl rfl h)
  refine ⟨fun bad => fails (Line.nodeUnbarCmd_badField bad l),
    fun low high absent => fails (Line.nodeUnbarCmd_unknown low high absent), fun x hx ha other => ?_,
    fun x hx ha barred => ?_⟩
  · exact (exec_nodeUnbar tag line a s).trans (State.adminRead_unchanged ready tag rfl rfl
      (Line.nodeUnbarCmd_other ok hx ha other))
  · have passes := Line.nodeUnbarCmd_found ok hx ha
    rw [Node.unbar_barred barred] at passes
    exact (exec_nodeUnbar tag line a s).trans (State.adminRead_done ready tag rfl rfl passes)

end Sys2Proof.Machine
end

section
/-! PROOFS. The end of the HEADER and the end of the whole frame (R7, R13, R41). -/

namespace Sys2Proof.Machine

theorem exec_headerStopBitEnd (n : LineId) (s : State) :
    exec (.headerStopBitEnd n) s = s.take (s.moment n Line.headerLeft fun _ l => l.headerEnd) := rfl

theorem exec_requestFrameEnd (n : LineId) (s : State) :
    exec (.requestFrameEnd n) s = s.take (s.moment n Line.frameLeft Line.frameEnd) := rfl

@[simp] theorem Line.elapse_headerDone (k : Nat) (l : Line) : (l.elapse k).att.headerDone = l.att.headerDone :=
  (Attempt.elapse_kept ..).2.2.2.2.1

/-- The HEADER ends once, and only while a frame is sent (R41). -/
theorem Line.headerLeft_none {l : Line} (h : l.engine ≠ .sending ∨ l.att.headerDone = true) : l.headerLeft = none := by
  refine if_neg fun ⟨sending, _, fresh⟩ => ?_
  simp [sending, fresh] at h

theorem Line.headerLeft_some {l : Line} {c : Current} (sending : l.engine = .sending) (cur : l.current = some c)
    (fresh : l.att.headerDone = false) : l.headerLeft = some (l.profile.charClocks - l.att.sent) :=
  if_pos ⟨sending, by simp [cur], fresh⟩

theorem Line.frameLeft_none {l : Line} (h : l.engine ≠ .sending) : l.frameLeft = none := by
  unfold Line.frameLeft
  split
  · rfl
  · exact if_neg h

theorem Line.frameLeft_some {l : Line} {c : Current} (sending : l.engine = .sending) (cur : l.current = some c) :
    l.frameLeft = some (c.frame.length * l.profile.charClocks - l.att.sent) := by
  simp only [Line.frameLeft, cur]
  exact if_pos sending

theorem Line.headerEnd_eq {l : Line} {c : Current} (cur : l.current = some c) (fresh : l.att.headerDone = false) :
    l.headerEnd = l.headerOver c := by
  simp [Line.headerEnd, cur, ← Line.withHeader_eq, Line.withHeader, fresh]

/-- A broadcast ends SENT with its frame (R7). -/
theorem Line.frameEnd_broadcast {l : Line} {c : Current} (cur : l.current = some c) (broadcast : c.node = 0) (x : Ctx) :
    l.frameEnd x = (l.headerOver c).onVerdict x c .sent none none := by
  simp only [Line.frameEnd, cur, Line.withHeader_eq]
  exact if_pos broadcast

/-- An addressed request opens the reply window with the end of its frame (R13). -/
theorem Line.frameEnd_addressed {l : Line} {c : Current} (cur : l.current = some c) (addressed : c.node ≠ 0) (x : Ctx) :
    l.frameEnd x = { l.headerOver c with engine := .awaiting, att := Attempt.clear } := by
  simp only [Line.frameEnd, cur, Line.withHeader_eq]
  exact if_neg addressed

/-- Settles O34: each row is a moment of the line while it sends, and is ruled out otherwise. -/
theorem headerAndFrameEnd : Obligations.HeaderAndFrameEnd := by
  intro s n c live cur
  rw [exec_headerStopBitEnd, exec_requestFrameEnd]
  refine ⟨fun away => ⟨State.take_moment_none (Line.headerLeft_none (.inl away)),
    State.take_moment_none (Line.frameLeft_none away)⟩, fun sending =>
    ⟨fun done => State.take_moment_none (Line.headerLeft_none (.inr done)), fun fresh => ?_, ?_⟩⟩
  · intro t
    have curT : (t.line n).current = some c := by simpa [t] using cur
    have freshT : (t.line n).att.headerDone = false := by simpa [t] using fresh
    rw [State.take_moment_some live (Line.headerLeft_some sending cur fresh), Line.headerEnd_eq curT freshT]
  · intro t l
    have curT : (t.line n).current = some c := by simpa [t] using cur
    rw [State.take_moment_some live (Line.frameLeft_some sending cur)]
    refine ⟨fun broadcast => ?_, fun addressed => ?_⟩
    · rw [Line.frameEnd_broadcast curT broadcast]
    · rw [Line.frameEnd_addressed curT addressed]

end Sys2Proof.Machine
end

section
/-! PROOFS. A round start: the overrun, the due list, the roster pass and the probe list (R43, R101 to R103, R111, R112). -/

namespace Sys2Proof.Machine

theorem exec_roundStart (n : LineId) (s : State) : exec (.roundStart n) s =
    s.take (s.moment n (·.roundTimer) fun x l => l.startRound x (nextRound l.round)) := rfl

/-! ### The overrun (R111, R112) -/

/-- The exchange that an overrun leaves current: a sweep exchange whose index is among the entries left is superseded. -/
def Current.overrun (left : List Nat) (c : Current) : Current :=
  match c.origin with
  | .sweep i _ => if i ∈ left then { c with superseded := true } else c
  | _ => c

theorem Current.overrun_eq (left : List Nat) (c : Current) :
    c.overrun left = { c with superseded := c.superseded || c.sweepIn left } := by
  obtain ⟨origin, _⟩ := c
  cases origin with
  | sweep i r => by_cases h : i ∈ left <;> simp [Current.overrun, Current.sweepIn, h]
  | _ => simp [Current.overrun, Current.sweepIn]

/-- With no entry left nothing is superseded. -/
theorem Current.overrun_nil (c : Current) : c.overrun [] = c := by
  have unlisted : c.sweepIn [] = false := by
    unfold Current.sweepIn
    split <;> rfl
  rw [Current.overrun_eq, unlisted, Bool.or_false]

/-- The line with its due entries written MISSED at a part time (R111). -/
def Line.missed (now : Word) (l : Line) : Line :=
  l.due.foldl (fun m i => m.queueSlot i l.round (.nonWire .missed now)) l

/-- The line as a round start finds it once an overrun, if there is one, is over. -/
theorem Line.overrun_eq (x : Ctx) (l : Line) : (if l.due.isEmpty then l else l.overrun x) = { l with
    writer := (l.missed x.now).writer
    stats := if l.due = [] then l.stats else { l.stats with overruns := satInc l.stats.overruns }
    owed := if l.due = [] then l.owed else { l.owed with sweepOverrun := true }
    current := l.current.map (Current.overrun l.due) } := by
  by_cases due : l.due = []
  · have same : l.current.map (Current.overrun []) = l.current := by
      cases l.current with
      | none => rfl
      | some c => rw [Option.map_some, Current.overrun_nil]
    have unwritten : (l.missed x.now).writer = l.writer := by rw [Line.missed, due]; rfl
    rw [if_pos (List.isEmpty_iff.2 due), if_pos due, if_pos due, unwritten, due, same, ← due]
  · obtain ⟨w, written⟩ := Line.foldl_queueSlot_eq l.due l.round (.nonWire .missed x.now) l
    rw [if_neg (fun h => due (List.isEmpty_iff.1 h)), if_neg due, if_neg due, funext (Current.overrun_eq l.due)]
    simp only [Line.overrun, Line.missed, written]

/-! ### The due list (R103) -/

theorem Line.sweepAt_none {l : Line} {i : Nat} (h : 48 ≤ i) : l.sweepAt i = none := by
  simp [Line.sweepAt, Nat.not_lt.2 h]

theorem Line.mem_dueIn (l : Line) (r : Word) (i : Nat) :
    i ∈ l.dueIn r ↔ ∃ e, l.sweepAt i = some e ∧ (r.toNat - 1) % e.cadence = e.phase := by
  rw [Line.dueIn, List.mem_filter, List.mem_range]
  cases entry : l.sweepAt i with
  | none => simp
  | some e =>
    have small : i < Config.sweepEntries := by
      by_contra h
      rw [Line.sweepAt_none (Nat.not_lt.1 h)] at entry
      cases entry
    simp [small, SweepEntry.dueIn]

theorem Line.dueIn_ascending (l : Line) (r : Word) : (l.dueIn r).Pairwise (· < ·) :=
  List.pairwise_lt_range.filter _

/-! ### The probe list (R43) -/

theorem Node.probeDue_iff (p : Profile) (x : Node) : x.probeDue p = true ↔ x.state = .joining ∨
    x.state = .silent ∧ p.probeInterval ≠ 0 ∧ x.roundsSilent ≠ 0 ∧ p.probeInterval ∣ x.roundsSilent := by
  unfold Node.probeDue
  cases x.state <;> simp [Nat.dvd_iff_mod_eq_zero, and_assoc]

/-- The addresses of the records due for a probe in a round, after its roster pass. -/
def probeList (p : Profile) (roster : List Node) : List Nat :=
  ((roster.map (Node.roundPass p)).filter (Node.probeDue p)).map (·.addr)

theorem mem_probeList (p : Profile) (roster : List Node) (a : Nat) :
    a ∈ probeList p roster ↔ ∃ x ∈ roster.map (Node.roundPass p), x.addr = a ∧ x.probeDue p = true := by
  rw [probeList, List.mem_map]
  refine exists_congr fun x => ?_
  rw [List.mem_filter, and_right_comm, and_assoc]

theorem probeList_sublist (p : Profile) (roster : List Node) : (probeList p roster).Sublist (roster.map (·.addr)) := by
  have addrs : (roster.map (Node.roundPass p)).map (·.addr) = roster.map (·.addr) := by
    rw [List.map_map]
    exact List.map_congr_left fun x _ => (Node.roundPass_spec p x).1
  rw [← addrs]
  exact List.filter_sublist.map _

/-! ### The round -/

/-- A round start, by the fields that change. -/
theorem Line.startRound_eq (x : Ctx) (r : Word) (l : Line) : l.startRound x r = { l with
    round := r, due := if l.sweepHalted then [] else l.dueIn r, roster := l.roster.map (Node.roundPass l.profile)
    probes := probeList l.profile l.roster, turn := .sweep
    roundTimer := some ((l.profileOf x.power.target).sweepPeriod * 48000)
    writer := (l.missed x.now).writer
    stats := if l.due = [] then l.stats else { l.stats with overruns := satInc l.stats.overruns }
    owed := if l.due = [] then l.owed else { l.owed with sweepOverrun := true }
    current := l.current.map (Current.overrun l.due) } := by
  rw [Line.startRound, Line.overrun_eq]
  rfl

/-- Settles O43: the row is the moment of the timer's deadline, at which `startRound` forms the round. -/
theorem roundStartFormsTheRound : Obligations.RoundStartFormsTheRound := by
  intro s n live
  rw [exec_roundStart]
  refine ⟨State.take_moment_none, fun k timer => ?_⟩
  intro t l p r pass probed missed
  refine ⟨if l.sweepHalted then [] else l.dueIn r, probeList p l.roster, fun i => ?_, ?_, fun a => ?_,
    probeList_sublist p l.roster, ?_⟩
  · cases l.sweepHalted with
    | true => simp
    | false => simp [Line.mem_dueIn]
  · split
    · exact .nil
    · exact l.dueIn_ascending r
  · have same : pass = Node.roundPass p := rfl
    simp only [mem_probeList, Node.probeDue_iff, same]
    rfl
  · rw [State.take_moment_some live timer, Line.startRound_eq]
    rfl

end Sys2Proof.Machine
end

section
/-! PROOFS. What a verdict does to its node's record: the health, the alert flags and the join probes (R36 to R39, R51). -/

namespace Sys2Proof.Machine

/-! ### The three sorts of verdict -/

theorem Verdict.heard_iff (v : Verdict) :
    v.heard = true ↔ v = .good ∨ v = .goodBusy ∨ v = .goodReject ∨ v = .goodAlert ∨ v = .stale := by
  cases v <;> simp [Verdict.heard]

/-- A verdict that is neither heard nor neutral is failing. -/
theorem Verdict.failing_of {v : Verdict} (unheard : v.heard = false) (h : ¬ (v = .collision ∨ v = .sent)) :
    v.failing = true := by
  cases v <;> simp_all [Verdict.heard, Verdict.failing]

/-- A neutral verdict is neither heard nor failing (R38). -/
theorem Verdict.neutral_sorts {v : Verdict} (h : v = .collision ∨ v = .sent) : v.heard = false ∧ v.failing = false := by
  obtain rfl | rfl := h <;> exact ⟨rfl, rfl⟩

/-! ### The health of the record (R36 to R38) -/

theorem Node.onHealth_heard {v : Verdict} (h : v.heard = true) (now : Word) (t : Nat) (x : Node) :
    x.onHealth now t v = x.onHeard now := if_pos h

theorem Node.onHealth_failing {v : Verdict} (unheard : v.heard = false) (h : v.failing = true) (now : Word) (t : Nat)
    (x : Node) : x.onHealth now t v = x.onFailing t := by
  rw [Node.onHealth, if_neg (by simp [unheard]), if_pos h]

theorem Node.onHealth_neutral {v : Verdict} (h : v = .collision ∨ v = .sent) (now : Word) (t : Nat) (x : Node) :
    x.onHealth now t v = x := by
  obtain ⟨heard, failing⟩ := Verdict.neutral_sorts h
  rw [Node.onHealth, if_neg (by simp [heard]), if_neg (by simp [failing])]

theorem Node.onHeard_returns {x : Node} (h : x.state = .joining ∨ x.state = .silent) (now : Word) :
    x.onHeard now = { x with failures := 0, lastHeard := some now, state := .active, reportOwed := true } := by
  obtain h | h := h <;> simp [Node.onHeard, h]

theorem Node.onHeard_stays {x : Node} (h : x.state = .active ∨ x.state = .barred) (now : Word) :
    x.onHeard now = { x with failures := 0, lastHeard := some now } := by
  obtain h | h := h <;> simp [Node.onHeard, h]

/-- The failing verdict that reaches the threshold of an ACTIVE node silences it (R37). -/
theorem Node.onFailing_silences {x : Node} {t : Nat} (active : x.state = .active) (reached : t ≤ min 15 (x.failures + 1)) :
    x.onFailing t = { x with failures := min 15 (x.failures + 1) }.silence :=
  if_pos ⟨active, reached⟩

theorem Node.onFailing_counts {x : Node} {t : Nat} (h : x.state ≠ .active ∨ min 15 (x.failures + 1) < t) :
    x.onFailing t = { x with failures := min 15 (x.failures + 1) } :=
  if_neg fun ⟨active, reached⟩ => h.elim (· active) (Nat.not_lt.2 reached)

/-- A failing verdict counts a failure and leaves the last heard time, whether or not it silences the node (R37). -/
theorem Node.onFailing_record (t : Nat) (x : Node) :
    (x.onFailing t).failures = min 15 (x.failures + 1) ∧ (x.onFailing t).lastHeard = x.lastHeard := by
  unfold Node.onFailing
  dsimp only
  split <;> exact ⟨rfl, rfl⟩

/-- The health of a record leaves its address, its toggle, its join probes and its alert flags alone. -/
theorem Node.onHealth_kept (now : Word) (t : Nat) (v : Verdict) (x : Node) :
    (x.onHealth now t v).addr = x.addr ∧ (x.onHealth now t v).lastToggle = x.lastToggle ∧
    (x.onHealth now t v).joinProbes = x.joinProbes ∧ (x.onHealth now t v).alertReported = x.alertReported ∧
    (x.onHealth now t v).alertOwed = x.alertOwed := by
  unfold Node.onHealth Node.onFailing
  dsimp only
  repeat' split
  all_goals exact ⟨rfl, rfl, rfl, rfl, rfl⟩

/-- The health of a record does not look at its join probes. -/
theorem Node.onHealth_joinProbes (now : Word) (t : Nat) (v : Verdict) (x : Node) (k : Nat) :
    ({ x with joinProbes := k } : Node).onHealth now t v = { x.onHealth now t v with joinProbes := k } := by
  unfold Node.onHealth Node.onFailing
  dsimp only
  repeat' split
  all_goals rfl

/-- A verdict that is not heard leaves a JOINING record JOINING. -/
theorem Node.onHealth_joining {v : Verdict} (unheard : v.heard = false) {x : Node} (joining : x.state = .joining)
    (now : Word) (t : Nat) : (x.onHealth now t v).state = .joining := by
  by_cases neutral : v = .collision ∨ v = .sent
  · rw [Node.onHealth_neutral neutral, joining]
  · rw [Node.onHealth_failing unheard (Verdict.failing_of unheard neutral),
      Node.onFailing_counts (.inl (by simp [joining]))]
    exact joining

/-! ### The alert flags (R51) -/

theorem Node.onAlert_raises (x : Node) : x.onAlert .goodAlert =
    { x with alertReported := true, alertOwed := x.alertOwed || !x.alertReported } := by
  obtain ⟨_, _, _, _, _, _, _, reported, _, _⟩ := x
  cases reported <;> simp [Node.onAlert]

theorem Node.onAlert_clears {v : Verdict} (h : v = .good ∨ v = .goodBusy ∨ v = .goodReject) (x : Node) :
    x.onAlert v = { x with alertReported := false } := by
  obtain rfl | rfl | rfl := h <;> rfl

theorem Node.onAlert_other {v : Verdict} (h : v.heard = false ∨ v = .stale) (x : Node) : x.onAlert v = x := by
  cases v <;> simp_all [Verdict.heard, Node.onAlert]

theorem Node.onAlert_joinProbes (v : Verdict) (x : Node) (k : Nat) :
    ({ x with joinProbes := k } : Node).onAlert v = { x.onAlert v with joinProbes := k } := by
  unfold Node.onAlert
  split
  case h_1 => split <;> rfl
  all_goals rfl

/-! ### The whole verdict -/

/-- A verdict that counts no probe is the health and then the alert flags. -/
theorem Node.onVerdict_uncounted {probe : Bool} {x : Node} (h : probe = false ∨ x.state ≠ .joining) (now : Word)
    (p : Profile) (v : Verdict) : x.onVerdict now p probe v = (x.onHealth now p.failThreshold v).onAlert v := by
  have uncounted : (probe && x.state == .joining) = false := by simpa [← Bool.not_eq_true, imp_iff_not_or] using h
  simp [Node.onVerdict, uncounted]

/-- A probe of a JOINING node is counted, and silences a node that is still JOINING at its join limit (R39). -/
theorem Node.onVerdict_counted {x : Node} (joining : x.state = .joining) (now : Word) (p : Profile) (v : Verdict)
    {z : Node} (hz : z = { x.onVerdict now p false v with joinProbes := min 15 (x.joinProbes + 1) }) :
    x.onVerdict now p true v = if z.state = .joining ∧ p.joinLimit ≤ z.joinProbes then z.silence else z := by
  rw [hz, Node.onVerdict_uncounted (.inl rfl), ← Node.onAlert_joinProbes, ← Node.onHealth_joinProbes]
  simp [Node.onVerdict, joining]

/-- Settles O47: the health and the alert flags of an uncounted verdict, and the counted probe on top of it. -/
theorem verdictUpdatesTheRecord : Obligations.VerdictUpdatesTheRecord := by
  intro now p x v heard neutral y z
  have uncounted : y = (x.onHealth now p.failThreshold v).onAlert v := Node.onVerdict_uncounted (.inl rfl) now p v
  have sort : v.heard = true ↔ heard := v.heard_iff
  have unheardOf (h : ¬ heard) : v.heard = false := by rwa [← Bool.not_eq_true, sort]
  obtain ⟨reported, owed, alerts⟩ := Node.onAlert_shape v (x.onHealth now p.failThreshold v)
  have health : y = { x.onHealth now p.failThreshold v with alertReported := reported, alertOwed := owed } :=
    uncounted.trans alerts
  obtain ⟨addr, toggle, probes, reportedKept, owedKept⟩ := Node.onHealth_kept now p.failThreshold v x
  refine ⟨by rw [health]; exact addr, by rw [health]; exact toggle, by rw [health]; exact probes, fun h => ?_,
    fun unheard busy => ?_, fun h => ?_, ?_, fun h => ?_, fun h => ?_, fun other => ?_, fun joining => ?_⟩
  · rw [health, Node.onHealth_heard (sort.2 h)]
    refine ⟨rfl, rfl, rfl, fun returns => ?_, fun stays => ?_⟩
    · rw [Node.onHeard_returns returns]
      exact ⟨rfl, rfl⟩
    · rw [Node.onHeard_stays stays]
      exact ⟨rfl, rfl⟩
  · have unheard := unheardOf unheard
    rw [health, Node.onHealth_failing unheard (Verdict.failing_of unheard busy)]
    refine ⟨?_, ?_, fun active reached => ?_, fun counts => ?_⟩
    · exact (Node.onFailing_record _ x).1
    · exact (Node.onFailing_record _ x).2
    · rw [Node.onFailing_silences active reached]
      exact ⟨rfl, rfl, rfl⟩
    · rw [Node.onFailing_counts counts]
      exact ⟨rfl, rfl, rfl⟩
  · rw [uncounted, Node.onHealth_neutral h, Node.onAlert_other (.inl (Verdict.neutral_sorts h).1)]
  · intro h
    rw [uncounted, h, Node.onAlert_raises, ← h, reportedKept, owedKept]
    exact ⟨rfl, rfl⟩
  · rw [uncounted, Node.onAlert_clears h]
    exact ⟨rfl, owedKept⟩
  · rw [uncounted, Node.onAlert_other (h.imp_left unheardOf)]
    exact ⟨reportedKept, owedKept⟩
  · exact (Node.onVerdict_uncounted (.inr other) now p v).trans uncounted.symm
  · have counted : z = _ := Node.onVerdict_counted joining now p v rfl
    refine ⟨?_, fun stays => ?_, fun unheard reached => ?_⟩
    · rw [counted]
      split <;> rfl
    · rw [counted, if_neg]
      rintro ⟨still, reached⟩
      obtain h | below := stays
      · have active : y.state = .active := by
          rw [health, Node.onHealth_heard (sort.2 h), Node.onHeard_returns (.inl joining)]
        exact absurd (active.symm.trans still) (by decide)
      · exact absurd reached (Nat.not_le.2 below)
    · have still : y.state = .joining := by
        rw [health]
        exact Node.onHealth_joining (unheardOf unheard) joining now _
      rw [counted, if_pos ⟨still, reached⟩]
      rfl

end Sys2Proof.Machine
end

section
/-! PROOFS. How a finished exchange is handed on by its origin (R29, R68, R69, R82, R106, R112, R121, R123). -/

namespace Sys2Proof.Machine

/-- The line as an exchange that ends leaves it, before its contents are handed on (R68). -/
def Line.vacated (l : Line) : Line := { l with engine := .idle, current := none, att := Attempt.clear }

/-! ### The origins -/

/-- A host exchange leaves its record in the hold slot, and a ROUTINE one gives the turn to the sweep (R69, R82). -/
theorem Line.endExchange_host {c : Current} {cls : QClass} {tag : Half} (origin : c.origin = .host cls tag) (x : Ctx)
    (o : ExOutcome) (l : Line) : l.endExchange x c o = { l.vacated with
      holdSlot := some (c.record x tag o), turn := if cls = .routine then .sweep else l.turn } := by
  simp only [Line.endExchange, origin]
  rfl

/-- A sweep exchange gives the turn to ROUTINE, and one that is superseded writes nothing (R82, R112). -/
theorem Line.endExchange_superseded {c : Current} {i : Nat} {w : Word} (origin : c.origin = .sweep i w)
    (late : c.superseded = true) (x : Ctx) (o : ExOutcome) (l : Line) :
    l.endExchange x c o = { l.vacated with turn := .routine } := by
  simp only [Line.endExchange, origin]
  exact if_pos late

theorem Line.endExchange_sweep {c : Current} {i : Nat} {w : Word} (origin : c.origin = .sweep i w)
    (timely : c.superseded = false) (x : Ctx) (o : ExOutcome) (l : Line) :
    l.endExchange x c o = Line.queueSlot { l.vacated with turn := .routine } i w (c.slotBody x.now) := by
  simp only [Line.endExchange, origin]
  exact if_neg (by simp [timely])

theorem Line.endExchange_probe {c : Current} (origin : c.origin = .probe) (x : Ctx) (o : ExOutcome) (l : Line) :
    l.endExchange x c o = l.vacated := by
  simp only [Line.endExchange, origin]
  rfl

theorem Line.endExchange_hunt {c : Current} (origin : c.origin = .hunt) (x : Ctx) (o : ExOutcome) (l : Line) :
    l.endExchange x c o = l.vacated.huntStepEnd x c := by
  simp only [Line.endExchange, origin]
  rfl

/-- A PACE puts the profile it announced in force, and a SWITCH is pending if the target is another by now (R29). -/
theorem Line.endExchange_pace {c : Current} {a : ProfileSel} (origin : c.origin = .pace a) (x : Ctx) (o : ExOutcome)
    (l : Line) : l.endExchange x c o =
      { l.vacated with inForce := a, pace := if x.power.target = a then l.pace else .switch } := by
  simp only [Line.endExchange, origin]
  rfl

/-! ### The slot of a sweep exchange (R106) -/

theorem Current.slotBody_none {c : Current} (last : c.last = none) (now : Word) :
    c.slotBody now = .nonWire .skipped now := by
  simp only [Current.slotBody, last]

/-- The slot takes the status of the last verdict: a reply judged GOOD, none, a collision, or a reply gone wrong. -/
theorem Current.slotBody_some {c : Current} {r : AttemptResult} (last : c.last = some r) (now : Word) : c.slotBody now =
    if r.verdict = .good ∨ r.verdict = .goodAlert ∨ r.verdict = .goodBusy ∨ r.verdict = .goodReject then
      .wire .good r.reply r.latency now
    else if r.verdict = .timeout then .wire .noReply none none now
    else if r.verdict = .collision then .wire .collided none none now
    else .wire .badReply none r.latency now := by
  simp only [Current.slotBody, last]
  cases r.verdict <;> rfl

/-! ### The walk of a hunt (R121, R123) -/

/-- A walk goes on where an ACTIVE record lies ahead of it (R120, R127). -/
theorem Walk.next_isSome {w : Walk} {r : List Node} : (w.next r).isSome = true ↔
    ∃ y ∈ r, y.state = .active ∧ (w.cursor < y.addr ∨ y.addr ∈ w.later) := by
  simp [Walk.next, Walk.ahead]

/-- A step that belongs to no active hunt moves nothing (R121). -/
theorem Line.huntStepEnd_over {c : Current} {l : Line} (h : c.huntLive = false ∨ l.hunt = none) (x : Ctx) :
    l.huntStepEnd x c = l := by
  unfold Line.huntStepEnd
  split
  · next w hunt =>
    have past : c.huntLive = false := h.resolve_right (by simp [hunt])
    exact if_neg (by simp [past])
  · rfl

/-- The step of an active hunt moves its walk, or ends it empty with the test for a follow-up. -/
theorem Line.huntStepEnd_live {c : Current} {l : Line} {w : Walk} (live : c.huntLive = true) (hunt : l.hunt = some w)
    (x : Ctx) : l.huntStepEnd x c =
      if ((w.stepped c.node).next l.roster).isSome then { l with hunt := some (w.stepped c.node) }
      else l.huntEmpty.activateHunt x := by
  simp only [Line.huntStepEnd, hunt]
  exact if_pos live

theorem Walk.stepped_eq (w : Walk) (a : Nat) : w.stepped a = ⟨max w.cursor a, w.later.filter fun b => b ≠ a⟩ := by
  simp [Walk.stepped, bne, beq_eq_decide]

/-- Settles O49: the exchange is handed on by the equation of its origin. -/
theorem exchangeIsHandedOn : Obligations.ExchangeIsHandedOn := by
  intro x c o l b
  refine ⟨fun cls tag origin => Line.endExchange_host origin x o l, fun i w origin => ⟨fun late => ?_,
    fun timely last => ?_, fun r timely last => ?_⟩, fun origin => Line.endExchange_probe origin x o l,
    fun origin past => ?_, fun w origin live hunt => ?_, fun a origin => Line.endExchange_pace origin x o l⟩
  · exact Line.endExchange_superseded origin late x o l
  · rw [Line.endExchange_sweep origin timely, Current.slotBody_none last]
    rfl
  · rw [Line.endExchange_sweep origin timely, Current.slotBody_some last]
    rfl
  · rw [Line.endExchange_hunt origin]
    exact Line.huntStepEnd_over (l := l.vacated) past x
  · intro v ahead
    have step : w.stepped c.node = v := Walk.stepped_eq w c.node
    have stepEnd : l.endExchange x c o = _ :=
      (Line.endExchange_hunt origin x o l).trans (Line.huntStepEnd_live live (l := l.vacated) hunt x)
    have goesOn : (v.next l.roster).isSome = true ↔ ∃ y ∈ l.roster, ahead y := Walk.next_isSome
    rw [stepEnd, step]
    refine ⟨fun lies => if_pos (goesOn.2 lies), fun bare => if_neg fun lies => ?_⟩
    obtain ⟨y, record, aheadOf⟩ := goesOn.1 lies
    exact bare y record aheadOf

end Sys2Proof.Machine
end

section
/-! PROOFS. The end of an attempt: what its verdict alone does, and the first row of the table that ends the exchange or
grants a retry (R58, R61, R62, R64, R67, R75, R122). -/

namespace Sys2Proof.Machine

/-! ### The record of the verdict's node -/

/-- The one record at an address passes a test where some record there does. -/
theorem RosterOk.findNode_any {r : List Node} (h : RosterOk r) (a : Nat) (p : Node → Bool) :
    (findNode r a).any p = true ↔ ∃ y ∈ r, y.addr = a ∧ p y = true := by
  rw [Option.any_eq_true]
  refine ⟨fun ⟨y, found, passes⟩ => ?_, fun ⟨y, record, addr, passes⟩ => ?_⟩
  · obtain ⟨record, addr⟩ := findNode_some found
    exact ⟨y, record, addr, passes⟩
  · exact ⟨y, addr ▸ h.findNode_addr record, passes⟩

/-- The record at an address after a change of that record. -/
theorem findNode_updateNode {f : Node → Node} (addr : ∀ y, (f y).addr = y.addr) (r : List Node) (a : Nat) :
    findNode (updateNode r a f) a = (findNode r a).map f := by
  induction r with
  | nil => rfl
  | cons y r ih =>
    by_cases h : y.addr = a
    · simp [findNode, updateNode, h, addr]
    · simpa [findNode, updateNode, h] using ih

/-- No record is at address 0, which broadcasts have (R34). -/
theorem RosterOk.addr_ne_zero {r : List Node} (h : RosterOk r) {y : Node} (record : y ∈ r) : y.addr ≠ 0 :=
  Nat.ne_of_gt (h.inRange y record).addr_low

theorem updateNode_map (r : List Node) (a : Nat) (f : Node → Node) :
    updateNode r a f = r.map fun y => if y.addr = a then f y else y := by
  simp only [updateNode, beq_iff_eq]

/-- A broadcast reaches no record. -/
theorem RosterOk.updateNode_broadcast {r : List Node} (h : RosterOk r) (a : Nat) (f : Node → Node) :
    (if a = 0 then r else updateNode r a f) = updateNode r a f := by
  split
  · next broadcast =>
    rw [updateNode_map]
    refine ((List.map_congr_left fun y record => ?_).trans (List.map_id r)).symm
    exact if_neg (broadcast ▸ h.addr_ne_zero record)
  · rfl

/-! ### The verdict alone (steps 1 to 4 of R61) -/

/-- The current exchange with the result of its attempt, as a verdict that silences its node or finds an alert leaves it. -/
def Current.judged (c : Current) (v : Verdict) (reply : Option Reply) (latency : Option Word) (silenced found : Bool) :
    Current :=
  { c with
    last := some ⟨v, reply, latency, c.node⟩, wentSilent := c.wentSilent || silenced
    huntLive := c.huntLive && !found }

/-- The line with the verdict taken by the record of its node and by the statistics. -/
def Line.judged (now : Word) (c : Current) (v : Verdict) (d : Current) (failed found : Bool) (l : Line) : Line :=
  { l with
    roster := l.roster.map fun y =>
      if y.addr = c.node then y.onVerdict now l.profile (c.origin == .probe && !c.barred) v else y
    stats := { l.stats with
      failed := if failed then satInc l.stats.failed else l.stats.failed
      collisions := if v = .collision then satInc l.stats.collisions else l.stats.collisions }
    settleOwed := l.settleOwed || v == .collision, hunt := if found then none else l.hunt, current := some d }

/-- A verdict silences its node: the record was not SILENT before, and is now (R64). -/
theorem RosterOk.silenced_eq {r : List Node} (ok : RosterOk r) (a : Nat) {f : Node → Node}
    (addr : ∀ y, (f y).addr = y.addr) {silenced : Bool}
    (h : silenced = true ↔ ∃ y ∈ r, y.addr = a ∧ y.state ≠ .silent ∧ (f y).state = .silent) :
    ((findNode r a).map (·.state) != some .silent && nodeState (updateNode r a f) a == some .silent) = silenced := by
  have test : ((findNode r a).map (·.state) != some .silent && nodeState (updateNode r a f) a == some .silent) =
      (findNode r a).any fun y => decide (y.state ≠ .silent ∧ (f y).state = .silent) := by
    rw [nodeState, findNode_updateNode addr]
    cases findNode r a with
    | none => rfl
    | some y => simp [bne, beq_eq_decide]
  rw [test, Bool.eq_iff_iff, ok.findNode_any, h]
  simp only [decide_eq_true_eq]

/-- A verdict finds an alert: GOOD_ALERT from a node whose alert was not reported (R122). -/
theorem RosterOk.found_eq {r : List Node} (ok : RosterOk r) (a : Nat) {v : Verdict} {found : Bool}
    (h : found = true ↔ v = .goodAlert ∧ ∃ y ∈ r, y.addr = a ∧ y.alertReported = false) :
    ((findNode r a).map (foundAlert v)).getD false = found := by
  have test : ((findNode r a).map (foundAlert v)).getD false = (findNode r a).any (foundAlert v) := by
    cases findNode r a <;> rfl
  rw [test, Bool.eq_iff_iff, ok.findNode_any, h]
  simp only [foundAlert, Bool.and_eq_true, beq_iff_eq, Bool.not_eq_true', ← exists_and_left]
  exact exists_congr fun y => by tauto

/-- What a verdict does before anything is decided about the exchange, with what it comes to for the record of its node. -/
theorem Line.takeVerdict_eq {l : Line} (ok : RosterOk l.roster) (x : Ctx) (c : Current) (v : Verdict)
    (reply : Option Reply) (latency : Option Word) {silenced found failed : Bool}
    (silences : silenced = true ↔ ∃ y ∈ l.roster, y.addr = c.node ∧ y.state ≠ .silent ∧
      (y.onVerdict x.now l.profile (c.origin == .probe && !c.barred) v).state = .silent)
    (finds : found = true ↔ v = .goodAlert ∧ ∃ y ∈ l.roster, y.addr = c.node ∧ y.alertReported = false)
    (fails : failed = true ↔ v.heard = false ∧ v ≠ .sent) :
    l.takeVerdict x c v reply latency = (l.judged x.now c v (c.judged v reply latency silenced found) failed found,
      c.judged v reply latency silenced found) := by
  have addr y : (Node.onVerdict x.now l.profile (c.origin == .probe && !c.barred) v y).addr = y.addr :=
    (Node.onVerdict_spec _ _ _ _ y).1
  have counts : (if v.heard || v == .sent then l.stats.failed else satInc l.stats.failed) =
      if failed then satInc l.stats.failed else l.stats.failed := by
    have flag : (v.heard || v == .sent) = !failed := by
      rw [Bool.eq_iff_iff, Bool.not_eq_true', ← Bool.not_eq_true failed, fails]
      simp only [Bool.or_eq_true, beq_iff_eq, ← Bool.not_eq_true]
      tauto
    rw [flag]
    cases failed <;> rfl
  simp only [Line.takeVerdict, ok.updateNode_broadcast, ok.silenced_eq c.node addr silences, ok.found_eq c.node finds, counts]
  simp only [updateNode_map, beq_iff_eq]
  rfl

/-! ### What becomes of the exchange (step 5 of R61) -/

theorem Line.decision_cancelled {c : Current} (cancel : c.cancelReq = true) (x : Ctx) (v : Verdict) (l : Line) :
    l.decision x c v = some .cancelled := if_pos cancel

theorem Line.decision_barred {c : Current} (kept : c.cancelReq = false) (bar : c.barred = true) (x : Ctx) (v : Verdict)
    (l : Line) : l.decision x c v = some .nodeBarred := by
  simp [Line.decision, kept, bar]

/-- The rows that end an exchange with its own outcome whatever retries are left: a final verdict, a node that went silent, and
DOZE_PENDING for anything but a PACE. -/
def endsAnyway (x : Ctx) (c : Current) (v : Verdict) : Prop :=
  (v = .good ∨ v = .goodAlert ∨ v = .goodReject ∨ v = .sent) ∨ c.wentSilent = true ∨
    x.power = .dozePending ∧ c.origin.isPace = false

section
variable {x : Ctx} {c : Current} {v : Verdict} {l : Line} (kept : c.cancelReq = false) (free : c.barred = false)
include kept free

theorem Line.decision_anyway (h : endsAnyway x c v) : l.decision x c v = some (outcomeOf v) := by
  unfold endsAnyway at h
  by_cases final : v = .good ∨ v = .goodAlert ∨ v = .goodReject ∨ v = .sent
  · simp [Line.decision, kept, free, final]
  · by_cases silent : c.wentSilent = true
    · simp [Line.decision, kept, free, silent]
    · have doze := (h.resolve_left final).resolve_left silent
      simp [Line.decision, kept, free, doze]

/-- Past those rows the abandon flag and the retries left decide. -/
theorem Line.decision_open (h : ¬ endsAnyway x c v) : l.decision x c v =
    if l.abandon then if c.origin.isHost ∧ c.attempts ≤ c.retryLimit then some .flushed else some (outcomeOf v)
    else if c.retryLimit < c.attempts then some (outcomeOf v) else none := by
  have awake : ¬ (x.power = .dozePending ∧ ¬ c.origin.isPace = true) := by
    rw [Bool.not_eq_true]
    exact fun doze => h (.inr (.inr doze))
  rw [Line.decision, if_neg (by simp [kept]), if_neg (by simp [free]), if_neg fun final => h (.inl final),
    if_neg fun silent => h (.inr (.inl silent)), if_neg awake]

theorem Line.decision_exhausted (h : ¬ endsAnyway x c v) (last : c.retryLimit < c.attempts) :
    l.decision x c v = some (outcomeOf v) := by
  simp [Line.decision_open kept free h, Nat.not_le.2 last, last]

/-- Under ABANDON a host exchange that would have been retried ends FLUSHED (R67). -/
theorem Line.decision_abandoned (h : ¬ endsAnyway x c v) (more : c.attempts ≤ c.retryLimit) (abandon : l.abandon = true) :
    l.decision x c v = some (if c.origin.isHost then .flushed else outcomeOf v) := by
  rw [Line.decision_open kept free h, if_pos abandon]
  cases c.origin.isHost <;> simp [more]

theorem Line.decision_retry (h : ¬ endsAnyway x c v) (more : c.attempts ≤ c.retryLimit) (stays : l.abandon = false) :
    l.decision x c v = none := by
  simp [Line.decision_open kept free h, stays, Nat.not_lt.2 more]

end

/-! ### The end of the attempt -/

theorem Line.onVerdict_ends {x : Ctx} {c d : Current} {v : Verdict} {reply : Option Reply} {latency : Option Word}
    {l k : Line} {o : ExOutcome} (taken : l.takeVerdict x c v reply latency = (k, d)) (ends : k.decision x d v = some o) :
    l.onVerdict x c v reply latency = k.endExchange x d o := by
  simp only [Line.onVerdict, taken, ends]

theorem Line.onVerdict_retries {x : Ctx} {c d : Current} {v : Verdict} {reply : Option Reply} {latency : Option Word}
    {l k : Line} (taken : l.takeVerdict x c v reply latency = (k, d)) (retry : k.decision x d v = none) :
    l.onVerdict x c v reply latency = k.enterLead (k.retryWait v) := by
  simp only [Line.onVerdict, taken, retry]

/-- The wait before a retry: a COLLISION owes a settle, as an earlier one may (R58, R62). -/
theorem Line.retryWait_judged (now : Word) (c : Current) (v : Verdict) (d : Current) (failed found : Bool) (l : Line) :
    (l.judged now c v d failed found).retryWait v =
      if l.settleOwed = true ∨ v = .collision then 2 * l.profile.leadGap
      else if v = .goodBusy then l.profile.busyPause else l.profile.retryGap := by
  have owed : (l.judged now c v d failed found).settleOwed = true ↔ l.settleOwed = true ∨ v = .collision := by
    simp [Line.judged]
  simp only [Line.retryWait, owed]
  rfl

/-- Settles O48: the verdict alone, and then the row of the table that applies. -/
theorem verdictEndsOrRetries : Obligations.VerdictEndsOrRetries := by
  refine ⟨⟨?_, rfl, rfl, rfl, rfl, ?_⟩, ?_⟩
  · rintro v (rfl | rfl | rfl) <;> rfl
  · rintro v (rfl | rfl | rfl | rfl | rfl | rfl | rfl) <;> rfl
  intro x c v reply latency l silenced found ok heard after silences finds failed fails d k ends final waits doze
  have fails : failed = true ↔ v.heard = false ∧ v ≠ .sent := by
    rw [fails, ← Bool.not_eq_true, v.heard_iff]
  have taken : l.takeVerdict x c v reply latency = (k, d) := Line.takeVerdict_eq ok x c v reply latency silences finds fails
  have waiting : k.enterLead (k.retryWait v) = waits := by
    rw [show k.retryWait v = _ from Line.retryWait_judged x.now c v d failed found l]
    rfl
  have endsWith {o : ExOutcome} (decided : k.decision x d v = some o) : ends o := Line.onVerdict_ends taken decided
  refine ⟨fun cancel => endsWith (Line.decision_cancelled (c := d) cancel x v k),
    fun kept bar => endsWith (Line.decision_barred (c := d) kept bar x v k),
    fun kept free => ⟨fun h => ?_, fun unfinal unsilent awake => ?_⟩, fun bare => ?_⟩
  · exact endsWith (Line.decision_anyway kept free h)
  · have undecided : ¬ endsAnyway x d v := by
      rintro (h | h | h)
      · exact unfinal h
      · exact absurd (h.symm.trans unsilent) (by decide)
      · exact awake h
    exact ⟨fun last => endsWith (Line.decision_exhausted kept free undecided last),
      fun more abandon => endsWith (Line.decision_abandoned kept free undecided more abandon),
      fun more stays => (Line.onVerdict_retries taken (Line.decision_retry kept free undecided more stays)).trans waiting⟩
  · subst bare
    rw [Line.attemptOver, taken]
    exact waiting

end Sys2Proof.Machine
end

section
/-! PROOFS. A line found stuck by its own row: the limit of the run, and what comes before the fault in each engine state
(R4, R11, R71, R72, R74, R180). -/

namespace Sys2Proof.Machine

theorem exec_stuckLine (n : LineId) (s : State) :
    exec (.stuckLine n) s = s.take ((s.spaceMoment n Line.stuckLeft).map (·.stuckEvent n)) := rfl

/-! ### The stuck limit (R71) -/

theorem Line.stuckLeft_none {l : Line} (h : l.engine = .off ∨ l.run = .quiet ∨ l.run = .faulted) : l.stuckLeft = none := by
  refine if_neg fun ⟨on, runs, _⟩ => ?_
  obtain h | h | h := h <;> simp_all

theorem Line.stuckLeft_some {l : Line} (on : l.engine ≠ .off) (runs : l.run = .running ∨ l.run = .draining)
    (space : l.wire.space = true) : l.stuckLeft = some (l.profile.stuckLimit * 48000 - l.wire.run) :=
  if_pos ⟨on, runs, space⟩

/-! ### The pin at the end of an attempt -/

/-- The end of an exchange leaves the receive pin and its run of space alone. -/
theorem Line.endExchange_wire (x : Ctx) (c : Current) (o : ExOutcome) (l : Line) : (l.endExchange x c o).wire = l.wire := by
  cases origin : c.origin with
  | host cls tag => rw [Line.endExchange_host origin]; rfl
  | sweep i w =>
    cases late : c.superseded with
    | true => rw [Line.endExchange_superseded origin late]; rfl
    | false =>
      obtain ⟨writer, queued⟩ := Line.queueSlot_eq { l.vacated with turn := .routine } i w (c.slotBody x.now)
      rw [Line.endExchange_sweep origin late, queued]
      rfl
  | probe => rw [Line.endExchange_probe origin]; rfl
  | hunt =>
    obtain ⟨_, _, _, _, step, -⟩ := l.vacated.huntStepEnd_eq x c
    rw [Line.endExchange_hunt origin, step]
    rfl
  | pace a => rw [Line.endExchange_pace origin]; rfl

/-- An attempt that ends leaves its line in LEAD or at a boundary, with the receive pin as it was. -/
theorem Line.onVerdict_rests (x : Ctx) (c : Current) (v : Verdict) (reply : Option Reply) (latency : Option Word) (l : Line) :
    ((l.onVerdict x c v reply latency).engine = .idle ∨ (l.onVerdict x c v reply latency).engine = .lead) ∧
      (l.onVerdict x c v reply latency).wire = l.wire := by
  obtain ⟨k, d, taken⟩ : ∃ k d, l.takeVerdict x c v reply latency = (k, d) := ⟨_, _, rfl⟩
  have wire : k.wire = l.wire := congrArg (·.1.wire) taken.symm
  cases decided : k.decision x d v with
  | none =>
    rw [Line.onVerdict_retries taken decided]
    exact ⟨.inr rfl, wire⟩
  | some o =>
    rw [Line.onVerdict_ends taken decided]
    exact ⟨.inl (k.endExchange_spec x d o).1, (k.endExchange_wire x d o).trans wire⟩

theorem Line.headerOver_wire (l : Line) (c : Current) : (l.headerOver c).wire = l.wire := by
  unfold Line.headerOver
  split <;> rfl

/-! ### What comes before the fault -/

/-- A run that has had its effect ends no attempt off the wire. -/
theorem Line.attemptFirst_marked {l : Line} (sending : l.engine ≠ .sending) (marked : l.wire.marked = true) (x : Ctx) :
    l.attemptFirst x = l := by
  unfold Line.attemptFirst
  split
  · rfl
  · split
    · split
      · next h => exact absurd h sending
      all_goals rfl
    · rfl

/-- The COLLISION of an attempt on the wire: an exchange under a cancel or a bar is left for the fault to end (R11, R74). -/
def Line.collided (x : Ctx) (c : Current) (l : Line) : Line :=
  if c.cancelReq = true ∨ c.barred = true then (l.headerOver c).attemptOver x c .collision none
  else (l.headerOver c).onVerdict x c .collision none none

theorem Line.collided_rests (x : Ctx) (c : Current) (l : Line) :
    ((l.collided x c).engine = .idle ∨ (l.collided x c).engine = .lead) ∧ (l.collided x c).wire = l.wire := by
  unfold Line.collided
  split
  · exact ⟨.inr rfl, l.headerOver_wire c⟩
  · obtain ⟨engine, wire⟩ := (l.headerOver c).onVerdict_rests x c .collision none none
    exact ⟨engine, wire.trans (l.headerOver_wire c)⟩

theorem State.longFirst_marked {t : State} {n : LineId} (marked : (t.line n).wire.marked = true) : t.longFirst n = t :=
  if_neg (by simp [Line.longLeft_none (.inr marked)])

theorem State.longFirst_pulse {t : State} {n : LineId} (h : (t.line n).engine = .idle ∨ (t.line n).engine = .lead)
    (space : (t.line n).wire.space = true) (fresh : (t.line n).wire.marked = false) :
    t.longFirst n = t.setLine n (t.line n).pulsed := by
  have takes : (t.line n).engine.takesLongSpace = true := by obtain h | h := h <;> rw [h] <;> rfl
  rw [State.longFirst, if_pos (by simp [Line.longLeft_some takes space fresh]), State.longEffect_pulse h]

/-- The event of a line found stuck by a run that has had its effect, with no attempt on the wire. -/
theorem State.stuckEvent_marked {t : State} {n : LineId} (sending : (t.line n).engine ≠ .sending)
    (marked : (t.line n).wire.marked = true) : t.stuckEvent n = t.withStuck n := by
  rw [State.stuckEvent, State.onLine_eq, Line.attemptFirst_marked sending marked, State.setLine_line, State.echoFirst,
    if_neg sending, State.longFirst_marked marked, State.foundStuck_eq]

/-- The event of a line found stuck in SENDING begins with the COLLISION of the attempt (R11, R71). -/
theorem State.stuckEvent_sending {t : State} {n : LineId} {c : Current} (sending : (t.line n).engine = .sending)
    (cur : (t.line n).current = some c) :
    t.stuckEvent n = ((t.setLine n ((t.line n).collided (t.ctx n) c)).longFirst n).withStuck n := by
  have collision : (t.onLine n Line.attemptFirst).echoFirst n = t.setLine n ((t.line n).collided (t.ctx n) c) := by
    by_cases ends : c.cancelReq = true ∨ c.barred = true
    · have first : (t.line n).attemptFirst (t.ctx n) = ((t.line n).headerOver c).attemptOver (t.ctx n) c .collision none := by
        have ends : (c.cancelReq || c.barred) = true := Bool.or_eq_true_iff.2 ends
        simp only [Line.attemptFirst, cur, if_pos ends, sending, Line.withHeader_eq]
      rw [State.onLine_eq, first, State.echoFirst, State.line_setLine_self, if_neg (by exact nofun), Line.collided, if_pos ends]
    · have free : c.cancelReq = false ∧ c.barred = false := by simpa using ends
      rw [State.onLine_eq, Line.attemptFirst_none (.inr (.inr (.inr ⟨c, cur, free⟩))), State.setLine_line, State.echoFirst,
        if_pos sending, State.onLine_eq, Line.collide_eq cur, Line.collided, if_neg ends]
  rw [State.stuckEvent, collision, State.foundStuck_eq]

/-- STUCK_LINE on a run in progress: time moves on to the limit, and the line is found stuck. -/
theorem exec_stuckLine_run {s : State} (live : s.Live) {n : LineId} (on : (s.line n).engine ≠ .off)
    (runs : (s.line n).run = .running ∨ (s.line n).run = .draining) (space : (s.line n).wire.space = true) :
    exec (.stuckLine n) s =
      .next ((s.elapse ((s.line n).profile.stuckLimit * 48000 - (s.line n).wire.run)).stuckEvent n).settle := by
  rw [exec_stuckLine, State.spaceMoment_some live.running space (Line.stuckLeft_some on runs space), Option.map_some,
    State.take_some live.up]

/-- The row on a line at mark is the row on the line whose run begins now. -/
theorem exec_stuckLine_begun {s : State} (live : s.Live) {n : LineId} (on : (s.line n).engine ≠ .off)
    (runs : (s.line n).run = .running ∨ (s.line n).run = .draining) :
    exec (.stuckLine n) s = exec (.stuckLine n) (s.setLine n ((s.line n).spaceRun (s.ctx n))) := by
  obtain ⟨space, engine, run⟩ := (s.line n).spaceRun_spec (s.ctx n)
  have left := Line.stuckLeft_some (l := (s.line n).spaceRun (s.ctx n)) (by rwa [engine]) (by rwa [run]) space
  have moment := State.spaceMoment_some (s := s.setLine n ((s.line n).spaceRun (s.ctx n))) (n := n) live.running
    (by rwa [State.line_setLine_self]) (left := Line.stuckLeft) (by rw [State.line_setLine_self]; exact left)
  rw [exec_stuckLine, exec_stuckLine, ← State.spaceMoment_begun s, moment, Option.map_some, State.take_some live.up]
  exact (State.take_some (by simpa using live.up)).symm

/-- Settles O42: the row is the moment of the limit, and what comes before the fault follows the engine state. -/
theorem stuckLineFaults : Obligations.StuckLineFaults := by
  intro s n live
  refine ⟨fun rest => ?_, fun on runs => ⟨fun _ => exec_stuckLine_begun live on runs, fun space => ?_⟩⟩
  · obtain ⟨-, engine, run⟩ := (s.line n).spaceRun_spec (s.ctx n)
    have none : ((s.line n).spaceRun (s.ctx n)).stuckLeft = none := Line.stuckLeft_none (by rwa [engine, run])
    rw [exec_stuckLine, State.spaceMoment_none none, Option.map_none, State.take_none]
  intro t l stuck
  have event {u : State} (h : t.stuckEvent n = u.withStuck n) : stuck u := by
    have run : exec (.stuckLine n) s = .next (t.stuckEvent n).settle := exec_stuckLine_run live on runs space
    exact run.trans (by rw [h])
  have line : l = (s.line n).elapse _ := State.line_elapse ..
  have engine : l.engine = (s.line n).engine := by rw [line, Line.elapse_engine]
  have current : l.current = (s.line n).current := by rw [line, Line.elapse_current]
  have space : l.wire.space = true := by rw [line, Line.elapse_space, space]
  have marked : l.wire.marked = (s.line n).wire.marked := by rw [line, Line.elapse_marked]
  rw [← engine, ← current, ← marked]
  have effect {u : State} (sending : l.engine ≠ .sending) (fresh : l.wire.marked = false)
      (first : l.attemptFirst (t.ctx n) = l) (h : t.longEffect n = u) : stuck u := by
    subst h
    have takes : l.engine.takesLongSpace = true := Engine.takesLongSpace_iff.2 ⟨engine ▸ on, sending⟩
    have left : l.longLeft.isSome = true := by rw [Line.longLeft_some takes space fresh]; rfl
    exact event (State.stuckEvent_effect sending left first)
  refine ⟨fun marked sending => event (State.stuckEvent_marked sending marked), fun c sending cur => ?_, fun fresh h => ?_,
    fun fresh parked => ?_, fun c fresh h cur => ?_⟩
  · intro m
    obtain ⟨rests, wire⟩ := l.collided_rests (t.ctx n) c
    have first : t.stuckEvent n = ((t.setLine n m).longFirst n).withStuck n := State.stuckEvent_sending sending cur
    have self : (t.setLine n m).line n = m := State.line_setLine_self ..
    refine ⟨fun marked => event ?_, fun fresh => event ?_⟩
    · rw [first, State.longFirst_marked (by rw [self]; exact wire ▸ marked)]
    · rw [first, State.longFirst_pulse (by rwa [self]) (by rw [self]; exact wire ▸ space)
        (by rw [self]; exact wire ▸ fresh), self, State.setLine_setLine]
  · refine effect ?_ fresh (Line.attemptFirst_none (h.imp_right .inl) _) (State.longEffect_pulse h)
    obtain h | h := h <;> simp [h]
  · intro v
    have pulse : t.longEffect n = v.wake .parked := State.longEffect_parked parked
    refine effect (by simp [parked]) fresh (Line.attemptFirst_none (.inr (.inr (.inl parked))) _) (pulse.trans ?_)
    split
    · next wakes => exact State.wake_wakes wakes.1 wakes.2
    · next sleeps => exact State.wake_sleeps (.inr ((not_and_or.1 sleeps).imp_right Bool.eq_false_of_not_eq_true))
  · intro latency
    have broken : latency = l.att.brokenLatency := rfl
    rw [broken]
    split
    · next ends => exact event (State.stuckEvent_broken (Line.attemptFirst_broken h fresh cur ends _) rfl rfl)
    · next ends =>
      have free : c.cancelReq = false ∧ c.barred = false := by simpa using ends
      refine effect ?_ fresh (Line.attemptFirst_none (.inr (.inr (.inr ⟨c, cur, free⟩))) _) (State.longEffect_broken h cur)
      obtain h | h := h <;> simp [h]

end Sys2Proof.Machine
end

section
/-! PROOFS. LINE STOP ABANDON: the stop taken, and what it concludes in its own event (R67, R91 to R93). -/

namespace Sys2Proof.Machine

theorem exec_lineStop (tag : Half) (line form : Byte) (s : State) :
    exec (.lineStop tag line form) s = s.take (s.adminRead line tag (.lineStop form)) := rfl

/-! ### The end of a drain (R91) -/

theorem Line.drainEnd_stays {l : Line} (h : l.waiting ≠ [] ∨ l.ended ≠ [] ∨ l.current ≠ none) (x : Ctx) :
    l.drainEnd x = l := by
  refine if_neg fun ends => ?_
  simp only [Bool.and_eq_true, List.isEmpty_iff, Option.isNone_iff_eq_none] at ends
  obtain ⟨⟨⟨-, waiting⟩, ended⟩, current⟩ := ends
  simp [waiting, ended, current] at h

theorem Line.drainEnd_quiet {l : Line} (draining : l.run = .draining) (waiting : l.waiting = []) (ended : l.ended = [])
    (current : l.current = none) (x : Ctx) : l.drainEnd x = l.becomeQuiet x :=
  if_pos (by simp [draining, waiting, ended, current])

/-! ### The marks at a boundary (R92) -/

/-- The waiting entries are marked in take order, URGENT before ROUTINE. -/
theorem markOrder_eq (waiting : List QEntry) : markOrder waiting =
    (waiting.filter fun e => e.cls = .urgent) ++ waiting.filter fun e => e.cls = .routine := by
  simp [markOrder, beq_eq_decide]

theorem Line.markAll_none {l : Line} (waiting : l.waiting = []) (m : Mark) (now : Word) : l.markAll m now = l := by
  have unmarked : (markOrder l.waiting).map (fun e => (⟨e, m, now⟩ : Ended)) = [] := by rw [waiting]; rfl
  rw [Line.markAll, unmarked, List.append_nil, ← waiting]

/-- A line that marks a waiting entry has an ended one. -/
theorem Line.markAll_ended {l : Line} (waiting : l.waiting ≠ []) (m : Mark) (now : Word) :
    (l.markAll m now).ended ≠ [] := by
  have marked : (markOrder l.waiting).length ≠ 0 := by rwa [length_markOrder, ne_eq, List.length_eq_zero_iff]
  refine List.append_ne_nil_of_right_ne_nil _ fun none => marked ?_
  rw [List.map_eq_nil_iff.1 none, List.length_nil]

/-! ### The abandon flag set (R67, R92) -/

/-- The line as the command abandons it: RUNNING, or DRAINING without the flag. -/
def Line.Abandoned (l k : Line) : Prop :=
  l.run = .running ∧ k = { l with
      run := .draining, abandon := true, roundTimer := none, due := [], probes := [], hunt := none
      current := l.current.map fun c => { c with huntLive := false } } ∨
    l.run = .draining ∧ l.abandon = false ∧ k = { l with abandon := true }

theorem Line.Abandoned.drains {l k : Line} (h : l.Abandoned k) : k.run = .draining ∧ k.abandon = true := by
  obtain ⟨-, rfl⟩ | ⟨draining, -, rfl⟩ := h
  · exact ⟨rfl, rfl⟩
  · exact ⟨draining, rfl⟩

theorem Line.Abandoned.stopCmd {l k : Line} (h : l.Abandoned k) (x : Ctx) :
    l.stopCmd x 1 = .ok (k.concludeStop x, .none) := by
  obtain ⟨running, rfl⟩ | ⟨draining, fresh, rfl⟩ := h
  · rw [Line.stopCmd, if_neg (by decide), if_pos running]
    rfl
  · rw [Line.stopCmd, if_neg (by decide), if_neg (by simp [draining]), if_pos ⟨rfl, fresh⟩]
    rfl

/-- LINE STOP ABANDON, accepted: the line concludes its stop in the same event. -/
theorem exec_lineStop_abandon {s : State} {line : Byte} {n : LineId} (ready : LineReady s line n) (tag : Half) {k : Line}
    (h : (s.line n).Abandoned k) : exec (.lineStop tag line 1) s =
      .next ((s.adminDone 3 (some line) tag none (.done .none)).setLine n (k.concludeStop (s.ctx n))).settle := by
  have runs : (AdminCmd.lineStop 1).runAllows (s.line n).run = true := by
    obtain ⟨running, -⟩ | ⟨draining, -, -⟩ := h
    · rw [running]; rfl
    · rw [draining]; rfl
  exact (exec_lineStop ..).trans (State.adminRead_done ready tag rfl runs (h.stopCmd (s.ctx n)))

/-! ### What the stop concludes -/

section
variable {k : Line} (abandon : k.abandon = true) (x : Ctx)
include abandon

theorem Line.concludeStop_abandon : k.concludeStop x =
    (if (k.abandonCurrent x).atBoundary then (k.abandonCurrent x).markAll .flushed x.now else k.abandonCurrent x).drainEnd x :=
  if_pos abandon

/-- An exchange outside a retry wait is left to its verdict. -/
theorem Line.concludeStop_leaves {c : Current} (cur : k.current = some c) (h : k.engine ≠ .lead ∨ c.attempts = 0) :
    k.concludeStop x = k := by
  have left : k.abandonCurrent x = k := by
    simp only [Line.abandonCurrent, cur, Line.inLead, beq_iff_eq]
    exact if_neg fun ⟨lead, tried⟩ => h.elim (· lead) (Nat.ne_of_gt tried)
  have busy : k.atBoundary ≠ true := by simp [Line.atBoundary, cur]
  rw [Line.concludeStop_abandon abandon, left, if_neg busy]
  exact Line.drainEnd_stays (.inr (.inr (by simp [cur]))) x

/-- An exchange in a retry wait ends FLUSHED, which makes the boundary. -/
theorem Line.concludeStop_retryWait {c : Current} (cur : k.current = some c) (lead : k.engine = .lead)
    (tried : 0 < c.attempts) : k.concludeStop x = ((k.endExchange x c .flushed).markAll .flushed x.now).drainEnd x := by
  have ended : k.abandonCurrent x = k.endExchange x c .flushed := by
    simp only [Line.abandonCurrent, cur, Line.inLead, beq_iff_eq]
    exact if_pos ⟨lead, tried⟩
  obtain ⟨idle, free, -⟩ := k.endExchange_spec x c .flushed
  rw [Line.concludeStop_abandon abandon, ended, if_pos ((Line.atBoundary_iff _).2 ⟨idle, free⟩)]

theorem Line.concludeStop_boundary (free : k.current = none) (idle : k.engine = .idle) :
    k.concludeStop x = (k.markAll .flushed x.now).drainEnd x := by
  have same : k.abandonCurrent x = k := by simp only [Line.abandonCurrent, free]
  rw [Line.concludeStop_abandon abandon, same, if_pos ((Line.atBoundary_iff _).2 ⟨idle, free⟩)]

end

/-- Settles O22: the stop concludes on the abandoned line, by what it finds current and queued there. -/
theorem lineStopAbandon : Obligations.LineStopAbandon := by
  intro s tag line n k ready l done abandoned
  obtain ⟨draining, abandon⟩ : k.run = .draining ∧ k.abandon = true := Line.Abandoned.drains abandoned
  have concludes {m : Line} (h : k.concludeStop (s.ctx n) = m) : done m := h ▸ exec_lineStop_abandon ready tag abandoned
  have boundary := Line.concludeStop_boundary abandon (s.ctx n)
  refine ⟨fun c cur h _ => concludes (Line.concludeStop_leaves abandon _ cur h),
    fun c cur lead tried => concludes (Line.concludeStop_retryWait abandon _ cur lead tried),
    fun free idle waiting => concludes ?_, fun free idle waiting ended => concludes ?_,
    fun free idle waiting ended => concludes ?_⟩
  · rw [boundary free idle, Line.drainEnd_stays (.inr (.inl (Line.markAll_ended waiting _ _))), Line.markAll, markOrder_eq]
    rfl
  · rw [boundary free idle, Line.markAll_none waiting, Line.drainEnd_stays (.inr (.inl ended))]
  · rw [boundary free idle, Line.markAll_none waiting, Line.drainEnd_quiet draining waiting ended free]
    rfl

end Sys2Proof.Machine
end

section
/-! PROOFS. LINE RESET: the cut-off of the current exchange, and the working state set (R70, R94, R95). -/

namespace Sys2Proof.Machine

/-! ### The cut-off (R70) -/

/-- What the hold slot holds once the current exchange is cut off: a host exchange leaves its record (R69, R70). -/
def Line.slotAfterCut (x : Ctx) (o : ExOutcome) (l : Line) : Option ExchangeRec :=
  match l.current with
  | some c =>
    match c.origin with
    | .host _ tag => some (c.record x tag o)
    | _ => l.holdSlot
  | none => l.holdSlot

theorem Line.cutOff_eq (x : Ctx) (o : ExOutcome) (l : Line) : l.cutOff x o =
    { l.engineOff with current := none, holdSlot := l.slotAfterCut x o, turn := l.turnAfter } := by
  cases cur : l.current with
  | none => simp [Line.cutOff, Line.slotAfterCut, Line.turnAfter, Line.engineOff, cur]
  | some c =>
    cases origin : c.origin with
    | host cls tag => cases cls <;> simp [Line.cutOff, Line.slotAfterCut, Line.turnAfter, cur, origin]
    | _ => simp [Line.cutOff, Line.slotAfterCut, Line.turnAfter, Line.engineOff, cur, origin]

/-! ### The reset (R94, R95) -/

/-- The entries marked by the reset itself stand FLUSHED already, so that only earlier LINE_FAULT marks change. -/
theorem map_reset_flushed (ended : List Ended) (waiting : List QEntry) (now : Word) :
    (ended ++ waiting.map fun e => (⟨e, .flushed, now⟩ : Ended)).map Ended.reset =
      ended.map Ended.reset ++ waiting.map fun e => ⟨e, .flushed, now⟩ := by
  simp [Ended.reset]

theorem Line.resetLine_eq (x : Ctx) (l : Line) : l.resetLine x = { l with
    run := .quiet, abandon := false, engine := .off, current := none, att := Attempt.clear, settleOwed := false
    wire := ⟨l.wire.space, 0, false⟩, inForce := x.power.target, pace := .none, waiting := []
    ended := l.ended.map Ended.reset ++ (markOrder l.waiting).map fun e => ⟨e, .flushed, x.now⟩
    holdSlot := l.slotAfterCut x .flushed, turn := .sweep, round := 0, roundTimer := none, due := [], probes := []
    sweepHalted := false, huntPending := false, hunt := none, stats := Stats.zero } := by
  rw [Line.resetLine, Line.cutOff_eq, ← map_reset_flushed]
  rfl

theorem exec_lineReset {s : State} {line : Byte} {n : LineId} (ready : LineReady s line n) (tag : Half) :
    exec (.lineReset tag line) s = .next
      ((s.adminDone 4 (some line) tag none (.done .none)).setLine n ((s.line n).resetLine (s.ctx n))).settle :=
  State.adminRead_done ready tag (cmd := .lineReset) rfl rfl rfl

/-- Settles O23: the row replaces the line by its reset, whose fields `resetLine_eq` gives. -/
theorem lineResetEndsEverything : Obligations.LineResetEndsEverything := by
  intro s tag line n ready l
  rw [exec_lineReset ready, Line.resetLine_eq, markOrder_eq]
  rfl

end Sys2Proof.Machine
end

section
/-! PROOFS. CANCEL: the waiting entries with the tag, and the current exchange (R65, R87, R88). -/

namespace Sys2Proof.Machine

/-- The line once CANCEL has marked the waiting entries with its tag, behind the entries already ended (R87). -/
def Line.cancelWaiting (l : Line) (target : Half) (now : Word) : Line :=
  { l with
    waiting := l.waiting.filter fun e => e.tag ≠ target
    ended := l.ended ++ (l.waiting.filter fun e => e.tag = target).map fun e => ⟨e, .cancelled, now⟩ }

theorem Line.currentHasTag_iff {l : Line} {target : Half} : l.currentHasTag target = true ↔
    ∃ c cls, l.current = some c ∧ c.origin = .host cls target := by
  unfold Line.currentHasTag
  cases cur : l.current with
  | none => simp
  | some c => cases origin : c.origin <;> simp [origin]

/-- The command counts the entries it marks, and the current exchange where that has the tag. -/
theorem Line.cancelCmd_eq (x : Ctx) (target : Half) (l : Line) : l.cancelCmd x target =
    if l.currentHasTag target then .ok ((l.cancelWaiting target x.now).cancelCurrent x,
      .cancel target ((l.waiting.filter fun e => e.tag = target).length + 1))
    else .ok (l.cancelWaiting target x.now, .cancel target (l.waiting.filter fun e => e.tag = target).length) := by
  simp only [Line.cancelCmd, Line.cancelWaiting, bne, beq_eq_decide, decide_not, ne_eq]

theorem exec_cancel {s : State} {line : Byte} {n : LineId} (ready : LineReady s line n) (tag target : Half) {l : Line}
    {count : Nat} (passes : (s.line n).cancelCmd (s.ctx n) target = .ok (l, .cancel target count)) :
    exec (.cancel tag line target) s =
      .next ((s.adminDone 13 (some line) tag none (.done (.cancel target count))).setLine n l).settle :=
  State.adminRead_done ready tag (cmd := .cancel target) rfl rfl passes

/-- In LEAD the cancelled exchange ends at once; elsewhere it is flagged (R65). -/
theorem Line.cancelCurrent_some {l : Line} {c : Current} (cur : l.current = some c) (x : Ctx) : l.cancelCurrent x =
    if l.engine = .lead then l.endExchange x { c with cancelReq := true } .cancelled
    else { l with current := some { c with cancelReq := true } } := by
  simp [Line.cancelCurrent, cur, Line.inLead]

/-- Settles O31: the command marks what waits, and the current exchange ends or is flagged where it has the tag. -/
theorem cancelMarksAndFinds : Obligations.CancelMarksAndFinds := by
  intro s tag line n target ready l found k done
  have finds {c cls m} (cur : l.current = some c) (origin : c.origin = .host cls target)
      (reached : k.cancelCurrent (s.ctx n) = m) : done (found.length + 1) m := by
    refine exec_cancel ready tag target ?_
    rw [Line.cancelCmd_eq, if_pos (Line.currentHasTag_iff.2 ⟨c, cls, cur, origin⟩), ← reached]
    rfl
  refine ⟨fun other => exec_cancel ready tag target ?_, fun c cls cur origin lead => finds cur origin ?_,
    fun c cls cur origin busy => finds cur origin ?_⟩
  · rw [Line.cancelCmd_eq, if_neg]
    · rfl
    · intro has
      obtain ⟨c, cls, cur, origin⟩ := Line.currentHasTag_iff.1 has
      exact other c cls cur origin
  · rw [Line.cancelCurrent_some (l := k) cur, if_pos lead]
    exact Line.endExchange_host (c := { c with cancelReq := true }) origin ..
  · rw [Line.cancelCurrent_some (l := k) cur, if_neg busy]

end Sys2Proof.Machine
end

section
/-! PROOFS. One examination of the arbiter's sources, in their order (R80 to R83, R105, R120, R123, R43, R44): which source it
comes to, and what taking the work of that source gives. -/

namespace Sys2Proof.Machine

/-! ### When a line selects (R81, R86) -/

/-- The line selects at a boundary: it is RUNNING, or DRAINING without the abandon flag (R81). -/
def Line.selecting (l : Line) : Prop := l.run = .running ∨ l.run = .draining ∧ l.abandon = false

theorem Line.ownOpen_iff {x : Ctx} {l : Line} :
    l.ownOpen x = true ↔ l.run = .running ∧ (x.power = .active ∨ x.power = .lull) := by
  simp [Line.ownOpen, PowerState.working_iff]

theorem Line.held_false {l : Line} : l.held = false ↔ l.holdSlot = none ∧ l.ended = [] := by
  simp [Line.held]

theorem Line.hostOpen_iff {x : Ctx} {l : Line} : l.hostOpen x = true ↔
    (l.run = .running ∧ (x.power = .active ∨ x.power = .lull) ∨ l.run = .draining ∧ l.abandon = false) ∧
      l.holdSlot = none ∧ l.ended = [] := by
  simp [Line.hostOpen, PowerState.working_iff, Line.held_false]

/-! ### What each source offers -/

/-- The host exchange on offer is the oldest waiting entry of its class (R80). -/
theorem Line.hostWork_oldest {x : Ctx} {l : Line} {cls : QClass} {e : QEntry} {front back : List QEntry}
    (hosts : l.hostOpen x = true) (isCls : e.cls = cls) (waiting : l.waiting = front ++ e :: back)
    (first : ∀ f ∈ front, f.cls ≠ cls) : l.hostWork x cls = some e := by
  have oldest : l.oldest cls = some e :=
    List.find?_eq_some_iff_append.2 ⟨by simpa using isCls, front, back, waiting, by simpa using first⟩
  exact (if_pos hosts).trans oldest

theorem Line.hostWork_absent {x : Ctx} {l : Line} {cls : QClass}
    (h : ¬ l.hostOpen x = true ∨ ∀ e ∈ l.waiting, e.cls ≠ cls) : l.hostWork x cls = none := by
  obtain shut | none := h
  · exact if_neg shut
  · simp [Line.hostWork, Line.oldest_none.2 none]

theorem Line.sweepWork_some {x : Ctx} {l : Line} {i : Nat} {rest : List Nat} (own : l.ownOpen x = true)
    (going : l.sweepHalted = false) (due : l.due = i :: rest) : l.sweepWork x = some (i, rest) := by
  simp [Line.sweepWork, own, going, due]

/-- The lowest ACTIVE record ahead of a walk is its next step, since the roster ascends (R33, R120). -/
theorem Walk.next_lowest {w : Walk} {r : List Node} {y : Node} (ascends : RosterOk r) (record : y ∈ r)
    (active : y.state = .active) (ahead : w.cursor < y.addr ∨ y.addr ∈ w.later)
    (lowest : ∀ z ∈ r, z.state = .active ∧ (w.cursor < z.addr ∨ z.addr ∈ w.later) → y.addr ≤ z.addr) :
    w.next r = some y.addr := by
  obtain ⟨a, next⟩ := Option.isSome_iff_exists.1 (Walk.next_isSome.2 ⟨y, record, active, ahead⟩)
  obtain ⟨z, found, rfl⟩ := Option.map_eq_some_iff.1 next
  obtain ⟨isAhead, passed, later, rfl, skipped⟩ := List.find?_eq_some_iff_append.1 found
  have stepped (v : Node) : (v.state == .active && w.ahead v.addr) = true ↔
      v.state = .active ∧ (w.cursor < v.addr ∨ v.addr ∈ w.later) := by simp [Walk.ahead]
  have notAbove : y.addr ≤ z.addr := lowest z (by simp) ((stepped z).1 isAhead)
  obtain before | rfl | after : y ∈ passed ∨ y = z ∨ y ∈ later := by simpa using record
  · have skip := skipped y before
    rw [(stepped y).2 ⟨active, ahead⟩] at skip
    cases skip
  · exact next
  · have above := (List.pairwise_cons.1 (List.pairwise_append.1 ascends.ascending).2.1).1 y after
    omega

/-- The first address of a list whose node is in a state. -/
theorem find?_inState {r : List Node} {st : NodeState} {a : Nat} {list front back : List Nat}
    (split : list = front ++ a :: back) (due : nodeState r a = some st) (first : ∀ b ∈ front, nodeState r b ≠ some st) :
    list.find? (fun b => nodeState r b == some st) = some a :=
  List.find?_eq_some_iff_append.2 ⟨by simpa using due, front, back, split, by simpa using first⟩

theorem find?_noneInState {r : List Node} {st : NodeState} {list : List Nat} (h : ∀ b ∈ list, nodeState r b ≠ some st) :
    list.find? (fun b => nodeState r b == some st) = none := by
  simpa using h

section
variable {l : Line} (idle : l.engine = .idle)
include idle

/-- At a boundary the probe list gives a JOINING address first, then a SILENT one, then any (R44). -/
theorem Line.nextProbe_idle : l.nextProbe =
    ((l.probes.find? fun b => nodeState l.roster b == some .joining).or
      (l.probes.find? fun b => nodeState l.roster b == some .silent)).or l.probes.head? := by
  unfold Line.nextProbe
  rw [Line.probesToStart_idle idle]
  cases l.probes.find? fun b => nodeState l.roster b == some .joining with
  | some a => rfl
  | none => cases l.probes.find? fun b => nodeState l.roster b == some .silent <;> rfl

theorem Line.nextProbe_joining {a : Nat} {front back : List Nat} (probes : l.probes = front ++ a :: back)
    (joining : nodeState l.roster a = some .joining) (first : ∀ b ∈ front, nodeState l.roster b ≠ some .joining) :
    l.nextProbe = some a := by
  rw [Line.nextProbe_idle idle, find?_inState probes joining first]
  rfl

theorem Line.nextProbe_silent {a : Nat} {front back : List Nat} (probes : l.probes = front ++ a :: back)
    (silent : nodeState l.roster a = some .silent) (first : ∀ b ∈ front, nodeState l.roster b ≠ some .silent)
    (joined : ∀ b ∈ l.probes, nodeState l.roster b ≠ some .joining) : l.nextProbe = some a := by
  rw [Line.nextProbe_idle idle, find?_noneInState joined, find?_inState probes silent first]
  rfl

/-- An address that is no longer due comes up once no other kind is left on the list. -/
theorem Line.nextProbe_stale {a : Nat} {rest : List Nat} (probes : l.probes = a :: rest)
    (stale : ∀ b ∈ l.probes, nodeState l.roster b ≠ some .joining ∧ nodeState l.roster b ≠ some .silent) :
    l.nextProbe = some a := by
  rw [Line.nextProbe_idle idle, find?_noneInState fun b hb => (stale b hb).1, find?_noneInState fun b hb => (stale b hb).2,
    probes]
  rfl

end

/-! ### The order of the sources (R81, R82) -/

theorem Line.pick_pace {l : Line} (x : Ctx) (going : l.selecting) (pace : l.pace ≠ .none) :
    l.pick x = .made (l.takePace x) := by
  refine if_pos ⟨pace, fun ⟨draining, abandon⟩ => ?_⟩
  obtain running | ⟨-, kept⟩ := going
  · simp [running] at draining
  · simp [kept] at abandon

theorem Line.pick_unpaced {l : Line} (x : Ctx) (pace : l.pace = .none) : l.pick x =
    match l.hostWork x .urgent with
    | some e => l.takeEntry x e
    | none => l.pickHunt x :=
  if_neg fun h => h.1 pace

theorem Line.pick_urgent {x : Ctx} {l : Line} {e : QEntry} (pace : l.pace = .none)
    (urgent : l.hostWork x .urgent = some e) : l.pick x = l.takeEntry x e := by
  simp only [Line.pick_unpaced x pace, urgent]

theorem Line.pick_unurgent {x : Ctx} {l : Line} (pace : l.pace = .none) (urgent : l.hostWork x .urgent = none) :
    l.pick x = l.pickHunt x := by
  simp only [Line.pick_unpaced x pace, urgent]

theorem Line.pickHunt_step {x : Ctx} {l : Line} {w : Walk} {a : Nat} (own : l.ownOpen x = true) (hunt : l.hunt = some w)
    (next : w.next l.roster = some a) : l.pickHunt x = .made (l.makeCurrent .hunt a 0x00 [] 0) := by
  simp only [Line.pickHunt, own, if_true, hunt, next]

theorem Line.pickHunt_over {x : Ctx} {l : Line} {w : Walk} (own : l.ownOpen x = true) (hunt : l.hunt = some w)
    (next : w.next l.roster = none) : l.pickHunt x = .again (l.huntEmpty.activateHunt x) := by
  simp only [Line.pickHunt, own, if_true, hunt, next]

theorem Line.pickHunt_absent {x : Ctx} {l : Line} (h : ¬ l.ownOpen x = true ∨ l.hunt = none) :
    l.pickHunt x = l.pickTurn x := by
  have none : (if l.ownOpen x then l.hunt else none) = none := by
    obtain shut | none := h
    · exact if_neg shut
    · simp [none]
  simp only [Line.pickHunt, none]

/-- The sweep's turn, or no ROUTINE entry to take it. -/
theorem Line.pickTurn_sweep {x : Ctx} {l : Line} {i : Nat} {rest : List Nat} (work : l.sweepWork x = some (i, rest))
    (turn : l.turn = .sweep ∨ l.hostWork x .routine = none) : l.pickTurn x = l.takeSweep x i rest := by
  cases routine : l.hostWork x .routine with
  | none => simp only [Line.pickTurn, work, routine]
  | some e => simp only [Line.pickTurn, work, routine, turn.resolve_right (by simp [routine]), if_true]

/-- The turn of ROUTINE, or no sweep entry to take it. -/
theorem Line.pickTurn_routine {x : Ctx} {l : Line} {e : QEntry} (routine : l.hostWork x .routine = some e)
    (turn : l.sweepWork x = none ∨ l.turn = .routine) : l.pickTurn x = l.takeEntry x e := by
  cases work : l.sweepWork x with
  | none => simp only [Line.pickTurn, work, routine]
  | some p => simp only [Line.pickTurn, work, routine, turn.resolve_left (by simp [work]), reduceCtorEq, if_false]

theorem Line.pickTurn_probe {x : Ctx} {l : Line} (work : l.sweepWork x = none) (routine : l.hostWork x .routine = none) :
    l.pickTurn x = l.pickProbe x := by
  simp only [Line.pickTurn, work, routine]

theorem Line.pickProbe_some {x : Ctx} {l : Line} {a : Nat} (own : l.ownOpen x = true) (next : l.nextProbe = some a) :
    l.pickProbe x = l.takeProbe a := by
  simp only [Line.pickProbe, own, if_true, next]

/-- At a boundary no step is current that the end of the hunt could mark. -/
theorem Line.huntEmpty_free {l : Line} (free : l.current = none) :
    l.huntEmpty = { l with hunt := none, owed := { l.owed with huntEmpty := true } } := by
  simp [Line.huntEmpty, Line.dropHunt, free]

/-! ### The work taken (R29, R83, R105, R44) -/

/-- The payload of a PACE: the divisor, high byte first, and the parity selector (R29). -/
theorem pacePayload_eq (p : Profile) : pacePayload p = [BitVec.ofNat 8 (p.divisor / 256), BitVec.ofNat 8 p.divisor,
    match p.parity with | .none => 0 | .even => 1 | .odd => 2] := by
  unfold pacePayload
  cases p.parity <;> rfl

/-- The outcome with which a waiting entry is refused at its selection, by the state of its node (R83). -/
def refusedAs (state : Option NodeState) (o : ExOutcome) : Prop :=
  state = none ∧ o = .nodeUnknown ∨ state = some .joining ∧ o = .nodeJoining ∨
    state = some .silent ∧ o = .nodeSilent ∨ state = some .barred ∧ o = .nodeBarred

theorem Line.takeEntry_made {l : Line} {e : QEntry} (goes : e.node = 0 ∨ nodeState l.roster e.node = some .active)
    (x : Ctx) : l.takeEntry x e = .made (Line.makeCurrent { l with waiting := l.waiting.erase e } (.host e.cls e.tag)
      e.node e.code e.payload e.retryLimit) := by
  by_cases broadcast : e.node = 0
  · exact if_pos broadcast
  · simp only [Line.takeEntry, broadcast, if_false, goes.resolve_left broadcast]

theorem Line.takeEntry_refused {l : Line} {e : QEntry} {o : ExOutcome} (single : e.node ≠ 0)
    (refused : refusedAs (nodeState l.roster e.node) o) (x : Ctx) :
    l.takeEntry x e = .again (Line.refuseEntry x { l with waiting := l.waiting.erase e } e o) := by
  obtain ⟨state, rfl⟩ | ⟨state, rfl⟩ | ⟨state, rfl⟩ | ⟨state, rfl⟩ := refused <;>
    simp only [Line.takeEntry, single, if_false, state]

section
variable {l : Line} {i : Nat} {e : SweepEntry} (x : Ctx) (rest : List Nat)

theorem Line.takeSweep_made (set : l.sweepAt i = some e) (active : nodeState l.roster e.node = some .active) :
    l.takeSweep x i rest = .made (Line.makeCurrent { l with due := rest } (.sweep i l.round) e.node e.code e.payload
      e.retryLimit) := by
  simp only [Line.takeSweep, set, active, if_true]

theorem Line.takeSweep_skipped (set : l.sweepAt i = some e) (inactive : nodeState l.roster e.node ≠ some .active) :
    l.takeSweep x i rest = .again (Line.queueSlot { l with due := rest } i l.round (.nonWire .skipped x.now)) := by
  simp only [Line.takeSweep, set, inactive, if_false]

theorem Line.takeSweep_cleared (cleared : l.sweepAt i = none) : l.takeSweep x i rest = .again { l with due := rest } := by
  simp only [Line.takeSweep, cleared]

end

/-- A due probe leaves the list at its place, since no address like it stands before it. -/
theorem Line.takeProbe_made {l : Line} {a : Nat} {front back : List Nat} {st : NodeState}
    (probes : l.probes = front ++ a :: back) (due : nodeState l.roster a = some st) (goes : st = .joining ∨ st = .silent)
    (first : ∀ b ∈ front, nodeState l.roster b ≠ some st) :
    l.takeProbe a = .made (Line.makeCurrent { l with probes := front ++ back } .probe a 0x00 [] 0) := by
  have left : l.probes.erase a = front ++ back := by
    rw [probes, List.erase_append_right _ fun before => first a before due, List.erase_cons_head]
  have allowed : stateAllows true (nodeState l.roster a) = true := by
    obtain rfl | rfl := goes <;> rw [due] <;> rfl
  simp only [Line.takeProbe, left, allowed, if_true]

theorem Line.takeProbe_dropped {l : Line} {a : Nat} {rest : List Nat} (probes : l.probes = a :: rest)
    (stale : nodeState l.roster a ≠ some .joining ∧ nodeState l.roster a ≠ some .silent) :
    l.takeProbe a = .again { l with probes := rest } := by
  have left : l.probes.erase a = rest := by rw [probes, List.erase_cons_head]
  have barred : stateAllows true (nodeState l.roster a) = false := by
    obtain ⟨notJoining, notSilent⟩ := stale
    cases state : nodeState l.roster a with
    | none => rfl
    | some st =>
      cases st with
      | joining => exact absurd state notJoining
      | silent => exact absurd state notSilent
      | active => rfl
      | barred => rfl
  simp [Line.takeProbe, left, barred]

end Sys2Proof.Machine
end

section
/-! PROOFS. The arbiter at an exchange boundary: its turn follows from one examination of its sources (R80, R81, R92). -/

namespace Sys2Proof.Machine

theorem Line.arbitrate_resting {l : Line} (rest : l.resting) (x : Ctx) : l.arbitrate x =
    match l.run with
    | .running => l.select x
    | .draining => if l.abandon then l.markAll .flushed x.now else l.select x
    | .quiet => l
    | .faulted => l :=
  if_pos ((Line.atBoundary_iff l).2 rest)

theorem Line.arbitrate_select {l : Line} (rest : l.resting) (going : l.selecting) (x : Ctx) : l.arbitrate x = l.select x := by
  obtain running | ⟨draining, kept⟩ := going
  · simp only [Line.arbitrate_resting rest, running]
  · simp [Line.arbitrate_resting rest, draining, kept]

/-- A disposal leaves the line at its boundary, and still selecting. -/
theorem Line.pick_again_selecting {x : Ctx} {l k : Line} (rest : l.resting) (going : l.selecting) (h : l.pick x = .again k) :
    k.resting ∧ k.selecting := by
  obtain ⟨idle, free⟩ := rest
  have works := Line.pick_works x ⟨idle, free, going.imp_right (·.1)⟩
  have nearer := Line.pick_nearer x l
  rw [h] at works nearer
  cases works with
  | again works still =>
    cases nearer with
    | again fewer onward =>
      refine ⟨⟨still.idle, still.free⟩, ?_⟩
      obtain running | ⟨-, kept⟩ := going
      · exact .inl ((works.kept.run (by simp [running])).trans running)
      · exact still.going.imp_right fun draining => ⟨draining, onward.abandon.trans kept⟩

section
variable {x : Ctx} {l k : Line} (rest : l.resting) (going : l.selecting)
include rest going

theorem Line.arbitrate_made (h : l.pick x = .made k) : l.arbitrate x = k :=
  (Line.arbitrate_select rest going x).trans (Line.select_made h)

theorem Line.arbitrate_again (h : l.pick x = .again k) : l.arbitrate x = k.arbitrate x := by
  obtain ⟨still, goesOn⟩ := Line.pick_again_selecting rest going h
  rw [Line.arbitrate_select rest going, Line.select_again h, Line.arbitrate_select still goesOn]

theorem Line.arbitrate_nothing (h : l.pick x = .nothing) : l.arbitrate x = l :=
  (Line.arbitrate_select rest going x).trans (Line.select_nothing h)

end

/-- Settles O50: each clause follows from what one examination of the sources gives there. -/
theorem selectionTakesTheSourcesInOrder : Obligations.SelectionTakesTheSourcesInOrder := by
  intro x l idle free m goesOn works drains hosts selects oldest noHost taken takes noSweep announced state
  have rest : l.resting := ⟨idle, free⟩
  have ownOpen : l.ownOpen x = true ↔ works := Line.ownOpen_iff
  have hostOpen : l.hostOpen x = true ↔ hosts := Line.hostOpen_iff
  have noWork {cls} (h : noHost cls) : l.hostWork x cls = none := Line.hostWork_absent (h.imp_left (mt hostOpen.1))
  have found {cls e} : oldest cls e → l.hostWork x cls = some e :=
    fun ⟨opens, isCls, _, _, waiting, _, first⟩ => Line.hostWork_oldest (hostOpen.2 opens) isCls waiting first
  refine ⟨?_, fun draining abandon => ?_, fun going => ⟨fun pending => ?_, fun pace => ?_⟩⟩
  · rintro (run | run) <;> simp only [m, Line.arbitrate_resting rest, run]
  · simp only [m, Line.arbitrate_resting rest, draining, abandon, if_true, Line.markAll, markOrder_eq]
  · have taken := Line.arbitrate_made rest going (Line.pick_pace x going pending)
    rw [Line.takePace, pacePayload_eq] at taken
    exact taken
  have made {k} : l.pick x = .made k → m = k := Line.arbitrate_made rest going
  have again {k} : l.pick x = .again k → goesOn k := Line.arbitrate_again rest going
  have taking {e} (pick : l.pick x = l.takeEntry x e) : takes e :=
    ⟨fun goes => made (pick.trans (Line.takeEntry_made goes x)),
      fun o single refused => again (pick.trans (Line.takeEntry_refused single refused x))⟩
  refine ⟨fun e urgent => taking (Line.pick_urgent pace (found urgent)), fun noUrgent => ?_⟩
  have hunts : l.pick x = l.pickHunt x := Line.pick_unurgent pace (noWork noUrgent)
  refine ⟨fun w own hunt => ⟨fun y record ascends ⟨active, lies⟩ lowest => ?_, fun bare => ?_⟩, fun noHunt => ?_⟩
  · have next : w.next l.roster = some y.addr := Walk.next_lowest ascends record active lies lowest
    exact made (hunts.trans (Line.pickHunt_step (ownOpen.2 own) hunt next))
  · have ended : w.next l.roster = none :=
      Walk.next_none.2 fun y record active => not_or.1 fun lies => bare y record ⟨active, lies⟩
    rw [← Line.huntEmpty_free free]
    exact again (hunts.trans (Line.pickHunt_over (ownOpen.2 own) hunt ended))
  have turns : l.pick x = l.pickTurn x := hunts.trans (Line.pickHunt_absent (noHunt.imp_left (mt ownOpen.1)))
  have noDue (h : noSweep) : l.sweepWork x = none :=
    Line.sweepWork_none.2 fun own => h.resolve_left (not_not.2 (ownOpen.1 own))
  refine ⟨fun i due own unhalted isDue turn => ?_, fun e routine turn => ?_, fun swept noRoutine => ?_⟩
  · have sweeps : l.pick x = l.takeSweep x i due := turns.trans
      (Line.pickTurn_sweep (Line.sweepWork_some (ownOpen.2 own) unhalted isDue) (turn.imp_right noWork))
    exact ⟨fun e set active => made (sweeps.trans (Line.takeSweep_made x due set active)),
      fun e set inactive => again (sweeps.trans (Line.takeSweep_skipped x due set inactive)),
      fun cleared => again (sweeps.trans (Line.takeSweep_cleared x due cleared))⟩
  · exact taking (turns.trans (Line.pickTurn_routine (found routine) (turn.imp_left noDue)))
  have probe : l.pick x = l.pickProbe x := turns.trans (Line.pickTurn_probe (noDue swept) (noWork noRoutine))
  have probes {a} (own : works) (next : l.nextProbe = some a) : l.pick x = l.takeProbe a :=
    probe.trans (Line.pickProbe_some (ownOpen.2 own) next)
  refine ⟨fun front a back own split joining first => ?_, fun front a back own split silent first joined => ?_,
    fun a left own split stale => ?_, fun done => ?_⟩
  · exact made ((probes own (Line.nextProbe_joining idle split joining first)).trans
      (Line.takeProbe_made split joining (.inl rfl) first))
  · exact made ((probes own (Line.nextProbe_silent idle split silent first joined)).trans
      (Line.takeProbe_made split silent (.inr rfl) first))
  · exact again ((probes own (Line.nextProbe_stale idle split stale)).trans
      (Line.takeProbe_dropped split (stale a (by simp [split]))))
  · refine Line.arbitrate_nothing rest going (probe.trans (Line.pickProbe_nothing.2 fun own => ?_))
    rw [Line.probesToStart_idle idle]
    exact done.resolve_left (not_not.2 (ownOpen.1 own))

end Sys2Proof.Machine
end

section
/-! PROOFS. SWEEP SET, SWEEP CLEAR and SWEEP IMAGE (R98 to R100, R107). -/

namespace Sys2Proof.Machine

/-! ### SWEEP SET -/

theorem exec_sweepSet {e : RawSweep} (formed : e.wellFormed = true) (tag : Half) (line : Byte) (s : State) :
    exec (.sweepSet tag line e) s = s.take (s.adminRead line tag (.sweepSet e)) := if_pos formed

/-- The seven field checks (R98). -/
theorem sweepFieldsOk_iff (e : RawSweep) : sweepFieldsOk e = true ↔
    e.index.toNat ≤ 47 ∧ (1 ≤ e.node.toNat ∧ e.node.toNat ≤ 62) ∧ e.code ≠ 1 ∧ e.length.toNat ≤ 16 ∧
      (e.cadence = 1 ∨ e.cadence = 2 ∨ e.cadence = 4 ∨ e.cadence = 8) ∧ e.phase.toNat < e.cadence.toNat ∧
      e.retry.toNat ≤ 3 := by
  simp only [sweepFieldsOk, Bool.and_eq_true, Bool.or_eq_true, decide_eq_true_eq, beq_iff_eq, bne_iff_ne, addressOk_iff,
    and_assoc, or_assoc]

theorem Line.sweepSetCmd_badField {e : RawSweep} (bad : ¬ sweepFieldsOk e = true) (l : Line) :
    l.sweepSetCmd e = .error .badField := by
  simp [Line.sweepSetCmd, bad]

/-- The checks of SWEEP SET on an entry whose fields pass (R98). -/
theorem Line.sweepSetCmd_fieldsOk {e : RawSweep} (good : sweepFieldsOk e = true) (l : Line) : l.sweepSetCmd e =
    if e.node.toNat ∉ l.roster.map (·.addr) then .error .unknownNode
    else if l.run = .running ∧ l.imageBase = none then .error .noImage
    else .ok (l.putSweep e.index.toNat (some (sweepEntryOf e)), .none) := by
  simp only [Line.sweepSetCmd, good, Option.isNone_iff_eq_none, findNode_none]
  rfl

/-- Settles O29: each clause is a branch of the command's checks, and the last reads the table with the entry put in. -/
theorem sweepSetSetsTheEntry : Obligations.SweepSetSetsTheEntry := by
  intro s tag line n e ready formed l good refusal
  have fields : sweepFieldsOk e = true ↔ good := sweepFieldsOk_iff e
  have fails {r : Reason} (h : l.sweepSetCmd e = .error r) : refusal r :=
    (exec_sweepSet formed tag line s).trans (State.adminRead_refused ready tag rfl rfl h)
  refine ⟨fun bad => fails (Line.sweepSetCmd_badField (mt fields.1 bad) l), fun ok absent => fails ?_,
    fun ok present running noBase => fails ?_,
    fun ok present based => ⟨l.putSweep e.index.toNat (some (sweepEntryOf e)), fun j => ?_, rfl, ?_⟩⟩
  · rw [Line.sweepSetCmd_fieldsOk (fields.2 ok), if_pos absent]
  · rw [Line.sweepSetCmd_fieldsOk (fields.2 ok), if_neg (not_not.2 present), if_pos ⟨running, noBase⟩]
  · exact Line.sweepAt_putSweep l _ j _ (sweepFieldsOk_index (fields.2 ok))
  · have passes := Line.sweepSetCmd_fieldsOk (fields.2 ok) l
    rw [if_neg (not_not.2 present), if_neg (not_and_or.2 based)] at passes
    exact (exec_sweepSet formed tag line s).trans (State.adminRead_done ready tag rfl rfl passes)

/-! ### SWEEP CLEAR and SWEEP IMAGE -/

theorem exec_sweepClear (tag : Half) (line i : Byte) (s : State) :
    exec (.sweepClear tag line i) s = s.take (s.adminRead line tag (.sweepClear i)) := rfl

theorem exec_sweepImage (tag : Half) (line : Byte) (b : Addr) (s : State) :
    exec (.sweepImage tag line b) s = s.take (s.adminRead line tag (.sweepImage b)) := rfl

/-- Settles O30: each clause is a branch of its command's one check. -/
theorem sweepClearAndSweepImage : Obligations.SweepClearAndSweepImage := by
  intro s tag line n ready l
  refine ⟨fun i high => ?_, fun i low => ?_, fun b quiet bad => ?_, fun b quiet aligned fits => ?_⟩
  · rw [exec_sweepClear]
    exact State.adminRead_refused ready tag rfl rfl (if_pos high)
  · have cleared := fun j => Line.sweepAt_putSweep l i.toNat j none (Nat.lt_succ_of_le low)
    refine ⟨{ l.putSweep i.toNat none with due := l.due.erase i.toNat }, cleared, rfl, rfl, ?_⟩
    rw [exec_sweepClear]
    exact State.adminRead_done ready tag rfl rfl (if_neg (Nat.not_lt.2 low))
  · rw [exec_sweepImage]
    exact State.adminRead_refused ready tag rfl (by rw [quiet]; rfl) (if_pos bad)
  · have good : ¬ (b.toNat % 64 ≠ 0 ∨ 2 ^ 64 < b.toNat + Config.imageBytes) :=
      not_or.2 ⟨not_not.2 aligned, Nat.not_lt.2 fits⟩
    rw [exec_sweepImage]
    exact State.adminRead_done ready tag rfl (by rw [quiet]; rfl) (if_neg good)

end Sys2Proof.Machine
end

section
/-! PROOFS. The sweep-image writer: the ends of a slot write's two grants, and the writes that wait (R109, R114). -/

namespace Sys2Proof.Machine

/-! ### The ends of the two grants -/

theorem exec_slotBodyWriteDone {s : State} {n : LineId} {a : Addr} {bytes : List Byte}
    (serving : s.Serving (.slotBody n a bytes)) (resp : Resp) :
    exec (.slotBodyWriteDone resp) s = .next (s.released.bodyWritten n resp).settle := by
  have taken : exec (.slotBodyWriteDone resp) s = execSlotBodyWriteDone resp s := rfl
  rw [taken, execSlotBodyWriteDone, State.endTransfer_acts serving rfl, State.take_some serving.up]

theorem exec_slotStampWriteDone {s : State} {n : LineId} {a : Addr} {bytes : List Byte}
    (serving : s.Serving (.slotStamp n a bytes)) (resp : Resp) :
    exec (.slotStampWriteDone resp) s = .next (s.released.stampWritten n resp).settle := by
  have taken : exec (.slotStampWriteDone resp) s = execSlotStampWriteDone resp s := rfl
  rw [taken, execSlotStampWriteDone, State.endTransfer_acts serving rfl, State.take_some serving.up]

theorem Line.bodyWritten_busy {l : Line} {w : SlotWrite} (body : l.writer.busy = some (w, .body)) :
    l.bodyWritten = { l with writer := ⟨l.writer.waiting, some (w, .stamp)⟩ } := by
  simp [Line.bodyWritten, body]

theorem Line.stampWritten_last {l : Line} (last : l.writer.waiting = []) :
    l.stampWritten = { l with writer := ⟨[], none⟩ } := by
  simp [Line.stampWritten, Writer.start, last]

theorem Line.stampWritten_next {l : Line} {v : SlotWrite} {rest : List SlotWrite} (next : l.writer.waiting = v :: rest) :
    l.stampWritten = { l with writer := ⟨rest, some (v, .body)⟩ } := by
  simp [Line.stampWritten, Writer.start, next]

/-! ### A write joins those that wait -/

/-- A busy writer goes on with its write. -/
theorem Writer.start_busy (waiting : List SlotWrite) (b : SlotWrite × SlotPhase) :
    Writer.start ⟨waiting, some b⟩ = ⟨waiting, some b⟩ := rfl

theorem joinWrites_fresh {w : SlotWrite} : ∀ {ws : List SlotWrite}, (∀ v ∈ ws, v.index ≠ w.index) →
    joinWrites w ws = ws ++ [w]
  | [], _ => rfl
  | x :: xs, fresh => by
    have rest : joinWrites w xs = xs ++ [w] := joinWrites_fresh fun v hv => fresh v (List.mem_cons_of_mem x hv)
    simp [joinWrites, fresh x List.mem_cons_self, rest]

theorem joinWrites_replaces {w v : SlotWrite} (same : v.index = w.index) (back : List SlotWrite) :
    ∀ {front : List SlotWrite}, (∀ u ∈ front, u.index ≠ w.index) →
      joinWrites w (front ++ v :: back) = front ++ w :: back
  | [], _ => by simp [joinWrites, same]
  | x :: xs, first => by
    have rest : joinWrites w (xs ++ v :: back) = xs ++ w :: back :=
      joinWrites_replaces same back fun u hu => first u (List.mem_cons_of_mem x hu)
    simp [joinWrites, first x List.mem_cons_self, rest]

theorem Line.queueSlot_halted {l : Line} (halted : l.sweepHalted = true) (i : Nat) (stamp : Word) (body : SlotBody) :
    l.queueSlot i stamp body = l := by
  unfold Line.queueSlot
  split
  · rfl
  · exact if_pos halted

/-- A write queued on a line whose sweep is not halted joins the waiting ones at its slot's address, and a free writer
starts (R109). -/
theorem Line.queueSlot_joins {l : Line} {base : Addr} (image : l.imageBase = some base) (runs : l.sweepHalted = false)
    (i : Nat) (stamp : Word) (body : SlotBody) : l.queueSlot i stamp body = { l with
      writer := Writer.start
        ⟨joinWrites ⟨i, base + BitVec.ofNat 64 (64 * i), stamp, body⟩ l.writer.waiting, l.writer.busy⟩ } := by
  simp [Line.queueSlot, image, runs]

/-- Settles O46: the ends of the grants are the writer's own steps, and a queued write joins by its index. -/
theorem slotWritesGoBodyThenStamp : Obligations.SlotWritesGoBodyThenStamp := by
  constructor
  · intro s n a bytes w l fault
    refine ⟨fun serving body => ⟨?_, exec_slotBodyWriteDone serving .busError⟩, fun serving => ⟨fun last => ?_,
      fun v rest next => ?_, exec_slotStampWriteDone serving .busError⟩⟩
    · rw [exec_slotBodyWriteDone serving, ← Line.bodyWritten_busy body]
      rfl
    · rw [exec_slotStampWriteDone serving, ← Line.stampWritten_last last]
      rfl
    · rw [exec_slotStampWriteDone serving, ← Line.stampWritten_next next]
      rfl
  · intro l i stamp body base image w
    refine ⟨fun halted => Line.queueSlot_halted halted i stamp body, fun runs => ?_⟩
    rw [Line.queueSlot_joins image runs]
    refine ⟨fun free => ?_, fun b busy fresh => ?_, fun b front v back busy split same first => ?_⟩
    · rw [free]
      rfl
    · rw [busy, joinWrites_fresh fresh, Writer.start_busy]
    · rw [busy, split, joinWrites_replaces same back first, Writer.start_busy]

end Sys2Proof.Machine
end

section
/-! PROOFS. A line's own work in an event: the hunt test, the end of a drain and parking (R119, R91, R179); and the order of
that work and the admissions (log entry 8). -/

namespace Sys2Proof.Machine

/-! ### The hunt test (R119) -/

theorem Line.activateHunt_untested {l : Line} {x : Ctx} (untested : ¬ (l.huntPending = true ∧ l.hunt = none ∧
    l.run = .running ∧ (x.power = .active ∨ x.power = .lull))) : l.activateHunt x = l :=
  if_neg (by simpa [PowerState.working_iff] using untested)

/-- Every address lies above the start of a walk, so a walk can start exactly if a record is ACTIVE. -/
theorem Walk.start_next_isSome {r : List Node} (ok : RosterOk r) :
    (Walk.start.next r).isSome = true ↔ ∃ y ∈ r, y.state = .active := by
  rw [Walk.next_isSome]
  constructor
  · rintro ⟨y, record, active, -⟩
    exact ⟨y, record, active⟩
  · rintro ⟨y, record, active⟩
    exact ⟨y, record, active, .inl (ok.inRange y record).addr_low⟩

section
variable {l : Line} {x : Ctx} (pending : l.huntPending = true) (noHunt : l.hunt = none) (running : l.run = .running)
  (working : x.power = .active ∨ x.power = .lull)
include pending noHunt running working

theorem Line.activateHunt_tests : l.activateHunt x =
    if (Walk.start.next l.roster).isSome then { l with hunt := some Walk.start, huntPending := false }
    else { l.huntEmpty with huntPending := false } :=
  if_pos (by simp [pending, noHunt, running, PowerState.working_iff, working])

theorem Line.activateHunt_starts (ok : RosterOk l.roster) (active : ∃ y ∈ l.roster, y.state = .active) :
    l.activateHunt x = { l with hunt := some Walk.start, huntPending := false } :=
  (Line.activateHunt_tests pending noHunt running working).trans (if_pos ((Walk.start_next_isSome ok).2 active))

theorem Line.activateHunt_empty (ok : RosterOk l.roster) (inactive : ∀ y ∈ l.roster, y.state ≠ .active) :
    l.activateHunt x = { l.huntEmpty with huntPending := false } := by
  refine (Line.activateHunt_tests pending noHunt running working).trans (if_neg fun starts => ?_)
  obtain ⟨y, record, active⟩ := (Walk.start_next_isSome ok).1 starts
  exact inactive y record active

end

/-! ### The end of a drain (R91) and parking (R179) -/

theorem Line.drainEnd_unended {l : Line} (unended : ¬ (l.run = .draining ∧ l.waiting = [] ∧ l.ended = [] ∧
    l.current = none)) (x : Ctx) : l.drainEnd x = l :=
  if_neg (by simpa using unended)

theorem Line.park_unparked {l : Line} {x : Ctx} (unparked : ¬ (l.run = .running ∧ x.power = .dozePending ∧
    l.engine = .idle ∧ l.current = none ∧ l.pace = .none)) : l.park x = l :=
  if_neg (by simpa [Line.atBoundary] using unparked)

theorem Line.park_parked {l : Line} {x : Ctx} (running : l.run = .running) (dozing : x.power = .dozePending)
    (rest : l.resting) (unpaced : l.pace = .none) : l.park x = { l with engine := .parked } :=
  if_pos (by simp [running, dozing, (Line.atBoundary_iff l).2 rest, unpaced])

/-! ### The lines' work and the admissions it makes room for (log entry 8) -/

theorem State.work_idle {s : State} (idle : s.part ≠ .running) : s.work = s := if_neg idle

theorem State.work_running {s : State} (running : s.part = .running) :
    s.work = s.admitAll.workLoop (Config.holdingCapacity + 1) := if_pos running

theorem State.workLoop_ends {s : State} (full : s.workLines.admitNext = none) (k : Nat) :
    s.workLoop (k + 1) = s.workLines := by
  simp only [State.workLoop, full]

theorem State.workLoop_goesOn {s t : State} (admits : s.workLines.admitNext = some t) (k : Nat) :
    s.workLoop (k + 1) = t.admitAll.workLoop k := by
  simp only [State.workLoop, admits]

theorem State.admitAll_works (s : State) : s.Works s.admitAll := State.admitLoop_works _ s

/-- An admission that the lines' work gives rise to goes on as the consequences of an event of its own: its record has
taken a place of the holding queue, so the rounds left are enough. -/
theorem State.work_goesOn {s t : State} (running : s.part = .running) (admits : s.admitAll.workLines.admitNext = some t) :
    s.work = t.work := by
  obtain ⟨works, lively, place⟩ := State.admitNext_works admits
  have still : t.part = .running := works.kept.part.trans lively
  have later : t.admitAll.part = .running := t.admitAll_works.kept.part.trans still
  have held : t.cu.holding.length ≤ t.admitAll.cu.holding.length := t.admitAll_works.kept.holding.length_le
  calc s.work
    _ = s.admitAll.workLoop (Config.holdingCapacity + 1) := State.work_running running
    _ = t.admitAll.workLoop Config.holdingCapacity := State.workLoop_goesOn admits _
    _ = t.admitAll.workLoop (Config.holdingCapacity + 1) :=
      (State.workLoop_more 16 later (by omega) (by decide)).symm
    _ = t.work := (State.work_running still).symm

/-- Settles O51: each part of a line's own work by the cases of its own test, and the rounds of work by the first of them. -/
theorem linesDoTheirOwnWork : Obligations.LinesDoTheirOwnWork := by
  refine ⟨fun x l => ⟨rfl, ⟨Line.activateHunt_untested, ?_⟩, ⟨fun unended => Line.drainEnd_unended unended x, ?_⟩,
    ⟨Line.park_unparked, ?_⟩⟩, fun s => ⟨rfl, State.work_idle, fun running => ⟨fun full => ?_, fun t admits => ?_⟩⟩⟩
  · rintro ⟨pending, noHunt, running, working⟩ ok
    exact ⟨Line.activateHunt_starts pending noHunt running working ok,
      Line.activateHunt_empty pending noHunt running working ok⟩
  · rintro ⟨draining, waiting, ended, free⟩
    exact Line.drainEnd_quiet draining waiting ended free x
  · rintro ⟨running, dozing, idle, free, unpaced⟩
    exact Line.park_parked running dozing ⟨idle, free⟩ unpaced
  · exact (State.work_running running).trans (State.workLoop_ends full _)
  · exact State.work_goesOn running admits

end Sys2Proof.Machine
end

section
/-! PROOFS. The rotations of the Fetch Unit and of the Memory Port: which ring is visited next, and which requester is served
next (R135, R136, R142, R144, R154). -/

namespace Sys2Proof.Machine

/-! ### Members of a rotation by their turns -/

/-- In a list of rising keys, the search finds the member of lowest key among those that answer. -/
theorem findSome?_lowest {α β : Type} {f : α → Option β} {key : α → Nat} {r : α} {b : β} (answers : f r = some b)
    (lowest : ∀ q, f q ≠ none → key r ≤ key q) :
    ∀ {xs : List α}, xs.Pairwise (fun a b => key a < key b) → r ∈ xs → xs.findSome? f = some b
  | y :: ys, rises, member => by
    obtain ⟨above, rises⟩ := List.pairwise_cons.1 rises
    obtain rfl | behind := List.mem_cons.1 member
    · simp [answers]
    · have silent : f y = none := by
        by_contra speaks
        exact Nat.not_lt.2 (lowest y speaks) (above r behind)
      rw [List.findSome?_cons, silent]
      exact findSome?_lowest answers lowest rises behind

theorem find?_lowest {α : Type} {p : α → Bool} {key : α → Nat} {r : α} (passes : p r = true)
    (lowest : ∀ q, p q = true → key r ≤ key q) {xs : List α} (rises : xs.Pairwise fun a b => key a < key b)
    (member : r ∈ xs) : xs.find? p = some r := by
  rw [List.find?_eq_findSome?_guard]
  exact findSome?_lowest (by simp [passes]) (fun q answers => lowest q (by simpa using answers)) rises member

theorem RingId.rotation_rises : ∀ p : RingId,
    p.rotation.Pairwise fun a b => turnsBefore 5 p.number a.number < turnsBefore 5 p.number b.number
  | .admin => by decide
  | .line n => by fin_cases n <;> decide

theorem RingId.mem_rotation : ∀ p r : RingId, r ∈ p.rotation
  | .admin, .admin => by decide
  | .admin, .line m => by fin_cases m <;> decide
  | .line n, .admin => by fin_cases n <;> decide
  | .line n, .line m => by fin_cases n <;> fin_cases m <;> decide

theorem Requester.rotation_rises : ∀ p : Requester,
    p.rotation.Pairwise fun a b => turnsBefore 6 p.number a.number < turnsBefore 6 p.number b.number
  | .fetch => by decide
  | .completion => by decide
  | .writer n => by fin_cases n <;> decide

theorem Requester.mem_rotation : ∀ p q : Requester, q ∈ p.rotation
  | .fetch, .fetch | .fetch, .completion | .completion, .fetch | .completion, .completion => by decide
  | .fetch, .writer m | .completion, .writer m => by fin_cases m <;> decide
  | .writer n, .fetch | .writer n, .completion => by fin_cases n <;> decide
  | .writer n, .writer m => by fin_cases n <;> fin_cases m <;> decide

/-! ### The Fetch Unit's visit -/

theorem State.eligible_iff (s : State) (r : RingId) : s.eligible r = true ↔
    s.part = .running ∧ (s.ring r).state = .opened ∧ (s.ring r).taken ≠ (s.ring r).posted ∧
      match r with
      | .admin => s.admin = none
      | .line n => (s.line n).run = .running ∧ (s.line n).waiting.length + (s.line n).ended.length < 16 ∧
        (s.power.state = .active ∨ s.power.state = .lull) := by
  have room (l : Line) : decide (l.depth < Config.queueCapacity) = true ↔ l.waiting.length + l.ended.length < 16 :=
    decide_eq_true_iff
  cases r <;> simp [State.eligible, State.ownCondition, room, PowerState.working_iff, and_assoc]

/-- The Fetch Unit is busy while a read is requested or in progress (R136). -/
theorem State.fetchBusy_iff (s : State) : s.fetchBusy = true ↔ s.fetch.request ≠ none ∨
    (∃ a, s.port.transfer = some (.setupRead a)) ∨ ∃ r a, s.port.transfer = some (.entryRead r a) := by
  cases t : s.port.transfer with
  | none => simp [State.fetchBusy, t, Option.isSome_iff_ne_none]
  | some x => cases x <;> simp [State.fetchBusy, t, Transfer.isRead, Option.isSome_iff_ne_none]

theorem State.fetchVisit_waits {s : State} (h : s.fetchBusy = true ∨ ∀ r, s.eligible r = false) : s.fetchVisit = s := by
  unfold State.fetchVisit
  split
  · rfl
  · next free =>
    have nothing : s.fetch.pointer.rotation.find? s.eligible = none :=
      List.find?_eq_none.2 fun r _ => by simp [h.resolve_left free r]
    rw [nothing]

theorem State.fetchVisit_visits {s : State} {r : RingId} (free : ¬ s.fetchBusy = true) (eligible : s.eligible r = true)
    (first : ∀ q, s.eligible q = true →
      turnsBefore 5 s.fetch.pointer.number r.number ≤ turnsBefore 5 s.fetch.pointer.number q.number) :
    s.fetchVisit = { s with fetch := ⟨some (.entry r, s.entryAddr r), r⟩ } := by
  have found : s.fetch.pointer.rotation.find? s.eligible = some r :=
    find?_lowest eligible first (RingId.rotation_rises _) (RingId.mem_rotation _ r)
  rw [State.fetchVisit, if_neg free, found]

theorem State.entryAddr_eq {s : State} {u : Setup} (held : s.setup = some u) (r : RingId) : s.entryAddr r =
    u.ringBase r + BitVec.ofNat 64 (64 * ((s.ring r).taken.toNat % u.ringSize r)) := by
  simp only [State.entryAddr, held]

/-- Settles O54: the visit takes the first eligible ring of the rotation, in which each ring has its own turn. -/
theorem fetchVisitTakesTheNextEligibleRing : Obligations.FetchVisitTakesTheNextEligibleRing := by
  intro s
  refine ⟨rfl, s.eligible_iff, ?_⟩
  rw [← s.fetchBusy_iff]
  refine ⟨State.fetchVisit_waits, fun r u free held eligible first => ?_⟩
  rw [State.fetchVisit_visits free eligible first, State.entryAddr_eq held]
  cases r <;> rfl

/-! ### What the requesters ask for -/

theorem State.wanted_fetch (s : State) : s.wanted .fetch =
    match s.fetch.request with
    | some (.setup, a) => some (.setupRead a)
    | some (.entry r, a) => some (.entryRead r a)
    | none => none := by
  unfold State.wanted
  rcases s.fetch.request with _ | ⟨_ | r, a⟩ <;> rfl

/-- Only the Fetch Unit asks while the part does not run. -/
theorem State.wanted_idle {s : State} (idle : s.part ≠ .running) {q : Requester} (other : q ≠ .fetch) :
    s.wanted q = none := by
  cases q with
  | fetch => exact absurd rfl other
  | completion => exact if_pos idle
  | writer n => exact if_pos idle

/-- A record may be written (R154). -/
theorem State.recordReady_iff {s : State} {u : Setup} (held : s.setup = some u) : s.recordReady = true ↔
    s.cu.holding ≠ [] ∧ (s.cu.produced - s.cu.consumed).toNat < u.completionSize := by
  simp [State.recordReady, State.completionSize, CompletionUnit.unconsumed, held]

section
variable {s : State} (running : s.part = .running)
include running

theorem State.wanted_status (marked : s.cu.statusPending = true)
    (turn : s.cu.prevRecord = true ∨ ¬ s.recordReady = true) :
    s.wanted .completion = some (.statusWrite s.statusAddr s.statusBytes) := by
  rw [Bool.not_eq_true] at turn
  simp [State.wanted, running, marked, turn]

theorem State.wanted_record (turn : s.cu.statusPending = false ∨ s.cu.prevRecord = false) {c : Completion}
    {rest : List Completion} (head : s.cu.holding = c :: rest) (ready : s.recordReady = true) :
    s.wanted .completion = some (.recordWrite s.recordAddr c.bytes) := by
  obtain unmarked | written := turn
  · simp [State.wanted, running, head, ready, unmarked]
  · simp [State.wanted, running, head, ready, written]

theorem State.wanted_nothing (unmarked : s.cu.statusPending = false) (unready : ¬ s.recordReady = true) :
    s.wanted .completion = none := by
  cases head : s.cu.holding <;> simp [State.wanted, running, unmarked, unready, head]

theorem State.wanted_writer (n : LineId) : s.wanted (.writer n) =
    match (s.line n).writer.busy with
    | some (w, .body) => some (.slotBody n (w.addr + 4) w.body.bytes)
    | some (w, .stamp) => some (.slotStamp n w.addr (leBytes 4 w.stamp.toNat))
    | none => none :=
  if_neg (not_not.2 running)

end

/-! ### The grant -/

theorem State.portOpen_iff (s : State) : s.portOpen = true ↔
    s.port.transfer = none ∧ s.softPending = false ∧ (s.part = .loading ∨ s.part = .running) := by
  simp [State.portOpen, and_assoc]

theorem State.grant_closed {s : State} (h : ¬ s.portOpen = true) : s.grant = s := if_neg h

theorem State.grant_unasked {s : State} (silent : ∀ q, s.wanted q = none) : s.grant = s := by
  unfold State.grant
  split
  · have nothing : (s.port.last.rotation.findSome? fun r => (s.wanted r).map fun t => (r, t)) = none :=
      List.findSome?_eq_none_iff.2 fun r _ => by rw [silent r, Option.map_none]
    rw [nothing]
  · rfl

theorem State.grant_serves {s : State} {q : Requester} {x : Transfer} (free : s.portOpen = true)
    (asks : s.wanted q = some x)
    (first : ∀ p, s.wanted p ≠ none →
      turnsBefore 6 s.port.last.number q.number ≤ turnsBefore 6 s.port.last.number p.number) :
    s.grant = { s.begun x with port := ⟨some x, q⟩ } := by
  have found : (s.port.last.rotation.findSome? fun r => (s.wanted r).map fun t => (r, t)) = some (q, x) :=
    findSome?_lowest (by rw [asks, Option.map_some]) (fun p speaks => first p (by simpa using speaks))
      (Requester.rotation_rises _) (Requester.mem_rotation _ q)
  rw [State.grant, if_pos free, found]

/-- The Fetch Unit asks for reads, and it alone. -/
theorem State.wanted_isRead {s : State} {q : Requester} {x : Transfer} (asks : s.wanted q = some x) :
    x.isRead = true ↔ q = .fetch := by
  cases q with
  | fetch =>
    rw [State.wanted_fetch] at asks
    split at asks <;> cases asks <;> simp [Transfer.isRead]
  | completion =>
    simp only [State.wanted] at asks
    repeat' split at asks
    all_goals cases asks <;> simp [Transfer.isRead]
  | writer n =>
    simp only [State.wanted] at asks
    repeat' split at asks
    all_goals cases asks <;> simp [Transfer.isRead]

/-- What the beginning of a transfer changes: the request of the Fetch Unit, and the kind of write of the Completion Unit. -/
theorem State.begun_eq {s : State} {q : Requester} {x : Transfer} (asks : s.wanted q = some x) : s.begun x = { s with
    fetch := if q = .fetch then { s.fetch with request := none } else s.fetch, cu := (s.begun x).cu } := by
  simp only [← State.wanted_isRead asks]
  cases x <;> rfl

/-- Settles O55: each requester's own cases, and the grant to the first of the rotation that asks. -/
theorem portGrantsTheNextRequester : Obligations.PortGrantsTheNextRequester := by
  intro s
  refine ⟨?_, fun idle => ⟨State.wanted_idle idle nofun, fun n => State.wanted_idle idle nofun⟩,
    fun u running held => ?_, fun n running => ?_, ?_⟩
  · rintro _ rfl
    exact s.wanted_fetch
  · intro room mayWrite record
    have ready : mayWrite ↔ s.recordReady = true := (State.recordReady_iff held).symm
    refine ⟨fun marked turn => ?_, fun c rest turn head fits => ?_, fun unmarked unready => ?_⟩
    · rw [State.wanted_status running marked (by rwa [← ready]), State.statusAddr, held]
      rfl
    · have may : mayWrite := ⟨by simp [head], fits⟩
      rw [State.wanted_record running turn head (ready.1 may), State.recordAddr, held]
    · exact State.wanted_nothing running unmarked (by rwa [← ready])
  · rw [State.wanted_writer running]
    exact ⟨fun free => by rw [free], fun w => ⟨fun body => by rw [body], fun stamp => by rw [stamp]⟩⟩
  · rw [← s.portOpen_iff]
    refine ⟨fun h => h.elim State.grant_closed State.grant_unasked, fun q x free asks first => ?_⟩
    rw [State.grant_serves free asks first, State.begun_eq asks]
    cases x <;> rfl

end Sys2Proof.Machine
end

section
/-! PROOFS. The states after the resets, a soft reset at once or at the end of a transfer, and ENABLE (R129, R131, R146, R148,
R183, R184). -/

namespace Sys2Proof.Machine

/-! ### A part at rest -/

/-- Nothing follows of itself in a DISABLED or FAULTED part, not even the grant of a read that is asked for (R143). -/
theorem State.settle_stopped {s : State} (h : s.part = .disabled ∨ s.part = .faulted) : s.settle = s := by
  have idle : s.part ≠ .running := by rcases h with h | h <;> simp [h]
  have closed : ¬ s.portOpen = true := by rw [State.portOpen_iff]; rcases h with h | h <;> simp [h]
  have ineligible (r : RingId) : s.eligible r = false := by simp [State.eligible, idle]
  rw [State.settle, State.work_idle idle, State.fetchVisit_waits (.inr ineligible), State.grant_closed closed]

/-- Settles O60: each line and ring is sound at its reset value, and a DISABLED part settles into itself. -/
theorem resetIsSoundAndSettled : Obligations.ResetIsSoundAndSettled := by
  refine ⟨State.reset_ok, ?_⟩
  have settled := State.reset.settle_settled
  rwa [State.settle_stopped (.inl rfl)] at settled

/-! ### The states after the resets -/

theorem State.reset_line (n : LineId) : State.reset.line n = Line.reset := by
  fin_cases n <;> rfl

theorem State.reset_ring (r : RingId) : State.reset.ring r = ⟨.off, 0, 0⟩ := by
  cases r with
  | admin => rfl
  | line n => fin_cases n <;> rfl

theorem Line.reset_sweepAt (i : Nat) : Line.reset.sweepAt i = none := by
  by_cases inTable : i < 48 <;> simp [Line.sweepAt, Line.reset, inTable]

/-- Settles O5: the values of State.reset and Line.reset, field by field, and the two rows that put them in force. -/
theorem resetsPutEveryBlockAtItsResetValue : Obligations.ResetsPutEveryBlockAtItsResetValue := by
  refine ⟨⟨rfl, rfl, rfl, rfl, rfl, rfl, rfl, rfl, rfl, rfl, rfl, rfl, rfl, State.reset_ring, rfl, rfl, rfl, rfl, rfl, rfl,
    rfl, rfl, rfl, rfl, fun n => ?_⟩, fun s => ⟨rfl, rfl⟩⟩
  rw [State.reset_line]
  exact ⟨rfl, rfl, rfl, rfl, rfl, rfl, rfl, rfl, rfl, rfl, rfl, rfl, rfl, rfl, Line.reset_sweepAt, rfl, rfl, rfl, rfl, rfl,
    rfl, rfl, rfl, rfl, rfl, rfl, rfl, rfl, rfl⟩

/-! ### The soft reset -/

/-- The state after a soft reset, with the RESET pin high (R148). -/
theorem State.softReset_eq {s : State} (up : s.resetLow = false) : s.softReset = { State.reset with
    resetCause := .soft, setupAddr := s.setupAddr, pending := s.pending
    lines := s.lines.mapIdx fun _ l => { Line.reset with wire := ⟨l.wire.space, 0, false⟩ } } := by
  rw [State.softReset, State.resetAll, up]
  rfl

theorem State.take_softReset {s : State} (up : s.resetLow = false) : s.take (some s.softReset) = .next s.softReset := by
  rw [State.take_some up, State.settle_stopped (.inl rfl)]

/-! ### The ends of transfers by their rows -/

/-- The command reports the end of transfer `x`, of whose response the requester makes `g` (R145). -/
def Ends (c : Instr) (s : State) (x : Transfer) (g : State → State) : Prop :=
  ∃ f, exec c s = s.take (s.endTransfer f) ∧ f x = some g

section
variable {c : Instr} {s : State} {x : Transfer} {g : State → State}

/-- A transfer that ends under a soft reset (R146). -/
theorem Ends.soft (ends : Ends c s x g) (up : s.resetLow = false) (waits : s.softPending = true)
    (transfer : s.port.transfer = some x) : exec c s = .next s.softReset := by
  obtain ⟨f, row, takes⟩ := ends
  rw [row, State.endTransfer_soft waits transfer takes, State.take_softReset up]

/-- A transfer that ends and is acted on. -/
theorem Ends.serves (ends : Ends c s x g) (serving : s.Serving x) : exec c s = .next (g s.released).settle := by
  obtain ⟨f, row, takes⟩ := ends
  rw [row, State.endTransfer_acts serving takes, State.take_some serving.up]

end

theorem ends_setupReadDone {r : ReadResp} (formed : r.wellFormed = true) (s : State) (a : Addr) :
    Ends (.setupReadDone r) s (.setupRead a) fun u => u.setupRead r :=
  ⟨_, if_pos formed, rfl⟩

theorem ends_entryReadDone {r : ReadResp} (formed : r.wellFormed = true) (s : State) (q : RingId) (a : Addr) :
    Ends (.entryReadDone r) s (.entryRead q a) fun u => u.entryRead q r :=
  ⟨_, if_pos formed, rfl⟩

theorem ends_completionWriteDone (r : Resp) (s : State) (a : Addr) (b : List Byte) :
    Ends (.completionWriteDone r) s (.recordWrite a b) fun u => u.recordWritten r :=
  ⟨_, rfl, rfl⟩

theorem ends_statusWriteDone (r : Resp) (s : State) (a : Addr) (b : List Byte) :
    Ends (.statusWriteDone r) s (.statusWrite a b) fun u => u.statusWritten r :=
  ⟨_, rfl, rfl⟩

theorem ends_slotBodyWriteDone (r : Resp) (s : State) (n : LineId) (a : Addr) (b : List Byte) :
    Ends (.slotBodyWriteDone r) s (.slotBody n a b) fun u => u.bodyWritten n r :=
  ⟨_, rfl, rfl⟩

theorem ends_slotStampWriteDone (r : Resp) (s : State) (n : LineId) (a : Addr) (b : List Byte) :
    Ends (.slotStampWriteDone r) s (.slotStamp n a b) fun u => u.stampWritten n r :=
  ⟨_, rfl, rfl⟩

/-! ### Writes to CONTROL -/

theorem Causes.ofBits_or_low (v : Word) {m : Word} (low : m = 1 ∨ m = 2) : Causes.ofBits (v ||| m) 8 = Causes.ofBits v 8 := by
  obtain rfl | rfl := low <;> simp [Causes.ofBits]

/-- A CONTROL write that sets SOFT_RESET, also as an ENABLE (R183). -/
theorem State.writeControl_soft (s : State) {v m : Word} (low : m = 1 ∨ m = 2) (soft : (v ||| m).getLsbD 1 = true) :
    s.writeControl (v ||| m) = ({ s with enables := Causes.ofBits v 8 } : State).requestSoftReset := by
  rw [State.writeControl, Causes.ofBits_or_low v low]
  exact if_pos soft

/-- A CONTROL write that sets ENABLE alone (R129, R183). -/
theorem State.writeControl_enable (s : State) {v : Word} (hard : v.getLsbD 1 = false) : s.writeControl (v ||| 1) =
    if s.part = .disabled then ({ s with enables := Causes.ofBits v 8 } : State).startLoading
    else { s with enables := Causes.ofBits v 8 } := by
  have enable : (v ||| 1).getLsbD 0 = true := by simp
  have unreset : ¬ (v ||| 1).getLsbD 1 = true := by rw [BitVec.getLsbD_or, hard]; decide
  rw [State.writeControl, Causes.ofBits_or_low v (.inl rfl), if_neg unreset]
  simp only [enable, true_and]

theorem exec_softReset (v : Word) (s : State) : exec (.softReset v) s =
    s.take (some ({ s with enables := Causes.ofBits v 8 } : State).requestSoftReset) := by
  rw [← s.writeControl_soft (.inr rfl) (by simp)]
  rfl

theorem exec_enable_soft {v : Word} (soft : v.getLsbD 1 = true) (s : State) :
    exec (.enable v) s = exec (.softReset v) s := by
  rw [exec_softReset, ← s.writeControl_soft (.inl rfl) (by simp [soft])]
  rfl

theorem exec_softReset_free {s : State} (up : s.resetLow = false) (free : s.port.transfer = none) (v : Word) :
    exec (.softReset v) s = .next s.softReset := by
  have now : ({ s with enables := Causes.ofBits v 8 } : State).requestSoftReset = s.softReset :=
    if_pos (Option.isNone_iff_eq_none.2 free)
  rw [exec_softReset, now, State.take_softReset up]

theorem exec_softReset_busy {s : State} (up : s.resetLow = false) {x : Transfer} (busy : s.port.transfer = some x)
    (v : Word) : exec (.softReset v) s =
      .next ({ s with enables := Causes.ofBits v 8, softPending := true } : State).settle := by
  have later : ({ s with enables := Causes.ofBits v 8 } : State).requestSoftReset =
      { s with enables := Causes.ofBits v 8, softPending := true } := if_neg (by simp [busy])
  rw [exec_softReset, later, State.take_some up]

theorem exec_softResetTakesEffect (s : State) :
    exec .softResetTakesEffect s = s.take (if s.softPending then some s.softReset else none) := rfl

/-- Settles O6: the request by whether a transfer is in progress, and the reset that waits by the row that ends it. -/
theorem softResetAtOnceOrWhenTheTransferEnds : Obligations.SoftResetAtOnceOrWhenTheTransferEnds := by
  intro s up r
  have state : s.softReset = r := State.softReset_eq up
  refine ⟨fun v => ⟨fun free => ?_, fun x busy => ?_⟩, fun none => ?_, fun waits => ?_⟩
  · rw [exec_softReset_free up free, state]
  · have row := exec_softReset_busy up busy v
    refine ⟨row, fun t next => ?_⟩
    obtain rfl := Host.Outcome.next.inj (row.symm.trans next)
    have kept := (State.settle_works { s with enables := Causes.ofBits v 8, softPending := true }).kept
    exact ⟨(kept.transfer (by simp [busy])).trans busy, kept.softPending, kept.part⟩
  · rw [exec_softResetTakesEffect, none]
    exact s.take_none
  · rw [← state]
    refine ⟨?_, fun a h x formed => (ends_setupReadDone formed s a).soft up waits h,
      fun q a h x formed => (ends_entryReadDone formed s q a).soft up waits h,
      fun a b h x => (ends_completionWriteDone x s a b).soft up waits h,
      fun a b h x => (ends_statusWriteDone x s a b).soft up waits h,
      fun n a b h x => (ends_slotBodyWriteDone x s n a b).soft up waits h,
      fun n a b h x => (ends_slotStampWriteDone x s n a b).soft up waits h⟩
    rw [exec_softResetTakesEffect, if_pos waits, State.take_softReset up]

/-! ### ENABLE -/

/-- A LOADING part whose turn the setup read is begins it (R129, R144). -/
theorem State.settle_setupRead {t : State} {a : Addr} (loading : t.part = .loading)
    (asks : t.fetch.request = some (.setup, a)) (free : t.port.transfer = none) (acts : t.softPending = false)
    (turn : t.port.last = .writer 3) : t.settle = { t with
      fetch := { t.fetch with request := none }, port := ⟨some (.setupRead a), .fetch⟩ } := by
  have idle : t.part ≠ .running := by simp [loading]
  have busy : t.fetchBusy = true := t.fetchBusy_iff.2 (.inl (by simp [asks]))
  have wanted : t.wanted .fetch = some (.setupRead a) := by rw [State.wanted_fetch, asks]
  have opened : t.portOpen = true := t.portOpen_iff.2 ⟨free, acts, .inl loading⟩
  have first (p : Requester) : turnsBefore 6 t.port.last.number Requester.fetch.number ≤
      turnsBefore 6 t.port.last.number p.number := by
    rw [turn]
    exact Nat.zero_le _
  rw [State.settle, State.work_idle idle, State.fetchVisit_waits (.inl busy),
    State.grant_serves opened wanted fun p _ => first p]
  rfl

theorem exec_enable_hard {v : Word} (hard : v.getLsbD 1 = false) {s : State} (up : s.resetLow = false) :
    exec (.enable v) s = .next (if s.part = .disabled then ({ s with enables := Causes.ofBits v 8 } : State).startLoading
      else { s with enables := Causes.ofBits v 8 }).settle := by
  rw [← State.take_some up, ← s.writeControl_enable hard]
  rfl

/-- Settles O8: a DISABLED part loads by its SETUP ADDRESS, and the request is granted where the port is free. -/
theorem enableStartsLoading : Obligations.EnableStartsLoading := by
  refine ⟨fun s v soft => exec_enable_soft soft s, fun s v up hard => ?_⟩
  have row := exec_enable_hard hard up
  have loads (disabled : s.part = .disabled) (aligned : s.setupAddr.toNat % 64 = 0) : exec (.enable v) s =
      .next ({ s with
        enables := Causes.ofBits v 8, part := .loading, setupError := .none
        fetch := { s.fetch with request := some (.setup, s.setupAddr) } } : State).settle := by
    rw [row, if_pos disabled, State.startLoading, if_neg (not_not.2 aligned)]
  refine ⟨fun disabled aligned free acts turn => ?_, loads, fun disabled unaligned unasked => ?_, fun enabled => ?_⟩
  · exact (loads disabled aligned).trans (congrArg _ (State.settle_setupRead rfl rfl free acts turn))
  · rw [row, if_pos disabled, State.startLoading, if_pos unaligned, State.settle_stopped (.inl rfl)]
    rfl
  · rw [row, if_neg enabled]

end Sys2Proof.Machine
end

section
/-! PROOFS. A POST to a submission ring, and the halting of a ring (R134, R140, R186). -/

namespace Sys2Proof.Machine

/-! ### A halted ring -/

theorem State.haltRing_eq (s : State) (r : RingId) (h : RingState) :
    s.haltRing r h = { s.setRing r { s.ring r with state := h } with
      cu := { s.cu with statusPending := true }
      causes := { s.causes with ringHalted := true } } := by
  cases r <;> rfl

/-- Settles O15: the row is the end of the read, of which the Fetch Unit makes the halt. -/
theorem readErrorHaltsTheRing : Obligations.ReadErrorHaltsTheRing := by
  intro s r a serving
  have halt : s.released.entryRead r .busError = s.released.haltRing r .haltedReadError := rfl
  rw [(ends_entryReadDone rfl s r a).serves serving, halt, State.haltRing_eq]
  cases r <;> rfl

/-! ### POST -/

theorem postRing_some {v : Word} {r : RingId} (names : (v >>> 16).toNat % 8 = r.number) : postRing v = some r := by
  rw [postRing, names]
  cases r with
  | admin => rfl
  | line n => fin_cases n <;> rfl

theorem postRing_none {v : Word} (absent : 4 < (v >>> 16).toNat % 8) : postRing v = none := by
  unfold postRing
  split <;> first | omega | rfl

theorem exec_post {s : State} (up : s.resetLow = false) (v : Word) : exec (.post v) s = .next (s.writePost v).settle := by
  rw [← State.take_some up]
  rfl

theorem State.postTo_idle {s : State} {r : RingId} (h : s.part ≠ .running ∨ (s.ring r).state ≠ .opened) (v : Half) :
    s.postTo r v = s := if_pos h

theorem State.postTo_opened {s : State} (running : s.part = .running) {r : RingId} (opened : (s.ring r).state = .opened)
    (v : Half) : s.postTo r v =
      if (v - (s.ring r).taken).toNat ≤ s.ringSize r then s.setRing r { s.ring r with posted := v }
      else s.haltRing r .haltedBadPost :=
  if_neg (by simp [running, opened])

/-- Settles O10: the ring that the POST names, and the branches of a POST to it. -/
theorem postMovesOrHaltsARing : Obligations.PostMovesOrHaltsARing := by
  intro s v up
  rw [exec_post up]
  have named {r : RingId} (names : (v >>> 16).toNat % 8 = r.number) : s.writePost v = s.postTo r (v.setWidth 16) := by
    rw [State.writePost, postRing_some names]
  refine ⟨fun absent => ?_, fun idle => ?_, fun r names running => ⟨fun shut => ?_, fun opened fits => ?_,
    fun opened exceeds => ?_⟩⟩
  · rw [State.writePost, postRing_none absent]
  · unfold State.writePost
    split
    · rw [State.postTo_idle (.inl idle)]
    · rfl
  · rw [named names, State.postTo_idle (.inr shut)]
  · rw [named names, State.postTo_opened running opened, if_pos fits]
  · rw [named names, State.postTo_opened running opened, if_neg (Nat.not_le.2 exceeds), State.haltRing_eq]

end Sys2Proof.Machine
end

section
/-! PROOFS. The setup block: where it holds its fields, the checks on it, and what its read comes to (R130 to R132, R188). -/

namespace Sys2Proof.Machine

/-! ### The fields of a record that is read -/

theorem recordField_zero (b : List Byte) (i : Nat) : recordField b i 0 = 0 := by
  simp [recordField, leNat]

theorem getElem?_recordByte {b : List Byte} {i : Nat} (within : i < b.length) : b[i]? = some (recordByte b i) := by
  simp [recordByte, within]

/-- A field has its lowest byte first. -/
theorem recordField_succ {b : List Byte} {i : Nat} (within : i < b.length) (k : Nat) :
    recordField b i (k + 1) = (recordByte b i).toNat + 256 * recordField b (i + 1) k := by
  have first : recordByte b i = b[i] := by simp [recordByte, within]
  rw [recordField, List.drop_eq_getElem_cons within, List.take_succ_cons, leNat, first]
  rfl

theorem leNat_lt (bs : List Byte) : leNat bs < 256 ^ bs.length := by
  induction bs with
  | nil => simp [leNat]
  | cons x xs ih =>
    have := x.isLt
    rw [leNat, List.length_cons, pow_succ']
    omega

theorem recordField_lt (b : List Byte) (i n : Nat) : recordField b i n < 256 ^ n :=
  (leNat_lt _).trans_le (Nat.pow_le_pow_right (by omega) (List.length_take_le _ _))

/-- A word as wide as its field holds it whole. -/
theorem toNat_recordField (b : List Byte) (i n : Nat) {w : Nat} (wide : 256 ^ n ≤ 2 ^ w) :
    (BitVec.ofNat w (recordField b i n)).toNat = recordField b i n := by
  rw [BitVec.toNat_ofNat, Nat.mod_eq_of_lt ((recordField_lt b i n).trans_le wide)]

theorem parseSetup_lineBase (b : List Byte) (n : LineId) :
    ((parseSetup b).lineBases.get n).toNat = recordField b (8 + 8 * n.val) 8 := by
  fin_cases n <;> exact toNat_recordField b _ 8 (by decide)

/-! ### The checks of R130 -/

theorem areasApart_iff {a b : Nat × Nat} (ha : 0 < a.2) (hb : 0 < b.2) : areasApart a b = true ↔ ¬ areasMeet a b := by
  rw [areasApart, Bool.or_eq_true, decide_eq_true_iff, decide_eq_true_iff]
  constructor
  · rintro apart ⟨x, inA, inB⟩
    omega
  · intro apart
    by_contra meet
    exact apart ⟨max a.1 b.1, by omega, by omega⟩

theorem allApart_iff : ∀ {areas : List (Nat × Nat)}, (∀ a ∈ areas, 0 < a.2) →
    (allApart areas = true ↔ areas.Pairwise fun a b => ¬ areasMeet a b)
  | [], _ => by simp [allApart]
  | a :: as, filled => by
    obtain ⟨first, rest⟩ := List.forall_mem_cons.1 filled
    rw [allApart, Bool.and_eq_true, List.all_eq_true, allApart_iff rest, List.pairwise_cons]
    exact and_congr_left' (forall₂_congr fun b hb => areasApart_iff first (rest b hb))

theorem Setup.rings_iff (u : Setup) : (submissionSizeOk u.adminSize = true ∧ u.lineSizes.all submissionSizeOk = true) ↔
    ∀ r, 8 ≤ u.ringSize r ∧ u.ringSize r ≤ 1024 := by
  have size (n : Nat) : submissionSizeOk n = true ↔ 8 ≤ n ∧ n ≤ 1024 := by simp [submissionSizeOk]
  simp only [Quad.all_iff, size]
  exact ⟨fun ⟨admin, lines⟩ r => by cases r with
    | admin => exact admin
    | line n => exact lines n, fun rings => ⟨rings .admin, fun n => rings (.line n)⟩⟩

/-- Areas of rings within their sizes hold some byte. -/
theorem Setup.areas_filled {u : Setup} (rings : ∀ r, 8 ≤ u.ringSize r ∧ u.ringSize r ≤ 1024)
    (completions : 16 ≤ u.completionSize) : ∀ a ∈ u.areas, 0 < a.2 := by
  have admin : 8 ≤ u.adminSize := (rings .admin).1
  have q0 : 8 ≤ u.lineSizes.q0 := (rings (.line 0)).1
  have q1 : 8 ≤ u.lineSizes.q1 := (rings (.line 1)).1
  have q2 : 8 ≤ u.lineSizes.q2 := (rings (.line 2)).1
  have q3 : 8 ≤ u.lineSizes.q3 := (rings (.line 3)).1
  simp only [Setup.areas, List.forall_mem_cons]
  exact ⟨by omega, by omega, by omega, by omega, by omega, by omega, by omega, List.forall_mem_nil _⟩

theorem Setup.valid_iff (u : Setup) : u.valid = true ↔ SetupPasses u := by
  have checks : u.valid = true ↔ (∀ a ∈ u.areas, a.1 % 64 = 0) ∧
      (∀ r, 8 ≤ u.ringSize r ∧ u.ringSize r ≤ 1024) ∧ (16 ≤ u.completionSize ∧ u.completionSize ≤ 4096) ∧
      (∀ a ∈ u.areas, a.1 + a.2 ≤ 2 ^ 64) ∧ allApart u.areas = true ∧ 1 ≤ u.threshold := by
    simp only [Setup.valid, Bool.and_eq_true, ← u.rings_iff, List.all_eq_true, beq_iff_eq, decide_eq_true_iff, and_assoc]
  rw [checks]
  constructor
  · rintro ⟨aligned, rings, completions, extent, apart, threshold⟩
    exact ⟨aligned, rings, completions, extent, (allApart_iff (u.areas_filled rings completions.1)).1 apart, threshold⟩
  · rintro ⟨aligned, rings, completions, extent, apart, threshold⟩
    exact ⟨aligned, rings, completions, extent, (allApart_iff (u.areas_filled rings completions.1)).2 apart, threshold⟩

/-! ### The read of the setup block -/

theorem State.setupRead_busError {s : State} (loading : s.part = .loading) :
    s.setupRead .busError = s.setupFail .setupReadError := if_neg (not_not.2 loading)

theorem State.setupRead_data {s : State} (loading : s.part = .loading) (bytes : List Byte) :
    s.setupRead (.data bytes) = if (parseSetup bytes).valid = true then s.enterRunning (parseSetup bytes) (parseWake bytes)
      else s.setupFail .setupInvalid := if_neg (not_not.2 loading)

/-- Settles O13: the fields by the byte order of a record, and the read by the checks of R130. -/
theorem setupPassesOrFails : Obligations.SetupPassesOrFails := by
  refine ⟨fun b i k whole => ⟨recordField_zero b i, ?_⟩, fun b whole => ?_, fun s a serving loading => ?_⟩
  · rw [← whole]
    exact ⟨getElem?_recordByte, fun within => recordField_succ within k⟩
  · refine ⟨toNat_recordField b 0 8 (by decide), parseSetup_lineBase b, toNat_recordField b 40 8 (by decide),
      toNat_recordField b 48 8 (by decide), ?_, ?_, ?_, rfl, rfl⟩
    all_goals simp only [parseSetup, recordField_one]
  · have still : s.released.part = .loading := loading
    refine ⟨?_, fun bytes whole => ?_⟩
    · rw [(ends_setupReadDone rfl s a).serves serving, State.setupRead_busError still]
      rfl
    · have formed : (ReadResp.data bytes).wellFormed = true := beq_iff_eq.2 whole
      rw [(ends_setupReadDone formed s a).serves serving, State.setupRead_data still]
      exact ⟨fun fails => by rw [if_neg (mt (Setup.valid_iff _).1 fails)]; rfl,
        fun passes => by rw [if_pos ((Setup.valid_iff _).2 passes)]; rfl⟩

end Sys2Proof.Machine
end

section
/-! PROOFS. The read of an exchange entry: its fields, its checks in their order, and whether it is taken (R78, R137, R138,
R188). -/

namespace Sys2Proof.Machine

/-! ### The entry -/

theorem parseExchange_payload {b : List Byte} (whole : b.length = 64) : (parseExchange b).payload.length = 32 ∧
    ∀ i, i < 32 → (parseExchange b).payload[i]? = b[8 + i]? := by
  simp only [parseExchange]
  exact ⟨by simp [whole], fun i within => by rw [List.getElem?_take_of_lt within, List.getElem?_drop]⟩

/-- The checks stop at the first that fails (R138). -/
theorem RawExchange.firstBad_cases (e : RawExchange) :
    (e.firstBad = some .badAddress ↔ 62 < e.node) ∧
    (e.firstBad = some .badCode ↔ e.node ≤ 62 ∧ e.code = 1) ∧
    (e.firstBad = some .badLength ↔ e.node ≤ 62 ∧ e.code ≠ 1 ∧ 32 < e.length) ∧
    (e.firstBad = some .badRetry ↔ e.node ≤ 62 ∧ e.code ≠ 1 ∧ e.length ≤ 32 ∧ 7 < e.retry) ∧
    (e.firstBad = some .badPriority ↔
      e.node ≤ 62 ∧ e.code ≠ 1 ∧ e.length ≤ 32 ∧ e.retry ≤ 7 ∧ e.priority ≠ 0 ∧ e.priority ≠ 1) ∧
    (e.firstBad = none ↔
      e.node ≤ 62 ∧ e.code ≠ 1 ∧ e.length ≤ 32 ∧ e.retry ≤ 7 ∧ (e.priority = 0 ∨ e.priority = 1)) := by
  unfold RawExchange.firstBad
  by_cases node : 62 < e.node
  · simp [node, Nat.not_le.2 node]
  by_cases code : e.code = 1#8
  · simp [node, code, Nat.not_lt.1 node]
  by_cases length : 32 < e.length
  · simp [node, code, length, Nat.not_lt.1 node, Nat.not_le.2 length]
  by_cases retry : 7 < e.retry
  · simp [node, code, length, retry, Nat.not_lt.1 node, Nat.not_lt.1 length, Nat.not_le.2 retry]
  by_cases priority : 1 < e.priority
  · have neither : e.priority ≠ 0 ∧ e.priority ≠ 1 := by omega
    simp [node, code, length, retry, priority, neither, Nat.not_lt.1 node, Nat.not_lt.1 length, Nat.not_lt.1 retry]
  · have valid : e.priority = 0 ∨ e.priority = 1 := by omega
    simp [node, code, length, retry, priority, valid, ← not_or, Nat.not_lt.1 node, Nat.not_lt.1 length, Nat.not_lt.1 retry]

/-! ### The taking of the entry -/

section
variable {s : State} {n : LineId} {e : RawExchange}

theorem State.exchangeEntry_ineligible (ineligible : s.eligible (.line n) = false) : s.exchangeEntry n e = s :=
  if_neg (by simp [ineligible])

theorem State.exchangeEntry_inserted (eligible : s.eligible (.line n) = true) (valid : e.firstBad = none) :
    s.exchangeEntry n e = (s.countTaken (.line n)).setLine n ((s.line n).insertEntry e) := by
  rw [State.exchangeEntry, if_pos eligible, State.exchangeTake, valid]

theorem State.exchangeEntry_refused (eligible : s.eligible (.line n) = true) {d : ExDetail} (bad : e.firstBad = some d) :
    s.exchangeEntry n e = if s.cu.holding.length < 16 then
      (s.countTaken (.line n)).hold (.exchange (refusalRecord n e d s.timer.count)) else s := by
  have free : s.placeFree = true ↔ s.cu.holding.length < 16 := decide_eq_true_iff
  rw [State.exchangeEntry, if_pos eligible, State.exchangeTake, bad]
  simp only [free]

end

/-- Settles O14: the entry's layout, its checks, and what the end of its read makes of it. -/
theorem exchangeEntryIsCheckedAndTaken : Obligations.ExchangeEntryIsCheckedAndTaken := by
  refine ⟨fun b whole => ?_, RawExchange.firstBad_cases, fun s n a bytes serving whole => ?_⟩
  · obtain ⟨length, payload⟩ := parseExchange_payload whole
    exact ⟨toNat_recordField b 0 2 (by decide), recordField_one b 2, rfl, recordField_one b 4, recordField_one b 5,
      recordField_one b 6, length, payload⟩
  · intro e r k
    have formed : (ReadResp.data bytes).wellFormed = true := beq_iff_eq.2 whole
    have row : exec (.entryReadDone (.data bytes)) s = .next (s.released.exchangeEntry n e).settle :=
      (ends_entryReadDone formed s (.line n) a).serves serving
    have same : s.released.eligible (.line n) = s.eligible (.line n) := rfl
    rw [row, ← same]
    refine ⟨fun ineligible => ?_, fun eligible valid => ?_, fun d eligible bad room => ?_, fun d eligible bad full => ?_⟩
    · rw [State.exchangeEntry_ineligible ineligible]
    · rw [State.exchangeEntry_inserted eligible valid]
      rfl
    · rw [State.exchangeEntry_refused eligible bad]
      exact congrArg (fun t : State => Host.Outcome.next t.settle) (if_pos room)
    · rw [State.exchangeEntry_refused eligible bad]
      exact congrArg (fun t : State => Host.Outcome.next t.settle) (if_neg (Nat.not_lt.2 full))

end Sys2Proof.Machine
end

section
/-! PROOFS. The read of an admin entry: the row of the command that it carries, and an entry left untaken (R137, R139, R160 to
R162, R188). -/

namespace Sys2Proof.Machine

/-! ### The command that an entry carries -/

theorem parseProfile_fields (b : List Byte) (o : Nat) :
    (parseProfile b o).divisor.toNat = recordField b o 2 ∧
    (parseProfile b o).replyWindow.toNat = recordField b (o + 4) 2 ∧
    (parseProfile b o).retryGap.toNat = recordField b (o + 7) 2 ∧
    (parseProfile b o).busyPause.toNat = recordField b (o + 9) 2 ∧
    (parseProfile b o).sweepPeriod.toNat = recordField b (o + 11) 2 ∧
    (parseProfile b o).stuckLimit.toNat = recordField b (o + 16) 2 := by
  have half (i : Nat) : (BitVec.ofNat 16 (recordField b i 2)).toNat = recordField b i 2 :=
    toNat_recordField b i 2 (by decide)
  exact ⟨half _, half _, half _, half _, half _, half _⟩

/-- A command code outside 1 to 15 is unknown, and is kept as read. -/
theorem parseAdmin_unknown {b : List Byte} (h : recordByte b 0 = 0 ∨ 15 < (recordByte b 0).toNat) :
    (parseAdmin b).2.2 = .unknown (recordByte b 0) := by
  have outside : recordField b 0 1 = 0 ∨ 15 < recordField b 0 1 := by
    rw [recordField_one]
    exact h.imp_left fun zero => by rw [zero]; rfl
  unfold parseAdmin
  dsimp only
  split <;> first | omega | rfl

/-- A good end of the read of an admin entry is the read of the command that it carries (R139). -/
theorem exec_entryReadDone_admin {s : State} {a : Addr} (reading : s.port.transfer = some (.entryRead .admin a))
    {bytes : List Byte} (whole : bytes.length = 64) {cmd : AdminCmd} (parse : (parseAdmin bytes).2.2 = cmd) :
    exec (.entryReadDone (.data bytes)) s =
      s.take (s.adminRead (recordByte bytes 1) (BitVec.ofNat 16 (recordField bytes 2 2)) cmd) := by
  obtain ⟨f, row, takes⟩ := ends_entryReadDone (r := .data bytes) (beq_iff_eq.2 whole) s .admin a
  rw [row, ← parse]
  simp only [State.adminRead, State.endTransfer, reading, takes]
  rfl

/-- POWER does not read the line byte of its entry (R173). -/
theorem State.adminRead_power (s : State) (line other : Byte) (tag : Half) (target : Byte) :
    s.adminRead line tag (.power target) = s.adminRead other tag (.power target) := rfl

/-- Settles O16: the command by its code, whose row is the same read; and an unknown code refused. -/
theorem adminEntryIsItsCommand : Obligations.AdminEntryIsItsCommand := by
  refine ⟨fun b o _ _ => ?_, fun s a bytes reading whole => ?_⟩
  · obtain ⟨divisor, window, retry, busy, sweep, stuck⟩ := parseProfile_fields b o
    exact ⟨divisor, rfl, rfl, window, rfl, retry, busy, sweep, rfl, rfl, rfl, stuck⟩
  · intro c line tag x read
    have carries {k : Nat} (code : c = BitVec.ofNat 8 k) (known : k < 256) : recordField bytes 0 1 = k := by
      rw [recordField_one]
      show c.toNat = k
      rw [code, BitVec.toNat_ofNat, Nat.mod_eq_of_lt known]
    have reads {cmd : AdminCmd} (parse : (parseAdmin bytes).2.2 = cmd) : read = s.take (s.adminRead line tag cmd) :=
      exec_entryReadDone_admin reading whole parse
    have area : (⟨x, recordByte bytes 9, recordByte bytes 10, recordByte bytes 11, recordByte bytes 12, recordByte bytes 13,
        recordByte bytes 14, (bytes.drop 16).take 16⟩ : RawSweep).wellFormed = true := by simp [RawSweep.wellFormed, whole]
    refine ⟨fun h => reads ?_, fun h => reads ?_, fun h => reads ?_, fun h => reads ?_, fun h => reads ?_,
      fun h => reads ?_, fun h => reads ?_, fun h => reads ?_, fun h => reads ?_,
      fun h => (reads ?_).trans (exec_sweepSet area tag line s).symm, fun h => reads ?_, fun h => reads ?_,
      fun h => reads ?_, fun h => (reads ?_).trans (congrArg s.take (s.adminRead_power line 0 tag x)), fun h => reads ?_,
      fun unknown ready => ?unknown⟩
    case unknown =>
      rw [reads (parseAdmin_unknown unknown), State.adminRead_ready ready]
      rfl
    all_goals simp only [parseAdmin, carries h (by decide), x]

/-! ### An entry left untaken -/

/-- Each administrative row is the read of an admin entry that carries its command. -/
theorem exec_adminRow {c : Instr} (row : adminHead c ≠ none ∨ ∃ tag target, c = .power tag target)
    (formed : c.wellFormed = true) (s : State) :
    ∃ line tag cmd, exec c s = s.take (s.adminRead line tag cmd) := by
  cases c with
  | sweepSet tag line e => exact ⟨line, tag, .sweepSet e, exec_sweepSet formed tag line s⟩
  | lineSetup | lineStart | lineStop | lineReset | nodeAdd | nodeRemove | nodeBar | nodeUnbar | nodeQuery | sweepClear
  | sweepImage | cancel | power | lineQuery => exact ⟨_, _, _, rfl⟩
  | _ => simp [adminHead] at row

theorem State.adminRead_none {s : State} (h : ∀ a, s.port.transfer ≠ some (.entryRead .admin a)) (line : Byte)
    (tag : Half) (cmd : AdminCmd) : s.adminRead line tag cmd = none := by
  unfold State.adminRead State.endTransfer
  split
  · rfl
  · next x transfer =>
    split
    · rfl
    · next g takes =>
      dsimp only at takes
      split at takes
      · exact absurd transfer (h _)
      · cases takes

/-- Settles O17: an administrative row is the end of the read of an admin entry, whose command is not run. -/
theorem adminEntryLeftUntaken : Obligations.AdminEntryLeftUntaken := by
  intro c s row formed
  obtain ⟨line, tag, cmd, read⟩ := exec_adminRow row formed s
  refine ⟨fun other => ?_, fun a serving ineligible => ?_⟩
  · rw [read, State.adminRead_none other]
    exact s.take_none
  · have ends : Ends c s (.entryRead .admin a) fun u => u.adminEntry line tag cmd := ⟨_, read, rfl⟩
    have untaken : s.released.adminEntry line tag cmd = s.released :=
      if_neg (by rw [show s.released.eligible .admin = s.eligible .admin from rfl, ineligible]; decide)
    rw [ends.serves serving, untaken]

end Sys2Proof.Machine
end

section
/-! PROOFS. A FAULTED part is left by a reset only (R128, R143, R146). -/

namespace Sys2Proof.Machine

/-! ### What a command may leave of a FAULTED part -/

/-- The part as a reset leaves it, with no fault and no cause. -/
def State.Restarted (t : State) : Prop :=
  t.part = .disabled ∧ t.faultReason = .none ∧ t.causes = ⟨false, false, false, false⟩

/-- All of the part is left but the register window's own values, the level of the pins, and a transfer that ends. -/
def State.LeftAlone (s t : State) : Prop :=
  ∃ (e q : Causes) (a : Addr) (soft low : Bool) (tr : Option Transfer) (lines : Quad Line),
    t = { s with
      enables := e, causes := q, setupAddr := a, softPending := soft, resetLow := low
      port := { s.port with transfer := tr }, lines := lines } ∧
    (tr = s.port.transfer ∨ tr = none) ∧
    ∀ n, { lines.get n with wire := (s.line n).wire } = s.line n

/-- With every line as it was. -/
theorem State.LeftAlone.window (s : State) (e q : Causes) (a : Addr) (soft low : Bool) {tr : Option Transfer}
    (transfer : tr = s.port.transfer ∨ tr = none) : s.LeftAlone { s with
      enables := e, causes := q, setupAddr := a, softPending := soft, resetLow := low
      port := { s.port with transfer := tr } } :=
  ⟨e, q, a, soft, low, tr, s.lines, rfl, transfer, fun _ => rfl⟩

theorem State.LeftAlone.refl (s : State) : s.LeftAlone s := .window s _ _ _ _ _ (.inl rfl)

/-- With the receive pin of a line at another level. -/
theorem State.LeftAlone.pin (s : State) (n : LineId) (w : Wire) : s.LeftAlone (s.setLine n { s.line n with wire := w }) := by
  refine ⟨_, _, _, _, _, _, s.lines.set n { s.line n with wire := w }, rfl, .inl rfl, fun m => ?_⟩
  rw [Quad.get_set]
  split
  · next same => rw [same]
  · rfl

/-- What a command that resets the part if `resets` holds may make of it. -/
def State.ResetOrLeft (resets : Prop) (s t : State) : Prop := resets ∧ t.Restarted ∨ s.LeftAlone t

section
variable {resets : Prop} {s t : State} (faulted : s.part = .faulted)
include faulted

/-- What follows of itself adds nothing, whether the part was reset or left alone. -/
theorem State.ResetOrLeft.settle (h : State.ResetOrLeft resets s t) : t.settle = t := by
  refine State.settle_stopped ?_
  rcases h with ⟨-, disabled, -⟩ | ⟨e, q, a, soft, low, tr, lines, rfl, -⟩
  · exact .inl disabled
  · exact .inr faulted

theorem State.take_faulted {o : Option State} (h : ∀ u, o = some u → State.ResetOrLeft resets s u) (e : s.take o = .next t) :
    State.ResetOrLeft resets s t := by
  obtain rfl | ⟨-, u, some, rfl⟩ := State.take_next e
  · exact .inr (.refl _)
  · rw [(h u some).settle faulted]
    exact h u some

theorem State.take_some_faulted {u : State} (h : State.ResetOrLeft resets s u) (e : s.take (some u) = .next t) :
    State.ResetOrLeft resets s t := by
  refine State.take_faulted faulted ?_ e
  rintro _ ⟨⟩
  exact h

theorem State.take_none_faulted (e : s.take none = .next t) : State.ResetOrLeft resets s t :=
  State.take_faulted faulted (fun _ none => by cases none) e

/-! ### The commands by what they do -/

/-- A happening of a line comes about in a RUNNING part only. -/
theorem State.take_moment_faulted {n : LineId} {left : Line → Option Nat} {f : Ctx → Line → Line}
    (e : s.take (s.moment n left f) = .next t) : State.ResetOrLeft resets s t := by
  rw [State.moment, if_neg (by simp [faulted])] at e
  exact State.take_none_faulted faulted e

theorem State.take_spaceMoment_faulted {n : LineId} {left : Line → Option Nat} {f : State → State}
    (e : s.take ((s.spaceMoment n left).map f) = .next t) : State.ResetOrLeft resets s t := by
  rw [State.spaceMoment, State.moment, if_neg (by simp [faulted])] at e
  exact State.take_none_faulted faulted e

/-- The end of a transfer is the reset that waits, or the release of the bus. -/
theorem State.take_endTransfer_faulted {f : Transfer → Option (State → State)} (waits : s.softPending = true → resets)
    (e : s.take (s.endTransfer f) = .next t) : State.ResetOrLeft resets s t := by
  refine State.take_faulted faulted (fun u ends => ?_) e
  unfold State.endTransfer at ends
  split at ends
  · cases ends
  · split at ends
    · cases ends
    · dsimp only at ends
      split at ends
      · next soft =>
        cases ends
        exact .inl ⟨waits soft, rfl, rfl, rfl⟩
      · rw [if_neg (by simp [faulted])] at ends
        cases ends
        exact .inr (.window s _ _ _ _ _ (.inr rfl))

theorem State.writeControl_faulted {v : Word} (soft : v.getLsbD 1 = true → resets) :
    State.ResetOrLeft resets s (s.writeControl v) := by
  unfold State.writeControl
  dsimp only
  split
  · next bit =>
    unfold State.requestSoftReset
    split
    · exact .inl ⟨soft bit, rfl, rfl, rfl⟩
    · exact .inr (.window s _ _ _ _ _ (.inl rfl))
  · rw [if_neg (by simp [faulted])]
    exact .inr (.window s _ _ _ _ _ (.inl rfl))

theorem State.writePost_faulted (v : Word) : s.writePost v = s := by
  unfold State.writePost
  split
  · exact State.postTo_idle (.inl (by simp [faulted])) _
  · rfl

theorem State.writeConsumed_faulted (v : Word) : s.writeConsumed v = s := if_pos (by simp [faulted])

theorem State.writeWord_faulted {w : BitVec 5} {v : Word} (soft : w = 1 → v.getLsbD 1 = true → resets) :
    State.ResetOrLeft resets s (s.writeWord w v) := by
  unfold State.writeWord
  split
  · next control => exact State.writeControl_faulted faulted (soft (BitVec.eq_of_toNat_eq control))
  · exact .inr (.window s _ _ _ _ _ (.inl rfl))
  · exact .inr (.window s _ _ _ _ _ (.inl rfl))
  · rw [State.writePost_faulted faulted]
    exact .inr (.refl s)
  · rw [State.writeConsumed_faulted faulted]
    exact .inr (.refl s)
  · exact .inr (.window s _ _ _ _ _ (.inl rfl))
  · exact .inr (.refl s)

end

/-- An engine that is OFF makes nothing of its receive pin. -/
theorem Line.lineActivity_deaf {l : Line} (off : l.engine = .off) (x : Ctx) (a : Activity) :
    ∃ w, l.lineActivity x a = { l with wire := w } := by
  cases a with
  | toSpace =>
    by_cases space : l.wire.space = true
    · exact ⟨l.wire, Line.toSpace_again space x⟩
    · exact ⟨_, Line.toSpace_deaf (by simpa using space) (.inl off) x⟩
  | toMark =>
    by_cases space : l.wire.space = true
    · exact ⟨_, Line.toMark_deaf space (by simp [off]) (by simp [off]) x⟩
    · exact ⟨l.wire, Line.toMark_again (by simpa using space) x⟩
  | glitch => exact ⟨_, Line.glitch_deaf (.inl off) x⟩

theorem execLineActivity_faulted {resets : Prop} {s t : State} (ok : s.Ok) (faulted : s.part = .faulted) {n : LineId}
    {a : Activity} (e : execLineActivity n a s = .next t) : State.ResetOrLeft resets s t := by
  unfold execLineActivity at e
  split at e
  · cases e
    exact .inr (.pin s n _)
  · obtain ⟨w, follows⟩ := Line.lineActivity_deaf (ok.stopped (by simp [faulted]) n) (s.ctx n) a
    rw [follows] at e
    exact State.take_some_faulted faulted (.inr (.pin s n w)) e

/-! ### Every command -/

/-- The command is one that resets the part, or the end of a transfer for which a soft reset waits. -/
def Resets (c : Instr) (s : State) : Prop :=
  c = .powerOnReset ∨ c = .hardReset ∨ (∃ v, c = .softReset v) ∨
    (∃ v : Word, v.getLsbD 1 = true ∧ (c = .enable v ∨ c = .registerWrite 1 true v)) ∨
    s.softPending = true ∧ (c = .softResetTakesEffect ∨ endsTransfer c = true)

/-- A row that reports the end of a transfer is taken as that end. -/
theorem exec_endsTransfer {c : Instr} (ends : endsTransfer c = true) (s : State) :
    exec c s = .fault .illFormed ∨ ∃ f, exec c s = s.take (s.endTransfer f) := by
  by_cases formed : c.wellFormed = true
  · by_cases row : adminHead c ≠ none ∨ ∃ tag target, c = .power tag target
    · obtain ⟨line, tag, cmd, read⟩ := exec_adminRow row formed s
      exact .inr ⟨_, read⟩
    · cases c with
      | setupReadDone | entryReadDone => exact .inr ⟨_, if_pos formed⟩
      | completionWriteDone | statusWriteDone | slotBodyWriteDone | slotStampWriteDone => exact .inr ⟨_, rfl⟩
      | power tag target => exact absurd (.inr ⟨tag, target, rfl⟩) row
      | _ => simp_all [endsTransfer, Option.isSome_iff_ne_none]
  · cases c with
    | setupReadDone | entryReadDone | sweepSet => exact .inl (if_neg formed)
    | _ => exact absurd rfl formed

theorem exec_endsTransfer_faulted {c : Instr} {s t : State} (faulted : s.part = .faulted) (ends : endsTransfer c = true)
    (e : exec c s = .next t) : State.ResetOrLeft (Resets c s) s t := by
  obtain stops | ⟨f, row⟩ := exec_endsTransfer ends s
  · cases stops.symm.trans e
  · exact State.take_endTransfer_faulted faulted
      (fun waits => .inr (.inr (.inr (.inr ⟨waits, .inr ends⟩)))) (row.symm.trans e)

theorem exec_faulted {c : Instr} {s t : State} (ok : s.Ok) (faulted : s.part = .faulted) (e : exec c s = .next t) :
    State.ResetOrLeft (Resets c s) s t := by
  by_cases ends : endsTransfer c = true
  · exact exec_endsTransfer_faulted faulted ends e
  · cases c with
    | powerOnReset =>
      cases e
      exact .inl ⟨.inl rfl, rfl, rfl, rfl⟩
    | hardReset =>
      cases e
      exact .inl ⟨.inr (.inl rfl), rfl, rfl, rfl⟩
    | enable v =>
      refine State.take_some_faulted faulted (State.writeControl_faulted faulted fun soft => ?_) e
      exact .inr (.inr (.inr (.inl ⟨v, by simpa using soft, .inl rfl⟩)))
    | softReset v =>
      exact State.take_some_faulted faulted (State.writeControl_faulted faulted fun _ => .inr (.inr (.inl ⟨v, rfl⟩))) e
    | softResetTakesEffect =>
      refine State.take_faulted faulted (fun u effect => ?_) e
      split at effect
      · next waits =>
        cases effect
        exact .inl ⟨.inr (.inr (.inr (.inr ⟨waits, .inl rfl⟩))), rfl, rfl, rfl⟩
      · cases effect
    | registerWrite w whole v =>
      cases whole with
      | false => exact State.take_none_faulted faulted e
      | true =>
        refine State.take_some_faulted faulted (State.writeWord_faulted faulted fun control soft => ?_) e
        exact .inr (.inr (.inr (.inl ⟨v, soft, .inr (by rw [control])⟩)))
    | post v => exact State.take_some_faulted faulted (by rw [State.writePost_faulted faulted]; exact .inr (.refl s)) e
    | consumed v =>
      exact State.take_some_faulted faulted (by rw [State.writeConsumed_faulted faulted]; exact .inr (.refl s)) e
    | cause v => exact State.take_some_faulted faulted (.inr (.window s _ _ _ _ _ (.inl rfl))) e
    | leadWaitComplete | headerStopBitEnd | requestFrameEnd | replyWindowExpiry | replyCharacter | characterGapExceeded
    | roundStart => exact State.take_moment_faulted faulted e
    | echoFailure n i echo =>
      rw [exec_echoFailure] at e
      split at e
      · exact State.take_moment_faulted faulted e
      · exact State.take_none_faulted faulted e
    | replyStart n =>
      rw [exec_replyStart, State.moment, if_neg (by simp [faulted])] at e
      exact State.take_none_faulted faulted e
    | longSpace | stuckLine => exact State.take_spaceMoment_faulted faulted e
    | holdoffExpiry =>
      refine State.take_faulted faulted (fun u passes => ?_) e
      rw [if_neg (by simp [faulted])] at passes
      cases passes
    | lineActivity n a => exact execLineActivity_faulted ok faulted e
    | hardResetHeld =>
      cases e
      exact .inr (.window s _ _ _ _ _ (.inr rfl))
    | _ => exact absurd rfl ends

/-- Settles O57: every command either resets a FAULTED part or leaves it alone. -/
theorem faultedIsLeftByResetOnly : Obligations.FaultedIsLeftByResetOnly :=
  fun _ _ _ ok faulted e => exec_faulted ok faulted e

end Sys2Proof.Machine
end

section
/-! PROOFS. How time passes on the part and on a line (R4, R12, R13, R15, R102, R147, R158). -/

namespace Sys2Proof.Machine

theorem PartTimer.elapse_running {t : PartTimer} (runs : t.running = true) (k : Nat) : (t.elapse k).running = true ∧
    (t.elapse k).clocks = (t.clocks + k) % 48 ∧
    (t.elapse k).count.toNat = (t.count.toNat + (t.clocks + k) / 48) % 2 ^ 32 := by
  have counts : t.elapse k = { t with
      count := t.count + BitVec.ofNat 32 ((t.clocks + k) / 48), clocks := (t.clocks + k) % 48 } := if_pos runs
  rw [counts]
  refine ⟨runs, rfl, ?_⟩
  rw [BitVec.toNat_add, BitVec.toNat_ofNat, Nat.add_mod_mod]

theorem Wire.elapse_still {e : Engine} {w : Wire} (h : e = .off ∨ w.space = false) (k : Nat) : w.elapse k e = w :=
  if_neg fun ⟨on, space⟩ => h.elim on (by simp [space])

/-! ### The counts of an attempt by the engine state -/

section
variable (k half : Nat) (a : Attempt)

theorem Attempt.elapse_resting {e : Engine} (h : e = .off ∨ e = .idle ∨ e = .parked) (space : Bool) :
    a.elapse k half e space = a := by
  obtain rfl | rfl | rfl := h <;> rfl

theorem Attempt.elapse_lead (space : Bool) : a.elapse k half .lead space =
    if space then a else { a with markCount := a.markCount + k } := rfl

/-! ### What the receiver of a reply is about -/

theorem Attempt.listen_stopped (gap : a.gap = .stopped) (space : Bool) :
    a.listen k half space = { a with since := a.since + k } := by
  simp only [Attempt.listen, gap]

theorem Attempt.listen_fromSample {j : Nat} (gap : a.gap = .fromSample j) (space : Bool) :
    a.listen k half space = { a with gap := .fromSample (j + k) } := by
  simp only [Attempt.listen, gap]

theorem Attempt.listen_fromMark {j : Nat} (gap : a.gap = .fromMark j) (space : Bool) :
    a.listen k half space = { a with gap := .fromMark (j + k) } := by
  simp only [Attempt.listen, gap]

theorem Attempt.listen_awaitMark (gap : a.gap = .awaitMark) (space : Bool) : a.listen k half space = a := by
  simp only [Attempt.listen, gap]

/-- Half a bit time after a transition the start bit is confirmed, or the transition is found a glitch (log entry 16). -/
theorem Attempt.listen_edge {j stop : Nat} {back : Option Nat} (gap : a.gap = .edge j back stop) (space : Bool) :
    a.listen k half space =
      if j + k < half then { a with gap := .edge (j + k) (back.map (· + k)) stop }
      else if space then { a with since := j + k - half, gap := .stopped }
      else { a with gap := .fromMark (min (back.getD 0 + k) (j + k - stop)) } := by
  simp only [Attempt.listen, gap]

end

end Sys2Proof.Machine
end

section
/-! PROOFS. What falls due on a line and in the part, and the step with no command waiting (log entry 2). -/

namespace Sys2Proof.Machine

/-! ### The first of a list that is due -/

/-- The choice is the first of the list that is due, or none. -/
def Selects (o : Option Instr) (list : List (Prop × Instr)) : Prop :=
  (∀ before due c after, list = before ++ (due, c) :: after → due → (∀ x ∈ before, ¬ x.1) → o = some c) ∧
  ((∀ x ∈ list, ¬ x.1) → o = none)

theorem Selects.nil : Selects none [] :=
  ⟨fun before _ _ _ split => by simp at split, fun _ => rfl⟩

theorem Selects.cons {b : Bool} {due : Prop} (tests : b = true ↔ due) {o : Option Instr} {rest : List (Prop × Instr)}
    {c : Instr} (later : Selects o rest) : Selects (if b then some c else o) ((due, c) :: rest) := by
  refine ⟨fun before due' c' after split holds first => ?_, fun none => ?_⟩
  · cases before with
    | nil =>
      obtain ⟨⟨rfl, rfl⟩, rfl⟩ : (due = due' ∧ c = c') ∧ rest = after := by simpa using split
      exact if_pos (tests.2 holds)
    | cons y ys =>
      obtain ⟨rfl, behind⟩ := List.cons.inj split
      obtain ⟨idle, first⟩ := List.forall_mem_cons.1 first
      exact (if_neg (mt tests.1 idle)).trans (later.1 ys due' c' after behind holds first)
  · obtain ⟨idle, none⟩ := List.forall_mem_cons.1 none
    exact (if_neg (mt tests.1 idle)).trans (later.2 none)

/-! ### The limits that have been reached -/

theorem isDue_iff (o : Option Nat) : isDue o = true ↔ o = some 0 := beq_iff_eq

/-- A limit that some state of the line sets has been reached when the count is at it. -/
theorem isDue_limit {p : Prop} [Decidable p] (limit count : Nat) :
    isDue (if p then some (limit - count) else none) = true ↔ p ∧ limit ≤ count := by
  rw [isDue_iff]
  split <;> simp [*, Nat.sub_eq_zero_iff_le]

section
variable (l : Line)

theorem Line.longLeft_due : isDue l.longLeft = true ↔ l.engine ≠ .off ∧ l.engine ≠ .sending ∧ l.wire.space = true ∧
    l.wire.marked = false ∧ 22 * l.profile.divisor ≤ l.wire.run := by
  rw [Line.longLeft, isDue_limit, Engine.takesLongSpace_iff]
  simp only [and_assoc]
  rfl

theorem Line.stuckLeft_due : isDue l.stuckLeft = true ↔ l.engine ≠ .off ∧ (l.run = .running ∨ l.run = .draining) ∧
    l.wire.space = true ∧ l.profile.stuckLimit * 48000 ≤ l.wire.run := by
  rw [Line.stuckLeft, isDue_limit]
  simp only [and_assoc]
  rfl

theorem Line.leadLeft_due : isDue l.leadLeft = true ↔ l.engine = .lead ∧ l.current ≠ none ∧ l.wire.space = false ∧
    l.att.wait * l.profile.divisor ≤ l.att.markCount := by
  rw [Line.leadLeft, isDue_limit, Option.isSome_iff_ne_none]
  simp only [and_assoc]

theorem Line.headerLeft_due : isDue l.headerLeft = true ↔ l.engine = .sending ∧ l.current ≠ none ∧
    l.att.headerDone = false ∧ l.profile.charClocks ≤ l.att.sent := by
  rw [Line.headerLeft, isDue_limit, Option.isSome_iff_ne_none]
  simp only [and_assoc]

theorem Line.frameLeft_due : isDue l.frameLeft = true ↔ l.engine = .sending ∧
    ∃ c, l.current = some c ∧ c.frame.length * l.profile.charClocks ≤ l.att.sent := by
  unfold Line.frameLeft
  cases l.current with
  | none => simp [isDue]
  | some c => simp [isDue_limit]

/-- The transition of a reply window awaits its sample no longer (R13). -/
theorem Line.confirmLeft_due : isDue l.confirmLeft = true ↔ l.engine = .awaiting ∧ l.current ≠ none ∧
    ∃ e, l.att.edge = some e ∧ (l.profile.divisor + 1) / 2 ≤ l.att.window - e := by
  unfold Line.confirmLeft
  cases l.att.edge with
  | none => simp [isDue]
  | some e => simp [isDue_limit, Profile.halfBit, Option.isSome_iff_ne_none, and_assoc]

theorem Line.windowLeft_due : isDue l.windowLeft = true ↔ l.engine = .awaiting ∧ l.current ≠ none ∧ l.att.edge = none ∧
    l.profile.replyWindow * l.profile.divisor ≤ l.att.window := by
  rw [Line.windowLeft, isDue_limit, Option.isSome_iff_ne_none]
  simp only [and_assoc]

theorem Line.gapLeft_due : isDue l.gapLeft = true ↔ l.engine = .receiving ∧ l.current ≠ none ∧
    ∃ j, l.att.gap = .fromSample j ∧ l.profile.charGap * l.profile.divisor + l.profile.divisor / 2 + 1 ≤ j ∨
      l.att.gap = .fromMark j ∧ l.profile.charGap * l.profile.divisor + 1 ≤ j := by
  rw [Line.gapLeft, ← and_assoc, ← Option.isSome_iff_ne_none]
  by_cases receives : l.engine = .receiving ∧ l.current.isSome = true
  · rw [if_pos receives]
    cases l.att.gap <;> simp [receives, isDue_iff, Profile.halfStop, Nat.sub_eq_zero_iff_le]
  · rw [if_neg receives]
    simp [receives, isDue_iff]

/-- The sample of a transition by what it finds, as two happenings of the list. -/
theorem Line.dueEvent_eq (n : LineId) : l.dueEvent n =
    if isDue l.longLeft then some (.longSpace n)
    else if isDue l.stuckLeft then some (.stuckLine n)
    else if isDue l.leadLeft then some (.leadWaitComplete n)
    else if isDue l.headerLeft then some (.headerStopBitEnd n)
    else if isDue l.frameLeft then some (.requestFrameEnd n)
    else if isDue l.confirmLeft && l.wire.space then some (.replyStart n)
    else if isDue l.confirmLeft && !l.wire.space then some (.lineActivity n .glitch)
    else if isDue l.windowLeft then some (.replyWindowExpiry n)
    else if isDue l.gapLeft then some (.characterGapExceeded n)
    else if isDue l.roundTimer then some (.roundStart n)
    else none := by
  unfold Line.dueEvent
  cases isDue l.confirmLeft <;> cases l.wire.space <;> rfl

end

/-! ### The step -/

theorem step_idle {s : State} (empty : s.pending = []) : step s = s.idle := by
  simp only [step, empty]

theorem State.idle_due {s : State} {c : Instr} (due : s.dueEvent = some c) : s.idle = exec c s := by
  simp only [State.idle, due]

theorem State.idle_passes {s : State} (none : s.dueEvent = .none) : s.idle = .next s.advance := by
  simp only [State.idle, none]

theorem State.dueEvent_none {s : State} (h : s.part ≠ .running ∨ s.resetLow = true) : s.dueEvent = none := if_pos h

theorem State.dueEvent_live {s : State} (running : s.part = .running) (up : s.resetLow = false) : s.dueEvent =
    if isDue s.cu.holdoff then some .holdoffExpiry
    else [(0 : LineId), 1, 2, 3].findSome? fun n => (s.line n).dueEvent n :=
  if_neg (by simp [running, up])

/-- The first line with something due, and none without. -/
theorem State.dueEvent_line {s : State} {n : LineId} {c : Instr} (due : (s.line n).dueEvent n = some c)
    (first : ∀ m, m < n → (s.line m).dueEvent m = none) :
    ([(0 : LineId), 1, 2, 3].findSome? fun n => (s.line n).dueEvent n) = some c := by
  have member : ∀ m : LineId, m ∈ [(0 : LineId), 1, 2, 3] := by decide
  refine findSome?_lowest (f := fun m => (s.line m).dueEvent m) (key := Fin.val) due (fun m speaks => ?_) (by decide)
    (member n)
  by_contra before
  exact speaks (first m (Nat.not_le.1 before))

/-- Settles O2: the step by what is due, the counts field by field, and each line's list by its limits. -/
theorem stepOnAnEmptyQueue : Obligations.StepOnAnEmptyQueue := by
  intro s
  refine ⟨fun empty => ?_, fun k => ?_, fun n => ?_, State.dueEvent_none, fun running up => ?_⟩
  · rw [step_idle empty]
    have period (up : s.resetLow = false) : s.advance = s.elapse 1 := if_neg (by simp [up])
    refine ⟨fun low => ?_, fun up idle => ?_, fun c due => State.idle_due due, fun up none => ?_⟩
    · rw [State.idle_passes (State.dueEvent_none (.inr low)), State.advance, if_pos low]
    · rw [State.idle_passes (State.dueEvent_none (.inl idle)), period up]
    · rw [State.idle_passes none, period up]
  · intro t
    refine ⟨rfl, fun stopped => if_neg (by simp [stopped]), fun runs => PartTimer.elapse_running runs k, fun n => ?_⟩
    intro l m a half
    have line : m = l.elapse k := State.line_elapse s n k
    have wire : m.wire = l.wire.elapse k l.engine := by rw [line]; rfl
    have att : m.att = a.elapse k half l.engine l.wire.space := by rw [line]; rfl
    rw [wire, att]
    refine ⟨?_, fun still => Wire.elapse_still still k, fun on space => if_pos ⟨on, space⟩,
      fun rests => Attempt.elapse_resting k half a rests _, fun lead => ?_, fun sending => by rw [sending]; rfl,
      fun awaiting => by rw [awaiting]; rfl, fun receiving => ?_⟩
    · rw [line]
      rfl
    · rw [lead, Attempt.elapse_lead]
      exact ⟨fun space => if_pos space, fun mark => if_neg (by simp [mark])⟩
    · have listens : a.elapse k half l.engine l.wire.space = a.listen k half l.wire.space := by rw [receiving]; rfl
      rw [listens]
      refine ⟨fun gap => Attempt.listen_stopped k half a gap _, fun j gap => Attempt.listen_fromSample k half a gap _,
        fun j gap => Attempt.listen_fromMark k half a gap _, fun gap => Attempt.listen_awaitMark k half a gap _,
        fun j back stop gap => ?_⟩
      rw [Attempt.listen_edge k half a gap]
      refine ⟨fun waits => if_pos waits, fun sampled space => ?_, fun sampled mark => ?_⟩
      · rw [if_neg (Nat.not_lt.2 sampled), if_pos space]
      · rw [if_neg (Nat.not_lt.2 sampled), if_neg (by simp [mark])]
  · intro l p a char confirms list
    have confirmed : isDue l.confirmLeft = true ↔ confirms := l.confirmLeft_due
    have chosen : Selects (l.dueEvent n) list := by
      rw [Line.dueEvent_eq]
      exact .cons l.longLeft_due <| .cons l.stuckLeft_due <| .cons l.leadLeft_due <| .cons l.headerLeft_due <|
        .cons l.frameLeft_due <| .cons (by rw [Bool.and_eq_true, confirmed]) <|
        .cons (by rw [Bool.and_eq_true, Bool.not_eq_true', confirmed]) <| .cons l.windowLeft_due <| .cons l.gapLeft_due <|
        .cons (isDue_iff _) .nil
    exact chosen
  · rw [State.dueEvent_live running up]
    refine ⟨fun reached => if_pos ((isDue_iff _).2 reached), fun unreached => ?_⟩
    rw [if_neg (mt (isDue_iff _).1 unreached)]
    exact ⟨fun n c due first => State.dueEvent_line due first,
      fun none => List.findSome?_eq_none_iff.2 fun n _ => none n⟩

end Sys2Proof.Machine
end

section
/-! PROOFS. What a line and the Admin Unit offer (R151, R152), and the admission of offers in rotation (R153). -/

namespace Sys2Proof.Machine

/-! ### The owed line events in their order (R152) -/

/-- The line events in the order of their codes. -/
def LineEvent.inOrder : List LineEvent := [.faulted, .drained, .sweepWriteFault, .sweepOverrun, .huntEmpty, .alertPulseInDoze]

theorem LineEvent.inOrder_rises : LineEvent.inOrder.Pairwise fun a b => a.code < b.code := by decide

theorem LineEvent.mem_inOrder (e : LineEvent) : e ∈ LineEvent.inOrder := by cases e <;> decide

theorem find?_cons_ite {α : Type} (p : α → Bool) (a : α) (as : List α) :
    (a :: as).find? p = if p a then some a else as.find? p := by
  cases passes : p a <;> simp [passes]

theorem Owed.first_eq (o : Owed) : o.first = LineEvent.inOrder.find? o.owes := by
  simp only [LineEvent.inOrder, find?_cons_ite, List.find?_nil]
  rfl

theorem Owed.first_some {o : Owed} {e : LineEvent} (owes : o.owes e = true)
    (lowest : ∀ d, o.owes d = true → e.code ≤ d.code) : o.first = some e :=
  o.first_eq.trans (find?_lowest owes lowest LineEvent.inOrder_rises e.mem_inOrder)

theorem Owed.first_none {o : Owed} : o.first = none ↔ ∀ e, o.owes e = false := by
  rw [Owed.first_eq, List.find?_eq_none]
  exact ⟨fun h e => by simpa using h e e.mem_inOrder, fun h e _ => by simp [h e]⟩

theorem Owed.owes_clearOf (o : Owed) (e d : LineEvent) :
    (o.clearOf e).owes d = true ↔ o.owes d = true ∧ d ≠ e := by
  cases e <;> cases d <;> simp [Owed.clearOf, Owed.owes]

/-! ### A line's offer (R79, R152) -/

/-- In a roster the search finds the record of lowest address among those that pass. -/
theorem RosterOk.find?_addr {r : List Node} (h : RosterOk r) {p : Node → Bool} {a : Node} (record : a ∈ r)
    (passes : p a = true) (lowest : ∀ y, y ∈ r ∧ p y = true → a.addr ≤ y.addr) : r.find? p = some a := by
  have within : r.find? p = r.find? fun y => decide (y ∈ r) && p y := List.find?_congr fun y hy => by simp [hy]
  rw [within]
  exact find?_lowest (by simp [record, passes]) (fun y hy => lowest y (by simpa using hy)) h.ascending record

/-- A line offers nothing exactly if it holds nothing that it could offer, whatever the circumstances. -/
theorem Line.offer_none {x : Ctx} {l : Line} : l.offer x = none ↔ l.holdSlot = none ∧ l.ended = [] ∧
    (∀ y ∈ l.roster, y.alertOwed ≠ true) ∧ (∀ y ∈ l.roster, y.reportOwed ≠ true) ∧ ∀ e, l.owed.owes e = false := by
  rw [← Owed.first_none, ← List.find?_eq_none, ← List.find?_eq_none]
  unfold Line.offer Line.offerEvent
  cases l.holdSlot with
  | some r => simp
  | none =>
    cases l.ended with
    | cons e rest => simp
    | nil =>
      cases l.roster.find? (·.alertOwed) with
      | some a => simp
      | none => cases l.roster.find? (·.reportOwed) <;> simp

section
variable {l : Line} (x : Ctx)

theorem Line.offer_holdSlot {r : ExchangeRec} (held : l.holdSlot = some r) :
    l.offer x = some (.exchange r, { l with holdSlot := none }) := by
  simp only [Line.offer, held]

variable (unheld : l.holdSlot = none)
include unheld

theorem Line.offer_ended {e : Ended} {rest : List Ended} (ended : l.ended = e :: rest) :
    l.offer x = some (.exchange (e.record x.n), { l with ended := rest }) := by
  simp only [Line.offer, unheld, ended]

variable (unended : l.ended = [])
include unended

theorem Line.offer_event : l.offer x = l.offerEvent x := by
  simp only [Line.offer, unheld, unended]

theorem Line.offer_alert (ok : RosterOk l.roster) {a : Node} (alert : a ∈ l.roster ∧ a.alertOwed = true)
    (lowest : ∀ y, y ∈ l.roster ∧ y.alertOwed = true → a.addr ≤ y.addr) : l.offer x =
      some (.alert x.n a.addr x.now, { l with
        roster := updateNode l.roster a.addr fun y => { y with alertOwed := false } }) := by
  have found : l.roster.find? (·.alertOwed) = some a := ok.find?_addr alert.1 alert.2 lowest
  simp only [Line.offer_event x unheld unended, Line.offerEvent, found]

variable (unalerted : ∀ y, ¬ (y ∈ l.roster ∧ y.alertOwed = true))
include unalerted

theorem Line.offer_report (ok : RosterOk l.roster) {a : Node} (report : a ∈ l.roster ∧ a.reportOwed = true)
    (lowest : ∀ y, y ∈ l.roster ∧ y.reportOwed = true → a.addr ≤ y.addr) : l.offer x =
      some (.nodeEvent x.n a x.now, { l with
        roster := updateNode l.roster a.addr fun y => { y with reportOwed := false } }) := by
  have none : l.roster.find? (·.alertOwed) = none := List.find?_eq_none.2 fun y hy owes => unalerted y ⟨hy, owes⟩
  have found : l.roster.find? (·.reportOwed) = some a := ok.find?_addr report.1 report.2 lowest
  simp only [Line.offer_event x unheld unended, Line.offerEvent, none, found]

theorem Line.offer_lineEvent (unreported : ∀ y, ¬ (y ∈ l.roster ∧ y.reportOwed = true)) {e : LineEvent}
    (owes : l.owed.owes e = true) (lowest : ∀ d, l.owed.owes d = true → e.code ≤ d.code) :
    l.offer x = some (.lineEvent x.n e x.now, { l with owed := l.owed.clearOf e }) := by
  have noAlert : l.roster.find? (·.alertOwed) = none := List.find?_eq_none.2 fun y hy owes => unalerted y ⟨hy, owes⟩
  have noReport : l.roster.find? (·.reportOwed) = none := List.find?_eq_none.2 fun y hy owes => unreported y ⟨hy, owes⟩
  simp only [Line.offer_event x unheld unended, Line.offerEvent, noAlert, noReport, Owed.first_some owes lowest,
    Option.map_some]

end

/-! ### The producers (R151) -/

theorem State.offerOf_admin {s : State} {r : AdminRec} (offers : s.admin = some (.offered r)) :
    s.offerOf .admin = some (.admin r, { s with admin := none }) := by
  simp only [State.offerOf, offers]

theorem State.offerOf_admin_none {s : State} : s.offerOf .admin = none ↔ ∀ r, s.admin ≠ some (.offered r) := by
  unfold State.offerOf
  rcases s.admin with _ | _ | r <;> simp

theorem State.offerOf_line_none {s : State} {n : LineId} :
    s.offerOf (.line n) = none ↔ (s.line n).offer (s.ctx n) = none :=
  Option.map_eq_none_iff

/-- An offer is taken from its producer; the Completion Unit has no part in it. -/
theorem State.offerOf_cu {s t : State} {p : Producer} {c : Completion} (offers : s.offerOf p = some (c, t)) : t.cu = s.cu := by
  cases p with
  | admin =>
    simp only [State.offerOf] at offers
    split at offers <;> cases offers
    rfl
  | line n =>
    obtain ⟨⟨d, l⟩, -, admitted⟩ := Option.map_eq_some_iff.1 offers
    cases admitted
    rfl

/-! ### Admission in rotation (R153) -/

theorem Producer.rotation_rises : ∀ p : Producer,
    p.rotation.Pairwise fun a b => turnsBefore 5 p.number a.number < turnsBefore 5 p.number b.number
  | .admin => by decide
  | .line n => by fin_cases n <;> decide

theorem Producer.mem_rotation : ∀ p q : Producer, q ∈ p.rotation
  | .admin, .admin => by decide
  | .admin, .line m => by fin_cases m <;> decide
  | .line n, .admin => by fin_cases n <;> decide
  | .line n, .line m => by fin_cases n <;> fin_cases m <;> decide

theorem State.placeFree_iff {s : State} : s.placeFree = true ↔ s.cu.holding.length < 16 := decide_eq_true_iff

theorem State.admitFrom_some {s t : State} {p : Producer} {c : Completion} (offers : s.offerOf p = some (c, t)) :
    s.admitFrom p = some { t with cu := { s.cu with holding := s.cu.holding ++ [c], pointer := p } } := by
  rw [State.admitFrom, offers, Option.map_some, State.hold, State.pointTo, State.offerOf_cu offers]

/-- Nothing is admitted where the part does not run, no place is free, or nothing is offered. -/
theorem State.admitNext_none {s : State}
    (h : s.part = .running → s.placeFree = true → ∀ p, s.offerOf p = none) : s.admitNext = none := by
  unfold State.admitNext
  split
  · next may => exact List.findSome?_eq_none_iff.2 fun p _ => by rw [State.admitFrom, h may.1 may.2 p, Option.map_none]
  · rfl

theorem State.admitNext_first {s t : State} {p : Producer} {c : Completion} (running : s.part = .running)
    (free : s.cu.holding.length < 16) (offers : s.offerOf p = some (c, t))
    (first : ∀ q, s.offerOf q ≠ none →
      turnsBefore 5 s.cu.pointer.number p.number ≤ turnsBefore 5 s.cu.pointer.number q.number) :
    s.admitNext = some { t with cu := { s.cu with holding := s.cu.holding ++ [c], pointer := p } } := by
  rw [State.admitNext, if_pos ⟨running, State.placeFree_iff.2 free⟩]
  exact findSome?_lowest (State.admitFrom_some offers) (fun q speaks => first q (by simpa [State.admitFrom] using speaks))
    (Producer.rotation_rises _) (Producer.mem_rotation _ p)

theorem State.admitAll_idle {s : State} (none : s.admitNext = .none) : s.admitAll = s := by
  simp only [State.admitAll, Config.holdingCapacity, State.admitLoop, none]

/-- Settles O53: a line's offer by what it holds first, and the admission by the members of the rotation. -/
theorem offersAreAdmittedInRotation : Obligations.OffersAreAdmittedInRotation := by
  refine ⟨fun x l => ⟨fun r => Line.offer_holdSlot x, fun unheld => ⟨fun e rest ended => ?_, fun unended ok => ?_⟩⟩, fun s =>
    ⟨fun r => State.offerOf_admin, State.offerOf_admin_none.2, fun n => rfl, fun h => ?_,
      fun p c t running free offers first => State.admitNext_first running free offers first,
      State.admitAll_idle, fun t => State.admitAll_next⟩⟩
  · rw [Line.offer_ended x unheld ended]
    cases e with
    | mk entry mark finish => cases mark <;> rfl
  · intro alerts reports
    refine ⟨fun a alert lowest => ?_, fun unalerted => ⟨fun a report lowest => ?_, fun unreported =>
      ⟨fun e owes lowest => ?_, fun owesNone => ?_⟩⟩⟩
    · rw [Line.offer_alert x unheld unended ok alert lowest, updateNode_map]
    · rw [Line.offer_report x unheld unended unalerted ok report lowest, updateNode_map]
    · exact ⟨_, l.owed.owes_clearOf e, Line.offer_lineEvent x unheld unended unalerted unreported owes lowest⟩
    · exact Line.offer_none.2 ⟨unheld, unended, fun y hy owes => unalerted y ⟨hy, owes⟩,
        fun y hy owes => unreported y ⟨hy, owes⟩, owesNone⟩
  · refine State.admitNext_none fun running free => ?_
    rcases h with idle | full | silent
    · exact absurd running idle
    · exact absurd (State.placeFree_iff.1 free) (Nat.not_lt.2 full)
    · exact silent

end Sys2Proof.Machine
end

section
/-! PROOFS. A settled part stays as it is: the consequences of an event add nothing to it (R80, R119, R136, R144, R153, R177,
R179). -/

namespace Sys2Proof.Machine

section
variable {s : State} (h : s.Settled)
include h

theorem State.Settled.admitNext_none : s.admitNext = none := State.admitNext_none h.offers

/-- Each line's own work leaves it as it is. -/
theorem State.Settled.onLines_eq (running : s.part = .running) : s.onLines Line.settle = s := by
  have same : (s.lines.mapIdx fun n l => l.settle (s.ctx n)) = s.lines := Quad.ext_get fun n => by
    rw [Quad.get_mapIdx]
    exact (h.lines running n).settle_eq (x := s.ctx n)
  unfold State.onLines
  rw [same]

/-- A transition in progress waits for a line. -/
theorem State.Settled.transitionStep_eq (running : s.part = .running) : s.transitionStep = s := by
  unfold State.transitionStep
  split
  · rfl
  · next p going =>
    have goes : s.power.transition ≠ none := by simp [going]
    split
    · next dozing =>
      obtain ⟨n, unparked⟩ := h.parked running goes dozing
      refine if_neg fun all => ?_
      have parked := (Quad.all_iff _ _).1 all n
      simp only [Line.countsParked, Bool.or_eq_true, beq_iff_eq, or_assoc] at parked
      exact parked.elim unparked.1 (Or.elim · unparked.2.1 unparked.2.2)
    · next awake =>
      obtain ⟨n, unswitched⟩ := h.switched running goes awake
      refine if_neg fun all => ?_
      have switched := (Quad.all_iff _ _).1 all n
      simp only [Line.switched, Bool.or_eq_true, beq_iff_eq, or_assoc] at switched
      exact switched.elim unswitched.2.1 (Or.elim · unswitched.2.2 unswitched.1)

theorem State.Settled.work_eq : s.work = s := by
  by_cases running : s.part = .running
  · have lines : s.workLines = s := by
      rw [State.workLines, h.onLines_eq running, h.transitionStep_eq running]
    have full : s.workLines.admitNext = none := by rw [lines, h.admitNext_none]
    rw [State.work_running running, State.admitAll_idle h.admitNext_none, State.workLoop_ends full, lines]
  · exact State.work_idle running

theorem State.Settled.fetchVisit_eq : s.fetchVisit = s := by
  refine State.fetchVisit_waits ?_
  by_cases busy : s.fetchBusy = true
  · exact .inl busy
  · exact .inr fun r => Bool.eq_false_iff.2 fun eligible => busy (h.rings r eligible)

theorem State.Settled.grant_eq : s.grant = s := by
  by_cases free : s.portOpen = true
  · exact State.grant_unasked (h.port free)
  · exact State.grant_closed free

theorem State.Settled.settle_eq : s.settle = s := by
  rw [State.settle, h.work_eq, h.fetchVisit_eq, h.grant_eq]

end

/-- Settles O4: what settling leaves alone is part of `State.Works`, and a settled part each of its stages leaves as it is. -/
theorem settlingKeepsTheRest : Obligations.SettlingKeepsTheRest :=
  fun s => ⟨s.settle_works.kept, State.Settled.settle_eq⟩

end Sys2Proof.Machine
end

section
/-! PROOFS. Nothing waits that could go on: a part that was settled is so after every row, after the passing of time, and so after
the step (R81, R91, R119, R135, R136, R144, R153, R177, R179). -/

namespace Sys2Proof.Machine

/-! ### What leaves a settled part settled -/

/-- What is on offer depends on the lines and on the Admin Unit's command. -/
theorem State.offerOf_none_congr (s t : State) (admin : t.admin = s.admin)
    (lines : ∀ n x, (s.line n).offer x = none → (t.line n).offer (t.ctx n) = none) {p : Producer}
    (silent : s.offerOf p = none) : t.offerOf p = none := by
  cases p with
  | admin => rwa [State.offerOf_admin_none, admin, ← State.offerOf_admin_none]
  | line n => exact State.offerOf_line_none.2 (lines n _ (State.offerOf_line_none.1 silent))

theorem State.Settled.withPending {s : State} (h : s.Settled) (q : List Instr) : (s.withPending q).Settled where
  offers running free p := State.offerOf_none_congr s (s.withPending q) rfl
    (fun _ _ silent => Line.offer_none.2 (Line.offer_none.1 silent)) (h.offers running free p)
  lines := h.lines
  parked := h.parked
  switched := h.switched
  rings
    | .admin => h.rings .admin
    | .line n => h.rings (.line n)
  port free
    | .fetch => h.port free .fetch
    | .completion => h.port free .completion
    | .writer n => h.port free (.writer n)

/-- Time alone gives a line no work to begin: it moves the counts of the engine, of the wire and of the round. -/
theorem Line.Settled.elapse {p : PowerState} {l : Line} (h : l.Settled p) (k : Nat) : (l.elapse k).Settled p :=
  ⟨h.hunt, h.pace, h.host, h.own, h.flushed, h.drained, h.parked⟩

theorem State.elapse_eligible (s : State) (k : Nat) (r : RingId) : (s.elapse k).eligible r = s.eligible r := by
  cases r with
  | admin => rfl
  | line n =>
    simp only [State.eligible, State.ownCondition, State.line_elapse, State.elapse_ring, State.elapse_part, State.elapse_power,
      Line.elapse_run, Line.elapse_depth]

theorem State.elapse_wanted (s : State) (k : Nat) (q : Requester) : (s.elapse k).wanted q = s.wanted q := by
  cases q with
  | fetch | completion => rfl
  | writer n =>
    have writer : ((s.elapse k).line n).writer = (s.line n).writer := by rw [State.line_elapse]; rfl
    simp only [State.wanted, State.elapse_part, writer]

theorem State.Settled.elapse {s : State} (h : s.Settled) (k : Nat) : (s.elapse k).Settled where
  offers running free p := by
    refine State.offerOf_none_congr s (s.elapse k) rfl (fun n x silent => ?_) (h.offers running free p)
    have bare := Line.offer_none.1 silent
    rw [State.line_elapse]
    exact Line.offer_none.2 bare
  lines running n := by
    rw [State.line_elapse]
    exact (h.lines running n).elapse k
  parked running going dozing := by
    obtain ⟨n, unparked⟩ := h.parked running going dozing
    exact ⟨n, by rwa [State.line_elapse]⟩
  switched running going awake := by
    obtain ⟨n, unswitched⟩ := h.switched running going awake
    exact ⟨n, by rwa [State.line_elapse]⟩
  rings r eligible := h.rings r (by rwa [← State.elapse_eligible s k])
  port free q := (State.elapse_wanted s k q).trans (h.port free q)

/-! ### Every row -/

/-- What a row can answer: it is taken, or it is a reset, or the RESET pin is low after it. -/
theorem exec_next {c : Instr} {s t : State} (e : exec c s = .next t) :
    (∃ o, s.take o = .next t) ∨ t.part = .disabled ∨ t.resetLow = true := by
  by_cases ends : endsTransfer c = true
  · obtain stops | ⟨f, row⟩ := exec_endsTransfer ends s
    · cases stops.symm.trans e
    · exact .inl ⟨_, row.symm.trans e⟩
  · cases c with
    | powerOnReset | hardReset =>
      cases e
      exact .inr (.inl rfl)
    | hardResetHeld =>
      cases e
      exact .inr (.inr rfl)
    | lineActivity n a =>
      change execLineActivity n a s = .next t at e
      unfold execLineActivity at e
      split at e
      · next low =>
        cases e
        exact .inr (.inr low)
      · exact .inl ⟨_, e⟩
    | setupReadDone | entryReadDone | completionWriteDone | statusWriteDone | slotBodyWriteDone | slotStampWriteDone | power
    | lineSetup | lineStart | lineStop | lineReset | nodeAdd | nodeRemove | nodeBar | nodeUnbar | nodeQuery | sweepSet
    | sweepClear | sweepImage | cancel | lineQuery => exact absurd rfl ends
    | enable | softReset | post | consumed | cause => exact .inl ⟨some _, e⟩
    | _ => exact .inl ⟨_, e⟩

/-- With its RESET pin high the part has nothing that waits and could go on. -/
def State.Rests (s : State) : Prop := s.resetLow = false → s.Settled

/-- A command that is taken settles the part, or leaves it as it was. -/
theorem State.take_rests {s t : State} {o : Option State} (h : s.Rests) (e : s.take o = .next t) : t.Rests := by
  obtain rfl | ⟨-, u, -, rfl⟩ := State.take_next e
  · exact h
  · exact fun _ => u.settle_settled

theorem exec_rests {c : Instr} {s t : State} (h : s.Rests) (e : exec c s = .next t) : t.Rests := by
  obtain ⟨o, taken⟩ | disabled | low := exec_next e
  · exact State.take_rests h taken
  · intro _
    rw [← State.settle_stopped (.inl disabled)]
    exact t.settle_settled
  · intro up
    exact absurd low (by simp [up])

theorem State.advance_rests {s : State} (h : s.Rests) : s.advance.Rests := by
  unfold State.advance
  split
  · exact h
  · exact fun up => (h up).elapse 1

theorem State.idle_rests {s t : State} (h : s.Rests) (e : s.idle = .next t) : t.Rests := by
  unfold State.idle at e
  split at e
  · exact exec_rests h e
  · cases e
    exact State.advance_rests h

/-- Settles O58: a step runs a command or lets time pass, and after each of them nothing waits that could go on. -/
theorem nothingWaitsThatCouldGoOn : Obligations.NothingWaitsThatCouldGoOn := by
  intro s t rests e
  unfold step at e
  split at e
  · next c rest queue =>
    have taken : (s.withPending rest).Rests := fun up => (rests up).withPending rest
    exact exec_rests taken e
  · exact State.idle_rests rests e

end Sys2Proof.Machine
end

section
/-! PROOFS. The part as it enters FAULTED by a CONSUMED write or a bus error (R56, R143, R155), and the end of the Completion
Unit's writes, with moderation and the holdoff (R142, R154, R157, R158). -/

namespace Sys2Proof.Machine

/-! ### The part fault -/

theorem State.settle_partFault (s : State) (r : FaultReason) : (s.partFault r).settle = s.stopped r :=
  State.settle_stopped (.inr rfl)

theorem State.stopped_line (s : State) (r : FaultReason) (n : LineId) : (s.stopped r).line n = (s.line n).partFault :=
  Quad.get_mapIdx _ _ n

/-! ### CONSUMED -/

theorem exec_consumed {s : State} (up : s.resetLow = false) (v : Word) :
    exec (.consumed v) s = .next (s.writeConsumed v).settle := by
  rw [← State.take_some up]
  rfl

theorem State.writeConsumed_idle {s : State} (idle : s.part ≠ .running) (v : Word) : s.writeConsumed v = s := if_pos idle

theorem State.writeConsumed_running {s : State} (running : s.part = .running) (v : Word) : s.writeConsumed v =
    if (s.cu.produced - v.setWidth 16).toNat ≤ s.completionSize then { s with cu := { s.cu with consumed := v.setWidth 16 } }
    else s.partFault .badConsumed :=
  if_neg (not_not.2 running)

/-- Settles O11: a write within the ring moves the count, and one beyond it is the part fault. -/
theorem consumedMovesOrFaults : Obligations.ConsumedMovesOrFaults := by
  intro s v up
  rw [exec_consumed up]
  refine ⟨fun idle => ?_, fun running fits => ?_, fun running beyond => ⟨?_, fun n => ?_⟩⟩
  · rw [State.writeConsumed_idle idle]
  · rw [State.writeConsumed_running running, if_pos fits]
  · rw [State.writeConsumed_running running, if_neg (Nat.not_le.2 beyond), State.settle_partFault]
  · rw [State.stopped_line]
    exact ⟨rfl, Line.probesToStart_off rfl⟩

/-! ### The end of a write -/

/-- A bus error at the end of a transfer of the Completion Unit is a part fault (R142, R154). -/
theorem Ends.faults {c : Instr} {s : State} {x : Transfer} {g : State → State} {r : FaultReason} (ends : Ends c s x g)
    (serving : s.Serving x) (faults : g s.released = s.released.partFault r) : exec c s = .next (s.released.stopped r) := by
  rw [ends.serves serving, faults, State.settle_partFault]

/-! ### Moderation (R157, R158) -/

section
variable {s : State} {u : Setup} (held : s.setup = some u)
include held

theorem State.threshold_eq : s.threshold = u.threshold := by
  rw [State.threshold, held]
  rfl

theorem State.holdoffTime_eq : s.holdoffTime = u.holdoff := by
  rw [State.holdoffTime, held]
  rfl

theorem State.moderate_signals (reached : u.threshold ≤ (s.cu.produced - s.cu.mark).toNat) : s.moderate = s.signal :=
  if_pos (by rwa [State.threshold_eq held])

theorem State.moderate_below (below : (s.cu.produced - s.cu.mark).toNat < u.threshold) : s.moderate =
    if (s.cu.produced - s.cu.mark).toNat = 1 ∧ u.holdoff ≠ 0 then
      { s with cu := { s.cu with holdoff := some (u.holdoff * 48) } }
    else s := by
  rw [← State.holdoffTime_eq held]
  exact if_neg (by rw [State.threshold_eq held]; exact Nat.not_le.2 below)

end

/-! ### The holdoff deadline (R158) -/

theorem exec_holdoffExpiry_still {s : State} (none : s.cu.holdoff = .none) : exec .holdoffExpiry s = .next s := by
  have never : (if s.part = .running then s.cu.holdoff.map fun k => (s.elapse k).holdoffPassed else .none) = .none := by
    simp [none]
  change execHoldoffExpiry s = _
  rw [execHoldoffExpiry, never, State.take_none]

theorem exec_holdoffExpiry {s : State} (live : s.Live) {k : Nat} (runs : s.cu.holdoff = some k) :
    exec .holdoffExpiry s = .next ((s.elapse k).holdoffPassed).settle := by
  change execHoldoffExpiry s = _
  rw [execHoldoffExpiry, if_pos live.running, runs, Option.map_some, State.take_some live.up]

/-- A completion is unsignalled exactly if the produced count is not at the signalled mark. -/
theorem CompletionUnit.unsignalled_pos (c : CompletionUnit) : 1 ≤ c.unsignalled ↔ c.produced ≠ c.mark := by
  rw [CompletionUnit.unsignalled]
  bv_omega

theorem State.holdoffPassed_signalled {s : State} (signalled : s.cu.produced = s.cu.mark) :
    s.holdoffPassed = { s with cu := { s.cu with holdoff := none } } :=
  if_neg (by simp [CompletionUnit.unsignalled_pos, signalled])

theorem State.holdoffPassed_unsignalled {s : State} (unsignalled : s.cu.produced ≠ s.cu.mark) : s.holdoffPassed = s.signal :=
  if_pos (s.cu.unsignalled_pos.2 unsignalled)

/-- Settles O45: the ends of the writes by their responses, moderation by its threshold, and the holdoff by its deadline. -/
theorem completionUnitWritesAndSignals : Obligations.CompletionUnitWritesAndSignals := by
  refine ⟨fun s a bytes => ⟨fun serving => ⟨?_, ?_⟩, fun serving => ⟨?_, fun u held => ?_⟩⟩, fun s live =>
    ⟨exec_holdoffExpiry_still, fun k runs => ?_⟩⟩
  · exact (ends_statusWriteDone .good s a bytes).serves serving
  · exact (ends_statusWriteDone .busError s a bytes).faults serving rfl
  · exact (ends_completionWriteDone .busError s a bytes).faults serving rfl
  · intro p waiting cu
    have row : exec (.completionWriteDone .good) s = .next ({ s.released with cu := cu } : State).moderate.settle :=
      (ends_completionWriteDone .good s a bytes).serves serving
    have counted : ({ s.released with cu := cu } : State).setup = some u := held
    rw [row]
    refine ⟨fun reached => ?_, fun below first timed => ?_, fun below rest => ?_⟩
    · rw [State.moderate_signals counted reached]
      rfl
    · rw [State.moderate_below counted below, if_pos ⟨first, timed⟩]
    · rw [State.moderate_below counted below, if_neg (not_and'.2 fun timed => rest.resolve_right timed)]
  · rw [exec_holdoffExpiry live runs]
    exact ⟨fun signalled => by rw [State.holdoffPassed_signalled (s := s.elapse k) signalled],
      fun unsignalled => by rw [State.holdoffPassed_unsignalled (s := s.elapse k) unsignalled]; rfl⟩

end Sys2Proof.Machine
end

section
/-! PROOFS. The bytes of the records the part writes: completion records, the status block and the bodies of slots (R108, R141,
R149, R188). -/

namespace Sys2Proof.Machine

/-! ### Codes fit into a byte -/

@[simp] theorem ExOutcome.code_mod (c : ExOutcome) : c.code % 256 = c.code := by cases c <;> rfl

@[simp] theorem ExDetail.code_mod (c : ExDetail) : c.code % 256 = c.code := by cases c <;> rfl

@[simp] theorem Reason.code_mod (c : Reason) : c.code % 256 = c.code := by cases c <;> rfl

@[simp] theorem LineEvent.code_mod (c : LineEvent) : c.code % 256 = c.code := by cases c <;> rfl

@[simp] theorem NodeState.code_mod (c : NodeState) : c.code % 256 = c.code := by cases c <;> rfl

@[simp] theorem Verdict.code_mod (c : Verdict) : c.code % 256 = c.code := by cases c <;> rfl

@[simp] theorem ReplyStatus.code_mod (c : ReplyStatus) : c.code % 256 = c.code := by cases c <;> rfl

@[simp] theorem RunState.code_mod (c : RunState) : c.code % 256 = c.code := by cases c <;> rfl

@[simp] theorem Engine.code_mod (c : Engine) : c.code % 256 = c.code := by cases c <;> rfl

@[simp] theorem ProfileSel.code_mod (c : ProfileSel) : c.code % 256 = c.code := by cases c <;> rfl

@[simp] theorem Pace.code_mod (c : Pace) : c.code % 256 = c.code := by cases c <;> rfl

@[simp] theorem PartState.code_mod (c : PartState) : c.code % 256 = c.code := by cases c <;> rfl

@[simp] theorem PowerState.code_mod (c : PowerState) : c.code % 256 = c.code := by cases c <;> rfl

@[simp] theorem RingState.code_mod (c : RingState) : c.code % 256 = c.code := by cases c <;> rfl

@[simp] theorem SlotOutcome.code_mod (c : SlotOutcome) : c.code % 256 = c.code := by cases c <;> rfl

/-! ### Bytes of numbers and flags -/

@[simp] theorem toNat_byteOf (n : Nat) : (byteOf n).toNat = n % 256 := BitVec.toNat_ofNat _ _

/-- A flag's number. -/
def flagNat (x : Bool) : Nat := if x then 1 else 0

@[simp] theorem toNat_boolByte (b : Bool) : (boolByte b).toNat = flagNat b := by cases b <;> rfl

@[simp] theorem LineId.val_mod (n : LineId) : n.val % 256 = n.val := Nat.mod_eq_of_lt (by omega)

/-- A word as wide as its field gives it whole. -/
theorem leNat_leBytes_toNat (n : Nat) {w : Nat} (v : BitVec w) (wide : 2 ^ w ≤ 256 ^ n) :
    leNat (leBytes n v.toNat) = v.toNat := by
  rw [leNat_leBytes, Nat.mod_eq_of_lt (v.isLt.trans_le wide)]

theorem leNat_half (v : Half) : leNat (leBytes 2 v.toNat) = v.toNat := leNat_leBytes_toNat 2 v (by decide)

theorem leNat_word (v : Word) : leNat (leBytes 4 v.toNat) = v.toNat := leNat_leBytes_toNat 4 v (by decide)

theorem leNat_latencyBytes (o : Option Word) : leNat (latencyBytes o) = (o.map (·.toNat)).getD 0xFFFFFFFF := by
  cases o with
  | none => rfl
  | some t => exact leNat_word t

theorem length_latencyBytes (o : Option Word) : (latencyBytes o).length = 4 := by
  cases o with
  | none => rfl
  | some t => exact length_leBytes 4 _

theorem length_optTimeBytes (o : Option Word) : (optTimeBytes o).length = 5 := by cases o <;> rfl

/-- The byte of a value that may be absent. -/
theorem toNat_getD_map {α : Type} (o : Option α) (f : α → Byte) (absent : Byte) :
    ((o.map f).getD absent).toNat = (o.map fun a => (f a).toNat).getD absent.toNat := by cases o <;> rfl

/-! ### The parts of a record -/

/-- Behind its end a record reads as 0. -/
theorem recordByte_beyond {b : List Byte} {k : Nat} (beyond : b.length ≤ k) : recordByte b k = 0 := by
  simp [recordByte, beyond]

theorem recordField_beyond {b : List Byte} {i : Nat} (beyond : b.length ≤ i) (n : Nat) : recordField b i n = 0 := by
  rw [recordField, List.drop_eq_nil_of_le beyond, List.take_nil, leNat]

/-- A field has its lowest byte first, also where it reaches behind the end of the record. -/
theorem recordField_lowest (b : List Byte) (i n : Nat) :
    recordField b i (n + 1) = (recordByte b i).toNat + 256 * recordField b (i + 1) n := by
  by_cases within : i < b.length
  · exact recordField_succ within n
  · rw [recordByte_beyond (by omega), recordField_beyond (by omega), recordField_beyond (by omega)]
    rfl

/-- A field is told byte by byte. -/
theorem recordField_congr {b c : List Byte} (n : Nat) {i j : Nat}
    (same : ∀ k, k < n → recordByte b (i + k) = recordByte c (j + k)) : recordField b i n = recordField c j n := by
  induction n generalizing i j with
  | zero => rw [recordField_zero, recordField_zero]
  | succ n ih =>
    have first : recordByte b i = recordByte c j := same 0 (by omega)
    have later : recordField b (i + 1) n = recordField c (j + 1) n := ih fun k hk => by
      simpa only [Nat.add_assoc, Nat.add_comm 1] using same (k + 1) (by omega)
    rw [recordField_lowest, recordField_lowest, first, later]

/-- A field of one byte, by what stands there. -/
theorem recordField_byte {b : List Byte} {i : Nat} {x : Byte} (read : recordByte b i = x) : recordField b i 1 = x.toNat := by
  rw [recordField_one, read]

/-- Bytes `i` to `j` are 0. -/
def ZeroBytes (b : List Byte) (i j : Nat) : Prop := ∀ k, i ≤ k → k < j → recordByte b k = 0

theorem ZeroBytes.beyond {b : List Byte} {i : Nat} (beyond : b.length ≤ i) (j : Nat) : ZeroBytes b i j :=
  fun _ low _ => recordByte_beyond (beyond.trans low)

theorem ZeroBytes.pair {b : List Byte} {i : Nat} (first : recordByte b i = 0) (second : recordByte b (i + 1) = 0) :
    ZeroBytes b i (i + 2) := by
  intro k low high
  obtain rfl | rfl : k = i ∨ k = i + 1 := by omega
  · exact first
  · exact second

/-- A stretch of a record that is listed as zeros. -/
theorem ZeroBytes.of_slice {b : List Byte} {i : Nat} (n : Nat) (slice : (b.drop i).take n = List.replicate n 0) :
    ZeroBytes b i (i + n) := by
  intro k low high
  obtain ⟨m, rfl⟩ := Nat.exists_eq_add_of_le low
  have within : m < n := by omega
  have read : ((b.drop i).take n)[m]? = some 0 := by rw [slice, List.getElem?_replicate, if_pos within]
  rw [List.getElem?_take_of_lt within, List.getElem?_drop] at read
  simp [recordByte, read]

section
variable {front : List Byte} {f : Nat} (size : front.length = f) (m : Nat) (body : List Byte)
include size

/-- A record that has a padded body behind its front. -/
theorem recordByte_body (k : Nat) : recordByte (front ++ padTo m body) (f + k) = if k < m then recordByte body k else 0 := by
  rw [recordByte_append_right (by omega), size, Nat.add_sub_cancel_left, recordByte_padTo]

theorem recordField_body {i n : Nat} (within : i + n ≤ m) :
    recordField (front ++ padTo m body) (f + i) n = recordField body i n :=
  recordField_congr n fun k hk => by rw [Nat.add_assoc, recordByte_body size, if_pos (by omega)]

variable {body} in
theorem ZeroBytes.inBody {i j : Nat} (zero : ZeroBytes body i j) : ZeroBytes (front ++ padTo m body) (f + i) (f + j) := by
  intro k low high
  obtain ⟨d, rfl⟩ := Nat.exists_eq_add_of_le (Nat.le_of_add_right_le low)
  rw [recordByte_body size]
  split
  · exact zero d (by omega) (by omega)
  · rfl

end

/-! ### Completion records (R149) -/

/-- What the head of a completion record says, whatever its kind. -/
def RecordHead (b : List Byte) (kind line outcome detail tag addr finish : Nat) : Prop :=
  b.length = 64 ∧ recordField b 0 1 = kind ∧ recordField b 1 1 = line ∧ recordField b 2 1 = outcome ∧
    recordField b 3 1 = detail ∧ recordField b 4 2 = tag ∧ recordField b 6 1 = addr ∧ recordField b 16 4 = finish ∧
    ZeroBytes b 22 24

section
variable {b : List Byte} {kind line outcome detail : Byte} {tag : Half} {node attempts verdict status length command : Byte}
  {latency : List Byte} {finish : Word} {profile body : List Byte}
  (record : b = completionBytes kind line outcome detail tag node attempts verdict status length command latency finish profile
    body) (four : latency.length = 4)
include record four

theorem completionBytes_latency : recordField b 12 4 = leNat latency := by
  obtain ⟨x, y, z, w, rfl⟩ := List.length_eq_four.1 four
  rw [record]
  rfl

variable (two : profile.length = 2)
include two

/-- Behind its first 24 bytes a completion record holds its payload or body. -/
theorem completionBytes_split : ∃ front : List Byte, front.length = 24 ∧ b = front ++ padTo 40 body :=
  ⟨[kind, line, outcome, detail] ++ leBytes 2 tag.toNat ++ [node, attempts, verdict, status, length, command] ++ latency ++
    leBytes 4 finish.toNat ++ profile ++ [0, 0], by simp [length_leBytes, four, two], record⟩

theorem completionBytes_head : RecordHead b kind.toNat line.toNat outcome.toNat detail.toNat tag.toNat node.toNat
    finish.toNat := by
  have size : b.length = 64 := by
    obtain ⟨front, size, split⟩ := completionBytes_split record four two
    rw [split, List.length_append, size, length_padTo]
  obtain ⟨x, y, z, w, rfl⟩ := List.length_eq_four.1 four
  obtain ⟨p, q, rfl⟩ := List.length_eq_two.1 two
  refine ⟨size, ?_⟩
  rw [record]
  exact ⟨rfl, rfl, rfl, rfl, leNat_half tag, rfl, leNat_word finish, .of_slice 2 rfl⟩

theorem completionBytes_profile : recordByte b 20 = recordByte profile 0 ∧ recordByte b 21 = recordByte profile 1 := by
  obtain ⟨x, y, z, w, rfl⟩ := List.length_eq_four.1 four
  obtain ⟨p, q, rfl⟩ := List.length_eq_two.1 two
  rw [record]
  exact ⟨rfl, rfl⟩

end

/-! ### EXCHANGE records -/

/-- A reply's payload stands in 32 bytes, with zeros behind it (R108). -/
def PayloadAt (b : List Byte) (i : Nat) (r : Option Reply) : Prop :=
  ∀ k, k < 32 → recordByte b (i + k) = ((r.map (·.payload)).getD []).getD k 0

theorem payloadAt_body {front : List Byte} {f : Nat} (size : front.length = f) {m : Nat} (wide : 32 ≤ m) (r : Option Reply) :
    PayloadAt (front ++ padTo m (padTo 32 ((r.map (·.payload)).getD []))) f r ∧
      ZeroBytes (front ++ padTo m (padTo 32 ((r.map (·.payload)).getD []))) (f + 32) (f + m) := by
  refine ⟨fun k within => ?_, .inBody size m (.beyond (by rw [length_padTo]) m)⟩
  rw [recordByte_body size, if_pos (by omega), recordByte_padTo, if_pos within]
  rfl

theorem exchangeBytes_layout (r : ExchangeRec) :
    let b := (Completion.exchange r).bytes
    let reply := r.last.bind (·.reply)
    RecordHead b 1 r.line.val r.outcome.code r.detail.code r.tag.toNat (r.node % 256) r.finish.toNat ∧
    recordField b 7 1 = r.attempts % 256 ∧ recordField b 8 1 = (r.last.map fun a => a.verdict.code).getD 0 ∧
    recordField b 9 1 = (reply.map fun p => p.status.code).getD 0xFF ∧
    recordField b 10 1 = (reply.map fun p => p.payload.length % 256).getD 0xFF ∧ ZeroBytes b 11 12 ∧
    recordField b 12 4 = ((r.last.bind (·.latency)).map (·.toNat)).getD 0xFFFFFFFF ∧ ZeroBytes b 20 22 ∧
    PayloadAt b 24 reply ∧ ZeroBytes b 56 64 := by
  intro b reply
  have record : b = completionBytes 1 (byteOf r.line) (byteOf r.outcome.code) (byteOf r.detail.code) r.tag (byteOf r.node)
      (byteOf r.attempts) ((r.last.map fun a => byteOf a.verdict.code).getD 0)
      ((reply.map fun p => byteOf p.status.code).getD 0xFF) ((reply.map fun p => byteOf p.payload.length).getD 0xFF) 0
      (latencyBytes (r.last.bind (·.latency))) r.finish [0, 0] (padTo 32 ((reply.map (·.payload)).getD [])) := rfl
  have four := length_latencyBytes (r.last.bind (·.latency))
  have head := completionBytes_head record four rfl
  simp only [toNat_byteOf, ExOutcome.code_mod, ExDetail.code_mod, LineId.val_mod] at head
  obtain ⟨unused, unused'⟩ := completionBytes_profile record four rfl
  obtain ⟨front, size, split⟩ := completionBytes_split record four rfl
  have paid := payloadAt_body size (m := 40) (by omega) reply
  rw [← split] at paid
  refine ⟨head, recordField_byte rfl, (recordField_one b 8).trans ?_, (recordField_one b 9).trans ?_,
    (recordField_one b 10).trans ?_, .of_slice 1 rfl, ?_, .pair unused unused', paid⟩
  · exact (toNat_getD_map r.last (fun a => byteOf a.verdict.code) 0).trans (by simp)
  · exact (toNat_getD_map reply (fun p => byteOf p.status.code) 0xFF).trans (by simp)
  · exact (toNat_getD_map reply (fun p => byteOf p.payload.length) 0xFF).trans (by simp)
  · rw [completionBytes_latency record four, leNat_latencyBytes]

/-! ### Node records, in an ADMIN or a NODE_EVENT record -/

/-- Bytes 24 to 32 of a record that carries a node. -/
def NodeAt (b : List Byte) (x : Node) : Prop :=
  recordField b 24 1 = x.addr % 256 ∧ recordField b 25 1 = x.state.code ∧ recordField b 26 1 = x.failures % 256 ∧
    recordField b 27 1 = flagNat x.lastToggle ∧ recordField b 28 4 = (x.lastHeard.map (·.toNat)).getD 0 ∧
    recordField b 32 1 = flagNat x.lastHeard.isSome

theorem nodeAt_body {front : List Byte} (size : front.length = 24) (x : Node) (rest : List Byte) :
    NodeAt (front ++ padTo 40 (x.eventBytes ++ rest)) x := by
  have reads (i n : Nat) (within : i + n ≤ 40) : recordField (front ++ padTo 40 (x.eventBytes ++ rest)) (24 + i) n =
      recordField (x.eventBytes ++ rest) i n := recordField_body size 40 _ within
  refine ⟨(reads 0 1 (by decide)).trans (recordField_byte rfl), (reads 1 1 (by decide)).trans ?_,
    (reads 2 1 (by decide)).trans (recordField_byte rfl), (reads 3 1 (by decide)).trans ?_, (reads 4 4 (by decide)).trans ?_,
    (reads 8 1 (by decide)).trans ?_⟩
  · exact (recordField_byte rfl).trans ((toNat_byteOf _).trans x.state.code_mod)
  · exact (recordField_byte rfl).trans (toNat_boolByte _)
  · unfold Node.eventBytes
    cases x.lastHeard with
    | none => rfl
    | some t => exact leNat_word t
  · unfold Node.eventBytes
    cases x.lastHeard <;> rfl

theorem Node.length_eventBytes (x : Node) : x.eventBytes.length = 9 := by
  simp [Node.eventBytes, length_optTimeBytes]

theorem nodeEventBytes_layout (n : LineId) (x : Node) (t : Word) :
    let b := (Completion.nodeEvent n x t).bytes
    RecordHead b 3 n.val x.state.code 0 0 (x.addr % 256) t.toNat ∧ ZeroBytes b 7 16 ∧ ZeroBytes b 20 24 ∧ NodeAt b x ∧
      ZeroBytes b 33 64 := by
  intro b
  have record : b = completionBytes 3 (byteOf n) (byteOf x.state.code) 0 0 (byteOf x.addr) 0 0 0 0 0 [0, 0, 0, 0] t [0, 0]
      x.eventBytes := rfl
  have head := completionBytes_head record rfl rfl
  simp only [toNat_byteOf, NodeState.code_mod, LineId.val_mod] at head
  obtain ⟨front, size, split⟩ := completionBytes_split record rfl rfl
  have behind : ZeroBytes b 33 64 := by
    rw [split]
    exact .inBody size 40 (.beyond x.length_eventBytes.le 40)
  have node : NodeAt b x := by
    rw [split, ← List.append_nil x.eventBytes]
    exact nodeAt_body size x []
  exact ⟨head, .of_slice 9 rfl, .of_slice 4 rfl, node, behind⟩

/-! ### LINE_EVENT and ALERT records -/

/-- A record with no field of its own behind its head. -/
theorem bareBytes_layout {b : List Byte} {kind line outcome node : Byte} {t : Word}
    (record : b = completionBytes kind line outcome 0 0 node 0 0 0 0 0 [0, 0, 0, 0] t [0, 0] []) :
    RecordHead b kind.toNat line.toNat outcome.toNat 0 0 node.toNat t.toNat ∧ ZeroBytes b 7 16 ∧ ZeroBytes b 20 64 := by
  refine ⟨completionBytes_head record rfl rfl, ?_, ?_⟩ <;> rw [record]
  · exact .of_slice 9 rfl
  · exact .of_slice 44 rfl

theorem lineEventBytes_layout (n : LineId) (e : LineEvent) (t : Word) :
    let b := (Completion.lineEvent n e t).bytes
    RecordHead b 4 n.val e.code 0 0 0 t.toNat ∧ ZeroBytes b 7 16 ∧ ZeroBytes b 20 64 := by
  simpa using bareBytes_layout (b := (Completion.lineEvent n e t).bytes) rfl

theorem alertBytes_layout (n : LineId) (a : Nat) (t : Word) :
    let b := (Completion.alert n a t).bytes
    RecordHead b 5 n.val 0 0 0 (a % 256) t.toNat ∧ ZeroBytes b 7 16 ∧ ZeroBytes b 20 64 := by
  simpa using bareBytes_layout (b := (Completion.alert n a t).bytes) rfl

/-! ### ADMIN records -/

/-- The head of an ADMIN record and its command code. -/
def AdminRecordHead (b : List Byte) (r : AdminRec) (outcome detail : Nat) : Prop :=
  RecordHead b 2 (r.line.getD 0xFF).toNat outcome detail r.tag.toNat (r.node.getD 0xFF).toNat r.finish.toNat ∧
    ZeroBytes b 7 11 ∧ recordByte b 11 = r.command ∧ ZeroBytes b 12 16

theorem noBody_layout {b front : List Byte} (size : front.length = 24) (split : b = front ++ padTo 40 []) :
    ZeroBytes b 24 64 := by
  rw [split]
  exact .inBody size 40 (.beyond (b := []) (i := 0) le_rfl 40)

theorem completionBytes_admin {b : List Byte} {r : AdminRec} {outcome detail : Byte} {profile body : List Byte}
    (record : b = completionBytes 2 (r.line.getD 0xFF) outcome detail r.tag (r.node.getD 0xFF) 0 0 0 0 r.command [0, 0, 0, 0]
      r.finish profile body) (two : profile.length = 2) : AdminRecordHead b r outcome.toNat detail.toNat := by
  refine ⟨completionBytes_head record rfl two, ?_⟩
  rw [record]
  exact ⟨.of_slice 4 rfl, rfl, .of_slice 4 rfl⟩

theorem Reason.length_profileBytes (p : Reason) : p.profileBytes.length = 2 := by cases p <;> rfl

theorem Reason.profileBytes_other {p : Reason} (other : ∀ sel f, p ≠ .badProfile sel f) : p.profileBytes = [0, 0] := by
  cases p with
  | badProfile sel f => exact absurd rfl (other sel f)
  | _ => rfl

theorem refusedBytes_layout {r : AdminRec} {p : Reason} (refused : r.outcome = .refused p) :
    let b := (Completion.admin r).bytes
    AdminRecordHead b r 1 p.code ∧ ZeroBytes b 24 64 ∧
      (∀ sel f, p = .badProfile sel f → recordField b 20 1 = sel.code ∧ recordField b 21 1 = f % 256) ∧
      ((∀ sel f, p ≠ .badProfile sel f) → ZeroBytes b 20 22) := by
  intro b
  have record : b = completionBytes 2 (r.line.getD 0xFF) 1 (byteOf p.code) r.tag (r.node.getD 0xFF) 0 0 0 0 r.command
      [0, 0, 0, 0] r.finish p.profileBytes [] := by
    simp only [b, Completion.bytes, refused]
  have two := p.length_profileBytes
  have head := completionBytes_admin record two
  simp only [toNat_byteOf, Reason.code_mod] at head
  obtain ⟨front, size, split⟩ := completionBytes_split record rfl two
  obtain ⟨first, second⟩ := completionBytes_profile record rfl two
  refine ⟨head, noBody_layout size split, ?_, fun other => ?_⟩
  · rintro sel f rfl
    exact ⟨(recordField_byte first).trans ((toNat_byteOf _).trans sel.code_mod), recordField_byte second⟩
  · rw [Reason.profileBytes_other other] at first second
    exact .pair first second

/-- The record of a command that is DONE, with its body behind the 24 bytes of its front. -/
theorem doneBytes_layout {r : AdminRec} {d : AdminBody} (done : r.outcome = .done d) :
    let b := (Completion.admin r).bytes
    AdminRecordHead b r 0 0 ∧ ZeroBytes b 20 22 ∧ ∃ front : List Byte, front.length = 24 ∧ b = front ++ padTo 40 d.bytes := by
  intro b
  have record : b = completionBytes 2 (r.line.getD 0xFF) 0 0 r.tag (r.node.getD 0xFF) 0 0 0 0 r.command [0, 0, 0, 0] r.finish
      [0, 0] d.bytes := by
    simp only [b, Completion.bytes, done]
  obtain ⟨first, second⟩ := completionBytes_profile record rfl rfl
  exact ⟨completionBytes_admin record rfl, .pair first second, completionBytes_split record rfl rfl⟩

/-! ### The bodies of ADMIN records -/

theorem Node.length_bytes (x : Node) : x.bytes.length = 13 := by
  simp [Node.bytes, Node.length_eventBytes, length_leBytes]

theorem LineReport.length_bytes (q : LineReport) : q.bytes.length = 36 := rfl

theorem toNat_flags (x y z w : Bool) : (byteOf (x.toNat + 2 * y.toNat + 4 * z.toNat + 8 * w.toNat)).toNat =
    flagNat x + 2 * flagNat y + 4 * flagNat z + 8 * flagNat w := by
  cases x <;> cases y <;> cases z <;> cases w <;> rfl

/-- What stands in a node's record behind the time at which it was last heard. -/
theorem Node.bytes_end (x : Node) : recordByte x.bytes 9 = byteOf x.joinProbes ∧
    recordField x.bytes 10 2 = leNat (leBytes 2 x.roundsSilent) ∧
    recordByte x.bytes 12 = byteOf (x.alertReported.toNat + 2 * x.alertOwed.toNat + 4 * x.reportOwed.toNat) := by
  unfold Node.bytes Node.eventBytes
  cases x.lastHeard <;> exact ⟨rfl, rfl, rfl⟩

section
variable {b front : List Byte} (size : front.length = 24)
include size

/-- Bytes 33 to 36 of a NODE QUERY record, behind what a NODE_EVENT shows of the node. -/
theorem nodeBody_layout {x : Node} (split : b = front ++ padTo 40 x.bytes) :
    NodeAt b x ∧ recordField b 33 1 = x.joinProbes % 256 ∧ recordField b 34 2 = x.roundsSilent % 65536 ∧
      recordField b 36 1 = flagNat x.alertReported + 2 * flagNat x.alertOwed + 4 * flagNat x.reportOwed ∧ ZeroBytes b 37 64 := by
  subst split
  obtain ⟨probes, rounds, flags⟩ := x.bytes_end
  have parts : x.bytes = x.eventBytes ++ ([byteOf x.joinProbes] ++ leBytes 2 x.roundsSilent ++
      [byteOf (x.alertReported.toNat + 2 * x.alertOwed.toNat + 4 * x.reportOwed.toNat)]) := by
    simp only [Node.bytes, List.append_assoc]
  have node : NodeAt (front ++ padTo 40 x.bytes) x := by
    rw [parts]
    exact nodeAt_body size x _
  exact ⟨node, (recordField_body size 40 _ (i := 9) (by decide)).trans (recordField_byte probes),
    (recordField_body size 40 _ (i := 10) (by decide)).trans (rounds.trans (leNat_leBytes 2 _)),
    (recordField_body size 40 _ (i := 12) (by decide)).trans ((recordField_byte flags).trans
      (toNat_flags x.alertReported x.alertOwed x.reportOwed false)),
    .inBody size 40 (.beyond x.length_bytes.le 40)⟩

theorem cancelBody_layout {t : Half} {k : Nat} (split : b = front ++ padTo 40 (AdminBody.cancel t k).bytes) :
    recordField b 24 2 = t.toNat ∧ recordField b 26 1 = k % 256 ∧ ZeroBytes b 27 64 := by
  subst split
  exact ⟨(recordField_body size 40 _ (i := 0) (by decide)).trans (leNat_half t),
    (recordField_body size 40 _ (i := 2) (by decide)).trans (recordField_byte rfl),
    .inBody size 40 (.beyond (i := 3) (by rfl) 40)⟩

theorem lineBody_layout {q : LineReport} (split : b = front ++ padTo 40 q.bytes) :
    recordField b 24 1 = q.run.code ∧ recordField b 25 1 = flagNat q.abandon ∧
      recordField b 26 1 = q.engine.code ∧ recordField b 27 1 = flagNat q.profilesValid ∧ recordField b 28 1 = q.inForce.code ∧
      recordField b 29 1 = q.pace.code ∧ recordField b 30 1 = q.urgentDepth % 256 ∧ recordField b 31 1 = q.routineDepth % 256 ∧
      recordField b 32 4 = q.round.toNat ∧ recordField b 36 1 = q.rosterSize % 256 ∧
      recordField b 37 1 = flagNat q.huntPending + 2 * flagNat q.huntActive + 4 * flagNat q.held + 8 * flagNat q.sweepHalted ∧
      ZeroBytes b 38 40 ∧ recordField b 40 4 = q.stats.attempts.toNat ∧ recordField b 44 4 = q.stats.failed.toNat ∧
      recordField b 48 4 = q.stats.collisions.toNat ∧ recordField b 52 4 = q.stats.overruns.toNat ∧
      recordField b 56 4 = q.stats.alertPulses.toNat ∧ ZeroBytes b 60 64 := by
  subst split
  have field (i n : Nat) {v : Nat} (within : i + n ≤ 40) (read : recordField q.bytes i n = v) :
      recordField (front ++ padTo 40 q.bytes) (24 + i) n = v :=
    (recordField_body size 40 _ within).trans read
  have byte (i : Nat) {v : Nat} (x : Byte) (within : i + 1 ≤ 40) (read : recordByte q.bytes i = x) (value : x.toNat = v) :
      recordField (front ++ padTo 40 q.bytes) (24 + i) 1 = v := field i 1 within ((recordField_byte read).trans value)
  exact ⟨byte 0 (byteOf q.run.code) (by decide) rfl (by simp), byte 1 (boolByte q.abandon) (by decide) rfl (by simp),
    byte 2 (byteOf q.engine.code) (by decide) rfl (by simp), byte 3 (boolByte q.profilesValid) (by decide) rfl (by simp),
    byte 4 (byteOf q.inForce.code) (by decide) rfl (by simp), byte 5 (byteOf q.pace.code) (by decide) rfl (by simp),
    byte 6 _ (by decide) rfl rfl, byte 7 _ (by decide) rfl rfl, field 8 4 (by decide) (leNat_word q.round),
    byte 12 _ (by decide) rfl rfl, byte 13 _ (by decide) rfl (toNat_flags _ _ _ _), .inBody size 40 (.of_slice (i := 14) 2 rfl),
    field 16 4 (by decide) (leNat_word _), field 20 4 (by decide) (leNat_word _), field 24 4 (by decide) (leNat_word _),
    field 28 4 (by decide) (leNat_word _), field 32 4 (by decide) (leNat_word _), .inBody size 40 (.beyond q.length_bytes.le 40)⟩

end

/-! ### The status block (R141) -/

theorem statusBytes_layout (s : State) :
    let b := s.statusBytes
    b.length = 64 ∧ recordField b 0 2 = s.adminRing.taken.toNat ∧
    (∀ n : LineId, recordField b (2 + 2 * n.val) 2 = (s.lineRings.get n).taken.toNat ∧
      recordField b (15 + n.val) 1 = (s.lineRings.get n).state.code) ∧
    recordField b 10 2 = s.cu.produced.toNat ∧ recordField b 12 1 = s.part.code ∧ recordField b 13 1 = s.power.state.code ∧
    recordField b 14 1 = s.adminRing.state.code ∧ ZeroBytes b 19 64 := by
  intro b
  have half (i : Nat) (v : Half) (read : recordField b i 2 = leNat (leBytes 2 v.toNat)) : recordField b i 2 = v.toNat :=
    read.trans (leNat_half v)
  have code (i : Nat) {c : Nat} (byte : c % 256 = c) (read : recordByte b i = byteOf c) : recordField b i 1 = c :=
    (recordField_byte read).trans ((toNat_byteOf c).trans byte)
  refine ⟨length_padTo 64 _, half 0 _ rfl, fun n => ?_, half 10 _ rfl, code 12 s.part.code_mod rfl,
    code 13 s.power.state.code_mod rfl, code 14 s.adminRing.state.code_mod rfl, .of_slice 45 rfl⟩
  match n with
  | 0 => exact ⟨half 2 _ rfl, code 15 (RingState.code_mod _) rfl⟩
  | 1 => exact ⟨half 4 _ rfl, code 16 (RingState.code_mod _) rfl⟩
  | 2 => exact ⟨half 6 _ rfl, code 17 (RingState.code_mod _) rfl⟩
  | 3 => exact ⟨half 8 _ rfl, code 18 (RingState.code_mod _) rfl⟩

/-! ### The body of a slot (R108) -/

theorem wireSlotBytes_layout (o : SlotOutcome) (r : Option Reply) (latency : Option Word) (t : Word) :
    let b := (SlotBody.wire o r latency t).bytes
    b.length = 60 ∧ recordField b 0 1 = o.code ∧ recordField b 1 1 = (r.map fun p => p.status.code).getD 0xFF ∧
    recordField b 2 1 = (r.map fun p => p.payload.length % 256).getD 0 ∧ ZeroBytes b 3 4 ∧
    recordField b 4 4 = (latency.map (·.toNat)).getD 0xFFFFFFFF ∧ recordField b 8 4 = t.toNat ∧ PayloadAt b 12 r ∧
    ZeroBytes b 44 60 := by
  intro b
  have four := length_latencyBytes latency
  rw [← leNat_latencyBytes]
  obtain ⟨front, size, split⟩ : ∃ front : List Byte, front.length = 12 ∧
      b = front ++ padTo 48 (padTo 32 ((r.map (·.payload)).getD [])) :=
    ⟨[byteOf o.code, (r.map fun p => byteOf p.status.code).getD 0xFF, (r.map fun p => byteOf p.payload.length).getD 0, 0] ++
      latencyBytes latency ++ leBytes 4 t.toNat, by simp [length_leBytes, four], rfl⟩
  have paid := payloadAt_body size (m := 48) (by omega) r
  have whole : b.length = 60 := by rw [split, List.length_append, size, length_padTo]
  rw [← split] at paid
  refine ⟨whole, (recordField_byte rfl).trans ((toNat_byteOf _).trans o.code_mod), (recordField_one b 1).trans ?_,
    (recordField_one b 2).trans ?_, .of_slice 1 rfl, ?_, ?_, paid⟩
  · exact (toNat_getD_map r (fun p => byteOf p.status.code) 0xFF).trans (by simp)
  · exact (toNat_getD_map r (fun p => byteOf p.payload.length) 0).trans (by simp)
  all_goals
    simp only [b, SlotBody.bytes]
    obtain ⟨x, y, z, w, shown⟩ := List.length_eq_four.1 four
    rw [shown]
  · rfl
  · exact leNat_word t

theorem nonWireSlotBytes_layout (o : SlotOutcome) (t : Word) :
    let c := (SlotBody.nonWire o t).bytes
    recordField c 0 1 = o.code ∧ recordField c 1 1 = 0xFF ∧ recordField c 2 1 = 0 ∧ ZeroBytes c 3 4 ∧
      recordField c 4 4 = 0xFFFFFFFF ∧ recordField c 8 4 = t.toNat :=
  ⟨(recordField_byte rfl).trans ((toNat_byteOf _).trans o.code_mod), recordField_byte (x := 0xFF) rfl,
    recordField_byte (x := 0) rfl, .of_slice 1 rfl, leNat_latencyBytes none, leNat_word t⟩

/-- Settles O56: each code by its table, and each record by its layout. -/
theorem writtenRecords : Obligations.WrittenRecords := by
  unfold Obligations.WrittenRecords
  intro zero flag heard node payload head
  refine ⟨⟨rfl, rfl, rfl, rfl, fun _ _ => rfl, rfl, rfl, rfl, rfl, rfl, rfl, rfl, rfl, rfl, rfl⟩, exchangeBytes_layout,
    fun r => ⟨fun p refused => refusedBytes_layout refused, fun d done => ?_⟩, nodeEventBytes_layout,
    lineEventBytes_layout, alertBytes_layout, statusBytes_layout, fun o r latency t => ?_⟩
  · obtain ⟨admin, unused, front, size, split⟩ := doneBytes_layout done
    refine ⟨admin, unused, ?_, ?_, ?_, ?_⟩
    · rintro rfl
      exact noBody_layout size split
    · rintro x rfl
      exact nodeBody_layout size split
    · rintro t k rfl
      exact cancelBody_layout size split
    · rintro q rfl
      exact lineBody_layout size split
  · obtain ⟨whole, outcome, status, length, unused, time, finish, paid, behind⟩ := wireSlotBytes_layout o r latency t
    exact ⟨whole, rfl, outcome, status, length, unused, time, finish, paid, behind, nonWireSlotBytes_layout o t⟩

end Sys2Proof.Machine
end

section
/-! PROOFS. Steps 2 to 4 of the checks of a command that names a line (R162, R164), and the two such commands that DOZE takes:
NODE QUERY (R170) and LINE QUERY (R76, R174). -/

namespace Sys2Proof.Machine

/-! ### Rows by their command -/

/-- A row that names a line is the read of an admin entry whose command has the row's code and node. -/
theorem exec_adminHead {c : Instr} {tag : Half} {line code : Byte} {node : Option Byte}
    (head : adminHead c = some (tag, line, code, node)) (formed : c.wellFormed = true) (s : State) :
    ∃ cmd : AdminCmd, cmd.namesLine = true ∧ cmd.code = code ∧ cmd.node = node ∧
      exec c s = s.take (s.adminRead line tag cmd) := by
  cases c with
  | sweepSet tag line e =>
    cases head
    exact ⟨.sweepSet e, rfl, rfl, rfl, exec_sweepSet formed tag line s⟩
  | lineSetup | lineStart | lineStop | lineReset | nodeAdd | nodeRemove | nodeBar | nodeUnbar | nodeQuery | sweepClear
  | sweepImage | cancel | lineQuery =>
    cases head
    refine ⟨_, ?_, ?_, ?_, rfl⟩ <;> rfl
  | _ => simp [adminHead] at head

section
variable {cmd : AdminCmd} (names : cmd.namesLine = true)
include names

theorem State.runAdmin_namesLine (s : State) (line : Byte) : s.runAdmin line cmd = s.lineCmd line cmd := by
  cases cmd with
  | power | unknown => cases names
  | _ => rfl

/-- A command that names a line and is refused in steps 2 to 5 of its checks changes no line. -/
theorem State.adminRead_lineCmd_refused {s : State} (ready : AdminReady s) {line : Byte} (tag : Half) {r : Reason}
    (fails : (s.released.countTaken .admin).lineCmd line cmd = .refused r) : s.take (s.adminRead line tag cmd) =
      .next (s.adminDone cmd.code (some line) tag cmd.node (.refused r)).settle := by
  rw [State.adminRead_ready ready, State.adminTake, State.runAdmin_namesLine names, fails]
  simp only [adminRecord, names]
  rfl

/-! ### The line, the power state and the run state (R162, R164) -/

/-- In DOZE only the queries are taken, by their codes. -/
theorem AdminCmd.powerAllows_doze (node : cmd.code ≠ 9) (line : cmd.code ≠ 15) : cmd.powerAllows .doze = false := by
  cases cmd with
  | nodeQuery => exact absurd rfl node
  | lineQuery => exact absurd rfl line
  | power => cases names
  | _ => rfl

/-- LINE SETUP, LINE START and SWEEP IMAGE ask for a QUIET line. -/
theorem AdminCmd.runAllows_quiet (code : cmd.code = 1 ∨ cmd.code = 2 ∨ cmd.code = 12) {r : RunState} (busy : r ≠ .quiet) :
    cmd.runAllows r = false := by
  cases cmd with
  | lineSetup | lineStart | sweepImage => exact beq_eq_false_iff_ne.2 busy
  | unknown => cases names
  | _ => simp [AdminCmd.code] at code

/-- LINE STOP asks for a RUNNING or a DRAINING line. -/
theorem AdminCmd.runAllows_stop (code : cmd.code = 3) {r : RunState} (stopped : r ≠ .running) (drained : r ≠ .draining) :
    cmd.runAllows r = false := by
  cases cmd with
  | lineStop => simp [AdminCmd.runAllows, stopped, drained]
  | unknown => cases names
  | _ => simp [AdminCmd.code] at code

end

theorem State.lineCmd_noLine (s : State) {line : Byte} (outside : 4 ≤ line.toNat) (cmd : AdminCmd) :
    s.lineCmd line cmd = .refused .badField := by
  have noLine : lineOf line = none := dif_neg (Nat.not_lt.2 outside)
  simp only [State.lineCmd, noLine]

theorem State.lineCmd_power {s : State} {line : Byte} {n : LineId} (names : line.toNat = n.val) {cmd : AdminCmd}
    (forbids : cmd.powerAllows s.power.state = false) : s.lineCmd line cmd = .refused .wrongPowerState := by
  simp only [State.lineCmd, lineOf_val names, forbids]
  rfl

theorem State.lineCmd_run {s : State} {line : Byte} {n : LineId} (names : line.toNat = n.val) {cmd : AdminCmd}
    (allows : cmd.powerAllows s.power.state = true) (forbids : cmd.runAllows (s.line n).run = false) :
    s.lineCmd line cmd = .refused .wrongState := by
  simp only [State.lineCmd, lineOf_val names, allows, forbids]
  rfl

/-- Settles O18: each clause is the check of `lineCmd` that fails first. -/
theorem adminRefusedByLinePowerOrRun : Obligations.AdminRefusedByLinePowerOrRun := by
  intro c tag line code node s head formed ready refusal
  obtain ⟨cmd, names, rfl, rfl, row⟩ := exec_adminHead head formed s
  have refused {r : Reason} (fails : (s.released.countTaken .admin).lineCmd line cmd = .refused r) : refusal r :=
    row.trans (State.adminRead_lineCmd_refused names ready tag fails)
  refine ⟨fun outside => refused (State.lineCmd_noLine _ outside cmd), fun n at_n => ⟨fun doze node line => ?_,
    fun power => ?_⟩⟩
  · have forbids : cmd.powerAllows s.power.state = false := doze ▸ AdminCmd.powerAllows_doze names node line
    exact refused (State.lineCmd_power at_n forbids)
  · have wrongState (forbids : cmd.runAllows (s.line n).run = false) : refusal .wrongState :=
      refused (State.lineCmd_run at_n (AdminCmd.powerAllows_working (s := s) power) forbids)
    exact ⟨fun code busy => wrongState (AdminCmd.runAllows_quiet names code busy),
      fun code stopped drained => wrongState (AdminCmd.runAllows_stop names code stopped drained)⟩

/-! ### The queries of a line, which DOZE takes -/

theorem AdminCmd.powerAllows_inDoze {cmd : AdminCmd} (doze : cmd.inDoze = true) {p : PowerState} (taken : p ≠ .dozePending) :
    cmd.powerAllows p = true := by
  cases p with
  | dozePending => exact absurd rfl taken
  | doze => exact doze
  | active | lull => rfl

section
variable {s : State} (ready : AdminReady s) {line : Byte} {n : LineId} (at_n : line.toNat = n.val)
  (taken : s.power.state ≠ .dozePending) (tag : Half)
include ready at_n taken

theorem exec_nodeQuery_refused {a : Byte} {r : Reason} (fails : (s.line n).nodeQueryCmd a = .error r) :
    exec (.nodeQuery tag line a) s = .next (s.adminDone 9 (some line) tag (some a) (.refused r)).settle := by
  have row := State.adminRead_line ready at_n tag (.nodeQuery a) rfl (AdminCmd.powerAllows_inDoze rfl taken) rfl
  rw [AdminCmd.onLine, fails] at row
  exact row

theorem exec_nodeQuery_done {a : Byte} {x : Node} (passes : (s.line n).nodeQueryCmd a = .ok (s.line n, .node x)) :
    exec (.nodeQuery tag line a) s = .next (s.adminDone 9 (some line) tag (some a) (.done (.node x))).settle := by
  have row := State.adminRead_line ready at_n tag (.nodeQuery a) rfl (AdminCmd.powerAllows_inDoze rfl taken) rfl
  have same : (s.adminDone 9 (some line) tag (some a) (.done (.node x))).setLine n (s.line n) =
      s.adminDone 9 (some line) tag (some a) (.done (.node x)) := State.setLine_line _ n
  rw [AdminCmd.onLine, passes] at row
  rw [← same]
  exact row

theorem exec_lineQuery {clear : Bool} {l : Line} {body : AdminBody} (passes : (s.line n).queryCmd clear = .ok (l, body)) :
    exec (.lineQuery tag line clear) s =
      .next ((s.adminDone 15 (some line) tag none (.done body)).setLine n l).settle := by
  have row := State.adminRead_line ready at_n tag (.lineQuery clear) rfl (AdminCmd.powerAllows_inDoze rfl taken) rfl
  rw [AdminCmd.onLine, passes] at row
  exact row

end

theorem Line.nodeQueryCmd_badField {a : Byte} (bad : a.toNat = 0 ∨ 62 < a.toNat) (l : Line) :
    l.nodeQueryCmd a = .error .badField := by
  simp [Line.nodeQueryCmd, addressOk_false bad]

theorem Line.nodeQueryCmd_unknown {a : Byte} {l : Line} (low : 1 ≤ a.toNat) (high : a.toNat ≤ 62)
    (absent : a.toNat ∉ l.roster.map (·.addr)) : l.nodeQueryCmd a = .error .unknownNode := by
  simp [Line.nodeQueryCmd, addressOk_true low high, findNode_none.2 absent]

theorem Line.nodeQueryCmd_found {l : Line} (ok : RosterOk l.roster) {x : Node} (hx : x ∈ l.roster) {a : Byte}
    (ha : x.addr = a.toNat) : l.nodeQueryCmd a = .ok (l, .node x) := by
  have found := ok.findNode_addr hx
  rw [ha] at found
  simp [Line.nodeQueryCmd, ok.addressOk_addr hx ha, found]

/-- Settles O27: each clause is a branch of the command, with the record found at its address. -/
theorem nodeQueryReportsTheRecord : Obligations.NodeQueryReportsTheRecord := by
  intro s tag line a n ready at_n taken l refusal
  exact ⟨fun bad => exec_nodeQuery_refused ready at_n taken tag (Line.nodeQueryCmd_badField bad l),
    fun low high absent => exec_nodeQuery_refused ready at_n taken tag (Line.nodeQueryCmd_unknown low high absent),
    fun x hx ok ha => exec_nodeQuery_done ready at_n taken tag (Line.nodeQueryCmd_found ok hx ha)⟩

theorem Line.held_eq (l : Line) : l.held = (l.holdSlot.isSome || decide (l.ended ≠ [])) := by
  cases ended : l.ended <;> simp [Line.held, ended]

/-- The report counts a class by the entries that have it (R77, R174). -/
theorem Line.report_eq (l : Line) : l.report = {
    run := l.run, abandon := l.abandon, engine := l.engine, profilesValid := l.profilesValid, inForce := l.inForce
    pace := l.pace
    urgentDepth := (l.waiting.filter fun e => e.cls = .urgent).length +
      (l.ended.filter fun e => e.entry.cls = .urgent).length
    routineDepth := (l.waiting.filter fun e => e.cls = .routine).length +
      (l.ended.filter fun e => e.entry.cls = .routine).length
    round := l.round, rosterSize := l.roster.length, huntPending := l.huntPending, huntActive := l.hunt.isSome
    held := l.holdSlot.isSome || decide (l.ended ≠ []), sweepHalted := l.sweepHalted, stats := l.stats } := by
  simp only [Line.report, Line.held_eq, List.countP_eq_length_filter, beq_eq_decide]

theorem Line.queryCmd_eq (clear : Bool) (l : Line) : l.queryCmd clear =
    .ok ({ l with stats := if clear then ⟨0, 0, 0, 0, 0⟩ else l.stats }, .line l.report) := by
  cases clear <;> rfl

/-- Settles O28: the row answers the report of the line and then clears its counters. -/
theorem lineQueryReportsTheLine : Obligations.LineQueryReportsTheLine := by
  intro s tag line n clear ready at_n taken l
  rw [exec_lineQuery ready at_n taken tag (Line.queryCmd_eq clear l), Line.report_eq]

end Sys2Proof.Machine
end

section
/-! PROOFS. LINE START (R30, R119, R166), and LINE STOP where it drains, is refused, or has no effect (R90, R91, R93, R167). -/

namespace Sys2Proof.Machine

/-! ### LINE START -/

theorem exec_lineStart (tag : Half) (line : Byte) (s : State) :
    exec (.lineStart tag line) s = s.take (s.adminRead line tag .lineStart) := rfl

/-- The search of the sweep table finds whether an entry is set. -/
theorem Line.anySweep_iff (l : Line) : l.anySweep = true ↔ ∃ i e, l.sweepAt i = some e := by
  refine ⟨fun any => ?_, ?_⟩
  · obtain ⟨entry, member, set⟩ := List.any_eq_true.1 any
    obtain ⟨i, hi, at_i⟩ := Vector.getElem_of_mem (Vector.mem_toList_iff.1 member)
    obtain ⟨e, rfl⟩ := Option.isSome_iff_exists.1 set
    exact ⟨i, e, by simp [Line.sweepAt, hi, at_i]⟩
  · rintro ⟨i, e, set⟩
    have entry : l.sweep[i]? = some (some e) := Option.join_eq_some_iff.1 set
    exact List.any_eq_true.2 ⟨some e, Vector.mem_toList_iff.2 (Vector.mem_of_getElem? entry), rfl⟩

theorem Line.startCmd_wrongState {l : Line} (unset : l.profilesValid = false) (x : Ctx) :
    l.startCmd x = .error .wrongState := by
  simp [Line.startCmd, unset]

theorem Line.startCmd_noImage {l : Line} (valid : l.profilesValid = true) (set : ∃ i e, l.sweepAt i = some e)
    (noBase : l.imageBase = none) (x : Ctx) : l.startCmd x = .error .noImage := by
  simp [Line.startCmd, valid, l.anySweep_iff.2 set, noBase]

theorem Line.startCmd_starts {l : Line} (valid : l.profilesValid = true)
    (image : (∀ i, l.sweepAt i = none) ∨ l.imageBase ≠ none) (x : Ctx) : l.startCmd x = .ok (l.start x, .none) := by
  have supplied : ¬ (l.anySweep && l.imageBase.isNone) = true := by
    rw [Bool.and_eq_true, l.anySweep_iff, Option.isNone_iff_eq_none]
    rintro ⟨⟨i, e, set⟩, noBase⟩
    exact image.elim (fun clear => by simp [clear i] at set) (· noBase)
  rw [Line.startCmd, if_neg (by simp [valid]), if_neg supplied, doneWith]

/-- Settles O20: each clause is a branch of the command's two checks. -/
theorem lineStartStartsRoundOne : Obligations.LineStartStartsRoundOne := by
  intro s tag line n ready quiet l
  have runs : AdminCmd.lineStart.runAllows (s.line n).run = true := by rw [quiet]; rfl
  rw [exec_lineStart]
  exact ⟨fun unset => State.adminRead_refused ready tag rfl runs (Line.startCmd_wrongState unset _),
    fun valid set noBase => State.adminRead_refused ready tag rfl runs (Line.startCmd_noImage valid set noBase _),
    fun valid image => State.adminRead_done ready tag rfl runs (Line.startCmd_starts valid image _)⟩

/-! ### LINE STOP -/

/-- The line as it begins to drain, before the test for the end of the drain (R90, R91). -/
def Line.beginDrain (l : Line) : Line :=
  { l.dropRound.dropHunt with run := .draining, abandon := false }

theorem Line.stopCmd_badForm {form : Byte} (bad : 1 < form.toNat) (x : Ctx) (l : Line) :
    l.stopCmd x form = .error .badField := if_pos bad

/-- DRAIN on a RUNNING line. -/
theorem Line.stopCmd_drain {l : Line} (running : l.run = .running) (x : Ctx) :
    l.stopCmd x 0 = .ok (l.beginDrain.drainEnd x, .none) := by
  rw [Line.stopCmd, if_neg (by decide), if_pos running]
  rfl

/-- A stop of a DRAINING line that brings nothing new (R93). -/
theorem Line.stopCmd_again {l : Line} (draining : l.run = .draining) {form : Byte}
    (again : form = 0 ∨ form = 1 ∧ l.abandon = true) (x : Ctx) : l.stopCmd x form = .ok (l, .none) := by
  obtain rfl | ⟨rfl, abandon⟩ := again
  · rw [Line.stopCmd, if_neg (by decide), if_neg (by simp [draining]), if_neg (by simp), doneWith]
  · rw [Line.stopCmd, if_neg (by decide), if_neg (by simp [draining]), if_neg (by simp [abandon]), doneWith]

/-- Settles O21: the form is checked first; a DRAIN of a RUNNING line turns on what is left to drain. -/
theorem lineStopDrain : Obligations.LineStopDrain := by
  intro s tag line form n ready l done
  have runs (h : l.run = .running ∨ l.run = .draining) : (AdminCmd.lineStop form).runAllows (s.line n).run = true := by
    simpa [AdminCmd.runAllows] using h
  have answers {m : Line} (h : l.run = .running ∨ l.run = .draining) (passes : l.stopCmd (s.ctx n) form = .ok (m, .none)) :
      done m := (exec_lineStop tag line form s).trans (State.adminRead_done ready tag rfl (runs h) passes)
  refine ⟨fun h bad => ?_, fun running drain left => answers (.inl running) ?_,
    fun running drain free waiting ended => answers (.inl running) ?_,
    fun draining drain => answers (.inr draining) (Line.stopCmd_again draining (.inl drain) _),
    fun draining drain abandon => answers (.inr draining) (Line.stopCmd_again draining (.inr ⟨drain, abandon⟩) _)⟩
  · exact (exec_lineStop tag line form s).trans
      (State.adminRead_refused ready tag rfl (runs h) (Line.stopCmd_badForm bad _ l))
  · have stays : l.beginDrain.waiting ≠ [] ∨ l.beginDrain.ended ≠ [] ∨ l.beginDrain.current ≠ none := by
      obtain current | waiting | ended := left
      · obtain ⟨c, current⟩ := Option.isSome_iff_exists.1 current
        exact .inr (.inr (by simp [Line.beginDrain, Line.dropHunt, Line.dropRound, current]))
      · exact .inl waiting
      · exact .inr (.inl ended)
    rw [drain, Line.stopCmd_drain running, Line.drainEnd_stays stays]
    rfl
  · have noneLeft : l.beginDrain.current = none := by simp [Line.beginDrain, Line.dropHunt, Line.dropRound, free]
    rw [drain, Line.stopCmd_drain running, Line.drainEnd_quiet (l := l.beginDrain) rfl waiting ended noneLeft]
    simp [Line.becomeQuiet, Line.beginDrain, Line.dropHunt, Line.dropRound, Line.takeTarget, Line.engineOff, free]

end Sys2Proof.Machine
end

section
/-! PROOFS. POWER: its refusals, the switches and the exits from DOZE, and the entry to DOZE_PENDING (R25, R27, R28, R173, R177 to
R179, R181). -/

namespace Sys2Proof.Machine

/-! ### The power state and the lines' targets -/

/-- Between power states of one target no line is reached (R25). -/
theorem State.setPower_sameTarget {s : State} {p : PowerState} (same : p.target = s.power.state.target) : s.setPower p =
    { s with power := { s.power with state := p }, cu := { s.cu with statusPending := true } } := if_pos same

/-- A change of target reaches every line (R25). -/
theorem State.setPower_newTarget {s : State} {p : PowerState} (other : p.target ≠ s.power.state.target) : s.setPower p =
    { s with
      power := { s.power with state := p }, cu := { s.cu with statusPending := true }
      lines := s.lines.mapIdx fun n l => l.retarget ⟨n, s.timer.count, p⟩ } := if_neg other

/-- The target taken by the run state and the pace pending (R27, R28). -/
theorem Line.retarget_eq (x : Ctx) (l : Line) : l.retarget x =
    if l.run = .quiet ∨ l.run = .faulted then { l with inForce := x.power.target, pace := .none }
    else if l.inForce ≠ x.power.target then { l with pace := .switch }
    else if l.pace = .switch then { l with pace := .none } else l := by
  cases run : l.run <;> simp [Line.retarget, Line.takeTarget, run]

theorem Line.retarget_frame (x : Ctx) (l : Line) : (l.retarget x).engine = l.engine ∧ (l.retarget x).round = l.round := by
  rw [Line.retarget_eq]
  split_ifs <;> exact ⟨rfl, rfl⟩

theorem Line.unpark_retarget (x : Ctx) (l : Line) : (l.retarget x).unpark x =
    if l.engine = .parked then Line.startRound x (nextRound l.round) { l.retarget x with engine := .idle }
    else l.retarget x := by
  obtain ⟨engine, round⟩ := l.retarget_frame x
  simp only [Line.unpark, engine, round]

/-- The part that leaves DOZE for ACTIVE, whose target is BRISK (R181). -/
theorem State.leaveDoze_active {s : State} (doze : s.power.state = .doze) : s.leaveDoze .active = s.wokenTo .active := by
  have other : PowerState.active.target ≠ s.power.state.target := by rw [doze]; decide
  have woken : s.leaveDoze .active = { s with
      power := { s.power with state := .active }, cu := { s.cu with statusPending := true }
      lines := s.lines.mapIdx fun n l =>
        (l.retarget ⟨n, s.timer.count, .active⟩).unpark ⟨n, s.timer.count, .active⟩ } := by
    rw [State.leaveDoze, State.setPower_newTarget other]
    rfl
  rw [woken, State.wokenTo]
  simp only [Line.unpark_retarget]
  simp only [Line.retarget_eq, reduceCtorEq, if_false]

theorem State.leaveDoze_working {s : State} (doze : s.power.state = .doze) {p : PowerState} (h : p = .active ∨ p = .lull) :
    s.leaveDoze p = s.wokenTo p := by
  obtain rfl | rfl := h
  · exact State.leaveDoze_active doze
  · exact State.leaveDoze_eq doze

/-! ### Entry to DOZE_PENDING (R178, R179) -/

/-- A RUNNING line drops its round and its hunt, and in LEAD a current exchange that is no PACE ends. -/
theorem Line.enterDoze_eq (x : Ctx) (l : Line) : l.enterDoze x =
    if l.run = .running then
      match l.dropRound.dropHunt.current with
      | none => l.dropRound.dropHunt
      | some c =>
        if l.engine = .lead ∧ c.origin.isPace = false then l.dropRound.dropHunt.endExchange x c .noReply
        else l.dropRound.dropHunt
    else l := by
  have lead : l.dropRound.dropHunt.inLead = true ↔ l.engine = .lead := beq_iff_eq
  cases current : l.dropRound.dropHunt.current <;> simp [Line.enterDoze, Line.dozeCurrent, current, lead]

theorem Origin.isHost_iff {o : Origin} : o.isHost = true ↔ ∃ cls t, o = .host cls t := by
  cases o <;> simp [Origin.isHost]

/-- A line that is DRAINING, or RUNNING with a host exchange, is busy (R178). -/
theorem Line.busyForDoze_iff (l : Line) : l.busyForDoze = true ↔
    l.run = .draining ∨ l.run = .running ∧ (l.waiting ≠ [] ∨ l.ended ≠ [] ∨
      ∃ c cls t, l.current = some c ∧ c.origin = .host cls t) := by
  cases current : l.current <;> simp [Line.busyForDoze, current, Origin.isHost_iff, or_assoc]

/-- The part's own test finds the lines on account of which DOZE is refused (R178). -/
theorem State.busyForDoze_iff (s : State) : (s.lines.all fun l => !l.busyForDoze) = false ↔
    ∃ n, (s.line n).run = .draining ∨ (s.line n).run = .running ∧ ((s.line n).waiting ≠ [] ∨ (s.line n).ended ≠ [] ∨
      ∃ c cls t, (s.line n).current = some c ∧ c.origin = .host cls t) := by
  simp only [← Line.busyForDoze_iff, ← Bool.not_eq_true, Quad.all_iff, not_forall, Bool.not_eq_true', not_not]
  rfl

/-! ### The command -/

theorem State.powerWorking_held {s : State} {p : PowerState} (held : s.power.state = p) : s.powerWorking p = .done s .none :=
  if_pos held

theorem State.powerWorking_wakes {s : State} {p : PowerState} (doze : s.power.state = .doze) (working : p ≠ .doze) :
    s.powerWorking p = .waits (s.leaveDoze p) p := by
  rw [State.powerWorking, if_neg (doze ▸ working.symm), if_pos doze]

theorem State.powerWorking_switches {s : State} {p : PowerState} (other : s.power.state ≠ p) (woken : s.power.state ≠ .doze) :
    s.powerWorking p = .waits (s.setPower p) p := by
  rw [State.powerWorking, if_neg other, if_neg woken]

theorem State.powerDoze_held {s : State} (held : s.power.state = .doze) : s.powerDoze = .done s .none := if_pos held

theorem State.powerDoze_active {s : State} (active : s.power.state = .active) : s.powerDoze = .refused .wrongPowerState := by
  rw [State.powerDoze, if_neg (by simp [active]), if_pos (by simp [active])]

theorem State.powerDoze_lull {s : State} (lull : s.power.state = .lull) : s.powerDoze =
    if (s.lines.all fun l => !l.busyForDoze) = false then .refused .busy else .waits s.enterDozePending .doze := by
  rw [State.powerDoze, if_neg (by simp [lull]), if_neg (by simp [lull])]

theorem exec_power (tag : Half) (target : Byte) (s : State) :
    exec (.power tag target) s = s.take (s.adminRead 0 tag (.power target)) := rfl

/-- POWER is taken wherever a command is taken. -/
theorem State.runAdmin_power {s : State} (awake : s.power.state ≠ .dozePending) (line target : Byte) :
    (s.released.countTaken .admin).runAdmin line (.power target) = (s.released.countTaken .admin).powerCmd target := by
  have allows : (AdminCmd.power target).powerAllows (s.released.countTaken .admin).power.state = true :=
    AdminCmd.powerAllows_inDoze rfl awake
  exact if_neg (by simp [allows])

section
variable {s : State} (ready : AdminReady s) (awake : s.power.state ≠ .dozePending) (tag : Half) {target : Byte}
include ready awake

theorem exec_power_refused {r : Reason} (fails : (s.released.countTaken .admin).powerCmd target = .refused r) :
    exec (.power tag target) s = .next (s.adminDone 14 none tag none (.refused r)).settle := by
  rw [exec_power, State.adminRead_ready ready, State.adminTake, State.runAdmin_power awake, fails]
  rfl

theorem exec_power_done (passes : (s.released.countTaken .admin).powerCmd target =
    .done (s.released.countTaken .admin) .none) :
    exec (.power tag target) s = .next (s.adminDone 14 none tag none (.done .none)).settle := by
  rw [exec_power, State.adminRead_ready ready, State.adminTake, State.runAdmin_power awake, passes]
  rfl

theorem exec_power_waits {t : State} {p : PowerState} (waits : (s.released.countTaken .admin).powerCmd target = .waits t p) :
    exec (.power tag target) s = .next
      ({ t with admin := some (.waiting tag p), power := { t.power with transition := some p } } : State).settle := by
  rw [exec_power, State.adminRead_ready ready, State.adminTake, State.runAdmin_power awake, waits]

end

/-- A target byte names ACTIVE, LULL or DOZE (R173). -/
theorem State.powerCmd_unknown {target : Byte} (unknown : 2 < target.toNat) (s : State) :
    s.powerCmd target = .refused .badField := by
  unfold State.powerCmd
  split <;> first | omega | rfl

/-- Settles O32: each clause is a branch of `powerCmd`, and a waiting one gives the lines what the change of power state brings. -/
theorem powerChangesTheState : Obligations.PowerChangesTheState := by
  intro s tag target ready awake now answers refusal waits taken switch busy
  let u := s.released.countTaken .admin
  have refuses {r : Reason} (fails : u.powerCmd target = .refused r) : refusal r := exec_power_refused ready awake tag fails
  have switches {p : PowerState} (other : p.target ≠ s.power.state.target)
      (h : u.powerCmd target = .waits (u.setPower p) p) : waits (switch p) p := by
    rw [State.setPower_newTarget (s := u) other] at h
    simp only [Line.retarget_eq] at h
    exact (exec_power_waits ready awake tag h).trans rfl
  have wakes {p : PowerState} (doze : s.power.state = .doze) (working : p = .active ∨ p = .lull)
      (h : u.powerCmd target = .waits (u.leaveDoze p) p) : waits (taken.wokenTo p) p := by
    rw [State.leaveDoze_working (s := u) doze working] at h
    exact (exec_power_waits ready awake tag h).trans rfl
  refine ⟨fun unknown => refuses (State.powerCmd_unknown unknown u), fun held => exec_power_done ready awake tag ?_,
    ?_, ?_, ?_, ?_, ?_, ?_, ?_⟩
  · obtain ⟨rfl, held⟩ | ⟨rfl, held⟩ | ⟨rfl, held⟩ := held
    · exact State.powerWorking_held (s := u) held
    · exact State.powerWorking_held (s := u) held
    · exact State.powerDoze_held (s := u) held
  · rintro rfl active
    exact switches (by rw [active]; decide)
      (State.powerWorking_switches (s := u) (active.trans_ne (by decide)) (active.trans_ne (by decide)))
  · rintro rfl lull
    exact switches (by rw [lull]; decide)
      (State.powerWorking_switches (s := u) (lull.trans_ne (by decide)) (lull.trans_ne (by decide)))
  · rintro rfl doze
    exact wakes doze (.inr rfl) (State.powerWorking_wakes (s := u) doze (by decide))
  · rintro rfl doze
    exact wakes doze (.inl rfl) (State.powerWorking_wakes (s := u) doze (by decide))
  · rintro rfl active
    exact refuses (State.powerDoze_active (s := u) active)
  · rintro rfl lull isBusy
    exact refuses ((State.powerDoze_lull (s := u) lull).trans (if_pos (u.busyForDoze_iff.2 isBusy)))
  · rintro rfl lull idle
    have h := (State.powerDoze_lull (s := u) lull).trans (if_neg (mt u.busyForDoze_iff.1 idle))
    have same : PowerState.dozePending.target = u.power.state.target := (congrArg PowerState.target lull).symm
    rw [State.enterDozePending, State.setPower_sameTarget same, State.onLines] at h
    simp only [Line.enterDoze_eq] at h
    exact (exec_power_waits ready awake tag (target := 2) h).trans rfl

end Sys2Proof.Machine
end

section
/-! PROOFS. The end of the power transition in progress (R141, R173, R177, R179). -/

namespace Sys2Proof.Machine

theorem Line.countsParked_iff (l : Line) :
    l.countsParked = true ↔ l.engine = .parked ∨ l.run = .quiet ∨ l.run = .faulted := by
  simp [Line.countsParked, or_assoc]

theorem Line.switched_iff (p : PowerState) (l : Line) :
    l.switched p = true ↔ l.inForce = p.target ∨ l.run = .quiet ∨ l.run = .faulted := by
  simp only [Line.switched, Bool.or_eq_true, beq_iff_eq, or_comm]

/-- The part once its transition is over: the POWER that waited for it is offered DONE (R160, R173). -/
theorem State.finishPower_waiting {s : State} {tag : Half} {w : PowerState} (waiting : s.admin = some (.waiting tag w)) :
    s.finishPower = { s with
      power := { s.power with transition := none }
      admin := some (.offered ⟨14, none, tag, none, .done .none, s.timer.count⟩) } := by
  simp only [State.finishPower, waiting]
  rfl

theorem State.finishPower_other {s : State} (other : ∀ tag w, s.admin ≠ some (.waiting tag w)) :
    s.finishPower = { s with power := { s.power with transition := none } } := by
  unfold State.finishPower
  split
  · next tag w waiting => exact absurd waiting (other tag w)
  · rfl
  · rfl

section
variable {s : State} {p : PowerState} (going : s.power.transition = some p)
include going

theorem State.transitionStep_dozing (dozing : s.power.state = .dozePending) : s.transitionStep =
    if ∀ n, (s.line n).engine = .parked ∨ (s.line n).run = .quiet ∨ (s.line n).run = .faulted then
      (s.setPower .doze).finishPower else s := by
  simp only [State.transitionStep, going, dozing, Quad.all_iff, Line.countsParked_iff, if_true]
  rfl

theorem State.transitionStep_switching (awake : s.power.state ≠ .dozePending) : s.transitionStep =
    if ∀ n, (s.line n).inForce = s.power.state.target ∨ (s.line n).run = .quiet ∨ (s.line n).run = .faulted then
      s.finishPower else s := by
  simp only [State.transitionStep, going, awake, Quad.all_iff, Line.switched_iff, if_false]
  rfl

end

/-- Settles O52: in each sort of transition the test of the lines decides whether it finishes. -/
theorem powerTransitionEnds : Obligations.PowerTransitionEnds := by
  intro s
  refine ⟨fun resting => by simp only [State.transitionStep, resting], ?_⟩
  intro p going parked switched after finishes
  refine ⟨fun dozing => ?_, fun awake => ?_⟩
  · have step := State.transitionStep_dozing going dozing
    have enters : s.setPower .doze =
        { s with power := { s.power with state := .doze }, cu := { s.cu with statusPending := true } } :=
      State.setPower_sameTarget (by rw [dozing]; rfl)
    rw [enters] at step
    refine ⟨fun all => ⟨fun tag w waiting => ?_, fun other => ?_⟩, fun waits => step.trans (if_neg waits)⟩
    · exact (step.trans (if_pos all)).trans (State.finishPower_waiting waiting)
    · exact (step.trans (if_pos all)).trans (State.finishPower_other other)
  · have step := State.transitionStep_switching going awake
    refine ⟨fun all => ⟨fun tag w waiting => ?_, fun other => ?_⟩, fun waits => step.trans (if_neg waits)⟩
    · exact (step.trans (if_pos all)).trans (State.finishPower_waiting waiting)
    · exact (step.trans (if_pos all)).trans (State.finishPower_other other)

end Sys2Proof.Machine
end

section
/-! PROOFS. The RESET pin held low: the bus released at once, and the part kept (R146, R184). -/

namespace Sys2Proof.Machine

/-- Every command but the resets and the changes of a pin is one that is taken, and so has no effect while RESET is low. -/
theorem exec_taken {c : Instr} (formed : c.wellFormed = true) (powers : c ≠ .powerOnReset) (rises : c ≠ .hardReset)
    (falls : c ≠ .hardResetHeld) (moves : ∀ n a, c ≠ .lineActivity n a) (s : State) : ∃ o, exec c s = s.take o := by
  cases c with
  | powerOnReset => exact absurd rfl powers
  | hardReset => exact absurd rfl rises
  | hardResetHeld => exact absurd rfl falls
  | lineActivity n a => exact absurd rfl (moves n a)
  | setupReadDone | entryReadDone | sweepSet => exact ⟨_, if_pos formed⟩
  | enable | softReset | post | consumed | cause => exact ⟨some _, rfl⟩
  | _ => exact ⟨_, rfl⟩

/-- While RESET is low a change of a receive pin moves the pin's level alone. -/
theorem exec_lineActivity_low {s : State} (low : s.resetLow = true) (n : LineId) (a : Activity) :
    exec (.lineActivity n a) s = .next (s.setLine n { s.line n with wire := (s.line n).wire.level a }) :=
  if_pos low

theorem Wire.level_space (w : Wire) (a : Activity) :
    (w.level a).space = (match a with | .toSpace => true | .toMark => false | .glitch => false) := by
  cases a with
  | toSpace =>
    by_cases space : w.space = true
    · rw [Wire.level, if_pos space, space]
    · rw [Wire.level, if_neg space]
  | toMark | glitch => rfl

/-- Settles O7: a command that is taken has no effect while RESET is low, and the pins' own rows move the pin alone. -/
theorem resetPinHoldsThePart : Obligations.ResetPinHoldsThePart := by
  refine ⟨fun s => rfl, fun c s low formed powers rises falls moves => ?_, fun s n a low => ?_⟩
  · obtain ⟨o, taken⟩ := exec_taken formed powers rises falls moves s
    rw [taken, State.take_low low]
  · exact ⟨(s.line n).wire.level a, Wire.level_space _ a, exec_lineActivity_low low n a⟩

end Sys2Proof.Machine
end

section
/-! PROOFS. The interrupt causes: their bits in a word, a write to CAUSE, and the interrupt output (R159, R187). -/

namespace Sys2Proof.Machine

/-! ### Four flags in a word -/

/-- The word with the four flags has them at their places, and 0 elsewhere. -/
theorem Causes.getLsbD_bits (c : Causes) {k : Nat} (within : k + 4 ≤ 32) (i : Nat) : (c.bits k).getLsbD i =
    (decide (i = k) && c.completions || decide (i = k + 1) && c.ringHalted || decide (i = k + 2) && c.partFault ||
      decide (i = k + 3) && c.setupFailed) := by
  have flag {b : Bool} {j : Nat} (inside : j < 32) :
      ((BitVec.ofBool b).setWidth 32 <<< j : Word).getLsbD i = (decide (i = j) && b) := by
    rw [BitVec.getLsbD_shiftLeft, BitVec.getLsbD_setWidth, BitVec.getLsbD_ofBool]
    by_cases here : i = j
    · simp [here, inside]
    · have apart : i < j ∨ ¬ i - j = 0 := by omega
      rcases apart with before | after
      · simp [here, before]
      · simp [here, after]
  simp only [Causes.bits, BitVec.getLsbD_or, flag (show k < 32 by omega), flag (show k + 1 < 32 by omega),
    flag (show k + 2 < 32 by omega), flag (show k + 3 < 32 by omega)]

theorem Causes.ofBits_bits (c : Causes) {k : Nat} (within : k + 4 ≤ 32) : Causes.ofBits (c.bits k) k = c := by
  simp [Causes.ofBits, c.getLsbD_bits within]

theorem Causes.getLsbD_bits_outside (c : Causes) {k : Nat} (within : k + 4 ≤ 32) {i : Nat} (outside : i < k ∨ k + 4 ≤ i) :
    (c.bits k).getLsbD i = false := by
  have apart : i ≠ k ∧ i ≠ k + 1 ∧ i ≠ k + 2 ∧ i ≠ k + 3 := by omega
  simp [c.getLsbD_bits within, apart]

/-! ### CAUSE -/

theorem State.causes_readWord (s : State) : Causes.ofBits (s.readWord 7) 0 = s.causes :=
  s.causes.ofBits_bits (by decide)

theorem State.readWord_cause_lt (s : State) : (s.readWord 7).toNat < 16 :=
  Nat.lt_pow_two_of_testBit (n := 4) _ fun _ beyond =>
    s.causes.getLsbD_bits_outside (by decide) (.inr (by omega))

theorem exec_cause {s : State} (up : s.resetLow = false) (v : Word) : exec (.cause v) s = .next (s.writeCause v).settle :=
  State.take_some up

theorem State.irq_iff (s : State) : s.irq = true ↔
    (s.causes.completions = true ∧ s.enables.completions = true) ∨
    (s.causes.ringHalted = true ∧ s.enables.ringHalted = true) ∨
    (s.causes.partFault = true ∧ s.enables.partFault = true) ∨
    (s.causes.setupFailed = true ∧ s.enables.setupFailed = true) := by
  simp only [State.irq, Bool.or_eq_true, Bool.and_eq_true, or_assoc]

/-- Settles O12: the write, the bits read, and the interrupt output as the disjunction over the causes. -/
theorem causeClearsAndInterruptFollows : Obligations.CauseClearsAndInterruptFollows :=
  ⟨fun _ v up => exec_cause up v, fun s => ⟨s.causes_readWord.symm, s.readWord_cause_lt⟩, State.irq_iff⟩

end Sys2Proof.Machine
end

section
/-! PROOFS. The register window: what its words and their bytes read, and what a write to each word does (R183 to R187). -/

namespace Sys2Proof.Machine

/-! ### CONTROL as read (R183) -/

theorem State.enabled_iff (s : State) : s.enabled = true ↔ s.part ≠ .disabled := bne_iff_ne

theorem State.controlWord_getLsbD (s : State) (i : Nat) :
    (s.readWord 1).getLsbD i = (decide (i = 0) && s.enabled || (s.enables.bits 8).getLsbD i) := by
  have enable : ((BitVec.ofBool s.enabled).setWidth 32 : Word).getLsbD i = (decide (i = 0) && s.enabled) := by
    rw [BitVec.getLsbD_setWidth, BitVec.getLsbD_ofBool]
    by_cases lowest : i = 0 <;> simp [lowest]
  show ((BitVec.ofBool s.enabled).setWidth 32 ||| s.enables.bits 8 : Word).getLsbD i = _
  rw [BitVec.getLsbD_or, enable]

theorem State.controlWord_low (s : State) {i : Nat} (outside : i < 8 ∨ 12 ≤ i) :
    (s.readWord 1).getLsbD i = (decide (i = 0) && s.enabled) := by
  rw [s.controlWord_getLsbD, s.enables.getLsbD_bits_outside (by decide) outside, Bool.or_false]

theorem State.enables_readWord (s : State) : Causes.ofBits (s.readWord 1) 8 = s.enables := by
  have same : Causes.ofBits (s.readWord 1) 8 = Causes.ofBits (s.enables.bits 8) 8 := by
    simp only [Causes.ofBits, s.controlWord_getLsbD]
    rfl
  rw [same, s.enables.ofBits_bits (by decide)]

/-! ### STATE as read (R184) -/

theorem PartState.code_lt (c : PartState) : c.code < 4 := by cases c <;> decide

theorem PowerState.code_lt (c : PowerState) : c.code < 4 := by cases c <;> decide

theorem ResetCause.code_lt (c : ResetCause) : c.code < 4 := by cases c <;> decide

theorem SetupError.code_lt (c : SetupError) : c.code < 4 := by cases c <;> decide

theorem FaultReason.code_lt (c : FaultReason) : c.code < 4 := by cases c <;> decide

/-- Each field of STATE holds its code: none reaches into the next. -/
theorem State.stateWord_fields (s : State) :
    (s.readWord 2).toNat % 4 = s.part.code ∧ (s.readWord 2).toNat / 4 % 4 = s.power.state.code ∧
    (s.readWord 2).toNat / 16 % 4 = s.resetCause.code ∧ (s.readWord 2).toNat / 64 % 4 = s.setupError.code ∧
    (s.readWord 2).toNat / 256 = s.faultReason.code := by
  have part := s.part.code_lt
  have power := s.power.state.code_lt
  have cause := s.resetCause.code_lt
  have error := s.setupError.code_lt
  have reason := s.faultReason.code_lt
  have value : (s.readWord 2).toNat = s.part.code + 4 * s.power.state.code + 16 * s.resetCause.code +
      64 * s.setupError.code + 256 * s.faultReason.code :=
    (BitVec.toNat_ofNat _ _).trans (Nat.mod_eq_of_lt (by omega))
  omega

/-! ### The other words, and one byte of a word -/

theorem State.setupAddr_readWord (s : State) : (s.readWord 4 ++ s.readWord 3 : BitVec 64) = s.setupAddr := by
  show ((s.setupAddr >>> 32).setWidth 32 ++ s.setupAddr.setWidth 32 : BitVec 64) = s.setupAddr
  refine BitVec.eq_of_getLsbD_eq fun i inside => BitVec.getLsbD_append.trans ?_
  by_cases low : i < 32
  · simp [low]
  · have high : 32 + (i - 32) = i ∧ i - 32 < 32 := by omega
    simp [low, high]

theorem State.readWord_consumed (s : State) : (s.readWord 6).toNat = s.cu.consumed.toNat :=
  BitVec.toNat_setWidth_of_le (by decide)

theorem State.readWord_beyond (s : State) {w : BitVec 5} (beyond : 7 < w.toNat) : s.readWord w = 0 := by
  unfold State.readWord
  split
  case h_8 => rfl
  all_goals omega

theorem State.readByte_getLsbD (s : State) (w : BitVec 5) (k : Fin 4) {i : Nat} (inside : i < 8) :
    (s.readByte w k).getLsbD i = (s.readWord w).getLsbD (8 * k.val + i) := by
  rw [State.readByte, BitVec.getLsbD_setWidth, BitVec.getLsbD_ushiftRight]
  simp [inside]

/-! ### The two halves of SETUP ADDRESS (R185) -/

/-- The low half of an address replaced. -/
theorem lowHalf_written (x : Addr) (v : Word) :
    ((x >>> 32 <<< 32) ||| v.setWidth 64).setWidth 32 = v ∧
    (((x >>> 32 <<< 32) ||| v.setWidth 64) >>> 32).setWidth 32 = ((x >>> 32).setWidth 32 : Word) := by
  refine ⟨BitVec.eq_of_getLsbD_eq fun i inside => ?_, BitVec.eq_of_getLsbD_eq fun i inside => ?_⟩
  · simp [inside]
  · have within : 32 + i < 64 := by omega
    simp [inside, within]

/-- The high half of an address replaced. -/
theorem highHalf_written (x : Addr) (v : Word) :
    (((v.setWidth 64 <<< 32) ||| (x <<< 32 >>> 32)) >>> 32).setWidth 32 = v ∧
    ((v.setWidth 64 <<< 32) ||| (x <<< 32 >>> 32)).setWidth 32 = (x.setWidth 32 : Word) := by
  refine ⟨BitVec.eq_of_getLsbD_eq fun i inside => ?_, BitVec.eq_of_getLsbD_eq fun i inside => ?_⟩
  · have within : 32 + i < 64 ∧ i < 64 ∧ ¬ 32 + (32 + i) < 64 := by omega
    simp [inside, within]
  · have within : 32 + i < 64 ∧ i < 64 := by omega
    simp [inside, within]

/-! ### Writes -/

theorem exec_registerWrite {s : State} (up : s.resetLow = false) (w : BitVec 5) (v : Word) :
    exec (.registerWrite w true v) s = .next (s.writeWord w v).settle :=
  State.take_some up

theorem exec_registerWrite_narrow (w : BitVec 5) (v : Word) (s : State) : exec (.registerWrite w false v) s = .next s :=
  s.take_none

theorem State.writeWord_ignored (s : State) {w : BitVec 5} (ignores : w = 0 ∨ w = 2 ∨ 7 < w.toNat) (v : Word) :
    s.writeWord w v = s := by
  obtain rfl | rfl | beyond := ignores
  · rfl
  · rfl
  · unfold State.writeWord
    split
    case h_7 => rfl
    all_goals omega

/-- Setting a bit that is set changes nothing. -/
theorem or_twoPow_of_set {v : Word} {i : Nat} (set : v.getLsbD i = true) : v ||| BitVec.twoPow 32 i = v := by
  refine BitVec.eq_of_getLsbD_eq fun j _ => ?_
  by_cases here : i = j
  · subst here
    simp [set]
  · simp [BitVec.getLsbD_twoPow, here]

/-- A write to CONTROL that sets neither bit gives the enables their values alone (R183). -/
theorem State.writeControl_neither (s : State) {v : Word} (hard : v.getLsbD 1 = false) (unset : v.getLsbD 0 = false) :
    s.writeControl v = { s with enables := Causes.ofBits v 8 } := by
  simp only [State.writeControl, hard, unset, Bool.false_eq_true, false_and, if_false]

/-- A write to CONTROL that sets SOFT_RESET is that row (R183). -/
theorem exec_registerWrite_softReset {v : Word} (soft : v.getLsbD 1 = true) (s : State) :
    exec (.registerWrite 1 true v) s = exec (.softReset v) s := by
  show s.take (some (s.writeControl v)) = s.take (some (s.writeControl (v ||| BitVec.twoPow 32 1)))
  rw [or_twoPow_of_set soft]

/-- A write to CONTROL that sets ENABLE is that row (R183). -/
theorem exec_registerWrite_enable {v : Word} (enable : v.getLsbD 0 = true) (s : State) :
    exec (.registerWrite 1 true v) s = exec (.enable v) s := by
  show s.take (some (s.writeControl v)) = s.take (some (s.writeControl (v ||| BitVec.twoPow 32 0)))
  rw [or_twoPow_of_set enable]

/-- Settles O9: the words as read, word by word, and the writes by the word they go to. -/
theorem registerWindow : Obligations.RegisterWindow := by
  refine ⟨⟨rfl, rfl, rfl, rfl, rfl⟩, fun s => ?reads, fun s v up => ?writes⟩
  case reads =>
    obtain ⟨part, power, cause, error, reason⟩ := s.stateWord_fields
    refine ⟨rfl, ?_, ?_, s.enables_readWord, fun i outside => ?_, part, power, cause, error, reason, s.setupAddr_readWord, rfl,
      s.readWord_consumed, s.causes_readWord, s.readWord_cause_lt, fun w beyond => s.readWord_beyond beyond,
      fun w k i inside => s.readByte_getLsbD w k inside⟩
    · rw [s.controlWord_low (.inl (by decide))]
      simpa using s.enabled_iff
    · rw [s.controlWord_low (.inl (by decide))]
      rfl
    · have above : i ≠ 0 := by omega
      rw [s.controlWord_low (by omega)]
      simp [above]
  case writes =>
    have row (w : BitVec 5) := exec_registerWrite up w v
    refine ⟨?_, ?_, fun soft => exec_registerWrite_softReset soft s, fun _ enable => exec_registerWrite_enable enable s,
      fun hard unset => ?_, rfl, rfl, rfl, fun w ignores => ?_, fun w => exec_registerWrite_narrow w v s⟩
    · obtain ⟨low, high⟩ := lowHalf_written s.setupAddr v
      exact ⟨_, low, high, row 3⟩
    · obtain ⟨high, low⟩ := highHalf_written s.setupAddr v
      exact ⟨_, high, low, row 4⟩
    · rw [row 1, ← s.writeControl_neither hard unset]
      rfl
    · rw [row w, s.writeWord_ignored ignores]

end Sys2Proof.Machine
end

section
/-! PROOFS. The step on a queue that holds a command, and every command's answer: a next state with the same queue (chapter 98, log
entries 4 and 10). -/

namespace Sys2Proof.Machine

/-- Settles O1: the step's branch for a queue that is not empty. -/
theorem stepTakesTheFrontCommand : Obligations.StepTakesTheFrontCommand := by
  intro c rest s queue
  simp only [step, queue]

/-! ### The queue under the operations over the part -/

@[simp] theorem State.settle_pending (s : State) : s.settle.pending = s.pending := s.settle_works.kept.pending

@[simp] theorem State.softReset_pending (s : State) : s.softReset.pending = s.pending := rfl

@[simp] theorem State.haltRing_pending (s : State) (r : RingId) (x : RingState) : (s.haltRing r x).pending = s.pending :=
  s.setRing_pending r _

@[simp] theorem State.countTaken_pending (s : State) (r : RingId) : (s.countTaken r).pending = s.pending :=
  s.setRing_pending r _

/-! ### Register writes -/

theorem State.requestSoftReset_pending (s : State) : s.requestSoftReset.pending = s.pending := by
  unfold State.requestSoftReset
  split <;> rfl

theorem State.startLoading_pending (s : State) : s.startLoading.pending = s.pending := by
  unfold State.startLoading
  split <;> rfl

theorem State.writeControl_pending (s : State) (v : Word) : (s.writeControl v).pending = s.pending := by
  unfold State.writeControl
  dsimp only
  split
  · exact State.requestSoftReset_pending _
  · split
    · exact State.startLoading_pending _
    · rfl

theorem State.postTo_pending (s : State) (r : RingId) (v : Half) : (s.postTo r v).pending = s.pending := by
  unfold State.postTo
  split
  · rfl
  · split <;> simp

theorem State.writePost_pending (s : State) (v : Word) : (s.writePost v).pending = s.pending := by
  unfold State.writePost
  split
  · exact s.postTo_pending _ _
  · rfl

theorem State.writeConsumed_pending (s : State) (v : Word) : (s.writeConsumed v).pending = s.pending := by
  unfold State.writeConsumed
  split
  · rfl
  · split <;> rfl

theorem State.writeWord_pending (s : State) (w : BitVec 5) (v : Word) : (s.writeWord w v).pending = s.pending := by
  unfold State.writeWord
  split
  · exact s.writeControl_pending v
  · rfl
  · rfl
  · exact s.writePost_pending v
  · exact s.writeConsumed_pending v
  · rfl
  · rfl

/-! ### Power Control and the Admin Unit -/

@[simp] theorem State.setPower_pending (s : State) (p : PowerState) : (s.setPower p).pending = s.pending := by
  unfold State.setPower
  dsimp only
  split <;> rfl

@[simp] theorem State.leaveDoze_pending (s : State) (p : PowerState) : (s.leaveDoze p).pending = s.pending :=
  s.setPower_pending p

@[simp] theorem State.enterDozePending_pending (s : State) : s.enterDozePending.pending = s.pending :=
  s.setPower_pending .dozePending

@[simp] theorem State.wake_pending (s : State) (e : Engine) : (s.wake e).pending = s.pending := by
  unfold State.wake
  split <;> simp

/-- The part that a command leaves, unless it is refused, has the queue `q`. -/
def AdminResult.HasQueue (q : List Instr) : AdminResult → Prop
  | .refused _ => True
  | .done t _ => t.pending = q
  | .waits t _ => t.pending = q

theorem State.lineCmd_hasQueue (s : State) (line : Byte) (cmd : AdminCmd) : (s.lineCmd line cmd).HasQueue s.pending := by
  unfold State.lineCmd
  split
  · trivial
  · split
    · trivial
    · split
      · trivial
      · split
        · trivial
        · exact s.setLine_pending _ _

theorem State.powerWorking_hasQueue (s : State) (p : PowerState) : (s.powerWorking p).HasQueue s.pending := by
  unfold State.powerWorking
  split
  · rfl
  · split
    · exact s.leaveDoze_pending p
    · exact s.setPower_pending p

theorem State.powerDoze_hasQueue (s : State) : s.powerDoze.HasQueue s.pending := by
  unfold State.powerDoze
  split
  · rfl
  · split
    · trivial
    · split
      · trivial
      · exact s.enterDozePending_pending

theorem State.powerCmd_hasQueue (s : State) (target : Byte) : (s.powerCmd target).HasQueue s.pending := by
  unfold State.powerCmd
  split
  · exact s.powerWorking_hasQueue _
  · exact s.powerWorking_hasQueue _
  · exact s.powerDoze_hasQueue
  · trivial

theorem State.runAdmin_hasQueue (s : State) (line : Byte) (cmd : AdminCmd) : (s.runAdmin line cmd).HasQueue s.pending := by
  unfold State.runAdmin
  split
  · trivial
  · split
    · trivial
    · exact s.powerCmd_hasQueue _
  · exact s.lineCmd_hasQueue line cmd

theorem State.adminTake_pending (s : State) (line : Byte) (tag : Half) (cmd : AdminCmd) :
    (s.adminTake line tag cmd).pending = s.pending := by
  have ran := s.runAdmin_hasQueue line cmd
  unfold State.adminTake
  split
  · rfl
  · next left => rwa [left] at ran
  · next left => rwa [left] at ran

theorem State.adminEntry_pending (s : State) (line : Byte) (tag : Half) (cmd : AdminCmd) :
    (s.adminEntry line tag cmd).pending = s.pending := by
  unfold State.adminEntry
  split
  · rw [State.adminTake_pending, State.countTaken_pending]
  · rfl

/-! ### What a requester makes of the end of its transfer -/

theorem State.setupRead_pending (s : State) (r : ReadResp) : (s.setupRead r).pending = s.pending := by
  unfold State.setupRead
  split
  · rfl
  · split
    · rfl
    · split <;> rfl

theorem State.exchangeEntry_pending (s : State) (n : LineId) (e : RawExchange) : (s.exchangeEntry n e).pending = s.pending := by
  unfold State.exchangeEntry State.exchangeTake
  split
  · split
    · simp
    · split <;> simp
  · rfl

theorem State.entryRead_pending (s : State) (r : RingId) (resp : ReadResp) : (s.entryRead r resp).pending = s.pending := by
  unfold State.entryRead
  split
  · exact s.haltRing_pending r _
  · split
    · exact s.adminEntry_pending _ _ _
    · exact s.exchangeEntry_pending _ _

theorem State.moderate_pending (s : State) : s.moderate.pending = s.pending := by
  unfold State.moderate
  split
  · rfl
  · split <;> rfl

theorem State.recordWritten_pending (s : State) (resp : Resp) : (s.recordWritten resp).pending = s.pending := by
  cases resp with
  | good => exact s.recordCounted.moderate_pending
  | busError => rfl

theorem State.statusWritten_pending (s : State) (resp : Resp) : (s.statusWritten resp).pending = s.pending := by
  cases resp <;> rfl

theorem State.bodyWritten_pending (s : State) (n : LineId) (resp : Resp) : (s.bodyWritten n resp).pending = s.pending := by
  cases resp <;> rfl

theorem State.stampWritten_pending (s : State) (n : LineId) (resp : Resp) : (s.stampWritten n resp).pending = s.pending := by
  cases resp <;> rfl

theorem State.endTransfer_pending {s t : State} {f : Transfer → Option (State → State)}
    (keeps : ∀ x g, f x = some g → ∀ u, (g u).pending = u.pending) (ends : s.endTransfer f = some t) :
    t.pending = s.pending := by
  unfold State.endTransfer at ends
  split at ends
  · cases ends
  · next x transfer =>
    split at ends
    · cases ends
    · next g takes =>
      dsimp only at ends
      split at ends
      · cases ends
        rfl
      · split at ends
        · cases ends
          exact keeps x g takes _
        · cases ends
          rfl

/-! ### Moments, and runs of space -/

theorem State.moment_pending {s t : State} {n : LineId} {left : Line → Option Nat} {f : Ctx → Line → Line}
    (comes : s.moment n left f = some t) : t.pending = s.pending := by
  obtain ⟨-, k, -, rfl⟩ := State.moment_eq_some comes
  simp

theorem State.holdoffPassed_pending (s : State) : s.holdoffPassed.pending = s.pending := by
  unfold State.holdoffPassed
  dsimp only
  split <;> rfl

@[simp] theorem State.longEffect_pending (s : State) (n : LineId) : (s.longEffect n).pending = s.pending :=
  State.wake_pending _ _

theorem State.echoFirst_pending (s : State) (n : LineId) : (s.echoFirst n).pending = s.pending := by
  unfold State.echoFirst
  split <;> simp

theorem State.longFirst_pending (s : State) (n : LineId) : (s.longFirst n).pending = s.pending := by
  unfold State.longFirst
  split <;> simp

theorem State.stuckEvent_pending (s : State) (n : LineId) : (s.stuckEvent n).pending = s.pending := by
  simp [State.stuckEvent, State.foundStuck, State.longFirst_pending, State.echoFirst_pending]

theorem State.longSpace_pending (s : State) (n : LineId) : (s.longSpace n).pending = s.pending := by
  unfold State.longSpace
  split
  · exact s.stuckEvent_pending n
  · exact s.longEffect_pending n

/-! ### Every command -/

/-- The outcome is a next state, with the queue of commands as it is in `s`. -/
def State.AnsweredBy (s : State) (o : Host.Outcome State Fault Refusal) : Prop := ∃ t, o = .next t ∧ t.pending = s.pending

/-- A command that is taken is answered whatever its condition: with RESET low, without effect, or with the part settled. -/
theorem State.take_answers {s : State} {o : Option State} (keeps : ∀ u, o = some u → u.pending = s.pending) :
    s.AnsweredBy (s.take o) := by
  unfold State.take
  split
  · exact ⟨s, rfl, rfl⟩
  · split
    · exact ⟨s, rfl, rfl⟩
    · next u => exact ⟨u.settle, rfl, u.settle_pending.trans (keeps u rfl)⟩

theorem State.take_some_answers {s u : State} (keeps : u.pending = s.pending) : s.AnsweredBy (s.take (some u)) :=
  State.take_answers fun _ same => Option.some.inj same ▸ keeps

theorem State.take_none_answers (s : State) : s.AnsweredBy (s.take none) := State.take_answers fun _ none => by cases none

theorem State.take_endTransfer_answers (s : State) {f : Transfer → Option (State → State)}
    (keeps : ∀ x g, f x = some g → ∀ u, (g u).pending = u.pending) : s.AnsweredBy (s.take (s.endTransfer f)) :=
  State.take_answers fun _ => State.endTransfer_pending keeps

theorem State.take_adminRead_answers (s : State) (line : Byte) (tag : Half) (cmd : AdminCmd) :
    s.AnsweredBy (s.take (s.adminRead line tag cmd)) := by
  refine s.take_endTransfer_answers fun x g takes u => ?_
  split at takes
  · cases takes
    exact u.adminEntry_pending line tag cmd
  · cases takes

theorem State.take_moment_answers (s : State) (n : LineId) (left : Line → Option Nat) (f : Ctx → Line → Line) :
    s.AnsweredBy (s.take (s.moment n left f)) :=
  State.take_answers fun _ => State.moment_pending

theorem State.take_spaceMoment_answers (s : State) (n : LineId) (left : Line → Option Nat) {f : State → State}
    (keeps : ∀ u, (f u).pending = u.pending) : s.AnsweredBy (s.take ((s.spaceMoment n left).map f)) := by
  refine State.take_answers fun t comes => ?_
  obtain ⟨u, moment, rfl⟩ := Option.map_eq_some_iff.1 comes
  rw [keeps, State.moment_pending moment, State.onLine_pending]

theorem execSetupReadDone_answers {resp : ReadResp} (formed : resp.wellFormed = true) (s : State) :
    s.AnsweredBy (execSetupReadDone resp s) := by
  rw [execSetupReadDone, if_pos formed]
  refine s.take_endTransfer_answers fun x g takes u => ?_
  cases x <;> cases takes
  exact u.setupRead_pending resp

theorem execEntryReadDone_answers {resp : ReadResp} (formed : resp.wellFormed = true) (s : State) :
    s.AnsweredBy (execEntryReadDone resp s) := by
  rw [execEntryReadDone, if_pos formed]
  refine s.take_endTransfer_answers fun x g takes u => ?_
  cases x <;> cases takes
  exact u.entryRead_pending _ resp

theorem execCompletionWriteDone_answers (resp : Resp) (s : State) : s.AnsweredBy (execCompletionWriteDone resp s) := by
  refine s.take_endTransfer_answers fun x g takes u => ?_
  cases x <;> cases takes
  exact u.recordWritten_pending resp

theorem execStatusWriteDone_answers (resp : Resp) (s : State) : s.AnsweredBy (execStatusWriteDone resp s) := by
  refine s.take_endTransfer_answers fun x g takes u => ?_
  cases x <;> cases takes
  exact u.statusWritten_pending resp

theorem execSlotBodyWriteDone_answers (resp : Resp) (s : State) : s.AnsweredBy (execSlotBodyWriteDone resp s) := by
  refine s.take_endTransfer_answers fun x g takes u => ?_
  cases x <;> cases takes
  exact u.bodyWritten_pending _ resp

theorem execSlotStampWriteDone_answers (resp : Resp) (s : State) : s.AnsweredBy (execSlotStampWriteDone resp s) := by
  refine s.take_endTransfer_answers fun x g takes u => ?_
  cases x <;> cases takes
  exact u.stampWritten_pending _ resp

theorem execSoftResetTakesEffect_answers (s : State) : s.AnsweredBy (execSoftResetTakesEffect s) := by
  unfold execSoftResetTakesEffect
  split
  · exact State.take_some_answers s.softReset_pending
  · exact s.take_none_answers

theorem execRegisterWrite_answers (w : BitVec 5) (whole : Bool) (v : Word) (s : State) :
    s.AnsweredBy (execRegisterWrite w whole v s) := by
  unfold execRegisterWrite
  split
  · exact State.take_some_answers (s.writeWord_pending w v)
  · exact s.take_none_answers

theorem execEchoFailure_answers (n : LineId) (i : Nat) (e : Echo) (s : State) : s.AnsweredBy (execEchoFailure n i e s) := by
  unfold execEchoFailure
  split
  · exact s.take_moment_answers n _ _
  · exact s.take_none_answers

theorem execReplyStart_answers (n : LineId) (s : State) : s.AnsweredBy (execReplyStart n s) :=
  State.take_answers fun _ comes => (State.moment_pending comes).trans (s.onLine_pending n _)

theorem execHoldoffExpiry_answers (s : State) : s.AnsweredBy (execHoldoffExpiry s) := by
  unfold execHoldoffExpiry
  split
  · refine State.take_answers fun t comes => ?_
    obtain ⟨k, -, rfl⟩ := Option.map_eq_some_iff.1 comes
    exact (s.elapse k).holdoffPassed_pending
  · exact s.take_none_answers

theorem execLineActivity_answers (n : LineId) (a : Activity) (s : State) : s.AnsweredBy (execLineActivity n a s) := by
  unfold execLineActivity
  split
  · exact ⟨_, rfl, s.setLine_pending n _⟩
  · exact State.take_some_answers (s.setLine_pending n _)

theorem exec_answers {c : Instr} (formed : c.wellFormed = true) (s : State) : s.AnsweredBy (exec c s) := by
  cases c with
  | powerOnReset | hardReset | hardResetHeld => exact ⟨_, rfl, rfl⟩
  | enable v | softReset v => exact State.take_some_answers (s.writeControl_pending _)
  | softResetTakesEffect => exact execSoftResetTakesEffect_answers s
  | registerWrite w whole v => exact execRegisterWrite_answers w whole v s
  | post v => exact State.take_some_answers (s.writePost_pending v)
  | consumed v => exact State.take_some_answers (s.writeConsumed_pending v)
  | cause v => exact State.take_some_answers rfl
  | setupReadDone resp => exact execSetupReadDone_answers formed s
  | entryReadDone resp => exact execEntryReadDone_answers formed s
  | sweepSet tag line entry =>
    have row : exec (.sweepSet tag line entry) s = s.take (s.adminRead line tag (.sweepSet entry)) := if_pos formed
    rw [row]
    exact s.take_adminRead_answers line tag _
  | lineSetup | lineStart | lineStop | lineReset | nodeAdd | nodeRemove | nodeBar | nodeUnbar | nodeQuery | sweepClear
  | sweepImage | cancel | power | lineQuery => exact s.take_adminRead_answers _ _ _
  | leadWaitComplete n | headerStopBitEnd n | requestFrameEnd n | replyWindowExpiry n | replyCharacter n | characterGapExceeded n
  | roundStart n => exact s.take_moment_answers n _ _
  | echoFailure n i e => exact execEchoFailure_answers n i e s
  | replyStart n => exact execReplyStart_answers n s
  | longSpace n => exact s.take_spaceMoment_answers n _ fun u => u.longSpace_pending n
  | stuckLine n => exact s.take_spaceMoment_answers n _ fun u => u.stuckEvent_pending n
  | holdoffExpiry => exact execHoldoffExpiry_answers s
  | completionWriteDone resp => exact execCompletionWriteDone_answers resp s
  | statusWriteDone resp => exact execStatusWriteDone_answers resp s
  | slotBodyWriteDone resp => exact execSlotBodyWriteDone_answers resp s
  | slotStampWriteDone resp => exact execSlotStampWriteDone_answers resp s
  | lineActivity n a => exact execLineActivity_answers n a s

/-- The rows that carry a record or a payload area are the ones that can be ill formed (R188). -/
theorem exec_illFormed {c : Instr} (illFormed : c.wellFormed = false) (s : State) : exec c s = .fault .illFormed := by
  cases c with
  | setupReadDone | entryReadDone | sweepSet => exact if_neg (Bool.eq_false_iff.1 illFormed)
  | _ => cases illFormed

/-- Settles O3: each row is taken or acts at once, and none of them reaches the queue. -/
theorem everyCommandAnswers : Obligations.EveryCommandAnswers :=
  fun _ s => ⟨fun formed => exec_answers formed s, fun illFormed => exec_illFormed illFormed s⟩

end Sys2Proof.Machine
end
